-- ==== Sys2Proof/Word.lean ====
section
/-! DEFINITION. The word types of the block and the pair that holds a register file of two elements
(10_state.md R17 to R28, 20_memory.md R37). -/

namespace Sys2Proof

/-- A command word, a status word or a word of the output buffer: 32 bits (R37). -/
abbrev Word := BitVec 32

/-- A CV, a sample, a velocity or a staging entry: an unsigned 16-bit value (10_state.md, preamble). -/
abbrev U16 := BitVec 16

/-- A register file of exactly two elements, indexed by one bit (PERIOD[h], INCR[h], LFO[l], PENDING[h]). -/
structure Two (α : Type) where
  /-- element 0 -/
  at0 : α
  /-- element 1 -/
  at1 : α
deriving DecidableEq, Repr

/-- `REG[h]` (R6). -/
def Two.get {α : Type} (t : Two α) (h : Bool) : α := if h then t.at1 else t.at0

/-- `REG[h] <- x` (R6). -/
def Two.set {α : Type} (t : Two α) (h : Bool) (x : α) : Two α :=
  if h then { t with at1 := x } else { t with at0 := x }

end Sys2Proof
end

