-- ==== Sys2Proof/Config.lean ====
section
/-! DEFINITION. What an implementation of the block fixes (00_scope.md R4): the scalar parameters, the
OPEN functions and tables as constants without a body, and the free order of the agents' steps (R9). -/

namespace Sys2Proof

/-- The scalar parameters of R4. A state carries one `Config`, no step writes it, and every statement
about a state is a statement about all of them. -/
structure Config where
  /-- N_VOICES, 1..6 -/
  nVoices : Nat
  /-- WAVE_MAX, 2..4095 -/
  waveMax : Nat
  /-- CMD_FIFO_DEPTH, 1..255 -/
  fifoDepth : Nat
  /-- CMD_BUDGET, at least 1 -/
  cmdBudget : Nat
  /-- HALF_LEN, at least 1 -/
  halfLen : Nat
  /-- VCLK, a u32 of at least 1 (OPEN) -/
  vclk : Nat
  /-- OSC_TICK, a u32 of at least 1 (OPEN) -/
  oscTick : Nat
  /-- OSC_MAX_INCR, 1..65535 (OPEN) -/
  oscMaxIncr : Nat
deriving DecidableEq, Repr

/-- The ranges R4 gives the scalar parameters. -/
abbrev Config.wf (c : Config) : Prop :=
  (1 ≤ c.nVoices ∧ c.nVoices ≤ 6) ∧ (2 ≤ c.waveMax ∧ c.waveMax ≤ 4095) ∧
  (1 ≤ c.fifoDepth ∧ c.fifoDepth ≤ 255) ∧ 1 ≤ c.cmdBudget ∧ 1 ≤ c.halfLen ∧
  (1 ≤ c.vclk ∧ c.vclk < 2 ^ 32) ∧ (1 ≤ c.oscTick ∧ c.oscTick < 2 ^ 32) ∧
  (1 ≤ c.oscMaxIncr ∧ c.oscMaxIncr ≤ 65535)

/-- VCLK is OPEN in R4: a free value (log 1). -/
opaque Config.openVclk : BitVec 32
/-- OSC_TICK is OPEN in R4: a free value (log 1). -/
opaque Config.openOscTick : BitVec 32
/-- OSC_MAX_INCR is OPEN in R4: a free value (log 1). -/
opaque Config.openOscMaxIncr : BitVec 16

/-- R4's defaults. The three OPEN scalars are free values brought into R4's ranges, so that every value of
each range is some free value's (log 1). -/
def Config.default : Config where
  nVoices := 6
  waveMax := 2400
  fifoDepth := 64
  cmdBudget := 16
  halfLen := 16
  vclk := max 1 Config.openVclk.toNat
  oscTick := max 1 Config.openOscTick.toNat
  oscMaxIncr := max 1 Config.openOscMaxIncr.toNat

/-- ENV_TIME_LUT: stage time CV to phase increment, OPEN (R4, R91; log 1). -/
opaque Config.envTimeLut : U16 → BitVec 32
/-- ENV_EXP_LUT: entries 0..256 are the table, OPEN (R4, R93; log 1). R5: no other index arises. -/
opaque Config.envExpLut : Nat → U16
/-- LFO_RATE_LUT: speed CV to phase increment, OPEN (R4, R109; log 1). -/
opaque Config.lfoRateLut : U16 → BitVec 32
/-- LFO_SINE_LUT: entries 0..256 are the table, OPEN (R4, R112; log 1). R5: no other index arises. -/
opaque Config.lfoSineLut : Nat → U16
/-- OSC_OCT_LUT: entries 0..16 are the table, OPEN (R4, R119; log 1). R5: no other index arises. -/
opaque Config.oscOctLut : Nat → BitVec 32
/-- OSC_RATE_CEIL: pitch CV to rate ceiling, OPEN (R4, R119; log 1). -/
opaque Config.oscRateCeil : U16 → BitVec 32
/-- PITCH_MAP: voice and pitch in 1/256 semitone to pitch CV, OPEN (R4, R133; log 1). -/
opaque Config.pitchMap : Nat → U16 → U16

/-- One step of one of the four agents (R9). -/
inductive AgentStep where
  /-- HOST: `MemWrite(CMD:0, 32, w)` (R59) -/
  | cmdWrite (w : Word)
  /-- HOST: `MemWrite(STAGE:i, 16, v)`, i a 12-bit index (R32, R33) -/
  | stageWrite (i : BitVec 12) (v : U16)
  /-- HOST: `MemRead(STATUS:a, 32)`, a an 8-bit address (R32, R36) -/
  | statusRead (a : BitVec 8)
  /-- TIMER: one strobe (R130) -/
  | strobe
  /-- FILL: one half-buffer fill (R135) -/
  | fill
  /-- DMA: one half-buffer drain (R136) -/
  | drain
deriving DecidableEq, Repr, Inhabited

/-- The agents' steps in the order they happen where no script says it: R9 admits every order, so the
order is a free value at each position (log 2). -/
opaque Config.schedule : Nat → AgentStep

end Sys2Proof
end

