-- ==== Sys2Proof/Syntax.lean ====
section
/-! DEFINITION. The 35 commands of the block, one constructor per row of spec/opcode_table.json
(30_encoding.md R52, R55). A constructor's arguments are the row's named fields as they stand in the
word, from the most significant down. The clamps of R54 that depend on N_VOICES need the state and are
applied by Machine/Operands.lean before the command's rule runs. -/

namespace Sys2Proof

/-- The command words (R55), in the table's order. -/
inductive Instr where
  /-- R62 -/
  | nop
  /-- R75: K = w[23], NOTE = w[22:16], VEL = w[15:0] -/
  | noteOn (k : Bool) (note : BitVec 7) (vel : U16)
  /-- R80: NOTE = w[22:16] -/
  | noteOff (note : BitVec 7)
  /-- R83: V = w[18:16] -/
  | voiceDone (v : BitVec 3)
  /-- R84 -/
  | allKeysOff
  /-- R85 -/
  | panicOff
  /-- R86: PRIO = w[1:0] -/
  | setPriority (prio : BitVec 2)
  /-- R87: VMASK = w[5:0] -/
  | setVoiceMask (vmask : BitVec 6)
  /-- R88: I = w[18:16], OFS = w[7:0] -/
  | setPatternStep (idx : BitVec 3) (ofs : BitVec 8)
  /-- R89: M = w[20], LEN = w[18:16] -/
  | setPattern (mono : Bool) (len : BitVec 3)
  /-- R90: HOLD = w[0] -/
  | hold (on : Bool)
  /-- R138: VM = w[21:16], IMM = w[15:0] -/
  | bend (vm : BitVec 6) (imm : U16)
  /-- R139: VM = w[21:16], IMM = w[15:0] -/
  | pressure (vm : BitVec 6) (imm : U16)
  /-- R101: B = w[23], E = w[19:16], IMM = w[15:0] -/
  | envSetAttack (b : Bool) (e : BitVec 4) (imm : U16)
  /-- R102: as ENV_SET_ATTACK -/
  | envSetDecay (b : Bool) (e : BitVec 4) (imm : U16)
  /-- R103: as ENV_SET_ATTACK -/
  | envSetSustain (b : Bool) (e : BitVec 4) (imm : U16)
  /-- R104: as ENV_SET_ATTACK -/
  | envSetRelease (b : Bool) (e : BitVec 4) (imm : U16)
  /-- R105: as ENV_SET_ATTACK -/
  | envSetLevel (b : Bool) (e : BitVec 4) (imm : U16)
  /-- R106: B = w[23], E = w[19:16], LOOP = w[1], SHAPE = w[0] -/
  | envSetMode (b : Bool) (e : BitVec 4) (loop : Bool) (shape : Bool)
  /-- R107: B = w[23], E = w[19:16], SHIFT = w[4:0] -/
  | envSetShift (b : Bool) (e : BitVec 4) (shift : BitVec 5)
  /-- R108: B = w[23], E = w[19:16], GATE = w[0] -/
  | envGate (b : Bool) (e : BitVec 4) (gate : Bool)
  /-- R114: L = w[16], IMM = w[15:0] -/
  | lfoSetSpeed (l : Bool) (imm : U16)
  /-- R115: L = w[16], SHIFT = w[4:0] -/
  | lfoSetShift (l : Bool) (shift : BitVec 5)
  /-- R116: L = w[16], LSHAPE = w[2:0] -/
  | lfoSetShape (l : Bool) (lshape : BitVec 3)
  /-- R117: L = w[16], IMM = w[15:0] -/
  | lfoSetLevel (l : Bool) (imm : U16)
  /-- R118: L = w[16] -/
  | lfoReset (l : Bool)
  /-- R125: X = w[19], V = w[18:16], XSLOT = w[6:4], XEN = w[3], MAIN = w[2:0] -/
  | oscSetWave (x : Bool) (v : BitVec 3) (xslot : BitVec 3) (xen : Bool) (main : BitVec 3)
  /-- R126: X = w[19], V = w[18:16], TGT = w[1:0] -/
  | oscSetTarget (x : Bool) (v : BitVec 3) (tgt : BitVec 2)
  /-- R127: VMASK = w[5:0] -/
  | setSyncMask (vmask : BitVec 6)
  /-- R128: LEN12 = w[11:0] -/
  | waveSetLen (len12 : BitVec 12)
  /-- R129: S = w[18:16], VALID = w[11:0] -/
  | waveCommit (slot : BitVec 3) (valid : BitVec 12)
  /-- R140: SRC = w[21:19], DST = w[18:16], IMM = w[15:0] -/
  | modSetAmount (src : BitVec 3) (dst : BitVec 3) (imm : U16)
  /-- R141: DST = w[18:16], IMM = w[15:0] -/
  | modSetBase (dst : BitVec 3) (imm : U16)
  /-- R142: IMM = w[15:0] -/
  | setGlide (imm : U16)
  /-- R63: CLR = w[2:0] -/
  | clearFlags (clr : BitVec 3)
deriving DecidableEq, Repr

end Sys2Proof
end

