-- ==== Sys2Proof/WellFormed.lean ====
section
/-! DEFINITION. When a command's operands are all inside the ranges of 30_encoding.md R54, so that no
clamp or mask of that rule changes them. That a field fits its bits is already in its type. A command
that is not well formed is no illegal command: R54 clamps its operands and it executes (R144). -/

namespace Sys2Proof

/-- R54 `voice`: min(w[18:16], N−1) leaves the field as it is. -/
abbrev voiceInRange (n : Nat) (v : BitVec 3) : Bool := v.toNat < n

/-- R54 `vmask` and `cvmask`: AND (2^N − 1) leaves the field as it is. -/
abbrev maskInRange (n : Nat) (m : BitVec 6) : Bool := m.toNat < 2 ^ n

/-- R54 `envset`: with B = 0 the envelope exists; with B = 1 the E bits that are ignored are 0. -/
abbrev envInRange (n : Nat) (b : Bool) (e : BitVec 4) : Bool :=
  if b then e.toNat < 2 else e.toNat < 2 * n

/-- No clamp or mask of R54 changes an operand of the command, with N_VOICES = n. -/
def Instr.wellFormed (n : Nat) : Instr → Bool
  | .nop => true
  | .noteOn _ _ _ => true
  | .noteOff _ => true
  | .voiceDone v => voiceInRange n v
  | .allKeysOff => true
  | .panicOff => true
  | .setPriority prio => prio.toNat ≤ 2
  | .setVoiceMask vmask => maskInRange n vmask
  | .setPatternStep idx _ => voiceInRange n idx
  | .setPattern _ len => 1 ≤ len.toNat && decide (len.toNat ≤ n)
  | .hold _ => true
  | .bend vm _ => maskInRange n vm
  | .pressure vm _ => maskInRange n vm
  | .envSetAttack b e _ => envInRange n b e
  | .envSetDecay b e _ => envInRange n b e
  | .envSetSustain b e _ => envInRange n b e
  | .envSetRelease b e _ => envInRange n b e
  | .envSetLevel b e _ => envInRange n b e
  | .envSetMode b e _ _ => envInRange n b e
  | .envSetShift b e _ => envInRange n b e
  | .envGate b e _ => envInRange n b e
  | .lfoSetSpeed _ _ => true
  | .lfoSetShift _ _ => true
  | .lfoSetShape _ lshape => lshape.toNat ≤ 6
  | .lfoSetLevel _ _ => true
  | .lfoReset _ => true
  | .oscSetWave _ v _ _ _ => voiceInRange n v
  | .oscSetTarget _ v _ => voiceInRange n v
  | .setSyncMask vmask => maskInRange n vmask
  | .waveSetLen _ => true
  | .waveCommit _ _ => true
  | .modSetAmount _ dst _ => dst.toNat ≤ 6
  | .modSetBase dst _ => dst.toNat ≤ 6
  | .setGlide _ => true
  | .clearFlags _ => true

end Sys2Proof
end

