-- ==== Sys2Proof/Decode.lean ====
section
/-! DEFINITION. The decoder and the encoder of the command words (30_encoding.md R51 to R56), both
written from the opcode map of R55 and the field columns of spec/opcode_table.json. A word is one
location of the CMD port: it has no bytes and no byte order (20_memory.md R37). -/

namespace Sys2Proof

/-- `w[lo+len−1 : lo]` (R6). -/
def field (w : Word) (lo len : Nat) : BitVec len := w.extractLsb' lo len

/-- `w[i]` (R6). -/
def bit (w : Word) (i : Nat) : Bool := w.getLsbD i

/-- OP = w[31:26] (R51). -/
def opOf (w : Word) : BitVec 6 := field w 26 6

/-- Why a word is no command of R55. -/
inductive Illegal where
  /-- OP is one of the unassigned opcodes of R56; the word is an illegal command (R64) -/
  | unassigned (op : BitVec 6)
deriving DecidableEq, Repr

/-- Reads a command word (R55). Reserved bits are not looked at (R53). An unassigned OP is rejected with
its opcode (R56). -/
def decode (w : Word) : Except Illegal Instr :=
  match (opOf w).toNat with
  | 0x00 => .ok .nop
  | 0x01 => .ok (.noteOn (bit w 23) (field w 16 7) (field w 0 16))
  | 0x02 => .ok (.noteOff (field w 16 7))
  | 0x03 => .ok (.voiceDone (field w 16 3))
  | 0x04 => .ok .allKeysOff
  | 0x05 => .ok .panicOff
  | 0x06 => .ok (.setPriority (field w 0 2))
  | 0x07 => .ok (.setVoiceMask (field w 0 6))
  | 0x08 => .ok (.setPatternStep (field w 16 3) (field w 0 8))
  | 0x09 => .ok (.setPattern (bit w 20) (field w 16 3))
  | 0x0A => .ok (.hold (bit w 0))
  | 0x0B => .ok (.bend (field w 16 6) (field w 0 16))
  | 0x0C => .ok (.pressure (field w 16 6) (field w 0 16))
  | 0x10 => .ok (.envSetAttack (bit w 23) (field w 16 4) (field w 0 16))
  | 0x11 => .ok (.envSetDecay (bit w 23) (field w 16 4) (field w 0 16))
  | 0x12 => .ok (.envSetSustain (bit w 23) (field w 16 4) (field w 0 16))
  | 0x13 => .ok (.envSetRelease (bit w 23) (field w 16 4) (field w 0 16))
  | 0x14 => .ok (.envSetLevel (bit w 23) (field w 16 4) (field w 0 16))
  | 0x15 => .ok (.envSetMode (bit w 23) (field w 16 4) (bit w 1) (bit w 0))
  | 0x16 => .ok (.envSetShift (bit w 23) (field w 16 4) (field w 0 5))
  | 0x17 => .ok (.envGate (bit w 23) (field w 16 4) (bit w 0))
  | 0x20 => .ok (.lfoSetSpeed (bit w 16) (field w 0 16))
  | 0x21 => .ok (.lfoSetShift (bit w 16) (field w 0 5))
  | 0x22 => .ok (.lfoSetShape (bit w 16) (field w 0 3))
  | 0x23 => .ok (.lfoSetLevel (bit w 16) (field w 0 16))
  | 0x24 => .ok (.lfoReset (bit w 16))
  | 0x30 => .ok (.oscSetWave (bit w 19) (field w 16 3) (field w 4 3) (bit w 3) (field w 0 3))
  | 0x31 => .ok (.oscSetTarget (bit w 19) (field w 16 3) (field w 0 2))
  | 0x32 => .ok (.setSyncMask (field w 0 6))
  | 0x33 => .ok (.waveSetLen (field w 0 12))
  | 0x34 => .ok (.waveCommit (field w 16 3) (field w 0 12))
  | 0x38 => .ok (.modSetAmount (field w 19 3) (field w 16 3) (field w 0 16))
  | 0x39 => .ok (.modSetBase (field w 16 3) (field w 0 16))
  | 0x3A => .ok (.setGlide (field w 0 16))
  | 0x3E => .ok (.clearFlags (field w 0 3))
  | _ => .error (.unassigned (opOf w))

/-- A field with its least significant bit at bit `lo`. -/
def fieldAt {len : Nat} (lo : Nat) (x : BitVec len) : Word := x.setWidth 32 <<< lo

/-- OP in bits 31..26 (R51). -/
def opAt (op : BitVec 6) : Word := fieldAt 26 op

/-- A one-bit field at bit `lo`. -/
def bitAt (lo : Nat) (b : Bool) : Word := fieldAt lo (BitVec.ofBool b)

/-- The word of a command, its reserved bits 0 (R52, R55). -/
def encode : Instr → Word
  | .nop => opAt 0x00
  | .noteOn k note vel => opAt 0x01 ||| bitAt 23 k ||| fieldAt 16 note ||| fieldAt 0 vel
  | .noteOff note => opAt 0x02 ||| fieldAt 16 note
  | .voiceDone v => opAt 0x03 ||| fieldAt 16 v
  | .allKeysOff => opAt 0x04
  | .panicOff => opAt 0x05
  | .setPriority prio => opAt 0x06 ||| fieldAt 0 prio
  | .setVoiceMask vmask => opAt 0x07 ||| fieldAt 0 vmask
  | .setPatternStep idx ofs => opAt 0x08 ||| fieldAt 16 idx ||| fieldAt 0 ofs
  | .setPattern mono len => opAt 0x09 ||| bitAt 20 mono ||| fieldAt 16 len
  | .hold on => opAt 0x0A ||| bitAt 0 on
  | .bend vm imm => opAt 0x0B ||| fieldAt 16 vm ||| fieldAt 0 imm
  | .pressure vm imm => opAt 0x0C ||| fieldAt 16 vm ||| fieldAt 0 imm
  | .envSetAttack b e imm => opAt 0x10 ||| bitAt 23 b ||| fieldAt 16 e ||| fieldAt 0 imm
  | .envSetDecay b e imm => opAt 0x11 ||| bitAt 23 b ||| fieldAt 16 e ||| fieldAt 0 imm
  | .envSetSustain b e imm => opAt 0x12 ||| bitAt 23 b ||| fieldAt 16 e ||| fieldAt 0 imm
  | .envSetRelease b e imm => opAt 0x13 ||| bitAt 23 b ||| fieldAt 16 e ||| fieldAt 0 imm
  | .envSetLevel b e imm => opAt 0x14 ||| bitAt 23 b ||| fieldAt 16 e ||| fieldAt 0 imm
  | .envSetMode b e loop shape => opAt 0x15 ||| bitAt 23 b ||| fieldAt 16 e ||| bitAt 1 loop ||| bitAt 0 shape
  | .envSetShift b e shift => opAt 0x16 ||| bitAt 23 b ||| fieldAt 16 e ||| fieldAt 0 shift
  | .envGate b e gate => opAt 0x17 ||| bitAt 23 b ||| fieldAt 16 e ||| bitAt 0 gate
  | .lfoSetSpeed l imm => opAt 0x20 ||| bitAt 16 l ||| fieldAt 0 imm
  | .lfoSetShift l shift => opAt 0x21 ||| bitAt 16 l ||| fieldAt 0 shift
  | .lfoSetShape l lshape => opAt 0x22 ||| bitAt 16 l ||| fieldAt 0 lshape
  | .lfoSetLevel l imm => opAt 0x23 ||| bitAt 16 l ||| fieldAt 0 imm
  | .lfoReset l => opAt 0x24 ||| bitAt 16 l
  | .oscSetWave x v xslot xen main => opAt 0x30 ||| bitAt 19 x ||| fieldAt 16 v ||| fieldAt 4 xslot ||| bitAt 3 xen ||| fieldAt 0 main
  | .oscSetTarget x v tgt => opAt 0x31 ||| bitAt 19 x ||| fieldAt 16 v ||| fieldAt 0 tgt
  | .setSyncMask vmask => opAt 0x32 ||| fieldAt 0 vmask
  | .waveSetLen len12 => opAt 0x33 ||| fieldAt 0 len12
  | .waveCommit slot valid => opAt 0x34 ||| fieldAt 16 slot ||| fieldAt 0 valid
  | .modSetAmount src dst imm => opAt 0x38 ||| fieldAt 19 src ||| fieldAt 16 dst ||| fieldAt 0 imm
  | .modSetBase dst imm => opAt 0x39 ||| fieldAt 16 dst ||| fieldAt 0 imm
  | .setGlide imm => opAt 0x3A ||| fieldAt 0 imm
  | .clearFlags clr => opAt 0x3E ||| fieldAt 0 clr

/-- The OP of a command (R55, column OP). -/
def opcode : Instr → BitVec 6
  | .nop => 0x00
  | .noteOn _ _ _ => 0x01
  | .noteOff _ => 0x02
  | .voiceDone _ => 0x03
  | .allKeysOff => 0x04
  | .panicOff => 0x05
  | .setPriority _ => 0x06
  | .setVoiceMask _ => 0x07
  | .setPatternStep _ _ => 0x08
  | .setPattern _ _ => 0x09
  | .hold _ => 0x0A
  | .bend _ _ => 0x0B
  | .pressure _ _ => 0x0C
  | .envSetAttack _ _ _ => 0x10
  | .envSetDecay _ _ _ => 0x11
  | .envSetSustain _ _ _ => 0x12
  | .envSetRelease _ _ _ => 0x13
  | .envSetLevel _ _ _ => 0x14
  | .envSetMode _ _ _ _ => 0x15
  | .envSetShift _ _ _ => 0x16
  | .envGate _ _ _ => 0x17
  | .lfoSetSpeed _ _ => 0x20
  | .lfoSetShift _ _ => 0x21
  | .lfoSetShape _ _ => 0x22
  | .lfoSetLevel _ _ => 0x23
  | .lfoReset _ => 0x24
  | .oscSetWave _ _ _ _ _ => 0x30
  | .oscSetTarget _ _ _ => 0x31
  | .setSyncMask _ => 0x32
  | .waveSetLen _ => 0x33
  | .waveCommit _ _ => 0x34
  | .modSetAmount _ _ _ => 0x38
  | .modSetBase _ _ => 0x39
  | .setGlide _ => 0x3A
  | .clearFlags _ => 0x3E

/-- The bits of a command word that its row names: OP and the row's fields (R52, R55). Every other bit of
the word is reserved (R53). An unassigned opcode names its OP bits only. -/
def namedBits (op : BitVec 6) : Word :=
  match op.toNat with
  | 0x00 => 0xFC000000
  | 0x01 => 0xFCFFFFFF
  | 0x02 => 0xFC7F0000
  | 0x03 => 0xFC070000
  | 0x04 => 0xFC000000
  | 0x05 => 0xFC000000
  | 0x06 => 0xFC000003
  | 0x07 => 0xFC00003F
  | 0x08 => 0xFC0700FF
  | 0x09 => 0xFC170000
  | 0x0A => 0xFC000001
  | 0x0B => 0xFC3FFFFF
  | 0x0C => 0xFC3FFFFF
  | 0x10 => 0xFC8FFFFF
  | 0x11 => 0xFC8FFFFF
  | 0x12 => 0xFC8FFFFF
  | 0x13 => 0xFC8FFFFF
  | 0x14 => 0xFC8FFFFF
  | 0x15 => 0xFC8F0003
  | 0x16 => 0xFC8F001F
  | 0x17 => 0xFC8F0001
  | 0x20 => 0xFC01FFFF
  | 0x21 => 0xFC01001F
  | 0x22 => 0xFC010007
  | 0x23 => 0xFC01FFFF
  | 0x24 => 0xFC010000
  | 0x30 => 0xFC0F007F
  | 0x31 => 0xFC0F0003
  | 0x32 => 0xFC00003F
  | 0x33 => 0xFC000FFF
  | 0x34 => 0xFC070FFF
  | 0x38 => 0xFC3FFFFF
  | 0x39 => 0xFC07FFFF
  | 0x3A => 0xFC00FFFF
  | 0x3E => 0xFC000007
  | _ => 0xFC000000

/-- The instruction the decoder reads from a table row's bits. The table numbers the bits of one 32-bit
word, as R51 does; bits from `nbits` up are 0. -/
def decodeTableWord (nbits w : Nat) : Option Instr :=
  match decode (BitVec.ofNat 32 (w % 2 ^ nbits)) with
  | .ok i => some i
  | .error _ => none

end Sys2Proof
end

