-- ==== Sys2Proof/Machine/State.lean ====
section
/-! DEFINITION. The state of the block (10_state.md R15 to R29), its reset value (70_reset_and_hazards.md
R155) and the ways a step can stop. A register whose legal values are a set of names is an inductive type
with one constructor per legal value; its encoding is given where a status word shows it. -/

namespace Sys2Proof.Machine

/-- A sparse memory: (location index, value) pairs, the locations not listed holding a default that the
operations take as an argument. The canonical form is `Memory.wf`. -/
abbrev Memory (w : Nat) := List (Nat × BitVec w)

/-- The canonical form: indices strictly rising and no entry equal to the default, so that equal
memories are equal lists. -/
abbrev Memory.wf {w : Nat} (dflt : BitVec w) (m : Memory w) : Prop :=
  m.Pairwise (fun c d => c.1 < d.1) ∧ ∀ c ∈ m, c.2 ≠ dflt

/-- ENV[e].STAGE (R22). -/
inductive Stage where
  | wait | attack | decay | sustain | release | done
deriving DecidableEq, Repr

/-- PRIORITY (R19). -/
inductive Priority where
  | last | low | high
deriving DecidableEq, Repr

/-- LFO[l].SHAPE (R23). -/
inductive LfoShape where
  | tri | sine | saw | rsaw | square | random | noise
deriving DecidableEq, Repr

/-- OSC[o].TGT, the WaveMod target (R24). -/
inductive Target where
  | aliasing | width | freqRatio | crossover
deriving DecidableEq, Repr

/-- The kinds of an assigner event (R29). -/
inductive EvtKind where
  | gateOn | gateOff | stolenOff
deriving DecidableEq, Repr

/-- A record of the assigner event trace EVT (R29). -/
structure Evt where
  kind : EvtKind
  voice : Nat
  note : BitVec 7
  velocity : U16
  legato : Bool
  kbd : Bool
deriving DecidableEq, Repr

/-- A voice record VOICE[v] (R21). -/
structure Voice where
  assigned : Bool
  gated : Bool
  keyPressed : Bool
  fromKeyboard : Bool
  legato : Bool
  note : BitVec 7
  rootNote : BitVec 7
  velocity : U16
  ts : BitVec 32
deriving DecidableEq, Repr

/-- R21, column "reset". -/
def Voice.reset : Voice := ⟨false, false, false, false, false, 0, 0, 0, 0⟩

/-- An envelope ENV[e] (R22). -/
structure Env where
  stage : Stage
  phase : BitVec 24
  add : U16
  /-- MUL, 17 bits, two's complement -/
  mul : BitVec 17
  output : U16
  atkCv : U16
  decCv : U16
  susCv : U16
  relCv : U16
  level : U16
  /-- SHAPE: false = linear, true = exponential -/
  shape : Bool
  loop : Bool
  shift : BitVec 5
  incA : BitVec 32
  incD : BitVec 32
  incR : BitVec 32
deriving DecidableEq, Repr

/-- R22, column "reset"; INC_A = INC_D = INC_R = ENV_TIME_LUT(0) (R155). -/
def Env.reset : Env where
  stage := .wait
  phase := 0
  add := 0
  mul := 0
  output := 0
  atkCv := 0
  decCv := 0
  susCv := 0
  relCv := 0
  level := 0
  shape := false
  loop := false
  shift := 0
  incA := Config.envTimeLut 0
  incD := Config.envTimeLut 0
  incR := Config.envTimeLut 0

/-- An LFO LFO[l] (R23). -/
structure Lfo where
  phase : BitVec 24
  half : Bool
  inc : BitVec 32
  shape : LfoShape
  level : U16
  speedStg : U16
  shiftStg : BitVec 5
  shapeStg : LfoShape
  levelStg : U16
  lfsr : BitVec 32
  /-- RANDVAL, s16 -/
  randVal : BitVec 16
  /-- RAW, 17 bits, two's complement -/
  raw : BitVec 17
  /-- OUTPUT, s16 -/
  output : BitVec 16
deriving DecidableEq, Repr

/-- R23, column "reset", with the LFSR's seed. -/
def Lfo.reset (seed : BitVec 32) : Lfo where
  phase := 0
  half := false
  inc := 0
  shape := .tri
  level := 0
  speedStg := 0
  shiftStg := 0
  shapeStg := .tri
  levelStg := 0
  lfsr := seed
  randVal := 0
  raw := 0
  output := 0

/-- An oscillator OSC[o] (R24). -/
structure Osc where
  main : BitVec 3
  xen : Bool
  xslot : BitVec 3
  tgt : Target
  phase : BitVec 12
  /-- COUNTER, 32 bits, two's complement -/
  counter : BitVec 32
  period : Two (BitVec 31)
  incr : Two (BitVec 16)
  half : Bool
  prev : U16
  curr : U16
  raw : Bool
  xamt : U16
  lastPer : BitVec 31
deriving DecidableEq, Repr

/-- R24, column "reset". -/
def Osc.reset : Osc where
  main := 0
  xen := false
  xslot := 0
  tgt := .aliasing
  phase := 0
  counter := 0
  period := ⟨0x7FFFFFFF, 0x7FFFFFFF⟩
  incr := ⟨1, 1⟩
  half := false
  prev := 0x8000
  curr := 0x8000
  raw := false
  xamt := 0
  lastPer := 1

/-- What a sample of a waveform slot reads as where nothing else was committed (R25). -/
def slotDefault : U16 := 0x8000

/-- A waveform slot SLOT[s] (R25): its length and its samples, a memory with default 0x8000. -/
structure Slot where
  len : BitVec 12
  data : Memory 16
deriving DecidableEq, Repr

/-- R25: LEN 2 and every sample 0x8000. -/
def Slot.reset : Slot := ⟨2, []⟩

/-- A host access in a direction its space does not have (20_memory.md R32, 93 I20). -/
inductive NoAccess where
  /-- a host read of CMD -/
  | readCmd
  /-- a host read of STAGE -/
  | readStage
  /-- a host write of STATUS -/
  | writeStatus
  /-- a host access to SLOT -/
  | accessSlot
  /-- a host access to BUF -/
  | accessBuf
deriving DecidableEq, Repr

/-- What the world outside the block does next. -/
inductive Event where
  /-- a step of one of the four agents (R9) -/
  | agent (a : AgentStep)
  /-- an access the host agent does not have (R32) -/
  | noAccess (x : NoAccess)
deriving DecidableEq, Repr

/-- The state of the block. Every field is plain data. -/
structure State where
  /-- the parameters of 00_scope.md R4; no step writes them (log 1) -/
  cfg : Config
  /-- CMD_OVF (R17, R18) -/
  cmdOvf : Bool
  /-- OVERRUN (R17, R18) -/
  overrun : Bool
  /-- BADCMD (R17, R18) -/
  badCmd : Bool
  /-- TPHASE (R16, R17) -/
  tphase : BitVec 3
  /-- TS (R17) -/
  ts : BitVec 32
  /-- CMD_COUNT (R17) -/
  cmdCount : BitVec 32
  /-- FIFO, the head first (R17) -/
  fifo : List Word
  /-- VOICE_MASK (R19); the bits from N up are 0 -/
  voiceMask : BitVec 6
  /-- PRIORITY (R19) -/
  priority : Priority
  /-- MONO (R19) -/
  mono : Bool
  /-- HOLD (R19) -/
  hold : Bool
  /-- PLEN (R19) -/
  plen : BitVec 3
  /-- OFFSETS[0..5], two's complement (R19) -/
  offsets : List (BitVec 8)
  /-- OFFSETS_STG[0..5], two's complement (R19) -/
  offsetsStg : List (BitVec 8)
  /-- NOTE_HELD (R20) -/
  noteHeld : BitVec 128
  /-- VOICE[0..N−1] (R21) -/
  voices : List Voice
  /-- ENV[0..2N−1] (R22) -/
  envs : List Env
  /-- LFO[0..1] (R23) -/
  lfos : Two Lfo
  /-- OSC[0..2N−1] (R24) -/
  oscs : List Osc
  /-- SLOT[0..7] (R25) -/
  slots : List Slot
  /-- STAGING, a memory with default 0 (R25, R33) -/
  staging : Memory 16
  /-- WAVE_LEN_STG (R25) -/
  waveLenStg : BitVec 12
  /-- AMT[d][s] at 8d + s, each read as s16 (R26) -/
  amt : List (BitVec 16)
  /-- BASE[0..6] (R26) -/
  base : List U16
  /-- GLIDE (R26) -/
  glide : U16
  /-- PB[0..N−1] (R26) -/
  pb : List U16
  /-- TB[0..N−1] (R26) -/
  tb : List U16
  /-- BEND[0..N−1], s16 (R26) -/
  bend : List (BitVec 16)
  /-- PRESSURE[0..N−1] (R26) -/
  pressure : List U16
  /-- CV_OUT[v][d] at the channel 7v + d (R26, R36) -/
  cvOut : List U16
  /-- SYNC_STAGED (R27); the bits from N up are 0 -/
  syncStaged : BitVec 6
  /-- SYNC_ACTIVE (R27); the bits from N up are 0 -/
  syncActive : BitVec 6
  /-- BUF, a memory with default 0; BUF[h][s][w] at `bufAddr` (R28) -/
  buf : Memory 32
  /-- PENDING[h] (R28) -/
  pending : Two Bool
  /-- FILL_PTR (R28) -/
  fillPtr : Bool
  /-- DMA_PTR (R28) -/
  dmaPtr : Bool
  /-- RR (R28) -/
  rr : BitVec 6
  /-- EVT, oldest record first (R29) -/
  evt : List Evt
  /-- DAC, oldest half-buffer first; a half-buffer is its slots, a slot its 2N + 1 words (R29) -/
  dac : List (List (List Word))
  /-- the MODEL's own: what the outside world does next (log 2) -/
  script : List Event
  /-- the MODEL's own: how many steps were taken from `Config.schedule` (log 2) -/
  schedPos : Nat
  /-- the MODEL's own: the address and the word of each status read, oldest first (log 3) -/
  reads : List (BitVec 8 × Word)
deriving DecidableEq, Repr

/-- The state right after reset under the parameters `c` (R155): every element at the reset value of its
row in 10_state.md. The model's own fields start empty (logs 2 and 3). -/
def State.resetWith (c : Config) : State where
  cfg := c
  cmdOvf := false
  overrun := false
  badCmd := false
  tphase := 0
  ts := 0
  cmdCount := 0
  fifo := []
  voiceMask := BitVec.ofNat 6 (2 ^ c.nVoices - 1)
  priority := .last
  mono := false
  hold := false
  plen := 1
  offsets := List.replicate 6 0
  offsetsStg := List.replicate 6 0
  noteHeld := 0
  voices := List.replicate c.nVoices Voice.reset
  envs := List.replicate (2 * c.nVoices) Env.reset
  lfos := ⟨Lfo.reset 1, Lfo.reset 2⟩
  oscs := List.replicate (2 * c.nVoices) Osc.reset
  slots := List.replicate 8 Slot.reset
  staging := []
  waveLenStg := 0
  amt := List.replicate 56 0
  base := List.replicate 7 0
  glide := 0
  pb := List.replicate c.nVoices 0
  tb := List.replicate c.nVoices 0
  bend := List.replicate c.nVoices 0
  pressure := List.replicate c.nVoices 0
  cvOut := List.replicate (7 * c.nVoices) 0
  syncStaged := 0
  syncActive := 0
  buf := []
  pending := ⟨true, true⟩
  fillPtr := false
  dmaPtr := false
  rr := 0
  evt := []
  dac := []
  script := []
  schedPos := 0
  reads := []

/-- The machine right after reset, with the parameters' defaults of R4 (log 1). -/
def State.reset : State := State.resetWith Config.default

/-- The faults of the machine: none. "The block raises no exception and takes no trap" (60_exceptions.md
R143); every error condition is handled in the step where it arises (R144). An empty type, so that no
step can answer a fault: nobody raises one, and there is nothing to be safe or unsafe about. -/
inductive Fault where
deriving DecidableEq, Repr

/-- The refusals of the machine. -/
inductive Refusal where
  /-- Raised by `exec` for an instruction that has no meaning yet; no arm of this model does. Safe: the
  model stops where the hardware goes on. -/
  | notModelled (mnemonic : String)
  /-- Raised by `step` for a host access in a direction its space does not have. "The model refuses such
  an access: it is not a step" (20_memory.md R32). Safe: no such step exists on the hardware. -/
  | noSuchAccess (x : NoAccess)
deriving DecidableEq, Repr

/-- What one step or one command answers. -/
abbrev Result := Host.Outcome State Fault Refusal

end Sys2Proof.Machine
end

