-- ==== Sys2Proof/Machine/Ops.lean ====
section
/-! DEFINITION. The shared operations: arithmetic of 00_scope.md R7, the memories STAGING, SLOT and BUF
(20_memory.md R32, R33; 10_state.md R25, R28), and reading and writing the register files (R6).

The block takes no exception and returns from none (60_exceptions.md R143, R147, R148): there is no
operation for either. What the source's error handling leaves is the sticky flags (Flags.lean). -/

namespace Sys2Proof.Machine

/-! ## Arithmetic (R7) -/

/-- `clamp(x, lo, hi) = min(max(x, lo), hi)`. -/
def clampInt (x lo hi : Int) : Int := min (max x lo) hi

/-- `clamp` on natural numbers. -/
def clampNat (x lo hi : Nat) : Nat := min (max x lo) hi

/-- `sat16(x) = clamp(x, 0, 65535)`, stored in a u16. -/
def sat16 (x : Int) : U16 := BitVec.ofNat 16 (clampInt x 0 65535).toNat

/-- `ceil_div(a, b)`, the least integer at least a/b, for b > 0. -/
def ceilDiv (a b : Nat) : Nat := (a + b - 1) / b

/-! ## Sparse memories -/

/-- The value at index `a`; `dflt` where nothing is listed. -/
def Memory.read {w : Nat} (dflt : BitVec w) : Memory w → Nat → BitVec w
  | [], _ => dflt
  | (b, u) :: rest, a => if a = b then u else Memory.read dflt rest a

/-- Puts `v` at index `a`, keeping the canonical form: the default removes the entry. -/
def Memory.write {w : Nat} (dflt : BitVec w) : Memory w → Nat → BitVec w → Memory w
  | [], a, v => if v = dflt then [] else [(a, v)]
  | (b, u) :: rest, a, v =>
    if a < b then (if v = dflt then (b, u) :: rest else (a, v) :: (b, u) :: rest)
    else if a = b then (if v = dflt then rest else (a, v) :: rest)
    else (b, u) :: Memory.write dflt rest a v

/-- The memory whose index i < n holds `f i` and whose other indices hold the default. -/
def Memory.ofFn {w : Nat} (dflt : BitVec w) (n : Nat) (f : Nat → BitVec w) : Memory w :=
  (List.range n).filterMap fun i => if f i = dflt then none else some (i, f i)

/-- STAGING[i] (R25). -/
def State.readStaging (s : State) (i : Nat) : U16 := Memory.read 0 s.staging i

/-- SLOT[k] (R25). -/
def slotOf (slots : List Slot) (k : Nat) : Slot := slots.getD k Slot.reset

/-- SLOT[k].DATA[i] (R25). -/
def Slot.read (x : Slot) (i : Nat) : U16 := Memory.read slotDefault x.data i

/-- SLOT[k].DATA[i] (R25). -/
def State.readSlot (s : State) (k i : Nat) : U16 := (slotOf s.slots k).read i

/-- The index of BUF[h][sl][w] in the output buffer (R28): halves of HALF_LEN slots of 2N + 1 words. -/
def bufAddr (c : Config) (h : Bool) (sl w : Nat) : Nat :=
  (h.toNat * c.halfLen + sl) * (2 * c.nVoices + 1) + w

/-- BUF[h][sl][w] (R28). -/
def State.readBuf (s : State) (h : Bool) (sl w : Nat) : Word :=
  Memory.read 0 s.buf (bufAddr s.cfg h sl w)

/-- BUF[h][sl][w] <- x (R28). -/
def State.writeBuf (s : State) (h : Bool) (sl w : Nat) (x : Word) : State :=
  { s with buf := Memory.write 0 s.buf (bufAddr s.cfg h sl w) x }

/-- `MemWrite(STAGE:i, 16, v)` (R33): no effect at WAVE_MAX and above. -/
def stageWrite (i : BitVec 12) (v : U16) (s : State) : State :=
  if i.toNat < s.cfg.waveMax then { s with staging := Memory.write 0 s.staging i.toNat v } else s

/-! ## Register files (R6)

A read outside a file gives the element's reset value and a write outside it changes nothing; every rule
computes an index inside its file (R5, R54), so neither arises where the files have their sizes (R12). -/

/-- VOICE[v]. -/
def State.voice (s : State) (v : Nat) : Voice := s.voices.getD v Voice.reset

/-- Changes VOICE[v]. -/
def State.modVoice (s : State) (v : Nat) (f : Voice → Voice) : State :=
  { s with voices := s.voices.modify v f }

/-- ENV[e]. -/
def State.env (s : State) (e : Nat) : Env := s.envs.getD e Env.reset

/-- Changes ENV[e]. -/
def State.modEnv (s : State) (e : Nat) (f : Env → Env) : State :=
  { s with envs := s.envs.modify e f }

/-- LFO[l]. -/
def State.lfo (s : State) (l : Bool) : Lfo := s.lfos.get l

/-- Changes LFO[l]. -/
def State.modLfo (s : State) (l : Bool) (f : Lfo → Lfo) : State :=
  { s with lfos := s.lfos.set l (f (s.lfos.get l)) }

/-- OSC[o]. -/
def State.osc (s : State) (o : Nat) : Osc := s.oscs.getD o Osc.reset

/-- Changes OSC[o]. -/
def State.modOsc (s : State) (o : Nat) (f : Osc → Osc) : State :=
  { s with oscs := s.oscs.modify o f }

/-- SLOT[k]. -/
def State.slot (s : State) (k : Nat) : Slot := slotOf s.slots k

/-- SLOT[k] <- x. -/
def State.setSlot (s : State) (k : Nat) (x : Slot) : State := { s with slots := s.slots.set k x }

/-- OFFSETS[i] as a semitone count (R19: two's complement). -/
def State.offset (s : State) (i : Nat) : Int := (s.offsets.getD i 0).toInt

/-- AMT[d][k] as an s16 value (R26). -/
def State.amount (s : State) (d k : Nat) : Int := (s.amt.getD (8 * d + k) 0).toInt

/-- AMT[d][k] <- x. -/
def State.setAmount (s : State) (d k : Nat) (x : BitVec 16) : State :=
  { s with amt := s.amt.set (8 * d + k) x }

/-- BASE[d]. -/
def State.baseOf (s : State) (d : Nat) : U16 := s.base.getD d 0

/-- BASE[d] <- x. -/
def State.setBase (s : State) (d : Nat) (x : U16) : State := { s with base := s.base.set d x }

/-- PB[v]. -/
def State.pbOf (s : State) (v : Nat) : U16 := s.pb.getD v 0

/-- PB[v] <- x. -/
def State.setPb (s : State) (v : Nat) (x : U16) : State := { s with pb := s.pb.set v x }

/-- TB[v]. -/
def State.tbOf (s : State) (v : Nat) : U16 := s.tb.getD v 0

/-- TB[v] <- x. -/
def State.setTb (s : State) (v : Nat) (x : U16) : State := { s with tb := s.tb.set v x }

/-- BEND[v]. -/
def State.bendOf (s : State) (v : Nat) : BitVec 16 := s.bend.getD v 0

/-- BEND[v] <- x. -/
def State.setBend (s : State) (v : Nat) (x : BitVec 16) : State := { s with bend := s.bend.set v x }

/-- PRESSURE[v]. -/
def State.pressureOf (s : State) (v : Nat) : U16 := s.pressure.getD v 0

/-- PRESSURE[v] <- x. -/
def State.setPressure (s : State) (v : Nat) (x : U16) : State :=
  { s with pressure := s.pressure.set v x }

/-- CV_OUT[v][d]. -/
def State.cv (s : State) (v d : Nat) : U16 := s.cvOut.getD (7 * v + d) 0

/-- CV_OUT[v][d] <- x. -/
def State.setCv (s : State) (v d : Nat) (x : U16) : State :=
  { s with cvOut := s.cvOut.set (7 * v + d) x }

/-- NOTE_HELD[n] (R20). -/
def State.held (s : State) (n : BitVec 7) : Bool := s.noteHeld.getLsbD n.toNat

/-- NOTE_HELD[n] <- b (R20). -/
def State.setHeld (s : State) (n : BitVec 7) (b : Bool) : State :=
  { s with noteHeld := if b then s.noteHeld ||| (1#128 <<< n.toNat) else s.noteHeld &&& ~~~(1#128 <<< n.toNat) }

/-! ## Loops -/

/-- `for v in 0..n−1`, ascending. -/
def forUpTo (n : Nat) (f : Nat → State → State) (s : State) : State :=
  (List.range n).foldl (fun t v => f v t) s

/-- `for v in 0..N−1`, ascending. -/
def forVoices (f : Nat → State → State) (s : State) : State := forUpTo s.cfg.nVoices f s

/-- `for v in 0..N−1: if m[v] = 1`, ascending (R138, R139). -/
def forMask (m : BitVec 6) (f : Nat → State → State) (s : State) : State :=
  forVoices (fun v t => if m.getLsbD v then f v t else t) s

end Sys2Proof.Machine
end

