-- ==== Sys2Proof/Machine/EnvelopeOps.lean ====
section
/-! DEFINITION. The envelope generator's procedures (42_envelope.md R91 to R98), each on one envelope
record; `State.modEnv` applies them to ENV[e]. -/

namespace Sys2Proof.Machine

/-- envRecompute(e) (R91). -/
def envRecompute (x : Env) : Env :=
  { x with
    incA := Config.envTimeLut x.atkCv >>> x.shift.toNat
    incD := Config.envTimeLut x.decCv >>> x.shift.toNat
    incR := Config.envTimeLut x.relCv >>> x.shift.toNat }

/-- SUS(e) = floor(SUS_CV · LEVEL / 65536) (R92). -/
def envSus (x : Env) : Nat := x.susCv.toNat * x.level.toNat / 65536

/-- The exponential shape (R93): Catmull-Rom interpolation of ENV_EXP_LUT at the phase p. -/
def envShapeExp (p : Nat) : Nat :=
  let i := p / 65536
  let t : Int := (p % 65536 : Nat)
  let p0 : Int := (Config.envExpLut (i - 1)).toNat
  let p1 : Int := (Config.envExpLut i).toNat
  let p2 : Int := (Config.envExpLut (i + 1)).toNat
  let p3 : Int := (Config.envExpLut (min (i + 2) 256)).toNat
  let num : Int := 2 * p1 * 65536 ^ 3 + (p2 - p0) * t * 65536 ^ 2
    + (2 * p0 - 5 * p1 + 4 * p2 - p3) * t ^ 2 * 65536 + (3 * p1 - p0 - 3 * p2 + p3) * t ^ 3
  (clampInt (num / (2 * 65536 ^ 3)) 0 65535).toNat

/-- shape(e, p) (R93), for p in 0..2^24−1. -/
def envShape (x : Env) (p : Nat) : Nat := if x.shape then envShapeExp p else p / 256

/-- envEnter(e, st, target) (R94): the stage starts from the current output. -/
def envEnter (st : Stage) (target : Nat) (x : Env) : Env :=
  { x with
    stage := st
    phase := 0
    add := x.output
    mul := BitVec.ofInt 17 ((target : Int) - x.output.toNat) }

/-- envSetGate(e, g) (R95). -/
def envSetGate (g : Bool) (x : Env) : Env :=
  if g then envEnter .attack x.level.toNat x else envEnter .release 0 x

/-- envForceWait(e) (R98). -/
def envForceWait (x : Env) : Env := { x with stage := .wait, phase := 0, add := 0, mul := 0, output := 0 }

/-- The phase increment of the stage X.STAGE (R97), for Attack, Decay and Release. -/
def envInc (x : Env) : Nat :=
  match x.stage with
  | .attack => x.incA.toNat
  | .decay => x.incD.toNat
  | _ => x.incR.toNat

/-- sat16(X.ADD + X.MUL), the stage target (R97). -/
def envTarget (x : Env) : U16 := sat16 ((x.add.toNat : Int) + x.mul.toInt)

/-- What the completion of the stage X.STAGE does (R97), for Attack, Decay and Release: the output is the
stage target and the next stage starts at phase 0. -/
def envComplete (x : Env) : Env :=
  let y := { x with output := envTarget x }
  match x.stage with
  | .attack => envEnter .decay (envSus y) y
  | .decay => { y with stage := .sustain, phase := 0, add := y.output, mul := 0 }
  | _ => { y with stage := .done, phase := 0, add := 0, mul := 0 }

/-- An update of a running Attack, Decay or Release (R97): the phase advances, and bit 24 of the sum
completes the stage. -/
def envRun (x : Env) : Env :=
  let p := x.phase.toNat + envInc x
  if 2 ^ 24 ≤ p then envComplete x
  else
    { x with
      phase := BitVec.ofNat 24 p
      output := sat16 ((x.add.toNat : Int) + (envShape x p : Int) * x.mul.toInt / 65536) }

/-- envUpdate(e) (R97). -/
def envUpdate (x : Env) : Env :=
  match x.stage with
  | .wait => x
  | .done => x
  | .sustain =>
    if x.loop then envEnter .attack x.level.toNat x else { x with output := BitVec.ofNat 16 (envSus x) }
  | .attack => envRun x
  | .decay => envRun x
  | .release => envRun x

/-- `for e in envset: …; envRecompute(e)` (42_envelope.md section 3), ascending. -/
def forEnvset (es : List Nat) (f : Env → Env) (s : State) : State :=
  es.foldl (fun t e => t.modEnv e (fun x => envRecompute (f x))) s

end Sys2Proof.Machine
end

