-- ==== Sys2Proof/Machine/AssignerOps.lean ====
section
/-! DEFINITION. The Voice Assigner's procedures (41_voice_assigner.md R67 to R82). -/

namespace Sys2Proof.Machine

/-- E, the enabled voices in ascending order (R67). -/
def enabledVoices (s : State) : List Nat :=
  (List.range s.cfg.nVoices).filter (fun v => s.voiceMask.getLsbD v)

/-- age(v) (R68). -/
def age (s : State) (v : Nat) : Nat := (s.ts - (s.voice v).ts).toNat

/-- oldest(C) (R68), C non-empty and ascending: the greatest age, and among equal ages the first. -/
def oldest (s : State) : List Nat → Nat
  | [] => 0
  | v :: vs => vs.foldl (fun b u => if age s b < age s u then u else b) v

/-- targets(start) (R69): the enabled voices in cyclic order from start, at most PLEN of them. -/
def targets (s : State) (start : Nat) : List Nat :=
  (((List.range s.cfg.nVoices).map (fun k => (start + k) % s.cfg.nVoices)).filter
    (fun v => s.voiceMask.getLsbD v)).take s.plen.toNat

/-- envSetGate on both envelopes of voice v (R70). -/
def gateEnvs (v : Nat) (g : Bool) (s : State) : State :=
  (s.modEnv (2 * v) (envSetGate g)).modEnv (2 * v + 1) (envSetGate g)

/-- emit(kind, v, note, vel, legato, kbd) (R70). -/
def emit (r : Evt) (s : State) : State :=
  let t := { s with evt := s.evt ++ [r] }
  match r.kind with
  | .gateOn => if r.legato then t else gateEnvs r.voice true t
  | .gateOff => gateEnvs r.voice false t
  | .stolenOff => gateEnvs r.voice false t

/-- The record of a gate-off event of kind `k` for voice v (R71, R73): its own note, velocity and
source flag, legato 0. -/
def offEvent (k : EvtKind) (v : Nat) (s : State) : Evt :=
  ⟨k, v, (s.voice v).note, (s.voice v).velocity, false, (s.voice v).fromKeyboard⟩

/-- n of R71: the root plus the pattern offset, clamped to 0..127. -/
def patternNote (s : State) (i : Nat) (root : BitVec 7) : BitVec 7 :=
  BitVec.ofNat 7 (clampInt ((root.toNat : Int) + s.offset i) 0 127).toNat

/-- One target's grant in assignPattern (R71): voice v is element i of the targets. -/
def grantVoice (root : BitVec 7) (vel : U16) (kbd legato : Bool) (v i : Nat) (s : State) : State :=
  let n := patternNote s i root
  let x := s.voice v
  let lg := legato && x.gated
  let s1 := if !s.mono && x.assigned && x.rootNote != root then emit (offEvent .stolenOff v s) s else s
  let s2 := s1.modVoice v fun _ =>
    { assigned := true, gated := true, keyPressed := true, fromKeyboard := kbd, legato := lg,
      note := n, rootNote := root, velocity := vel, ts := s.ts }
  let tb := BitVec.ofNat 16 (n.toNat * 256)
  let s3 := s2.setTb v tb
  let s4 := if !lg || s.glide == 0 then s3.setPb v tb else s3
  emit ⟨.gateOn, v, n, vel, lg, kbd⟩ s4

/-- assignPattern(start, root, vel, kbd, legato) (R71). -/
def assignPattern (start : Nat) (root : BitVec 7) (vel : U16) (kbd legato : Bool) (s : State) : State :=
  let t := (targets s start).zipIdx.foldl (fun t p => grantVoice root vel kbd legato p.1 p.2 t) s
  { t with ts := t.ts + 1 }

/-- gateOffVoice(v) (R73). -/
def gateOffVoice (v : Nat) (s : State) : State :=
  let t := s.modVoice v fun x => { x with keyPressed := false }
  if !s.hold && (s.voice v).gated then
    emit (offEvent .gateOff v t) (t.modVoice v fun x => { x with gated := false })
  else t

/-- voiceDone(v) (R74). -/
def voiceDone (v : Nat) (s : State) : State :=
  let t := s.modVoice v fun x =>
    { x with assigned := false, gated := false, keyPressed := false, legato := false }
  (t.modEnv (2 * v) envForceWait).modEnv (2 * v + 1) envForceWait

/-- The scan of R76 under LOW or HIGH, with the mid-scan update of the comparison note (R77). -/
def stealScan (s : State) (note : BitVec 7) : Option Nat :=
  ((enabledVoices s).foldl
    (fun (acc : BitVec 7 × Option Nat) v =>
      let r := (s.voice v).rootNote
      if (s.priority = .low ∧ acc.1.toNat < r.toNat) ∨ (s.priority = .high ∧ r.toNat < acc.1.toNat)
      then (r, some v) else acc)
    (note, none)).2

/-- C of R76, the first non-empty of: the enabled voices carrying the note, the free ones, the ones whose
root is no longer held. -/
def candidates (s : State) (note : BitVec 7) : List Nat :=
  let E := enabledVoices s
  let same := E.filter fun v => (s.voice v).assigned && (s.voice v).rootNote == note
  let free := E.filter fun v => !(s.voice v).assigned
  let up := E.filter fun v => !s.held (s.voice v).rootNote
  if same ≠ [] then same else if free ≠ [] then free else up

/-- The start voice of R76, if the note is not dropped. -/
def polyStart (s : State) (note : BitVec 7) : Option Nat :=
  let E := enabledVoices s
  let C := candidates s note
  if E = [] then none
  else if C ≠ [] then some (oldest s C)
  else if s.priority = .last then some (oldest s E)
  else stealScan s note

/-- noteOnPoly(note, vel, kbd) (R76). -/
def noteOnPoly (note : BitVec 7) (vel : U16) (kbd : Bool) (s : State) : State :=
  let t := s.setHeld note true
  match polyStart t note with
  | some start => assignPattern start note vel kbd false t
  | none => t

/-- Every note number, ascending. -/
def allNotes : List (BitVec 7) := (List.range 128).map (BitVec.ofNat 7)

/-- `others` of R79: the held notes but this one. -/
def otherHeld (s : State) (note : BitVec 7) : List (BitVec 7) :=
  allNotes.filter fun n => s.held n && n != note

/-- `wins` of R79. -/
def monoWins (s : State) (note : BitVec 7) : Bool :=
  match s.priority with
  | .last => true
  | .low => (otherHeld s note).all fun n => decide (note.toNat < n.toNat)
  | .high => (otherHeld s note).all fun n => decide (n.toNat < note.toNat)

/-- noteOnMono(note, vel, kbd) (R79). -/
def noteOnMono (note : BitVec 7) (vel : U16) (kbd : Bool) (s : State) : State :=
  let t := s.setHeld note true
  match enabledVoices t with
  | [] => t
  | start :: _ =>
    if monoWins s note then
      assignPattern start note vel kbd (!(otherHeld s note).isEmpty && (t.voice start).gated) t
    else t

/-- VOICE[v] is assigned and its root is the note (R81, R82). -/
def carries (s : State) (note : BitVec 7) (v : Nat) : Bool :=
  (s.voice v).assigned && (s.voice v).rootNote == note

/-- `for v in 0..N−1: if VOICE[v].assigned = 1 and VOICE[v].rootNote = note: gateOffVoice(v)` (R81, R82). -/
def gateOffRoot (note : BitVec 7) (s : State) : State :=
  forVoices (fun v t => if carries t note v then gateOffVoice v t else t) s

/-- noteOffPoly(note) (R81), whether or not the note was held (log 11). -/
def noteOffPoly (note : BitVec 7) (s : State) : State := gateOffRoot note (s.setHeld note false)

/-- cand of R82: the first held note that backs no assigned voice, scanned upward under LOW and downward
otherwise. -/
def restoreCandidate (s : State) : Option (BitVec 7) :=
  let order := if s.priority = .low then allNotes else allNotes.reverse
  order.find? fun n => s.held n && !(List.range s.cfg.nVoices).any (carries s n)

/-- noteOffMono(note) (R82). DESIGN CHOICE (log 11): R80 says that a NOTE_OFF of a note not held only clears
its bit; R82 tests no such bit, and here the restore or the gate-off runs wherever R82 runs it. -/
def noteOffMono (note : BitVec 7) (s : State) : State :=
  let t := s.setHeld note false
  if !(List.range t.cfg.nVoices).any (carries t note) then t
  else
    match restoreCandidate t, enabledVoices t with
    | some n, v :: _ => assignPattern v n (t.voice v).velocity (t.voice v).fromKeyboard false t
    | _, _ => gateOffRoot note t

/-- The release loop of HOLD 0 (R90). -/
def releaseHeld (s : State) : State :=
  forVoices (fun v t =>
    if (t.voice v).assigned && (t.voice v).gated && !(t.voice v).keyPressed then
      emit (offEvent .gateOff v t) (t.modVoice v fun x => { x with gated := false })
    else t) s

end Sys2Proof.Machine
end

