-- ==== Sys2Proof/Machine/Flags.lean ====
section
/-! DEFINITION. The sticky status flags (10_state.md R18, 60_exceptions.md R144): each is set only by the
rule named and cleared only by CLEAR_FLAGS or reset. The block has no condition codes: no command computes
a flag from its result. -/

namespace Sys2Proof.Machine

/-- CMD_OVF <- 1 (R59). -/
def raiseCmdOvf (s : State) : State := { s with cmdOvf := true }

/-- OVERRUN <- 1 (R136). -/
def raiseOverrun (s : State) : State := { s with overrun := true }

/-- BADCMD <- 1 (R64). -/
def raiseBadCmd (s : State) : State := { s with badCmd := true }

/-- CLEAR_FLAGS(clr) (R63): bit 0 clears CMD_OVF, bit 1 OVERRUN, bit 2 BADCMD. -/
def clearStickyFlags (clr : BitVec 3) (s : State) : State :=
  { s with
    cmdOvf := s.cmdOvf && !clr.getLsbD 0
    overrun := s.overrun && !clr.getLsbD 1
    badCmd := s.badCmd && !clr.getLsbD 2 }

end Sys2Proof.Machine
end

