-- ==== Sys2Proof/Machine/LfoOps.lean ====
section
/-! DEFINITION. The LFO's procedures (43_lfo.md R109 to R112), each on one LFO record. -/

namespace Sys2Proof.Machine

/-- lfoRefresh(l) (R109): the staged parameters become active. -/
def lfoRefresh (x : Lfo) : Lfo :=
  { x with
    inc := Config.lfoRateLut x.speedStg >>> x.shiftStg.toNat
    shape := x.shapeStg
    level := x.levelStg }

/-- lfsrStep(x) (R110): one step of the Galois register with mask 0xD0000001. -/
def lfsrStep (x : BitVec 32) : BitVec 32 :=
  if x.getLsbD 0 then (x >>> 1) ^^^ 0xD0000001 else x >>> 1

/-- s16(LFSR >> 16) (R111, R112): the upper half of the register. -/
def lfsrSample (x : BitVec 32) : BitVec 16 := x.extractLsb' 16 16

/-- s of the SINE row of R112: linear interpolation of LFO_SINE_LUT at the phase ph. -/
def lfoSine (ph : Nat) : Int :=
  let i := ph / 65536
  let f : Int := (ph % 65536 : Nat)
  let a : Int := (Config.lfoSineLut i).toNat
  let b : Int := (Config.lfoSineLut (i + 1)).toNat
  a + (b - a) * f / 65536

/-- lfoRaw(l) (R112), a value in −32768..32767. -/
def lfoRaw (x : Lfo) : Int :=
  let ph := x.phase.toNat
  let pos := x.half.toNat * 2 ^ 24 + ph
  match x.shape with
  | .tri => if x.half then 32767 - (ph / 256 : Nat) else (ph / 256 : Nat) - 32768
  | .sine => if x.half then -(lfoSine ph / 2) else lfoSine ph / 2
  | .saw => (pos / 512 : Nat) - 32768
  | .rsaw => 32767 - (pos / 512 : Nat)
  | .square => if x.half then -32768 else 32767
  | .random => x.randVal.toInt
  | .noise => (lfsrSample x.lfsr).toInt

/-- The phase part of lfoUpdate(l) (R111): the accumulator advances, and crossing a half-period boundary
draws a random value. -/
def lfoAdvance (x : Lfo) : Lfo :=
  let p := x.phase.toNat + x.inc.toNat
  let n := p / 2 ^ 24
  let y := { x with phase := BitVec.ofNat 24 (p % 2 ^ 24), half := if n % 2 = 1 then !x.half else x.half }
  if 0 < n then { y with lfsr := lfsrStep y.lfsr, randVal := lfsrSample (lfsrStep y.lfsr) } else y

/-- The noise part of lfoUpdate(l) (R111): one more register step per update. -/
def lfoNoise (x : Lfo) : Lfo :=
  match x.shape with
  | .noise => { x with lfsr := lfsrStep x.lfsr }
  | _ => x

/-- lfoUpdate(l) (R111). -/
def lfoUpdate (x : Lfo) : Lfo :=
  let y := lfoNoise (lfoAdvance x)
  { y with
    raw := BitVec.ofInt 17 (lfoRaw y)
    output := BitVec.ofInt 16 (lfoRaw y * y.level.toNat / 65536) }

end Sys2Proof.Machine
end

