-- ==== Sys2Proof/Machine/OscillatorOps.lean ====
section
/-! DEFINITION. The wavetable oscillator's procedures (44_oscillator.md R119 to R124), each on one
oscillator record and the waveform store, and the commit of a slot (R129). -/

namespace Sys2Proof.Machine

/-- f of R119 before the WaveMod target: the frequency of a pitch CV in Hz·2^8. -/
def oscBaseFreq (pitch : U16) : Nat :=
  let oc := pitch.toNat / 4096
  let j := pitch.toNat / 256 % 16
  let r := pitch.toNat % 256
  let a : Int := (Config.oscOctLut j).toNat
  let b : Int := (Config.oscOctLut (j + 1)).toNat
  ((a * 256 + (b - a) * r) * 2 ^ oc / 256).toNat

/-- f of R119: FREQ_RATIO raises it by the fraction amt/65536. -/
def oscFreq (t : Target) (pitch amt : U16) : Nat :=
  match t with
  | .freqRatio => oscBaseFreq pitch + oscBaseFreq pitch * amt.toNat / 65536
  | _ => oscBaseFreq pitch

/-- W of R119: half 0's share of the period in 1/65536. -/
def oscWidth (t : Target) (amt : U16) : Nat :=
  match t with
  | .width => clampNat (32768 + amt.toNat / 2) 8192 57344
  | _ => 32768

/-- ceil of R119: the rate ceiling in Hz·2^8, at least 1. -/
def oscCeil (t : Target) (pitch amt : U16) : Nat :=
  let ceil := max 1 (Config.oscRateCeil pitch).toNat
  match t with
  | .aliasing => max 1 (ceil * (65536 - amt.toNat) / 65536)
  | _ => ceil

/-- INCR[h] and PERIOD[h] of R119, from the frequency f, the slot length P, the share Wh and the ceiling. -/
def oscHalfParams (c : Config) (f P Wh ceil : Nat) : BitVec 16 × BitVec 31 :=
  if f = 0 then (1, 0x7FFFFFFF)
  else
    let d := clampNat (ceilDiv (f * P * 32768) (Wh * ceil)) 1 c.oscMaxIncr
    (BitVec.ofNat 16 d,
      BitVec.ofNat 31 (clampNat (c.vclk * 256 * d * Wh / (f * P * 32768)) 1 (2 ^ 31 - 1)))

/-- oscSetParameters(o, pitch, amt) (R119); P is the length of the oscillator's main slot. -/
def oscSetParameters (c : Config) (P : Nat) (pitch amt : U16) (x : Osc) : Osc :=
  let f := oscFreq x.tgt pitch amt
  let W := oscWidth x.tgt amt
  let ceil := oscCeil x.tgt pitch amt
  let q0 := oscHalfParams c f P W ceil
  let q1 := oscHalfParams c f P (65536 - W) ceil
  { x with
    raw := x.tgt = .aliasing && decide (0 < amt.toNat)
    xamt := if x.tgt = .crossover then amt else 0
    incr := ⟨q0.1, q1.1⟩
    period := ⟨q0.2, q1.2⟩ }

/-- P, the length of the oscillator's main slot (44_oscillator.md, preamble). -/
def oscLen (slots : List Slot) (x : Osc) : Nat := (slotOf slots x.main.toNat).len.toNat

/-- sampleAt(o, ph) (R121): the main slot's sample, blended with the crossover slot's where crossover is
enabled, its amount is not 0 and the two lengths match. -/
def sampleAt (slots : List Slot) (x : Osc) (ph : Nat) : U16 :=
  let ms := slotOf slots x.main.toNat
  let xs := slotOf slots x.xslot.toNat
  if x.xen ∧ 0 < x.xamt.toNat ∧ xs.len = ms.len then
    let m : Int := (ms.read ph).toNat
    let k : Int := (xs.read ph).toNat
    BitVec.ofInt 16 (m + (k - m) * x.xamt.toNat / 65536)
  else ms.read ph

/-- One pass of R122's loop: the active half's period is reloaded, the phase steps back by its increment
(wrapping at the sample count), and the samples are latched. Answers the counter, the wrap and the
oscillator. -/
def oscReload (slots : List Slot) (counter : Int) (x : Osc) : Int × Bool × Osc :=
  let P := oscLen slots x
  let per := x.period.get x.half
  let np : Int := (x.phase.toNat : Int) - (x.incr.get x.half).toNat
  let ph := (np % (P : Int)).toNat
  (counter + per.toNat, decide (np < 0),
    { x with
      lastPer := per
      phase := BitVec.ofNat 12 ph
      half := decide (ph < P / 2)
      prev := x.curr
      curr := sampleAt slots x ph })

/-- R122's loop `while COUNTER <= 0`. Every period is at least 1, so a counter c ≤ 0 leaves the loop after
at most 1 − c passes: the fuel the caller gives. -/
def oscReloads (slots : List Slot) : Nat → Int → Bool → Osc → Int × Bool × Osc
  | 0, counter, wrapped, x => (counter, wrapped, x)
  | fuel + 1, counter, wrapped, x =>
    if counter ≤ 0 then
      let r := oscReload slots counter x
      oscReloads slots fuel r.1 (wrapped || r.2.1) r.2.2
    else (counter, wrapped, x)

/-- The output of R122: the raw sample, or the interpolation between the previous and current samples. -/
def oscOut (x : Osc) : U16 :=
  if x.raw then x.curr
  else
    BitVec.ofInt 16 ((x.prev.toNat : Int)
      + ((x.curr.toNat : Int) - x.prev.toNat) * ((x.lastPer.toNat : Int) - x.counter.toInt) / x.lastPer.toNat)

/-- oscStep(o) (R122): the oscillator after one output sample, the sample and whether the phase wrapped.
DESIGN CHOICE (log 12): the counter is an exact integer between the subtraction and the last reload, where
an OSC_TICK beyond 2^31 would take it out of R24's 32 bits; it is stored when the loop has ended. -/
def oscStep (c : Config) (slots : List Slot) (x : Osc) : Osc × U16 × Bool :=
  let c0 : Int := x.counter.toInt - c.oscTick
  let r := oscReloads slots (1 - c0).toNat c0 false x
  let y := { r.2.2 with counter := BitVec.ofInt 32 r.1 }
  (y, oscOut y, r.2.1)

/-- The reset of the slave oscillator by its master's wrap (R124). -/
def oscSyncReset (x : Osc) : Osc := { x with phase := 0, counter := 0, half := false }

/-- PHASE <- min(PHASE, len − 1) (R125, R129). -/
def oscClampPhase (len : Nat) (x : Osc) : Osc :=
  { x with phase := BitVec.ofNat 12 (min x.phase.toNat (len - 1)) }

/-- P of R129: clamp(WAVE_LEN_STG, 2, WAVE_MAX). -/
def commitLen (s : State) : Nat := clampNat s.waveLenStg.toNat 2 s.cfg.waveMax

/-- The slot WAVE_COMMIT builds (R129): nv = min(valid, P) staged samples, then 0x8000. -/
def committedSlot (valid : Nat) (s : State) : Slot :=
  { len := BitVec.ofNat 12 (commitLen s)
    data := Memory.ofFn slotDefault (min valid (commitLen s)) s.readStaging }

/-- WAVE_COMMIT(slot, valid) (R129), one step: the slot is replaced and the phases of the oscillators
that read it are clamped. -/
def waveCommit (k : Nat) (valid : Nat) (s : State) : State :=
  forUpTo (2 * s.cfg.nVoices)
    (fun o t => if (t.osc o).main.toNat = k then t.modOsc o (oscClampPhase (commitLen s)) else t)
    (s.setSlot k (committedSlot valid s))

end Sys2Proof.Machine
end

