-- ==== Sys2Proof/Machine/CvOps.lean ====
section
/-! DEFINITION. The CV/voice engine's procedures (45_cv_engine.md R130 to R137): glide, the CV frame, the
tick phases that execute no command, the fill and the drain. -/

namespace Sys2Proof.Machine

/-- glideStep(v) (R132). -/
def glideStep (v : Nat) (s : State) : State :=
  let p := (s.pbOf v).toNat
  let t := (s.tbOf v).toNat
  if s.glide = 0 then s.setPb v (s.tbOf v)
  else if p < t then s.setPb v (BitVec.ofNat 16 (min t (p + s.glide.toNat)))
  else s.setPb v (BitVec.ofNat 16 (max t (p - s.glide.toNat)))

/-- src[k] of R133 for voice v. -/
def modSource (s : State) (v k : Nat) : Int :=
  match k with
  | 0 => (s.env (2 * v)).output.toNat
  | 1 => (s.env (2 * v + 1)).output.toNat
  | 2 => (s.lfo false).output.toInt
  | 3 => (s.lfo true).output.toInt
  | 4 => (s.voice v).velocity.toNat
  | 5 => (s.bendOf v).toInt
  | 6 => (s.pressureOf v).toNat
  | _ => (s.pbOf v).toNat

/-- The value acc of R133 starts from: the tuned pitch and a signed base for PITCH_A and PITCH_B, an
unsigned base for the others. -/
def cvBase (s : State) (v d : Nat) : Int :=
  if d < 2 then (Config.pitchMap v (s.pbOf v)).toNat + (s.baseOf d).toInt else (s.baseOf d).toNat

/-- acc of R133 after its eight sources. -/
def cvSum (s : State) (v d : Nat) : Int :=
  (List.range 8).foldl (fun acc k => acc + s.amount d k * modSource s v k / 32768) (cvBase s v d)

/-- oscSetParameters(o, pitch, amt) on OSC[o] (R119). -/
def setOscParameters (o : Nat) (pitch amt : U16) (s : State) : State :=
  s.modOsc o fun x => oscSetParameters s.cfg (oscLen s.slots x) pitch amt x

/-- The CVs of voice v (R133). -/
def cvVoiceSums (v : Nat) (s : State) : State :=
  forUpTo 7 (fun d t => t.setCv v d (sat16 (cvSum t v d))) s

/-- Voice v's part of cvFrame() (R133): its seven CVs, then the parameters of its two oscillators. -/
def cvVoice (v : Nat) (s : State) : State :=
  let t := cvVoiceSums v s
  setOscParameters (2 * v + 1) (t.cv v 1) (t.cv v 6) (setOscParameters (2 * v) (t.cv v 0) (t.cv v 6) t)

/-- cvFrame() (R133). -/
def cvFrame (s : State) : State := forVoices cvVoice s

/-- The housekeeping of tick phase 2 on voice v (R131). -/
def housekeepVoice (v : Nat) (s : State) : State :=
  if (s.env (2 * v + 1)).stage = .done then voiceDone v s else s

/-- tickPhase(k) (R131) for k = 1..7, the phases that execute no command. -/
def tickTask (k : Nat) (s : State) : State :=
  match k with
  | 2 => forVoices housekeepVoice s
  | 4 => forVoices glideStep s
  | 5 => (s.modLfo false lfoRefresh).modLfo true lfoRefresh
  | 6 => { s with syncActive := s.syncStaged }
  | 7 => { s with ts := s.ts + 1 }
  | _ => s

/-- What a strobe does after its tick phase (R130): TPHASE, the envelopes, the LFOs, the CV frame. -/
def strobeTail (s : State) : State :=
  let s1 := { s with tphase := s.tphase + 1 }
  let s2 := forUpTo (2 * s1.cfg.nVoices) (fun e t => t.modEnv e envUpdate) s1
  let s3 := (s2.modLfo false lfoUpdate).modLfo true lfoUpdate
  cvFrame s3

/-- oscStep(o) on OSC[o] (R122): the state after it, the sample and the wrap flag. -/
def stepOsc (o : Nat) (s : State) : State × U16 × Bool :=
  let r := oscStep s.cfg s.slots (s.osc o)
  (s.modOsc o fun _ => r.1, r.2.1, r.2.2)

/-- Voice v's oscillators in slot `sl` of half h (R124, R135): A, the sync reset of B, B, and the two
words. -/
def fillVoice (h : Bool) (sl v : Nat) (s : State) : State :=
  let a := stepOsc (2 * v) s
  let s1 := if a.2.2 && a.1.syncActive.getLsbD v then a.1.modOsc (2 * v + 1) oscSyncReset else a.1
  let b := stepOsc (2 * v + 1) s1
  (b.1.writeBuf h sl (2 * v) (BitVec.ofNat 32 (2 * v * 2 ^ 16 + a.2.1.toNat))).writeBuf h sl (2 * v + 1)
    (BitVec.ofNat 32 ((2 * v + 1) * 2 ^ 16 + b.2.1.toNat))

/-- The CV word of slot `sl` of half h and the advance of the round robin (R134, R135). -/
def fillCv (h : Bool) (sl : Nat) (s : State) : State :=
  let c := s.rr.toNat
  let t := s.writeBuf h sl (2 * s.cfg.nVoices)
    (BitVec.ofNat 32 ((0x80 + c) * 2 ^ 16 + (s.cv (c / 7) (c % 7)).toNat))
  { t with rr := BitVec.ofNat 6 ((c + 1) % (7 * s.cfg.nVoices)) }

/-- One slot of a fill (R135). -/
def fillSlot (h : Bool) (sl : Nat) (s : State) : State := fillCv h sl (forVoices (fillVoice h sl) s)

/-- fill() (R135), where it is enabled. -/
def fill (s : State) : State :=
  let h := s.fillPtr
  let t := forUpTo s.cfg.halfLen (fillSlot h) s
  { t with pending := t.pending.set h false, fillPtr := !h }

/-- BUF[h], slot by slot (R136). -/
def bufHalf (s : State) (h : Bool) : List (List Word) :=
  (List.range s.cfg.halfLen).map fun sl => (List.range (2 * s.cfg.nVoices + 1)).map fun w => s.readBuf h sl w

/-- drain() (R136). -/
def drain (s : State) : State :=
  let h := s.dmaPtr
  let t := { s with dac := s.dac ++ [bufHalf s h] }
  let u := if s.pending.get h then raiseOverrun t else t
  { u with pending := u.pending.set h true, dmaPtr := !h }

end Sys2Proof.Machine
end

