-- ==== Sys2Proof/Machine/Operands.lean ====
section
/-! DEFINITION. The assembly of a command's operands from its fields (30_encoding.md R54): every clamp
and every mask, with N = N_VOICES. Operands that R54 takes from the word as they are need no definition. -/

namespace Sys2Proof.Machine

/-- `voice`: min(w[18:16], N−1). -/
def voiceOperand (n : Nat) (v : BitVec 3) : Nat := min v.toNat (n - 1)

/-- `prio`: min(w[1:0], 2). -/
def prioOperand (p : BitVec 2) : Priority :=
  match p.toNat with
  | 0 => .last
  | 1 => .low
  | _ => .high

/-- `vmask` and `cvmask`: the field AND (2^N − 1). -/
def maskOperand (n : Nat) (m : BitVec 6) : BitVec 6 := m &&& BitVec.ofNat 6 (2 ^ n - 1)

/-- `pidx`: min(w[18:16], N−1). -/
def pidxOperand (n : Nat) (i : BitVec 3) : Nat := min i.toNat (n - 1)

/-- `plen`: clamp(w[18:16], 1, N). -/
def plenOperand (n : Nat) (len : BitVec 3) : BitVec 3 := BitVec.ofNat 3 (clampNat len.toNat 1 n)

/-- `envset`: with B = 1 every envelope of kind w[16], else the single envelope min(w[19:16], 2N−1);
ascending. -/
def envsetOperand (n : Nat) (b : Bool) (e : BitVec 4) : List Nat :=
  if b then (List.range (2 * n)).filter (fun k => k % 2 = e.toNat % 2)
  else [min e.toNat (2 * n - 1)]

/-- `lshape`: min(w[2:0], 6). -/
def lshapeOperand (x : BitVec 3) : LfoShape :=
  match x.toNat with
  | 0 => .tri
  | 1 => .sine
  | 2 => .saw
  | 3 => .rsaw
  | 4 => .square
  | 5 => .random
  | _ => .noise

/-- `osc`: 2·voice + w[19]. -/
def oscOperand (n : Nat) (x : Bool) (v : BitVec 3) : Nat := 2 * voiceOperand n v + x.toNat

/-- `tgt`: w[1:0], 0 ALIASING, 1 WIDTH, 2 FREQ_RATIO, 3 CROSSOVER (R126). -/
def tgtOperand (x : BitVec 2) : Target :=
  match x.toNat with
  | 0 => .aliasing
  | 1 => .width
  | 2 => .freqRatio
  | _ => .crossover

/-- `dst`: min(w[18:16], 6). -/
def dstOperand (d : BitVec 3) : Nat := min d.toNat 6

end Sys2Proof.Machine
end

