-- ==== Sys2Proof/Machine/Assigner.lean ====
section
/-! DEFINITION. The meanings of the Voice Assigner's commands (41_voice_assigner.md R75 to R90). -/

namespace Sys2Proof.Machine

/-- NOTE_ON (R75). -/
def execNoteOn (k : Bool) (note : BitVec 7) (vel : U16) (s : State) : Result :=
  .next (if s.mono then noteOnMono note vel k s else noteOnPoly note vel k s)

/-- NOTE_OFF (R80). -/
def execNoteOff (note : BitVec 7) (s : State) : Result :=
  .next (if s.mono then noteOffMono note s else noteOffPoly note s)

/-- VOICE_DONE (R83). -/
def execVoiceDone (v : BitVec 3) (s : State) : Result := .next (voiceDone (voiceOperand s.cfg.nVoices v) s)

/-- ALL_KEYS_OFF (R84). -/
def execAllKeysOff (s : State) : Result :=
  .next (forVoices (fun v t => if (t.voice v).assigned then gateOffVoice v t else t) { s with noteHeld := 0 })

/-- PANIC_OFF (R85). -/
def execPanicOff (s : State) : Result := .next (forVoices voiceDone { s with noteHeld := 0 })

/-- SET_PRIORITY (R86). -/
def execSetPriority (prio : BitVec 2) (s : State) : Result := .next { s with priority := prioOperand prio }

/-- SET_VOICE_MASK (R87). -/
def execSetVoiceMask (vmask : BitVec 6) (s : State) : Result :=
  .next { s with voiceMask := maskOperand s.cfg.nVoices vmask }

/-- SET_PATTERN_STEP (R88). -/
def execSetPatternStep (idx : BitVec 3) (ofs : BitVec 8) (s : State) : Result :=
  .next { s with offsetsStg := s.offsetsStg.set (pidxOperand s.cfg.nVoices idx) ofs }

/-- SET_PATTERN (R89). -/
def execSetPattern (mono : Bool) (len : BitVec 3) (s : State) : Result :=
  .next { s with plen := plenOperand s.cfg.nVoices len, mono := mono, offsets := s.offsetsStg }

/-- HOLD (R90). -/
def execHold (on : Bool) (s : State) : Result :=
  let t := { s with hold := on }
  .next (if on then t else releaseHeld t)

end Sys2Proof.Machine
end

