-- ==== Sys2Proof/Machine/Controllers.lean ====
section
/-! DEFINITION. The meanings of the controller and modulation commands (45_cv_engine.md R138 to R142). -/

namespace Sys2Proof.Machine

/-- BEND (R138). -/
def execBend (vm : BitVec 6) (imm : U16) (s : State) : Result :=
  .next (forMask (maskOperand s.cfg.nVoices vm) (fun v t => t.setBend v imm) s)

/-- PRESSURE (R139). -/
def execPressure (vm : BitVec 6) (imm : U16) (s : State) : Result :=
  .next (forMask (maskOperand s.cfg.nVoices vm) (fun v t => t.setPressure v imm) s)

/-- MOD_SET_AMOUNT (R140). -/
def execModSetAmount (src dst : BitVec 3) (imm : U16) (s : State) : Result :=
  .next (s.setAmount (dstOperand dst) src.toNat imm)

/-- MOD_SET_BASE (R141). -/
def execModSetBase (dst : BitVec 3) (imm : U16) (s : State) : Result := .next (s.setBase (dstOperand dst) imm)

/-- SET_GLIDE (R142). -/
def execSetGlide (imm : U16) (s : State) : Result := .next { s with glide := imm }

end Sys2Proof.Machine
end

