-- ==== Sys2Proof/Machine/Envelope.lean ====
section
/-! DEFINITION. The meanings of the envelope commands (42_envelope.md R101 to R108): each applies its rule
to every envelope of the target set and then recomputes its increments. -/

namespace Sys2Proof.Machine

/-- ENV_SET_ATTACK (R101). -/
def execEnvSetAttack (b : Bool) (e : BitVec 4) (imm : U16) (s : State) : Result :=
  .next (forEnvset (envsetOperand s.cfg.nVoices b e) (fun x => { x with atkCv := imm }) s)

/-- ENV_SET_DECAY (R102). -/
def execEnvSetDecay (b : Bool) (e : BitVec 4) (imm : U16) (s : State) : Result :=
  .next (forEnvset (envsetOperand s.cfg.nVoices b e) (fun x => { x with decCv := imm }) s)

/-- ENV_SET_SUSTAIN (R103). -/
def execEnvSetSustain (b : Bool) (e : BitVec 4) (imm : U16) (s : State) : Result :=
  .next (forEnvset (envsetOperand s.cfg.nVoices b e) (fun x => { x with susCv := imm }) s)

/-- ENV_SET_RELEASE (R104). -/
def execEnvSetRelease (b : Bool) (e : BitVec 4) (imm : U16) (s : State) : Result :=
  .next (forEnvset (envsetOperand s.cfg.nVoices b e) (fun x => { x with relCv := imm }) s)

/-- ENV_SET_LEVEL (R105). -/
def execEnvSetLevel (b : Bool) (e : BitVec 4) (imm : U16) (s : State) : Result :=
  .next (forEnvset (envsetOperand s.cfg.nVoices b e) (fun x => { x with level := imm }) s)

/-- ENV_SET_MODE (R106). -/
def execEnvSetMode (b : Bool) (e : BitVec 4) (loop shape : Bool) (s : State) : Result :=
  .next (forEnvset (envsetOperand s.cfg.nVoices b e) (fun x => { x with shape := shape, loop := loop }) s)

/-- ENV_SET_SHIFT (R107). -/
def execEnvSetShift (b : Bool) (e : BitVec 4) (shift : BitVec 5) (s : State) : Result :=
  .next (forEnvset (envsetOperand s.cfg.nVoices b e) (fun x => { x with shift := shift }) s)

/-- ENV_GATE (R108). -/
def execEnvGate (b : Bool) (e : BitVec 4) (gate : Bool) (s : State) : Result :=
  .next (forEnvset (envsetOperand s.cfg.nVoices b e) (envSetGate gate) s)

end Sys2Proof.Machine
end

