-- ==== Sys2Proof/Machine/Housekeeping.lean ====
section
/-! DEFINITION. The meanings of the housekeeping commands (40_command_processing.md R62, R63). CMD_COUNT
is advanced by `execute` (R61), not by a command's meaning. -/

namespace Sys2Proof.Machine

/-- NOP (R62): nothing. -/
def execNop (s : State) : Result := .next s

/-- CLEAR_FLAGS (R63). -/
def execClearFlags (clr : BitVec 3) (s : State) : Result := .next (clearStickyFlags clr s)

end Sys2Proof.Machine
end

