-- ==== Sys2Proof/Machine/Lfo.lean ====
section
/-! DEFINITION. The meanings of the LFO commands (43_lfo.md R114 to R118): all but LFO_RESET write staged
fields only. -/

namespace Sys2Proof.Machine

/-- LFO_SET_SPEED (R114). -/
def execLfoSetSpeed (l : Bool) (imm : U16) (s : State) : Result :=
  .next (s.modLfo l fun x => { x with speedStg := imm })

/-- LFO_SET_SHIFT (R115). -/
def execLfoSetShift (l : Bool) (shift : BitVec 5) (s : State) : Result :=
  .next (s.modLfo l fun x => { x with shiftStg := shift })

/-- LFO_SET_SHAPE (R116). -/
def execLfoSetShape (l : Bool) (lshape : BitVec 3) (s : State) : Result :=
  .next (s.modLfo l fun x => { x with shapeStg := lshapeOperand lshape })

/-- LFO_SET_LEVEL (R117). -/
def execLfoSetLevel (l : Bool) (imm : U16) (s : State) : Result :=
  .next (s.modLfo l fun x => { x with levelStg := imm })

/-- LFO_RESET (R118). -/
def execLfoReset (l : Bool) (s : State) : Result :=
  .next (s.modLfo l fun x => { x with phase := 0, half := false })

end Sys2Proof.Machine
end

