-- ==== Sys2Proof/Machine/Oscillator.lean ====
section
/-! DEFINITION. The meanings of the oscillator and waveform commands (44_oscillator.md R125 to R129). -/

namespace Sys2Proof.Machine

/-- OSC_SET_WAVE (R125). -/
def execOscSetWave (x : Bool) (v xslot : BitVec 3) (xen : Bool) (main : BitVec 3) (s : State) : Result :=
  .next (s.modOsc (oscOperand s.cfg.nVoices x v) fun y =>
    oscClampPhase (s.slot main.toNat).len.toNat { y with main := main, xen := xen, xslot := xslot })

/-- OSC_SET_TARGET (R126). -/
def execOscSetTarget (x : Bool) (v : BitVec 3) (tgt : BitVec 2) (s : State) : Result :=
  .next (s.modOsc (oscOperand s.cfg.nVoices x v) fun y => { y with tgt := tgtOperand tgt })

/-- SET_SYNC_MASK (R127). -/
def execSetSyncMask (vmask : BitVec 6) (s : State) : Result :=
  .next { s with syncStaged := maskOperand s.cfg.nVoices vmask }

/-- WAVE_SET_LEN (R128). -/
def execWaveSetLen (len12 : BitVec 12) (s : State) : Result := .next { s with waveLenStg := len12 }

/-- WAVE_COMMIT (R129). -/
def execWaveCommit (slot : BitVec 3) (valid : BitVec 12) (s : State) : Result :=
  .next (waveCommit slot.toNat valid.toNat s)

end Sys2Proof.Machine
end

