-- ==== Sys2Proof/Machine/Dispatch.lean ====
section
/-! DEFINITION. One arm per command (30_encoding.md R55), each one call of its meaning. -/

namespace Sys2Proof.Machine

/-- The effect of a command (R61, step 3). -/
def exec (i : Instr) (s : State) : Host.Outcome State Fault Refusal :=
  match i with
  | .nop => Sys2Proof.Machine.execNop s
  | .noteOn k note vel => Sys2Proof.Machine.execNoteOn k note vel s
  | .noteOff note => Sys2Proof.Machine.execNoteOff note s
  | .voiceDone v => Sys2Proof.Machine.execVoiceDone v s
  | .allKeysOff => Sys2Proof.Machine.execAllKeysOff s
  | .panicOff => Sys2Proof.Machine.execPanicOff s
  | .setPriority prio => Sys2Proof.Machine.execSetPriority prio s
  | .setVoiceMask vmask => Sys2Proof.Machine.execSetVoiceMask vmask s
  | .setPatternStep idx ofs => Sys2Proof.Machine.execSetPatternStep idx ofs s
  | .setPattern mono len => Sys2Proof.Machine.execSetPattern mono len s
  | .hold on => Sys2Proof.Machine.execHold on s
  | .bend vm imm => Sys2Proof.Machine.execBend vm imm s
  | .pressure vm imm => Sys2Proof.Machine.execPressure vm imm s
  | .envSetAttack b e imm => Sys2Proof.Machine.execEnvSetAttack b e imm s
  | .envSetDecay b e imm => Sys2Proof.Machine.execEnvSetDecay b e imm s
  | .envSetSustain b e imm => Sys2Proof.Machine.execEnvSetSustain b e imm s
  | .envSetRelease b e imm => Sys2Proof.Machine.execEnvSetRelease b e imm s
  | .envSetLevel b e imm => Sys2Proof.Machine.execEnvSetLevel b e imm s
  | .envSetMode b e loop shape => Sys2Proof.Machine.execEnvSetMode b e loop shape s
  | .envSetShift b e shift => Sys2Proof.Machine.execEnvSetShift b e shift s
  | .envGate b e gate => Sys2Proof.Machine.execEnvGate b e gate s
  | .lfoSetSpeed l imm => Sys2Proof.Machine.execLfoSetSpeed l imm s
  | .lfoSetShift l shift => Sys2Proof.Machine.execLfoSetShift l shift s
  | .lfoSetShape l lshape => Sys2Proof.Machine.execLfoSetShape l lshape s
  | .lfoSetLevel l imm => Sys2Proof.Machine.execLfoSetLevel l imm s
  | .lfoReset l => Sys2Proof.Machine.execLfoReset l s
  | .oscSetWave x v xslot xen main => Sys2Proof.Machine.execOscSetWave x v xslot xen main s
  | .oscSetTarget x v tgt => Sys2Proof.Machine.execOscSetTarget x v tgt s
  | .setSyncMask vmask => Sys2Proof.Machine.execSetSyncMask vmask s
  | .waveSetLen len12 => Sys2Proof.Machine.execWaveSetLen len12 s
  | .waveCommit slot valid => Sys2Proof.Machine.execWaveCommit slot valid s
  | .modSetAmount src dst imm => Sys2Proof.Machine.execModSetAmount src dst imm s
  | .modSetBase dst imm => Sys2Proof.Machine.execModSetBase dst imm s
  | .setGlide imm => Sys2Proof.Machine.execSetGlide imm s
  | .clearFlags clr => Sys2Proof.Machine.execClearFlags clr s

end Sys2Proof.Machine
end

