-- ==== Sys2Proof/Machine/Status.lean ====
section
/-! DEFINITION. The status map (20_memory.md R34 to R36): the word a host reads at each STATUS address. A
status read has no side effect on the block (R40). -/

namespace Sys2Proof.Machine

/-- ID (R34): the constant 0x4F564301, hardwired. -/
def idWord : Word := 0x4F564301

/-- The low `len` bits of `x` at bit `lo` of a status word. -/
def bitsAt (lo len x : Nat) : Nat := x % 2 ^ len * 2 ^ lo

/-- A status word from its fields. -/
def statusWord (fields : List Nat) : Word := BitVec.ofNat 32 fields.sum

/-- STAGE's encoding (R22). -/
def stageCode : Stage → Nat
  | .wait => 0 | .attack => 1 | .decay => 2 | .sustain => 3 | .release => 4 | .done => 5

/-- PRIORITY's encoding (R19). -/
def priorityCode : Priority → Nat
  | .last => 0 | .low => 1 | .high => 2

/-- LFO SHAPE's encoding (R23). -/
def lfoShapeCode : LfoShape → Nat
  | .tri => 0 | .sine => 1 | .saw => 2 | .rsaw => 3 | .square => 4 | .random => 5 | .noise => 6

/-- TGT's encoding (R24). -/
def targetCode : Target → Nat
  | .aliasing => 0 | .width => 1 | .freqRatio => 2 | .crossover => 3

/-- STATUS word 0x01 (R35). -/
def statusFlags (s : State) : Word :=
  statusWord [bitsAt 0 1 s.cmdOvf.toNat, bitsAt 1 1 s.overrun.toNat, bitsAt 2 1 s.badCmd.toNat,
    bitsAt 3 1 (s.noteHeld != 0).toNat, bitsAt 4 1 ((List.range s.cfg.nVoices).any fun v => (s.voice v).assigned).toNat,
    bitsAt 8 3 s.tphase.toNat, bitsAt 16 8 s.fifo.length, bitsAt 24 1 s.pending.at0.toNat,
    bitsAt 25 1 s.pending.at1.toNat, bitsAt 26 1 s.fillPtr.toNat, bitsAt 27 1 s.dmaPtr.toNat]

/-- STATUS word 0x04, CONFIG (R36). -/
def statusConfig (s : State) : Word :=
  statusWord [bitsAt 0 3 s.cfg.nVoices, bitsAt 3 1 s.mono.toNat, bitsAt 4 2 (priorityCode s.priority),
    bitsAt 6 1 s.hold.toNat, bitsAt 8 6 s.voiceMask.toNat, bitsAt 16 3 s.plen.toNat,
    bitsAt 24 6 s.syncActive.toNat]

/-- VOICE_A of voice v (R36). -/
def statusVoiceA (s : State) (v : Nat) : Word :=
  let x := s.voice v
  statusWord [bitsAt 0 1 x.assigned.toNat, bitsAt 1 1 x.gated.toNat, bitsAt 2 1 x.keyPressed.toNat,
    bitsAt 3 1 x.fromKeyboard.toNat, bitsAt 4 1 x.legato.toNat, bitsAt 8 7 x.note.toNat,
    bitsAt 16 7 x.rootNote.toNat]

/-- ENV_STATE of envelope e (R36). -/
def statusEnv (s : State) (e : Nat) : Word :=
  let x := s.env e
  statusWord [bitsAt 0 3 (stageCode x.stage), bitsAt 3 1 x.shape.toNat, bitsAt 4 1 x.loop.toNat,
    bitsAt 8 5 x.shift.toNat, bitsAt 16 16 x.output.toNat]

/-- LFO_PHASE of LFO l (R36). -/
def statusLfoPhase (s : State) (l : Bool) : Word :=
  let x := s.lfo l
  statusWord [bitsAt 0 24 x.phase.toNat, bitsAt 24 1 x.half.toNat, bitsAt 25 3 (lfoShapeCode x.shape)]

/-- OSC_STATE of oscillator o (R36). DESIGN CHOICE (log 10): bits [15:14] read TGT, as R36's table says; R30
lists TGT among the state that cannot be read, and 90_conflicts.md does not name the point. -/
def statusOsc (s : State) (o : Nat) : Word :=
  let x := s.osc o
  statusWord [bitsAt 0 12 x.phase.toNat, bitsAt 12 1 x.half.toNat, bitsAt 13 1 x.raw.toNat,
    bitsAt 14 2 (targetCode x.tgt), bitsAt 16 16 x.curr.toNat]

/-- A word of a per-voice block (R36): 0 from N up. -/
def perVoice (s : State) (v : Nat) (f : State → Nat → Word) : Word :=
  if v < s.cfg.nVoices then f s v else 0

/-- A word of a per-envelope or per-oscillator block (R36): 0 from 2N up. -/
def perPair (s : State) (k : Nat) (f : State → Nat → Word) : Word :=
  if k < 2 * s.cfg.nVoices then f s k else 0

/-- `MemRead(STATUS:a, 32)` (R36). Addresses not listed read 0. -/
def readStatus (s : State) (addr : BitVec 8) : Word :=
  let a := addr.toNat
  if a = 0x00 then idWord
  else if a = 0x01 then statusFlags s
  else if a = 0x02 then s.ts
  else if a = 0x03 then s.cmdCount
  else if a = 0x04 then statusConfig s
  else if a = 0x05 then statusWord [bitsAt 0 6 s.syncStaged.toNat, bitsAt 16 16 s.glide.toNat]
  else if a = 0x06 then statusWord [bitsAt 0 6 s.rr.toNat, bitsAt 16 12 s.waveLenStg.toNat]
  else if 0x08 ≤ a ∧ a ≤ 0x0D then perVoice s (a - 0x08) statusVoiceA
  else if 0x10 ≤ a ∧ a ≤ 0x15 then
    perVoice s (a - 0x10) fun s v =>
      statusWord [bitsAt 0 16 (s.voice v).velocity.toNat, bitsAt 16 16 (s.bendOf v).toNat]
  else if 0x18 ≤ a ∧ a ≤ 0x1D then perVoice s (a - 0x18) fun s v => (s.voice v).ts
  else if 0x20 ≤ a ∧ a ≤ 0x2B then perPair s (a - 0x20) statusEnv
  else if 0x30 ≤ a ∧ a ≤ 0x3B then perPair s (a - 0x30) fun s e => statusWord [bitsAt 0 24 (s.env e).phase.toNat]
  else if 0x40 ≤ a ∧ a ≤ 0x45 then
    perVoice s (a - 0x40) fun s v => statusWord [bitsAt 0 16 (s.env (2 * v + 1)).output.toNat]
  else if a = 0x48 ∨ a = 0x49 then
    let x := s.lfo (a == 0x49)
    statusWord [bitsAt 0 16 x.output.toNat, bitsAt 16 16 x.raw.toNat]
  else if a = 0x4C ∨ a = 0x4D then statusLfoPhase s (a == 0x4D)
  else if 0x50 ≤ a ∧ a ≤ 0x79 then
    let c := a - 0x50
    if c < 7 * s.cfg.nVoices then statusWord [bitsAt 0 16 (s.cv (c / 7) (c % 7)).toNat] else 0
  else if 0x80 ≤ a ∧ a ≤ 0x83 then s.noteHeld.extractLsb' (32 * (a - 0x80)) 32
  else if 0x84 ≤ a ∧ a ≤ 0x8F then perPair s (a - 0x84) statusOsc
  else if 0x90 ≤ a ∧ a ≤ 0x9B then perPair s (a - 0x90) fun s o => (s.osc o).counter
  else if 0xA0 ≤ a ∧ a ≤ 0xA7 then statusWord [bitsAt 0 12 (s.slot (a - 0xA0)).len.toNat]
  else if 0xA8 ≤ a ∧ a ≤ 0xAD then
    perVoice s (a - 0xA8) fun s v => statusWord [bitsAt 0 16 (s.pbOf v).toNat, bitsAt 16 16 (s.tbOf v).toNat]
  else if 0xB0 ≤ a ∧ a ≤ 0xB5 then
    perVoice s (a - 0xB0) fun s v => statusWord [bitsAt 0 16 (s.pressureOf v).toNat]
  else 0

end Sys2Proof.Machine
end

