-- ==== Sys2Proof/Machine/Agents.lean ====
section
/-! DEFINITION. The steps of the four agents (00_scope.md R9): the command port and the command drain
(40_command_processing.md R59 to R64), the strobe (45_cv_engine.md R130, R131), and the choice of the
agent's step. -/

namespace Sys2Proof.Machine

/-- Goes on with `f` where a command answered a next state, and stops where it did not. -/
def andThen (r : Result) (f : State → Result) : Result :=
  match r with
  | .next s => f s
  | .fault e => .fault e
  | .refused e => .refused e

/-- `MemWrite(CMD:0, 32, w)` (R59). -/
def cmdWrite (w : Word) (s : State) : State :=
  if s.fifo.length < s.cfg.fifoDepth then { s with fifo := s.fifo ++ [w] } else raiseCmdOvf s

/-- execute(w) (R61): CMD_COUNT advances, the word is decoded, and the command's rule runs; a word that is
no command sets BADCMD (R64). -/
def execute (w : Word) (s : State) : Result :=
  let t := { s with cmdCount := s.cmdCount + 1 }
  match decode w with
  | .ok i => exec i t
  | .error _ => .next (raiseBadCmd t)

/-- `repeat n times` of R60: the oldest word leaves the FIFO and executes. -/
def drainWords : Nat → State → Result
  | 0, s => .next s
  | n + 1, s =>
    match s.fifo with
    | [] => .next s
    | w :: rest => andThen (execute w { s with fifo := rest }) (drainWords n)

/-- DrainCommands() (R60). -/
def drainCommands (s : State) : Result := drainWords (min s.cfg.cmdBudget s.fifo.length) s

/-- tickPhase(k) (R131). -/
def tickPhase (k : Nat) (s : State) : Result := if k = 0 then drainCommands s else .next (tickTask k s)

/-- strobe() (R130). -/
def strobe (s : State) : Result := andThen (tickPhase s.tphase.toNat s) fun t => .next (strobeTail t)

/-- `MemRead(STATUS:a, 32)` (R36): the block does not change (R40); the word goes to the host (log 3). -/
def statusRead (a : BitVec 8) (s : State) : State := { s with reads := s.reads ++ [(a, readStatus s a)] }

/-- One step of an agent (R9). FILL is enabled only when PENDING[FILL_PTR] = 1 (R135): where it is not,
the agent takes no step and the block does not change (log 2). -/
def runAgent (a : AgentStep) (s : State) : Result :=
  match a with
  | .cmdWrite w => .next (cmdWrite w s)
  | .stageWrite i v => .next (stageWrite i v s)
  | .statusRead x => .next (statusRead x s)
  | .strobe => strobe s
  | .fill => .next (if s.pending.get s.fillPtr then fill s else s)
  | .drain => .next (drain s)

/-- What the outside world does: an agent's step, or an access that is refused (R32). -/
def runEvent (e : Event) (s : State) : Result :=
  match e with
  | .agent a => runAgent a s
  | .noAccess x => .refused (.noSuchAccess x)

/-- The next step of the block: the script's next event, or where the script is used up the next step of
the free schedule (R9, log 2). -/
def runNext (s : State) : Result :=
  match s.script with
  | e :: rest => runEvent e { s with script := rest }
  | [] => runAgent (Config.schedule s.schedPos) { s with schedPos := s.schedPos + 1 }

end Sys2Proof.Machine
end

