-- ==== Sys2Proof/Machine/Step.lean ====
section
/-! DEFINITION. One step of the machine, and the placing of a word where a step executes it. -/

namespace Sys2Proof.Machine

/-- One step: one atomic step of one agent (00_scope.md R9). -/
def step (s : State) : Host.Outcome State Fault Refusal := runNext s

/-- `s` with the word of `nbits` bits as the only word of the FIFO and a strobe of tick phase 0 as the
next event, so that the very next step executes exactly that word (R60, R131; log 5). -/
def State.withFetchWord (s : State) (nbits w : Nat) : State :=
  { s with
    fifo := [BitVec.ofNat 32 (w % 2 ^ nbits)]
    tphase := 0
    script := .agent .strobe :: s.script }

end Sys2Proof.Machine
end

