-- ==== Sys2Proof/Safety.lean ====
section
/-! DEFINITION. What claims about the machine are stated in: the invariants of 10_state.md R31 and of the
columns "width" and "legal values", the event a step takes, and the frames. -/

namespace Sys2Proof.Machine

/-! ## Invariants -/

/-- R12: the parameters are in R4's ranges and every register file has the size they fix. -/
def Sized (s : State) : Prop :=
  s.cfg.wf ∧ s.voices.length = s.cfg.nVoices ∧ s.envs.length = 2 * s.cfg.nVoices ∧
  s.oscs.length = 2 * s.cfg.nVoices ∧ s.slots.length = 8 ∧ s.offsets.length = 6 ∧
  s.offsetsStg.length = 6 ∧ s.amt.length = 56 ∧ s.base.length = 7 ∧ s.pb.length = s.cfg.nVoices ∧
  s.tb.length = s.cfg.nVoices ∧ s.bend.length = s.cfg.nVoices ∧ s.pressure.length = s.cfg.nVoices ∧
  s.cvOut.length = 7 * s.cfg.nVoices

/-- The three memories are in their canonical form and list indices of their space only (R25, R28). -/
def MemoryOk (s : State) : Prop :=
  (Memory.wf 0 s.staging ∧ ∀ c ∈ s.staging, c.1 < s.cfg.waveMax) ∧
  (∀ x ∈ s.slots, Memory.wf slotDefault x.data ∧ ∀ c ∈ x.data, c.1 < s.cfg.waveMax) ∧
  (Memory.wf 0 s.buf ∧ ∀ c ∈ s.buf, c.1 < 2 * s.cfg.halfLen * (2 * s.cfg.nVoices + 1))

/-- A mask register of N bits holds no bit from N up (R19, R27). -/
def maskOk (n : Nat) (m : BitVec 6) : Prop := ∀ k, n ≤ k → m.getLsbD k = false

/-- The legal values of the command port's, the assigner's and the engine's registers that their types
leave open (R17, R19, R25 to R28). -/
def Legal (s : State) : Prop :=
  s.fifo.length ≤ s.cfg.fifoDepth ∧ maskOk s.cfg.nVoices s.voiceMask ∧ maskOk s.cfg.nVoices s.syncStaged ∧
  maskOk s.cfg.nVoices s.syncActive ∧ (1 ≤ s.plen.toNat ∧ s.plen.toNat ≤ s.cfg.nVoices) ∧
  (∀ x ∈ s.slots, 2 ≤ x.len.toNat ∧ x.len.toNat ≤ s.cfg.waveMax) ∧ s.rr.toNat < 7 * s.cfg.nVoices ∧
  (∀ x ∈ s.pb, x.toNat ≤ 32512) ∧ (∀ x ∈ s.tb, x.toNat ≤ 32512)

/-- The legal values of an oscillator (R24), its slot's length given: the phase is inside the slot, the
periods and increments are at least 1, and the counter lies between 0 and the period it runs down. -/
def OscOk (c : Config) (len : Nat) (x : Osc) : Prop :=
  x.phase.toNat < len ∧ 0 ≤ x.counter.toInt ∧ x.counter.toInt ≤ x.lastPer.toNat ∧ 1 ≤ x.lastPer.toNat ∧
  (∀ h, 1 ≤ (x.period.get h).toNat) ∧ ∀ h, 1 ≤ (x.incr.get h).toNat ∧ (x.incr.get h).toNat ≤ c.oscMaxIncr

/-- Every oscillator is legal, and so is the length of every slot it may read (R24, R25, R31 (e)). -/
def OscsOk (s : State) : Prop :=
  (∀ x ∈ s.slots, 2 ≤ x.len.toNat ∧ x.len.toNat ≤ s.cfg.waveMax) ∧
  ∀ x ∈ s.oscs, OscOk s.cfg (oscLen s.slots x) x

/-- R100 and R91 for one envelope: the stage target is a u16, and the increments are R91's. -/
def EnvOk (x : Env) : Prop :=
  0 ≤ (x.add.toNat : Int) + x.mul.toInt ∧ (x.add.toNat : Int) + x.mul.toInt ≤ 65535 ∧ envRecompute x = x

/-- Every envelope is legal. -/
def EnvsOk (s : State) : Prop := ∀ x ∈ s.envs, EnvOk x

/-- R23 for one LFO: the register is never 0, and the raw value is in −32768..32767. -/
def LfoOk (x : Lfo) : Prop := x.lfsr ≠ 0 ∧ -32768 ≤ x.raw.toInt ∧ x.raw.toInt ≤ 32767

/-- Both LFOs are legal. -/
def LfosOk (s : State) : Prop := ∀ l, LfoOk (s.lfo l)

/-- R31 (b): the two envelopes of a voice are in Wait exactly when the voice is unassigned; and a gated
voice is assigned, which keeps it so under a legato grant (R71). -/
def WaitIffFree (s : State) : Prop :=
  ∀ v, v < s.cfg.nVoices →
    ((s.voice v).gated = true → (s.voice v).assigned = true) ∧
    ((s.env (2 * v)).stage = .wait ↔ (s.voice v).assigned = false) ∧
    ((s.env (2 * v + 1)).stage = .wait ↔ (s.voice v).assigned = false)

/-- TB[v] is the granted note in 1/256 semitone (R71). -/
def PitchTargetsOk (s : State) : Prop :=
  ∀ v, v < s.cfg.nVoices → (s.tbOf v).toNat = (s.voice v).note.toNat * 256

/-! ## The event of a step -/

/-- The event the next step takes: the script's, or the free schedule's where the script is used up. -/
def nextEvent (s : State) : Event :=
  match s.script with
  | e :: _ => e
  | [] => .agent (Config.schedule s.schedPos)

/-- The state the event acts on: the event is consumed. -/
def afterEvent (s : State) : State :=
  match s.script with
  | _ :: rest => { s with script := rest }
  | [] => { s with schedPos := s.schedPos + 1 }

/-- The words the next step executes if it is a strobe: at tick phase 0 the oldest CMD_BUDGET words of the
FIFO, else none (R60, R131). -/
def drainedWords (s : State) : List Word := if s.tphase = 0 then s.fifo.take s.cfg.cmdBudget else []

/-- Some word among `ws` decodes to a command for which `p` holds. -/
def someCommand (ws : List Word) (p : Instr → Prop) : Prop := ∃ w ∈ ws, ∃ i, decode w = .ok i ∧ p i

/-- The command is an ENV_GATE (R108). -/
def isEnvGate : Instr → Bool
  | .envGate _ _ _ => true
  | _ => false

/-- The command deallocates voice `v` of `n`: a VOICE_DONE of it, or a PANIC_OFF (R83, R85). -/
def deallocates (n v : Nat) : Instr → Bool
  | .voiceDone w => min w.toNat (n - 1) == v
  | .panicOff => true
  | _ => false

/-- The word a step of the host writes to CMD, if it is such a write (R59). -/
def writtenWord : AgentStep → Option Word
  | .cmdWrite w => some w
  | _ => none

/-- The command is a CLEAR_FLAGS that selects flag `k` (R63). -/
def clearsFlag (k : Nat) : Instr → Bool
  | .clearFlags clr => clr.getLsbD k
  | _ => false

/-- The command is one of the five LFO commands (43_lfo.md section 2). -/
def isLfoCommand : Instr → Bool
  | .lfoSetSpeed _ _ => true
  | .lfoSetShift _ _ => true
  | .lfoSetShape _ _ => true
  | .lfoSetLevel _ _ => true
  | .lfoReset _ => true
  | _ => false

/-- The unassigned opcodes of R56. -/
def unassignedOps : List Nat :=
  [0x0D, 0x0E, 0x0F, 0x18, 0x19, 0x1A, 0x1B, 0x1C, 0x1D, 0x1E, 0x1F, 0x25, 0x26, 0x27, 0x28, 0x29, 0x2A,
   0x2B, 0x2C, 0x2D, 0x2E, 0x2F, 0x35, 0x36, 0x37, 0x3B, 0x3C, 0x3D, 0x3F]

/-! ## What the note commands choose and do -/

/-- Voice v exists and is enabled (R67). -/
def Enabled (s : State) (v : Nat) : Prop := v < s.cfg.nVoices ∧ s.voiceMask.getLsbD v = true

/-- v is the oldest voice of the set C, the lowest index among equals (R68): the age of a voice is TS less its
timestamp, modulo 2^32. -/
def OldestOf (s : State) (C : Nat → Prop) (v : Nat) : Prop :=
  C v ∧ ∀ u, C u →
    let ageOf := fun w => (s.ts.toNat + 2 ^ 32 - (s.voice w).ts.toNat) % 2 ^ 32
    ageOf u < ageOf v ∨ (ageOf u = ageOf v ∧ v ≤ u)

/-- Candidate set (a) of R76: enabled voices that carry the note. -/
def CarriesNote (s : State) (note : BitVec 7) (v : Nat) : Prop :=
  Enabled s v ∧ (s.voice v).assigned = true ∧ (s.voice v).rootNote = note

/-- Candidate set (b) of R76: enabled voices that are free. -/
def FreeVoice (s : State) (v : Nat) : Prop := Enabled s v ∧ (s.voice v).assigned = false

/-- Candidate set (c) of R76: enabled voices whose root is no longer held. -/
def KeyUp (s : State) (v : Nat) : Prop := Enabled s v ∧ s.held (s.voice v).rootNote = false

/-- No voice is in a candidate set (a), (b) or (c) of R76. -/
def NoCandidate (s : State) (note : BitVec 7) : Prop :=
  ∀ v, ¬CarriesNote s note v ∧ ¬FreeVoice s v ∧ ¬KeyUp s v

/-- The voice R76 takes for a poly NOTE_ON, or none where it drops the note, in the state with the note
held. LOW takes the highest root above the note, HIGH the lowest root below it, each time the first such
voice (R77). -/
def PolyChoice (s : State) (note : BitVec 7) : Option Nat → Prop
  | some v =>
    OldestOf s (CarriesNote s note) v ∨
    ((∀ u, ¬CarriesNote s note u) ∧ OldestOf s (FreeVoice s) v) ∨
    ((∀ u, ¬CarriesNote s note u ∧ ¬FreeVoice s u) ∧ OldestOf s (KeyUp s) v) ∨
    (NoCandidate s note ∧ Enabled s v ∧
      ((s.priority = .last ∧ OldestOf s (Enabled s) v) ∨
       (s.priority = .low ∧ note.toNat < (s.voice v).rootNote.toNat ∧
         ∀ u, Enabled s u → (s.voice u).rootNote.toNat < (s.voice v).rootNote.toNat ∨
           ((s.voice u).rootNote = (s.voice v).rootNote ∧ v ≤ u)) ∨
       (s.priority = .high ∧ (s.voice v).rootNote.toNat < note.toNat ∧
         ∀ u, Enabled s u → (s.voice v).rootNote.toNat < (s.voice u).rootNote.toNat ∨
           ((s.voice u).rootNote = (s.voice v).rootNote ∧ v ≤ u))))
  | none =>
    (∀ v, ¬Enabled s v) ∨
    (NoCandidate s note ∧
      ((s.priority = .low ∧ ∀ u, Enabled s u → (s.voice u).rootNote.toNat ≤ note.toNat) ∨
       (s.priority = .high ∧ ∀ u, Enabled s u → note.toNat ≤ (s.voice u).rootNote.toNat)))

/-- R79: under the priority rule the note wins against the other held notes. -/
def MonoWins (s : State) (note : BitVec 7) : Prop :=
  match s.priority with
  | .last => True
  | .low => ∀ n, s.held n = true → n ≠ note → note.toNat < n.toNat
  | .high => ∀ n, s.held n = true → n ≠ note → n.toNat < note.toNat

/-- v is the lowest enabled voice, E[0] (R79, R82). -/
def FirstEnabled (s : State) (v : Nat) : Prop := Enabled s v ∧ ∀ u, Enabled s u → v ≤ u

/-- The note n is held, is not the released note, and is the root of no assigned voice (R82). -/
def Restorable (s : State) (note n : BitVec 7) : Prop :=
  s.held n = true ∧ n ≠ note ∧
    ∀ v, v < s.cfg.nVoices → (s.voice v).assigned = true → (s.voice v).rootNote ≠ n

/-- The grant of R71 to the voices T, in T's order, from s to t: each target's record, pitch and
envelopes, its note the root plus its pattern offset clamped to 0..127; the other voices as before; TS
advanced once; the events in order, a STOLEN_OFF before the GATE_ON of a target that in poly mode carried
another root. -/
def Granted (s t : State) (root : BitVec 7) (vel : U16) (kbd legato : Bool) (T : List Nat) : Prop :=
  (∀ i v, T[i]? = some v →
    t.voice v =
      { assigned := true, gated := true, keyPressed := true, fromKeyboard := kbd,
        legato := legato && (s.voice v).gated, note := patternNote s i root, rootNote := root,
        velocity := vel, ts := s.ts } ∧
    ((patternNote s i root).toNat : Int) = min (max ((root.toNat : Int) + s.offset i) 0) 127 ∧
    (t.tbOf v).toNat = (patternNote s i root).toNat * 256 ∧
    t.pbOf v = (if legato && (s.voice v).gated && s.glide != 0 then s.pbOf v else t.tbOf v) ∧
    ∀ k, k < 2 → t.env (2 * v + k) =
      if legato && (s.voice v).gated then s.env (2 * v + k) else envSetGate true (s.env (2 * v + k))) ∧
  (∀ v, v < s.cfg.nVoices → v ∉ T →
    t.voice v = s.voice v ∧ t.tbOf v = s.tbOf v ∧ t.pbOf v = s.pbOf v ∧
    t.env (2 * v) = s.env (2 * v) ∧ t.env (2 * v + 1) = s.env (2 * v + 1)) ∧
  t.ts = s.ts + 1 ∧
  t.evt = s.evt ++ T.zipIdx.flatMap fun p =>
    (if !s.mono && (s.voice p.1).assigned && (s.voice p.1).rootNote != root then
      [offEvent .stolenOff p.1 s] else []) ++
    [⟨.gateOn, p.1, patternNote s p.2 root, vel, legato && (s.voice p.1).gated, kbd⟩]

/-- R73 for the voices R, ascending, from s to t: their keys are up, and without HOLD those that were gated
are gated off, their envelopes released and one GATE_OFF event each appended. -/
def KeysReleased (s t : State) (R : List Nat) : Prop :=
  (∀ v, v < s.cfg.nVoices → t.voice v =
    if v ∈ R then { s.voice v with keyPressed := false, gated := (s.voice v).gated && s.hold }
    else s.voice v) ∧
  (∀ e, e < 2 * s.cfg.nVoices → t.env e =
    if e / 2 ∈ R ∧ (s.voice (e / 2)).gated = true ∧ s.hold = false then envSetGate false (s.env e)
    else s.env e) ∧
  t.evt = s.evt ++ (R.filter fun v => (s.voice v).gated && !s.hold).map (fun v => offEvent .gateOff v s)

/-- R74 for the voices v with `p v`, from s to t. -/
def Deallocated (s t : State) (p : Nat → Prop) [DecidablePred p] : Prop :=
  (∀ v, v < s.cfg.nVoices → t.voice v =
    if p v then { s.voice v with assigned := false, gated := false, keyPressed := false, legato := false }
    else s.voice v) ∧
  (∀ e, e < 2 * s.cfg.nVoices → t.env e =
    if p (e / 2) then { s.env e with stage := .wait, phase := 0, add := 0, mul := 0, output := 0 }
    else s.env e) ∧
  t.evt = s.evt

/-- R54: the envelope k is in the target set of the fields B and E. -/
abbrev InEnvset (n : Nat) (b : Bool) (e : BitVec 4) (k : Nat) : Prop :=
  if b then k % 2 = e.toNat % 2 else k = min e.toNat (2 * n - 1)

/-! ## Frames -/

/-- Every location of the three memories reads as before. -/
def SameMemory (s t : State) : Prop :=
  (∀ i, t.readStaging i = s.readStaging i) ∧ (∀ k i, t.readSlot k i = s.readSlot k i) ∧
  ∀ h sl w, t.readBuf h sl w = s.readBuf h sl w

/-- Nothing but the voices, the envelopes, the pitch bases, the held notes, TS and the event trace differs:
what the note commands may write. -/
def OnlyAssigner (s t : State) : Prop :=
  t =
    { s with
      voices := t.voices
      envs := t.envs
      pb := t.pb
      tb := t.tb
      noteHeld := t.noteHeld
      ts := t.ts
      evt := t.evt } ∧ SameMemory s t

/-- Nothing but the voices, the envelopes and the event trace differs: what releasing and deallocating
voices may write. -/
def OnlyVoices (s t : State) : Prop :=
  t = { s with voices := t.voices, envs := t.envs, evt := t.evt } ∧ SameMemory s t

/-- Nothing but the envelopes differs. -/
def OnlyEnvs (s t : State) : Prop := t = { s with envs := t.envs } ∧ SameMemory s t

/-- Nothing but the LFOs differs. -/
def OnlyLfos (s t : State) : Prop := t = { s with lfos := t.lfos } ∧ SameMemory s t

/-- Nothing but the oscillators differs. -/
def OnlyOscs (s t : State) : Prop := t = { s with oscs := t.oscs } ∧ SameMemory s t

end Sys2Proof.Machine
end

