-- ==== Sys2Proof/Certificates/Slice0/Obligations.lean ====
section
/-! DEFINITION. The statements for the provers, from the numbered rules of spec/. `OBLIGATIONS.json` lists
them with their rules. A frame `OnlyX s t` says that every field of the state but those X names is equal,
and that every location of the three memories reads as before. -/

open Sys2Proof Sys2Proof.Machine

/-! ## Encoding -/

/-- R51, R52, R55: decoding the encoding of a command gives the command, for every command and every
value of every operand. -/
def Obligations.DecodeEncodeAgree : Prop := ∀ i : Instr, decode (encode i) = .ok i

/-- R53: reserved bits are ignored. The word with its reserved bits cleared decodes to the same and
executes to the same; a word that is a command never sets BADCMD; which row a word matches depends on
its OP bits alone. -/
def Obligations.ReservedBitsAreIgnored : Prop :=
  (∀ w, decode (w &&& namedBits (opOf w)) = decode w) ∧
  (∀ w s, execute (w &&& namedBits (opOf w)) s = execute w s) ∧
  (∀ w i s t, decode w = .ok i → execute w s = .next t → t.badCmd = true → s.badCmd = true) ∧
  ∀ w w' i j, decode w = .ok i → decode w' = .ok j → (opcode i = opcode j ↔ opOf w = opOf w')

/-- R64 with the list of R56: exactly the words with an unassigned OP are illegal; such a word sets BADCMD,
is counted and does nothing else, and the drain goes on with the next queued word. -/
def Obligations.IllegalCommandsSetBadcmd : Prop :=
  ∀ w, ((∃ e, decode w = .error e) ↔ (opOf w).toNat ∈ unassignedOps) ∧
    ((opOf w).toNat ∈ unassignedOps → ∀ s,
      execute w s = .next { s with cmdCount := s.cmdCount + 1, badCmd := true } ∧
      ∀ n q, s.fifo = w :: q →
        drainWords (n + 1) s =
          drainWords n { s with fifo := q, cmdCount := s.cmdCount + 1, badCmd := true })

/-- R57: words of the table of examples decode to the commands their assembly names. -/
def Obligations.ExampleWordsDecode : Prop :=
  decode 0x14000000 = .ok .panicOff ∧
  decode 0x04BCFFFF = .ok (.noteOn true 60 0xFFFF) ∧
  decode 0x0C020000 = .ok (.voiceDone 2) ∧
  decode 0x18000002 = .ok (.setPriority 2) ∧
  decode 0x200300F4 = .ok (.setPatternStep 3 0xF4) ∧
  decode 0x24110000 = .ok (.setPattern true 1) ∧
  decode 0x2C3FFFFF = .ok (.bend 0x3F 0xFFFF) ∧
  decode 0x5081FFFF = .ok (.envSetLevel true 1 0xFFFF) ∧
  decode 0x88000004 = .ok (.lfoSetShape false 4) ∧
  decode 0xC009003A = .ok (.oscSetWave true 1 3 true 2) ∧
  decode 0xD0000004 = .ok (.waveCommit 0 4) ∧
  decode 0xE0124000 = .ok (.modSetAmount 2 2 0x4000)

/-! ## The machine's step -/

/-- R60, R61, R130, R131: a strobe of tick phase 0 whose oldest queued word decodes to i runs exec of i on
the state with the word out of the FIFO and CMD_COUNT advanced; around it, it drains the further words the
budget allows and then runs the rest of the strobe. Whatever the queue holds, a strobe runs the task of its
tick phase (the drain at phase 0, none at phases 1 and 3) and then that rest: TPHASE advances, every
envelope takes one envUpdate and each LFO one lfoUpdate, and the CV frame runs on the state they leave. -/
def Obligations.StepRunsDecodedCommand : Prop :=
  (∀ s rest w q i, s.script = .agent .strobe :: rest → s.tphase = 0 → s.fifo = w :: q →
    1 ≤ s.cfg.cmdBudget → decode w = .ok i →
    step s = andThen (exec i { s with script := rest, fifo := q, cmdCount := s.cmdCount + 1 }) fun t =>
      andThen (drainWords (min s.cfg.cmdBudget (q.length + 1) - 1) t) fun u => .next (strobeTail u)) ∧
  (∀ s rest, s.script = .agent .strobe :: rest →
    (s.tphase = 0 → step s =
      andThen (drainWords (min s.cfg.cmdBudget s.fifo.length) { s with script := rest }) fun u =>
        .next (strobeTail u)) ∧
    (s.tphase ≠ 0 → step s = .next (strobeTail (tickTask s.tphase.toNat { s with script := rest })))) ∧
  (∀ s, tickTask 1 s = s ∧ tickTask 3 s = s) ∧
  ∀ s, Sized s → ∃ u, strobeTail s = cvFrame u ∧
    u = { s with tphase := s.tphase + 1, envs := u.envs, lfos := u.lfos } ∧ SameMemory s u ∧
    (∀ e, e < 2 * s.cfg.nVoices → u.env e = envUpdate (s.env e)) ∧ ∀ l, u.lfo l = lfoUpdate (s.lfo l)

/-- R143, R66, R32: every command answers a next state in every state; so does every step, but for a host
access that the host agent does not have, which is refused and is no step. -/
def Obligations.EveryCommandAndStepCompletes : Prop :=
  (∀ i s, ∃ t, exec i s = .next t) ∧
  ∀ s, (∃ t, step s = .next t) ∨ ∃ x, nextEvent s = .noAccess x ∧ step s = .refused (.noSuchAccess x)

/-- R60, R61: a strobe executes the oldest min(CMD_BUDGET, length) words at tick phase 0 and none at any
other phase. -/
def Obligations.DrainTakesTheOldestWords : Prop :=
  ∀ s, ∃ t, strobe s = .next t ∧
    t.fifo = (if s.tphase = 0 then s.fifo.drop s.cfg.cmdBudget else s.fifo) ∧
    t.cmdCount = s.cmdCount + BitVec.ofNat 32 (drainedWords s).length

/-- R159, R60, R9: in a run of any agents' steps with 8k strobes among them, whatever the tick phase at its
start, the words D that left the FIFO are its oldest, they were executed, and there are between
min(k·CMD_BUDGET, length) and k·CMD_BUDGET of them; the words that CMD writes of the run appended stand
behind the others. So a word with q ahead of it has left the FIFO where k is above floor(q/CMD_BUDGET), and
has not where k is at most that: it executes in the (1 + floor(q/CMD_BUDGET))-th strobe of tick phase 0. -/
def Obligations.CommandLatencyIsBounded : Prop :=
  ∀ (s : State) (k : Nat) (run : List AgentStep) (rest : List Event), 1 ≤ s.cfg.cmdBudget →
    s.script = run.map .agent ++ rest → run.count .strobe = 8 * k →
    ∃ (t : State) (ws : List Word) (D : Nat),
      Host.Core.run Sys2Proof.core run.length s = .next t ∧ t.script = rest ∧
      ws.Sublist (run.filterMap writtenWord) ∧ t.fifo = (s.fifo ++ ws).drop D ∧
      D ≤ (s.fifo ++ ws).length ∧ t.cmdCount = s.cmdCount + BitVec.ofNat 32 D ∧
      min (k * s.cfg.cmdBudget) s.fifo.length ≤ D ∧ D ≤ k * s.cfg.cmdBudget ∧
      ∀ q, q < s.fifo.length →
        (q / s.cfg.cmdBudget < k → q < D) ∧ (k ≤ q / s.cfg.cmdBudget → D ≤ q)

/-- R17, R61, R71, R130, R150: TPHASE advances by one modulo 8 on every strobe and nothing else writes it;
CMD_COUNT advances by the words a strobe executes; TS changes in no step but a strobe: by one at tick phase
7, not at tick phases 1 to 6, and at tick phase 0, word by word of the drain, by one for each word that
grants (that appends a GATE_ON) and not for another. -/
def Obligations.CountersAdvanceOnStrobesOnly : Prop :=
  ∀ s t, step s = .next t →
    (nextEvent s = .agent .strobe →
      t.tphase = s.tphase + 1 ∧ t.cmdCount = s.cmdCount + BitVec.ofNat 32 (drainedWords s).length ∧
      (s.tphase ≠ 0 → t.ts = if s.tphase = 7 then s.ts + 1 else s.ts) ∧
      (s.tphase = 0 → 1 ≤ s.plen.toNat → 1 ≤ s.cfg.nVoices → ∃ u : Nat → State, u 0 = afterEvent s ∧
        t.ts = (u (drainedWords s).length).ts ∧ t.evt = (u (drainedWords s).length).evt ∧
        ∀ j w, (drainedWords s)[j]? = some w →
          execute w { u j with fifo := s.fifo.drop (j + 1) } = .next (u (j + 1)) ∧
          ∃ new, (u (j + 1)).evt = (u j).evt ++ new ∧
            (u (j + 1)).ts = (u j).ts + if ∃ r ∈ new, r.kind = .gateOn then 1 else 0)) ∧
    (nextEvent s ≠ .agent .strobe → t.tphase = s.tphase ∧ t.cmdCount = s.cmdCount ∧ t.ts = s.ts)

/-- R18, R146: a set flag stays set but for a CLEAR_FLAGS that selects it; CMD_OVF is set only by a CMD
write to a full FIFO, OVERRUN only by a drain of a pending half, BADCMD only by a strobe that executes an
illegal word. -/
def Obligations.FlagsAreSticky : Prop :=
  ∀ s t, step s = .next t →
    (s.cmdOvf = true → t.cmdOvf = true ∨
      (nextEvent s = .agent .strobe ∧ someCommand (drainedWords s) fun i => clearsFlag 0 i = true)) ∧
    (s.overrun = true → t.overrun = true ∨
      (nextEvent s = .agent .strobe ∧ someCommand (drainedWords s) fun i => clearsFlag 1 i = true)) ∧
    (s.badCmd = true → t.badCmd = true ∨
      (nextEvent s = .agent .strobe ∧ someCommand (drainedWords s) fun i => clearsFlag 2 i = true)) ∧
    (s.cmdOvf = false → t.cmdOvf = true →
      (∃ w, nextEvent s = .agent (.cmdWrite w)) ∧ s.cfg.fifoDepth ≤ s.fifo.length) ∧
    (s.overrun = false → t.overrun = true →
      nextEvent s = .agent .drain ∧ s.pending.get s.dmaPtr = true) ∧
    (s.badCmd = false → t.badCmd = true →
      nextEvent s = .agent .strobe ∧ ∃ w ∈ drainedWords s, ∃ e, decode w = .error e)

/-- R29: the two traces are append-only in every step. -/
def Obligations.TracesOnlyGrow : Prop :=
  ∀ s t, step s = .next t → s.evt <+: t.evt ∧ s.dac <+: t.dac

/-! ## The ports -/

/-- R59, R33: a CMD write appends the word, or with the FIFO full discards it and sets CMD_OVF; a STAGE write
replaces one entry below WAVE_MAX and has no effect from WAVE_MAX up; neither changes any other state. -/
def Obligations.PortWrites : Prop :=
  (∀ s w rest, s.script = .agent (.cmdWrite w) :: rest →
    step s = .next (if s.fifo.length < s.cfg.fifoDepth
      then { s with script := rest, fifo := s.fifo ++ [w] }
      else { s with script := rest, cmdOvf := true })) ∧
  ∀ s i v rest, MemoryOk s → s.script = .agent (.stageWrite i v) :: rest →
    ∃ t, step s = .next t ∧ t = { s with script := rest, staging := t.staging } ∧
      ∀ j, t.readStaging j = if j = i.toNat ∧ i.toNat < s.cfg.waveMax then v else s.readStaging j

/-- R40: a status read changes nothing but the words the host has read, and reading again gives the same
word; a STAGE write done twice is the same as once; each accepted CMD write appends one word. -/
def Obligations.PortSideEffects : Prop :=
  (∀ s a rest, s.script = .agent (.statusRead a) :: rest →
    ∃ t, step s = .next t ∧ t = { s with script := rest, reads := s.reads ++ [(a, readStatus s a)] } ∧
      ∀ b, readStatus t b = readStatus s b) ∧
  (∀ s i v, MemoryOk s → stageWrite i v (stageWrite i v s) = stageWrite i v s) ∧
  ∀ s w, s.fifo.length + 2 ≤ s.cfg.fifoDepth → (cmdWrite w (cmdWrite w s)).fifo = s.fifo ++ [w, w]

/-- R34, R35, R36: the codes of the named registers (R19, R22, R23, R24), and the status map word by word,
every bit (the FIFO level fits its field, R4). A word of a voice, envelope, oscillator or CV channel beyond
the configured number, and every address the map does not list, reads 0. That OSC_STATE reads TGT at
[15:14], as R36's table has it and R30's list has not, is the model's choice (log 10). -/
def Obligations.StatusMapWords : Prop :=
  ([Stage.wait, .attack, .decay, .sustain, .release, .done].map stageCode = [0, 1, 2, 3, 4, 5] ∧
    [Priority.last, .low, .high].map priorityCode = [0, 1, 2] ∧
    [LfoShape.tri, .sine, .saw, .rsaw, .square, .random, .noise].map lfoShapeCode = [0, 1, 2, 3, 4, 5, 6] ∧
    [Target.aliasing, .width, .freqRatio, .crossover].map targetCode = [0, 1, 2, 3]) ∧
  ∀ s : State, 1 ≤ s.cfg.nVoices → s.cfg.nVoices ≤ 6 → s.fifo.length ≤ 255 →
    readStatus s 0x00 = 0x4F564301 ∧
    (∃ anyPressed anyAssigned : Bool,
      (anyPressed = true ↔ s.noteHeld ≠ 0) ∧
      (anyAssigned = true ↔ ∃ v, v < s.cfg.nVoices ∧ (s.voice v).assigned = true) ∧
      readStatus s 0x01 = (0 : BitVec 4) ++ BitVec.ofBool s.dmaPtr ++ BitVec.ofBool s.fillPtr ++
        BitVec.ofBool (s.pending.get true) ++ BitVec.ofBool (s.pending.get false) ++
        BitVec.ofNat 8 s.fifo.length ++ (0 : BitVec 5) ++ s.tphase ++ (0 : BitVec 3) ++
        BitVec.ofBool anyAssigned ++ BitVec.ofBool anyPressed ++ BitVec.ofBool s.badCmd ++
        BitVec.ofBool s.overrun ++ BitVec.ofBool s.cmdOvf) ∧
    readStatus s 0x02 = s.ts ∧ readStatus s 0x03 = s.cmdCount ∧
    readStatus s 0x04 = (0 : BitVec 2) ++ s.syncActive ++ (0 : BitVec 5) ++ s.plen ++ (0 : BitVec 2) ++
      s.voiceMask ++ (0 : BitVec 1) ++ BitVec.ofBool s.hold ++ BitVec.ofNat 2 (priorityCode s.priority) ++
      BitVec.ofBool s.mono ++ BitVec.ofNat 3 s.cfg.nVoices ∧
    readStatus s 0x05 = s.glide ++ (0 : BitVec 10) ++ s.syncStaged ∧
    readStatus s 0x06 = (0 : BitVec 4) ++ s.waveLenStg ++ (0 : BitVec 10) ++ s.rr ∧
    (∀ v, v < 6 →
      readStatus s (BitVec.ofNat 8 (0x08 + v)) = (if v < s.cfg.nVoices then
        (0 : BitVec 9) ++ (s.voice v).rootNote ++ (0 : BitVec 1) ++ (s.voice v).note ++ (0 : BitVec 3) ++
        BitVec.ofBool (s.voice v).legato ++ BitVec.ofBool (s.voice v).fromKeyboard ++
        BitVec.ofBool (s.voice v).keyPressed ++ BitVec.ofBool (s.voice v).gated ++
        BitVec.ofBool (s.voice v).assigned else (0 : BitVec 32)) ∧
      readStatus s (BitVec.ofNat 8 (0x10 + v)) =
        (if v < s.cfg.nVoices then s.bendOf v ++ (s.voice v).velocity else (0 : BitVec 32)) ∧
      readStatus s (BitVec.ofNat 8 (0x18 + v)) = (if v < s.cfg.nVoices then (s.voice v).ts else 0) ∧
      readStatus s (BitVec.ofNat 8 (0x40 + v)) =
        (if v < s.cfg.nVoices then (0 : BitVec 16) ++ (s.env (2 * v + 1)).output else (0 : BitVec 32)) ∧
      readStatus s (BitVec.ofNat 8 (0xA8 + v)) =
        (if v < s.cfg.nVoices then s.tbOf v ++ s.pbOf v else (0 : BitVec 32)) ∧
      readStatus s (BitVec.ofNat 8 (0xB0 + v)) =
        (if v < s.cfg.nVoices then (0 : BitVec 16) ++ s.pressureOf v else (0 : BitVec 32)) ∧
      ∀ d, d < 7 → readStatus s (BitVec.ofNat 8 (0x50 + (7 * v + d))) =
        if v < s.cfg.nVoices then (0 : BitVec 16) ++ s.cv v d else (0 : BitVec 32)) ∧
    (∀ k, k < 12 →
      readStatus s (BitVec.ofNat 8 (0x20 + k)) = (if k < 2 * s.cfg.nVoices then
        (s.env k).output ++ (0 : BitVec 3) ++ (s.env k).shift ++ (0 : BitVec 3) ++
        BitVec.ofBool (s.env k).loop ++ BitVec.ofBool (s.env k).shape ++
        BitVec.ofNat 3 (stageCode (s.env k).stage) else (0 : BitVec 32)) ∧
      readStatus s (BitVec.ofNat 8 (0x30 + k)) =
        (if k < 2 * s.cfg.nVoices then (0 : BitVec 8) ++ (s.env k).phase else (0 : BitVec 32)) ∧
      readStatus s (BitVec.ofNat 8 (0x84 + k)) = (if k < 2 * s.cfg.nVoices then
        (s.osc k).curr ++ BitVec.ofNat 2 (targetCode (s.osc k).tgt) ++ BitVec.ofBool (s.osc k).raw ++
        BitVec.ofBool (s.osc k).half ++ (s.osc k).phase else (0 : BitVec 32)) ∧
      readStatus s (BitVec.ofNat 8 (0x90 + k)) =
        if k < 2 * s.cfg.nVoices then (s.osc k).counter else 0) ∧
    (∀ l : Bool,
      readStatus s (BitVec.ofNat 8 (0x48 + l.toNat)) = (s.lfo l).raw.setWidth 16 ++ (s.lfo l).output ∧
      readStatus s (BitVec.ofNat 8 (0x4C + l.toNat)) = (0 : BitVec 4) ++
        BitVec.ofNat 3 (lfoShapeCode (s.lfo l).shape) ++ BitVec.ofBool (s.lfo l).half ++ (s.lfo l).phase) ∧
    (∀ k, k < 4 → readStatus s (BitVec.ofNat 8 (0x80 + k)) = s.noteHeld.extractLsb' (32 * k) 32) ∧
    (∀ k, k < 8 → readStatus s (BitVec.ofNat 8 (0xA0 + k)) = (0 : BitVec 20) ++ (s.slot k).len) ∧
    ∀ a ∈ [0x07, 0x0E, 0x0F, 0x16, 0x17, 0x1E, 0x1F, 0x2C, 0x2D, 0x2E, 0x2F, 0x3C, 0x3D, 0x3E, 0x3F, 0x46,
        0x47, 0x4A, 0x4B, 0x4E, 0x4F, 0x7A, 0x7B, 0x7C, 0x7D, 0x7E, 0x7F, 0x9C, 0x9D, 0x9E, 0x9F, 0xAE,
        0xAF] ++ (List.range 74).map (0xB6 + ·),
      readStatus s (BitVec.ofNat 8 a) = 0

/-! ## Invariants of every step -/

/-- R12: a step changes no register file's size and no parameter. -/
def Obligations.StepKeepsSizes : Prop :=
  ∀ s t, Sized s → step s = .next t → Sized t ∧ t.cfg = s.cfg

/-- R25, R28: a step keeps the canonical form of the three memories and their index ranges. -/
def Obligations.StepKeepsMemoryCanonical : Prop :=
  ∀ s t, MemoryOk s → step s = .next t → MemoryOk t

/-- R17, R19, R25, R26, R27, R28, R71: a step keeps the legal values of the command port's, the assigner's
and the engine's registers, and TB[v] equal to the granted note in 1/256 semitone. -/
def Obligations.StepKeepsLegalValues : Prop :=
  ∀ s t, Sized s → step s = .next t → (Legal s → Legal t) ∧ (PitchTargetsOk s → PitchTargetsOk t)

/-- R24, R31 (e), R122: a step keeps every oscillator legal: its phase inside its slot, its counter between
0 and the running period, its periods and increments at least 1. -/
def Obligations.StepKeepsOscillatorsLegal : Prop :=
  ∀ s t, Sized s → OscsOk s → step s = .next t → OscsOk t

/-- R100, R91: a step keeps ADD + MUL of every envelope in 0..65535 and its increments those of R91. -/
def Obligations.StepKeepsEnvelopesLegal : Prop :=
  ∀ s t, EnvsOk s → step s = .next t → EnvsOk t

/-- R23, R110, R112: a step keeps every LFSR from 0 and every raw LFO value in −32768..32767. -/
def Obligations.StepKeepsLfosLegal : Prop :=
  ∀ s t, LfosOk s → step s = .next t → LfosOk t

/-- R31 (b): in every step that executes no ENV_GATE, a voice's envelopes stay in Wait exactly while the
voice is unassigned. -/
def Obligations.StepKeepsWaitIffUnassigned : Prop :=
  ∀ s t, Sized s → WaitIffFree s →
    (nextEvent s = .agent .strobe → ¬someCommand (drainedWords s) fun i => isEnvGate i = true) →
    step s = .next t → WaitIffFree t

/-- R31 (c), R99, R131: an envelope that was not in Wait is in Wait after a step only where the step
deallocated its voice: a strobe of tick phase 2 with the voice's amp envelope in Done, or one of tick phase
0 that drained a VOICE_DONE of the voice or a PANIC_OFF. The voice is unassigned then. -/
def Obligations.WaitIsEnteredByDeallocationOnly : Prop :=
  ∀ s t e, Sized s → e < 2 * s.cfg.nVoices → step s = .next t →
    (s.env e).stage ≠ .wait → (t.env e).stage = .wait →
    nextEvent s = .agent .strobe ∧ (t.voice (e / 2)).assigned = false ∧
    ((s.tphase = 2 ∧ (s.env (2 * (e / 2) + 1)).stage = .done) ∨
     (s.tphase = 0 ∧ someCommand (drainedWords s) fun i => deallocates s.cfg.nVoices (e / 2) i = true))

/-- R31 (d), R69, R76, R79, R87: no command grants a voice that is not enabled, be it free or assigned. Such
a voice is not newly assigned; its note, root, velocity, source flag, timestamp, PB and TB are kept; and of
the events a command appends none but a GATE_OFF names it. -/
def Obligations.DisabledVoicesAreNeverGranted : Prop :=
  ∀ i s t v, exec i s = .next t → ¬Enabled s v →
    ((t.voice v).assigned = true → (s.voice v).assigned = true) ∧
    ((t.voice v).note = (s.voice v).note ∧ (t.voice v).rootNote = (s.voice v).rootNote ∧
      (t.voice v).velocity = (s.voice v).velocity ∧ (t.voice v).fromKeyboard = (s.voice v).fromKeyboard ∧
      (t.voice v).ts = (s.voice v).ts ∧ t.pbOf v = s.pbOf v ∧ t.tbOf v = s.tbOf v) ∧
    ∃ new, t.evt = s.evt ++ new ∧ ∀ r ∈ new, r.voice = v → r.kind = .gateOff

/-- The invariants hold at reset, under every choice of parameters (R155, R156). -/
def Obligations.ResetMeetsTheInvariants : Prop :=
  ∀ c : Config, c.wf → Sized (State.resetWith c) ∧ MemoryOk (State.resetWith c) ∧
    Legal (State.resetWith c) ∧ OscsOk (State.resetWith c) ∧ EnvsOk (State.resetWith c) ∧
    LfosOk (State.resetWith c) ∧ WaitIffFree (State.resetWith c) ∧ PitchTargetsOk (State.resetWith c)

/-- R155: the reset value of every element, under every choice of parameters (`State.reset` is
`State.resetWith` of R4's defaults). -/
def Obligations.ResetValues : Prop :=
  ∀ c : Config, let s := State.resetWith c
    s.cfg = c ∧ readStatus s 0 = 0x4F564301 ∧
    (s.cmdOvf = false ∧ s.overrun = false ∧ s.badCmd = false ∧ s.tphase = 0 ∧ s.ts = 0 ∧
      s.cmdCount = 0 ∧ s.fifo = []) ∧
    (∀ v, v < 6 → s.voiceMask.getLsbD v = decide (v < c.nVoices)) ∧
    (s.priority = .last ∧ s.mono = false ∧ s.hold = false ∧ s.plen = 1 ∧ s.noteHeld = 0 ∧
      (∀ i, s.offset i = 0) ∧ ∀ i, s.offsetsStg.getD i 0 = 0) ∧
    (∀ v, s.voice v = ⟨false, false, false, false, false, 0, 0, 0, 0⟩) ∧
    (∀ e, s.env e = ⟨.wait, 0, 0, 0, 0, 0, 0, 0, 0, 0, false, false, 0, Config.envTimeLut 0,
      Config.envTimeLut 0, Config.envTimeLut 0⟩) ∧
    (∀ l, s.lfo l = ⟨0, false, 0, .tri, 0, 0, 0, .tri, 0, if l then 2 else 1, 0, 0, 0⟩) ∧
    (∀ o, s.osc o = ⟨0, false, 0, .aliasing, 0, 0, ⟨0x7FFFFFFF, 0x7FFFFFFF⟩, ⟨1, 1⟩, false, 0x8000, 0x8000,
      false, 0, 1⟩) ∧
    (∀ k, (s.slot k).len = 2 ∧ ∀ i, s.readSlot k i = 0x8000) ∧ (∀ i, s.readStaging i = 0) ∧
    s.waveLenStg = 0 ∧ (∀ d k, s.amount d k = 0) ∧ (∀ d, s.baseOf d = 0) ∧ s.glide = 0 ∧
    (∀ v, s.pbOf v = 0 ∧ s.tbOf v = 0 ∧ s.bendOf v = 0 ∧ s.pressureOf v = 0 ∧ ∀ d, s.cv v d = 0) ∧
    s.syncStaged = 0 ∧ s.syncActive = 0 ∧ (∀ h sl w, s.readBuf h sl w = 0) ∧
    (∀ h, s.pending.get h = true) ∧ s.fillPtr = false ∧ s.dmaPtr = false ∧ s.rr = 0 ∧
    s.evt = [] ∧ s.dac = []

/-- R156: after the first strobe from reset every voice is unassigned, every envelope is in Wait with
output 0, the LFO outputs are 0, and every CV is PITCH_MAP(v, 0) for the pitch CVs and 0 for the others;
and the first sample of every oscillator is 0x8000. -/
def Obligations.FirstStrobeAfterReset : Prop :=
  ∀ c : Config, c.wf →
    (∃ t, strobe (State.resetWith c) = .next t ∧
      (∀ v, v < c.nVoices → (t.voice v).assigned = false) ∧
      (∀ e, e < 2 * c.nVoices → (t.env e).stage = .wait ∧ (t.env e).output = 0) ∧
      (∀ l, (t.lfo l).output = 0) ∧
      ∀ v d, v < c.nVoices → d < 7 → t.cv v d = if d < 2 then Config.pitchMap v 0 else 0) ∧
    ∀ o, (stepOsc o (State.resetWith c)).2.1 = 0x8000

/-! ## Housekeeping commands -/

/-- R62, R63: NOP changes nothing but CMD_COUNT, for every word 0x00000000..0x03FFFFFF; CLEAR_FLAGS clears
exactly the flags its operand selects and changes nothing else. -/
def Obligations.NopAndClearFlags : Prop :=
  (∀ s, exec .nop s = .next s) ∧
  (∀ (w : Word) s, w.toNat ≤ 0x03FFFFFF → execute w s = .next { s with cmdCount := s.cmdCount + 1 }) ∧
  ∀ clr s, ∃ t, exec (.clearFlags clr) s = .next t ∧
    t = { s with cmdOvf := t.cmdOvf, overrun := t.overrun, badCmd := t.badCmd } ∧ SameMemory s t ∧
    t.cmdOvf = (if clr.getLsbD 0 then false else s.cmdOvf) ∧
    t.overrun = (if clr.getLsbD 1 then false else s.overrun) ∧
    t.badCmd = if clr.getLsbD 2 then false else s.badCmd

/-! ## Voice Assigner commands -/

/-- R86, R87, R88, R89: the assigner's settings, with the clamps of R54. -/
def Obligations.AssignerSettings : Prop :=
  (∀ prio s, ∃ t, exec (.setPriority prio) s = .next t ∧
    t = { s with priority := t.priority } ∧ SameMemory s t ∧
    priorityCode t.priority = min prio.toNat 2) ∧
  (∀ vmask s, ∃ t, exec (.setVoiceMask vmask) s = .next t ∧
    t = { s with voiceMask := t.voiceMask } ∧ SameMemory s t ∧
    ∀ k, k < 6 → t.voiceMask.getLsbD k = (vmask.getLsbD k && decide (k < s.cfg.nVoices))) ∧
  (∀ idx ofs s, Sized s → ∃ t, exec (.setPatternStep idx ofs) s = .next t ∧
    t = { s with offsetsStg := t.offsetsStg } ∧ SameMemory s t ∧
    ∀ i, i < 6 → t.offsetsStg.getD i 0 =
      if i = min idx.toNat (s.cfg.nVoices - 1) then ofs else s.offsetsStg.getD i 0) ∧
  ∀ mono len s, Sized s → ∃ t, exec (.setPattern mono len) s = .next t ∧
    t = { s with plen := t.plen, mono := mono, offsets := t.offsets } ∧ SameMemory s t ∧
    t.plen.toNat = min (max len.toNat 1) s.cfg.nVoices ∧
    ∀ i, i < 6 → t.offsets.getD i 0 = s.offsetsStg.getD i 0

/-- R69: the targets of a grant are the first min(PLEN, |E|) enabled voices in the cyclic order from the
start voice. -/
def Obligations.TargetsAreCyclicFromStart : Prop :=
  ∀ s start, start < s.cfg.nVoices →
    (targets s start).Pairwise (fun u v =>
      (u + s.cfg.nVoices - start) % s.cfg.nVoices < (v + s.cfg.nVoices - start) % s.cfg.nVoices) ∧
    (∀ v ∈ targets s start, Enabled s v) ∧
    (targets s start).length = min s.plen.toNat (enabledVoices s).length ∧
    ∀ v, Enabled s v → v ∉ targets s start → ∀ u ∈ targets s start,
      (u + s.cfg.nVoices - start) % s.cfg.nVoices < (v + s.cfg.nVoices - start) % s.cfg.nVoices

/-- R76, R77, R71: a NOTE_ON in poly mode completes in every state: the note is recorded as held; where
R76 drops it nothing else changes; else the pattern is granted from the voice R76 chooses. -/
def Obligations.NoteOnPoly : Prop :=
  ∀ k note vel s, Sized s → s.mono = false →
    ∃ r t, PolyChoice (s.setHeld note true) note r ∧ exec (.noteOn k note vel) s = .next t ∧
      OnlyAssigner s t ∧ (∀ m, t.held m = (s.held m || m == note)) ∧
      match r with
      | none => t = s.setHeld note true
      | some v => Granted s t note vel k false (targets s v)

/-- R78: in poly mode with a root-only pattern and every enabled voice assigned, a NOTE_ON of a note that is
the root of no enabled voice either gives exactly one voice a STOLEN_OFF before its GATE_ON, or under LOW
or HIGH is dropped with no event; under LAST it is granted. -/
def Obligations.StealingEmitsOneStolenOff : Prop :=
  ∀ k note vel s, Sized s → s.mono = false → s.plen = 1 → (∃ v, Enabled s v) →
    (∀ v, Enabled s v → (s.voice v).assigned = true ∧ (s.voice v).rootNote ≠ note) →
    ∃ t, exec (.noteOn k note vel) s = .next t ∧
      ((∃ v n, Enabled s v ∧ (t.voice v).rootNote = note ∧
          t.evt = s.evt ++ [offEvent .stolenOff v s, ⟨.gateOn, v, n, vel, false, k⟩]) ∨
       (s.priority ≠ .last ∧ t = s.setHeld note true))

/-- R79, R71: a NOTE_ON in mono mode completes in every state: the note is recorded as held; where no voice
is enabled or the note does not win, nothing else changes; else it is granted from the lowest enabled
voice, legato where another note is held and that voice is gated. -/
def Obligations.NoteOnMono : Prop :=
  ∀ k note vel s, Sized s → s.mono = true →
    ∃ t, exec (.noteOn k note vel) s = .next t ∧ OnlyAssigner s t ∧
      (∀ m, t.held m = (s.held m || m == note)) ∧
      (((∀ v, ¬Enabled s v) ∨ ¬MonoWins s note) → t = s.setHeld note true) ∧
      ∀ v, FirstEnabled s v → MonoWins s note → ∃ legato : Bool,
        (legato = true ↔ (∃ n, s.held n = true ∧ n ≠ note) ∧ (s.voice v).gated = true) ∧
        Granted s t note vel k legato (targets s v)

/-- R81, R73; and for a NOTE_OFF of a note not held the model's choice of R81 against R80's corner case (log
11): a NOTE_OFF in poly mode completes in every state: it clears the held bit and releases the key
of every assigned voice with that root, disabled voices included. -/
def Obligations.NoteOffPoly : Prop :=
  ∀ note s, Sized s → s.mono = false →
    ∃ t, exec (.noteOff note) s = .next t ∧
      t = { s with voices := t.voices, envs := t.envs, evt := t.evt, noteHeld := t.noteHeld } ∧
      SameMemory s t ∧ (∀ m, t.held m = (s.held m && m != note)) ∧
      KeysReleased s t ((List.range s.cfg.nVoices).filter (carries s note))

/-- R82; and for a NOTE_OFF of a note not held that an assigned voice carries the model's choice of R82
against R80's corner case (log 11): a NOTE_OFF in mono mode completes in every state. A note that no
assigned voice carries only loses its held bit; else the lowest (LOW) or highest (LAST, HIGH) restorable
note is granted afresh from the lowest enabled voice with that voice's velocity and source flag; where there
is none, or no enabled voice, the keys of the voices with that root are released. -/
def Obligations.NoteOffMono : Prop :=
  ∀ note s, Sized s → s.mono = true →
    ∃ t, exec (.noteOff note) s = .next t ∧ OnlyAssigner s t ∧
      (∀ m, t.held m = (s.held m && m != note)) ∧
      ((∀ v, v < s.cfg.nVoices → carries s note v = false) → t = s.setHeld note false) ∧
      ((∃ v, v < s.cfg.nVoices ∧ carries s note v = true) →
        (∀ v n, FirstEnabled s v → Restorable s note n →
          (∀ m, Restorable s note m →
            if s.priority = .low then n.toNat ≤ m.toNat else m.toNat ≤ n.toNat) →
          Granted s t n (s.voice v).velocity (s.voice v).fromKeyboard false (targets s v)) ∧
        (((∀ n, ¬Restorable s note n) ∨ ∀ v, ¬Enabled s v) →
          KeysReleased s t ((List.range s.cfg.nVoices).filter (carries s note)) ∧
          t.pb = s.pb ∧ t.tb = s.tb ∧ t.ts = s.ts))

/-- R84, R73: ALL_KEYS_OFF clears NOTE_HELD and releases the key of every assigned voice. -/
def Obligations.AllKeysOff : Prop :=
  ∀ s, Sized s → ∃ t, exec .allKeysOff s = .next t ∧
    t = { s with voices := t.voices, envs := t.envs, evt := t.evt, noteHeld := 0 } ∧ SameMemory s t ∧
    KeysReleased s t ((List.range s.cfg.nVoices).filter fun v => (s.voice v).assigned)

/-- R83, R85, R74: VOICE_DONE deallocates the voice min(V, N−1), PANIC_OFF every voice and NOTE_HELD; no
event is emitted. -/
def Obligations.VoiceDoneAndPanicOff : Prop :=
  (∀ v s, Sized s → ∃ t, exec (.voiceDone v) s = .next t ∧ OnlyVoices s t ∧
    Deallocated s t (fun u => u = min v.toNat (s.cfg.nVoices - 1))) ∧
  ∀ s, Sized s → ∃ t, exec .panicOff s = .next t ∧
    t = { s with voices := t.voices, envs := t.envs, noteHeld := 0 } ∧ SameMemory s t ∧
    Deallocated s t (fun _ => True)

/-- R90: HOLD 1 sets HOLD and nothing else; HOLD 0 clears it and gates off exactly the gated voices whose key
is up, with one GATE_OFF each in ascending order. -/
def Obligations.HoldCommand : Prop :=
  (∀ s, ∃ t, exec (.hold true) s = .next t ∧ t = { s with hold := true } ∧ SameMemory s t) ∧
  ∀ s, Sized s → ∃ t, exec (.hold false) s = .next t ∧
    t = { s with hold := false, voices := t.voices, envs := t.envs, evt := t.evt } ∧ SameMemory s t ∧
    ∃ R : List Nat,
      (R = (List.range s.cfg.nVoices).filter fun v =>
        (s.voice v).assigned && (s.voice v).gated && !(s.voice v).keyPressed) ∧
      (∀ v, v < s.cfg.nVoices →
        t.voice v = if v ∈ R then { s.voice v with gated := false } else s.voice v) ∧
      (∀ e, e < 2 * s.cfg.nVoices →
        t.env e = if e / 2 ∈ R then envSetGate false (s.env e) else s.env e) ∧
      t.evt = s.evt ++ R.map fun v => offEvent .gateOff v s

/-! ## Envelopes -/

/-- R101 to R107, R91: each ENV_SET command writes its field in every envelope of the target set and
recomputes that envelope's increments, which are the table's entries of its three time CVs shifted right by
its SHIFT; no other envelope and no other state changes. -/
def Obligations.EnvelopeSettings : Prop :=
  (∀ x, envRecompute x = { x with
    incA := Config.envTimeLut x.atkCv >>> x.shift.toNat
    incD := Config.envTimeLut x.decCv >>> x.shift.toNat
    incR := Config.envTimeLut x.relCv >>> x.shift.toNat }) ∧
  ∀ b e imm s, Sized s →
    (∃ t, exec (.envSetAttack b e imm) s = .next t ∧ OnlyEnvs s t ∧ ∀ k, k < 2 * s.cfg.nVoices →
      t.env k = if InEnvset s.cfg.nVoices b e k
        then envRecompute { s.env k with atkCv := imm } else s.env k) ∧
    (∃ t, exec (.envSetDecay b e imm) s = .next t ∧ OnlyEnvs s t ∧ ∀ k, k < 2 * s.cfg.nVoices →
      t.env k = if InEnvset s.cfg.nVoices b e k
        then envRecompute { s.env k with decCv := imm } else s.env k) ∧
    (∃ t, exec (.envSetSustain b e imm) s = .next t ∧ OnlyEnvs s t ∧ ∀ k, k < 2 * s.cfg.nVoices →
      t.env k = if InEnvset s.cfg.nVoices b e k
        then envRecompute { s.env k with susCv := imm } else s.env k) ∧
    (∃ t, exec (.envSetRelease b e imm) s = .next t ∧ OnlyEnvs s t ∧ ∀ k, k < 2 * s.cfg.nVoices →
      t.env k = if InEnvset s.cfg.nVoices b e k
        then envRecompute { s.env k with relCv := imm } else s.env k) ∧
    (∃ t, exec (.envSetLevel b e imm) s = .next t ∧ OnlyEnvs s t ∧ ∀ k, k < 2 * s.cfg.nVoices →
      t.env k = if InEnvset s.cfg.nVoices b e k
        then envRecompute { s.env k with level := imm } else s.env k) ∧
    (∀ loop shape, ∃ t, exec (.envSetMode b e loop shape) s = .next t ∧ OnlyEnvs s t ∧
      ∀ k, k < 2 * s.cfg.nVoices → t.env k = if InEnvset s.cfg.nVoices b e k
        then envRecompute { s.env k with shape := shape, loop := loop } else s.env k) ∧
    ∀ shift, ∃ t, exec (.envSetShift b e shift) s = .next t ∧ OnlyEnvs s t ∧
      ∀ k, k < 2 * s.cfg.nVoices → t.env k = if InEnvset s.cfg.nVoices b e k
        then envRecompute { s.env k with shift := shift } else s.env k

/-- R108, R95, R94: ENV_GATE starts Attack (towards LEVEL) or Release (towards 0) in every envelope of the
target set, at phase 0 and from the current output, which does not change. -/
def Obligations.EnvGateCommand : Prop :=
  ∀ b e gate s, Sized s → ∃ t, exec (.envGate b e gate) s = .next t ∧ OnlyEnvs s t ∧
    ∀ k, k < 2 * s.cfg.nVoices → ∃ y : Env,
      y.mul.toInt = (if gate then ((s.env k).level.toNat : Int) else 0) - (s.env k).output.toNat ∧
      t.env k = if InEnvset s.cfg.nVoices b e k
        then envRecompute { s.env k with
          stage := if gate then .attack else .release
          phase := 0
          add := (s.env k).output
          mul := y.mul }
        else s.env k

/-- R97: one update of an envelope, stage by stage. In Wait and Done nothing; in Sustain the output follows
SUS, or with LOOP Attack starts; a running stage advances its phase and shapes its output, saturated to 16
bits, or completes at its saturated target and enters the next stage at phase 0. -/
def Obligations.EnvelopeUpdate : Prop :=
  ∀ x : Env,
    ((x.stage = .wait ∨ x.stage = .done) → envUpdate x = x) ∧
    (x.stage = .sustain → x.loop = true → ∃ m : BitVec 17,
      m.toInt = (x.level.toNat : Int) - x.output.toNat ∧
      envUpdate x = { x with stage := .attack, phase := 0, add := x.output, mul := m }) ∧
    (x.stage = .sustain → x.loop = false → ∃ o : U16,
      o.toNat = x.susCv.toNat * x.level.toNat / 65536 ∧ envUpdate x = { x with output := o }) ∧
    ∀ inc : Nat, (x.stage = .attack ∧ inc = x.incA.toNat ∨ x.stage = .decay ∧ inc = x.incD.toNat ∨
        x.stage = .release ∧ inc = x.incR.toNat) →
      (x.phase.toNat + inc < 2 ^ 24 → ∃ (p : BitVec 24) (o : U16),
        p.toNat = x.phase.toNat + inc ∧
        (o.toNat : Int) =
          min (max (x.add.toNat + (envShape x p.toNat : Int) * x.mul.toInt / 65536) 0) 65535 ∧
        envUpdate x = { x with phase := p, output := o }) ∧
      (2 ^ 24 ≤ x.phase.toNat + inc → ∃ (o : U16) (m : BitVec 17),
        (o.toNat : Int) = min (max (x.add.toNat + x.mul.toInt) 0) 65535 ∧
        (x.stage = .attack → m.toInt = (x.susCv.toNat * x.level.toNat / 65536 : Nat) - (o.toNat : Int) ∧
          envUpdate x = { x with stage := .decay, phase := 0, add := o, mul := m, output := o }) ∧
        (x.stage = .decay →
          envUpdate x = { x with stage := .sustain, phase := 0, add := o, mul := 0, output := o }) ∧
        (x.stage = .release →
          envUpdate x = { x with stage := .done, phase := 0, add := 0, mul := 0, output := o }))

/-- R93, R100: the shape of a phase, the linear ramp or the Catmull-Rom interpolation of the table clamped
to 16 bits; at the start of a segment the latter is the table's entry exactly; during a stage the output
lies between ADD and ADD + MUL; the linear shape makes it monotone in the phase, rising where MUL ≥ 0 and
falling where MUL ≤ 0. -/
def Obligations.StageOutputIsBoundedAndMonotone : Prop :=
  (∀ x p, p < 2 ^ 24 → envShape x p ≤ 65535 ∧
    (x.shape = false → envShape x p = p / 2 ^ 8) ∧
    (x.shape = true → let i := p / 2 ^ 16
      let t := ((p % 2 ^ 16 : Nat) : Int)
      let S : Int := 65536
      let L := fun k => ((Config.envExpLut k).toNat : Int)
      let p0 := L (max (i - 1) 0)
      let p1 := L i
      let p2 := L (i + 1)
      let p3 := L (min (i + 2) 256)
      let num := 2 * p1 * S ^ 3 + (p2 - p0) * t * S ^ 2 + (2 * p0 - 5 * p1 + 4 * p2 - p3) * t ^ 2 * S +
        (3 * p1 - p0 - 3 * p2 + p3) * t ^ 3
      (envShape x p : Int) = min (max (num / (2 * S ^ 3)) 0) 65535)) ∧
  (∀ (x : Env) i, x.shape = true → i < 256 → envShape x (i * 65536) = (Config.envExpLut i).toNat) ∧
  (∀ (x : Env) p, p < 2 ^ 24 → let o := (x.add.toNat : Int) + (envShape x p : Int) * x.mul.toInt / 65536
    min (x.add.toNat : Int) (x.add.toNat + x.mul.toInt) ≤ o ∧
    o ≤ max (x.add.toNat : Int) (x.add.toNat + x.mul.toInt)) ∧
  ∀ (x : Env) p q, x.shape = false → p ≤ q → q < 2 ^ 24 →
    (0 ≤ x.mul.toInt → (envShape x p : Int) * x.mul.toInt / 65536 ≤ (envShape x q : Int) * x.mul.toInt / 65536) ∧
    (x.mul.toInt ≤ 0 → (envShape x q : Int) * x.mul.toInt / 65536 ≤ (envShape x p : Int) * x.mul.toInt / 65536)

/-- R131, R74: at tick phase 2 exactly the voices whose amp envelope is in Done are deallocated. -/
def Obligations.HousekeepingDeallocatesDoneVoices : Prop :=
  ∀ s, Sized s → OnlyVoices s (tickTask 2 s) ∧
    Deallocated s (tickTask 2 s) (fun v => (s.env (2 * v + 1)).stage = .done)

/-! ## LFOs -/

/-- R114 to R118: the LFO commands write the staged field, or LFO_RESET the phase and the half, of the LFO
they select, and nothing else. -/
def Obligations.LfoCommands : Prop :=
  ∀ l s,
    (∀ imm, ∃ t, exec (.lfoSetSpeed l imm) s = .next t ∧ OnlyLfos s t ∧
      ∀ m, t.lfo m = if m = l then { s.lfo m with speedStg := imm } else s.lfo m) ∧
    (∀ sh, ∃ t, exec (.lfoSetShift l sh) s = .next t ∧ OnlyLfos s t ∧
      ∀ m, t.lfo m = if m = l then { s.lfo m with shiftStg := sh } else s.lfo m) ∧
    (∀ x, ∃ t y, exec (.lfoSetShape l x) s = .next t ∧ OnlyLfos s t ∧ lfoShapeCode y = min x.toNat 6 ∧
      ∀ m, t.lfo m = if m = l then { s.lfo m with shapeStg := y } else s.lfo m) ∧
    (∀ imm, ∃ t, exec (.lfoSetLevel l imm) s = .next t ∧ OnlyLfos s t ∧
      ∀ m, t.lfo m = if m = l then { s.lfo m with levelStg := imm } else s.lfo m) ∧
    ∃ t, exec (.lfoReset l) s = .next t ∧ OnlyLfos s t ∧
      ∀ m, t.lfo m = if m = l then { s.lfo m with phase := 0, half := false } else s.lfo m

/-- R110, R111, R112: one step of the register shifts right and, where bit 0 was set, exclusive-ors the mask;
it never reaches 0 from elsewhere. The raw value by shape and half, always a signed 16-bit value. One update
of an LFO: the phase is the sum modulo 2^24, the half flips with the parity of the boundaries crossed, a
boundary draws one random value, NOISE steps the register once more, and the output is the raw value scaled
by LEVEL without wrapping. -/
def Obligations.LfoUpdate : Prop :=
  (∀ r : BitVec 32, lfsrStep r = (if r.getLsbD 0 then (r >>> 1) ^^^ 0xD0000001 else r >>> 1) ∧
    (r ≠ 0 → lfsrStep r ≠ 0)) ∧
  (∀ y : Lfo, let ph := y.phase.toNat
    let pos := (if y.half then 2 ^ 24 else 0) + ph
    let T := fun i => ((Config.lfoSineLut i).toNat : Int)
    let s := T (ph / 65536) + (T (ph / 65536 + 1) - T (ph / 65536)) * (ph % 65536 : Nat) / 65536
    (-32768 ≤ lfoRaw y ∧ lfoRaw y ≤ 32767) ∧
    lfoRaw y = match y.shape, y.half with
      | .tri, false => (ph / 256 : Nat) - 32768
      | .tri, true => 32767 - (ph / 256 : Nat)
      | .sine, false => s / 2
      | .sine, true => -(s / 2)
      | .saw, _ => (pos / 512 : Nat) - 32768
      | .rsaw, _ => 32767 - (pos / 512 : Nat)
      | .square, false => 32767
      | .square, true => -32768
      | .random, _ => y.randVal.toInt
      | .noise, _ => (y.lfsr.extractLsb' 16 16).toInt) ∧
  ∀ x : Lfo, let p := x.phase.toNat + x.inc.toNat
    let n := p / 2 ^ 24
    let y := lfoUpdate x
    let drawn := if 0 < n then lfsrStep x.lfsr else x.lfsr
    y.phase.toNat = p % 2 ^ 24 ∧ y.half = (x.half ^^ decide (n % 2 = 1)) ∧
    y.randVal = (if 0 < n then drawn.extractLsb' 16 16 else x.randVal) ∧
    y.lfsr = (if x.shape = .noise then lfsrStep drawn else drawn) ∧
    y.raw.toInt = lfoRaw y ∧ y.output.toInt = lfoRaw y * x.level.toNat / 65536 ∧
    y = { x with phase := y.phase, half := y.half, randVal := y.randVal, lfsr := y.lfsr, raw := y.raw,
                 output := y.output }

/-- R113, R109: no command but the LFO commands changes an LFO; in every step the active increment, shape
and level of an LFO become the staged ones exactly in a strobe of tick phase 5, and are kept in every
other step. -/
def Obligations.LfoParametersActAtRefreshOnly : Prop :=
  (∀ i s t, exec i s = .next t → isLfoCommand i = false → t.lfos = s.lfos) ∧
  ∀ s t l, step s = .next t →
    if nextEvent s = .agent .strobe ∧ s.tphase = 5 then
      (t.lfo l).inc = Config.lfoRateLut (s.lfo l).speedStg >>> (s.lfo l).shiftStg.toNat ∧
      (t.lfo l).shape = (s.lfo l).shapeStg ∧ (t.lfo l).level = (s.lfo l).levelStg
    else (t.lfo l).inc = (s.lfo l).inc ∧ (t.lfo l).shape = (s.lfo l).shape ∧ (t.lfo l).level = (s.lfo l).level

/-! ## Oscillators and the waveform store -/

/-- R125, R126: OSC_SET_WAVE sets the selected oscillator's slots and clamps its phase to the new slot;
OSC_SET_TARGET sets its WaveMod target; no other oscillator and no other state changes. -/
def Obligations.OscillatorSettings : Prop :=
  ∀ x v s, Sized s →
    (∀ xslot xen main, ∃ t, exec (.oscSetWave x v xslot xen main) s = .next t ∧ OnlyOscs s t ∧
        ∀ o, o < 2 * s.cfg.nVoices → ∃ p : BitVec 12,
          p.toNat = min (s.osc o).phase.toNat ((s.slot main.toNat).len.toNat - 1) ∧
          t.osc o = if o = 2 * min v.toNat (s.cfg.nVoices - 1) + x.toNat
            then { s.osc o with main := main, xen := xen, xslot := xslot, phase := p } else s.osc o) ∧
    ∀ tgt, ∃ t y, exec (.oscSetTarget x v tgt) s = .next t ∧ OnlyOscs s t ∧ targetCode y = tgt.toNat ∧
      ∀ o, o < 2 * s.cfg.nVoices →
        t.osc o = if o = 2 * min v.toNat (s.cfg.nVoices - 1) + x.toNat
          then { s.osc o with tgt := y } else s.osc o

/-- R127, R128: SET_SYNC_MASK stages the mask without the bits beyond N; WAVE_SET_LEN stages the length. -/
def Obligations.SyncMaskAndWaveLength : Prop :=
  (∀ vmask s, ∃ t, exec (.setSyncMask vmask) s = .next t ∧
    t = { s with syncStaged := t.syncStaged } ∧ SameMemory s t ∧
    ∀ k, k < 6 → t.syncStaged.getLsbD k = (vmask.getLsbD k && decide (k < s.cfg.nVoices))) ∧
  ∀ len s, ∃ t, exec (.waveSetLen len) s = .next t ∧ t = { s with waveLenStg := len } ∧ SameMemory s t

/-- R27: SYNC_ACTIVE becomes SYNC_STAGED exactly in a strobe of tick phase 6. -/
def Obligations.SyncMaskLatchesAtPhaseSix : Prop :=
  ∀ s t, step s = .next t →
    t.syncActive = if nextEvent s = .agent .strobe ∧ s.tphase = 6 then s.syncStaged else s.syncActive

/-- R129: WAVE_COMMIT gives the slot the clamped length, the first min(valid, P) staged samples and 0x8000
after them, and clamps the phases of the oscillators that read it; every other slot, the staging memory
and the output buffer read as before, and nothing else changes. -/
def Obligations.WaveCommit : Prop :=
  ∀ slot valid s, Sized s → ∃ t P, exec (.waveCommit slot valid) s = .next t ∧
    P = min (max s.waveLenStg.toNat 2) s.cfg.waveMax ∧
    t = { s with slots := t.slots, oscs := t.oscs } ∧
    (∀ k, k < 8 → (t.slot k).len.toNat = if k = slot.toNat then P else (s.slot k).len.toNat) ∧
    (∀ k i, k < 8 → t.readSlot k i =
      if k = slot.toNat then (if i < min valid.toNat P then s.readStaging i else 0x8000)
      else s.readSlot k i) ∧
    (∀ i, t.readStaging i = s.readStaging i) ∧ (∀ h sl w, t.readBuf h sl w = s.readBuf h sl w) ∧
    ∀ o, o < 2 * s.cfg.nVoices → ∃ p : BitVec 12, p.toNat = min (s.osc o).phase.toNat (P - 1) ∧
      t.osc o = if (s.osc o).main = slot then { s.osc o with phase := p } else s.osc o

/-- R119: the parameters of an oscillator from its main slot's length, its pitch CV and its WaveMod amount,
per target and per half; nothing else of the oscillator changes. -/
def Obligations.OscillatorSetParameters : Prop :=
  ∀ (c : Config) (slots : List Slot) (pitch amt : U16) (x : Osc), Config.wf c →
    let P := (slotOf slots x.main.toNat).len.toNat
    let y := oscSetParameters c (oscLen slots x) pitch amt x
    let j := pitch.toNat / 256 % 16
    let L := fun k => ((Config.oscOctLut k).toNat : Int)
    let f0 := ((L j * 256 + (L (j + 1) - L j) * (pitch.toNat % 256 : Nat)) *
      2 ^ (pitch.toNat / 4096) / 256).toNat
    let f := if x.tgt = .freqRatio then f0 + f0 * amt.toNat / 65536 else f0
    let W := if x.tgt = .width then min (max (32768 + amt.toNat / 2) 8192) 57344 else 32768
    let c0 := max 1 (Config.oscRateCeil pitch).toNat
    let ceil := if x.tgt = .aliasing then max 1 (c0 * (65536 - amt.toNat) / 65536) else c0
    y = { x with raw := y.raw, xamt := y.xamt, incr := y.incr, period := y.period } ∧
    (y.raw = true ↔ x.tgt = .aliasing ∧ 0 < amt.toNat) ∧
    y.xamt = (if x.tgt = .crossover then amt else 0) ∧
    ∀ h : Bool, let Wh := if h then 65536 - W else W
      (f = 0 → y.incr.get h = 1 ∧ (y.period.get h).toNat = 2 ^ 31 - 1) ∧
      (f ≠ 0 →
        (y.incr.get h).toNat =
          min (max ((f * P * 32768 + Wh * ceil - 1) / (Wh * ceil)) 1) c.oscMaxIncr ∧
        (y.period.get h).toNat =
          min (max (c.vclk * 256 * (y.incr.get h).toNat * Wh / (f * P * 32768)) 1) (2 ^ 31 - 1))

/-- R119, R123, R120: the half-cycle width lies in 32768..57344 for every WaveMod target and amount; for a
frequency f, a slot length P, a share Wh and a ceiling, all positive, the increment is
the least d ≥ 1 that keeps the rate within the ceiling, or OSC_MAX_INCR where that is too large, and the
period is the exact one rounded down where it is in range. -/
def Obligations.OscillatorParameters : Prop :=
  (∀ t amt, 32768 ≤ oscWidth t amt ∧ oscWidth t amt ≤ 57344) ∧
  ∀ c f P Wh ceil, Config.wf c → 0 < f → 0 < P → 0 < Wh → 0 < ceil →
    let d := (oscHalfParams c f P Wh ceil).1.toNat
    let per := (oscHalfParams c f P Wh ceil).2.toNat
    let exact := c.vclk * 256 * d * Wh
    (1 ≤ d ∧ d ≤ c.oscMaxIncr) ∧ (1 ≤ per ∧ per ≤ 2 ^ 31 - 1) ∧
    (if f * P * 32768 ≤ Wh * ceil * c.oscMaxIncr
      then f * P * 32768 ≤ Wh * ceil * d ∧ ∀ d', 1 ≤ d' → d' < d → Wh * ceil * d' < f * P * 32768
      else d = c.oscMaxIncr) ∧
    (f * P * 32768 ≤ exact → exact < 2 ^ 31 * (f * P * 32768) →
      per * (f * P * 32768) ≤ exact ∧ exact < (per + 1) * (f * P * 32768))

/-- R122, R121: a latched sample is the main slot's, blended with the crossover slot's where crossover is
enabled, its amount is not 0 and the two lengths match; so it lies between the main slot's sample and the
crossover slot's. One pass of R122's loop reloads the active half's period into the counter and LASTPER,
moves the phase back by that half's increment modulo the sample count (a wrap where it fell below 0), takes
the half from the new phase, and shifts the samples. A step of a legal oscillator over a slot of at least
one sample subtracts OSC_TICK and makes exactly the passes R122's loop makes (for an OSC_TICK above 2^31,
where the difference may not fit COUNTER's 32 bits, that the counter is an exact integer within the step is
the model's choice, log 12), none where the counter stays positive (then nothing but the counter changes);
it keeps the oscillator legal, leaves its counter in 1..LASTPER, and answers the raw sample or the
interpolated one, between its previous and current samples. -/
def Obligations.OscillatorStepIsBounded : Prop :=
  (∀ slots (x : Osc) ph, let m := (slotOf slots x.main.toNat).read ph
    let k := (slotOf slots x.xslot.toNat).read ph
    ((sampleAt slots x ph).toNat : Int) =
      (if x.xen = true ∧ 0 < x.xamt.toNat ∧ (slotOf slots x.xslot.toNat).len = (slotOf slots x.main.toNat).len
        then m.toNat + ((k.toNat : Int) - m.toNat) * x.xamt.toNat / 65536 else (m.toNat : Int)) ∧
    min m.toNat k.toNat ≤ (sampleAt slots x ph).toNat ∧ (sampleAt slots x ph).toNat ≤ max m.toNat k.toNat) ∧
  (∀ slots n (x : Osc), 0 < oscLen slots x → ∃ y : Osc,
    (oscReload slots n x).1 = n + (x.period.get x.half).toNat ∧
    ((oscReload slots n x).2.1 = true ↔ x.phase.toNat < (x.incr.get x.half).toNat) ∧
    (oscReload slots n x).2.2 = { x with lastPer := x.period.get x.half, phase := y.phase, half := y.half,
                                         prev := x.curr, curr := sampleAt slots x y.phase.toNat } ∧
    (y.phase.toNat : Int) = ((x.phase.toNat : Int) - (x.incr.get x.half).toNat) % (oscLen slots x : Int) ∧
    (y.half = false ↔ oscLen slots x / 2 ≤ y.phase.toNat)) ∧
  ∀ c slots x, Config.wf c → OscOk c (oscLen slots x) x → let r := oscStep c slots x
    let pass := fun a : Int × Bool × Osc =>
      ((oscReload slots a.1 a.2.2).1, a.2.1 || (oscReload slots a.1 a.2.2).2.1, (oscReload slots a.1 a.2.2).2.2)
    let start := (x.counter.toInt - (c.oscTick : Int), false, x)
    OscOk c (oscLen slots x) r.1 ∧ 1 ≤ r.1.counter.toInt ∧
    (min r.1.prev.toNat r.1.curr.toNat ≤ r.2.1.toNat ∧ r.2.1.toNat ≤ max r.1.prev.toNat r.1.curr.toNat) ∧
    (∃ m, (∀ j, j < m → (pass^[j] start).1 ≤ 0) ∧ r.1.counter.toInt = (pass^[m] start).1 ∧
      r.1 = { (pass^[m] start).2.2 with counter := r.1.counter } ∧ r.2.2 = (pass^[m] start).2.1) ∧
    ((c.oscTick : Int) < x.counter.toInt → r.1 = { x with counter := r.1.counter } ∧
      r.1.counter.toInt = x.counter.toInt - c.oscTick ∧ r.2.2 = false) ∧
    (r.2.1.toNat : Int) = if r.1.raw = true then (r.1.curr.toNat : Int)
      else r.1.prev.toNat + ((r.1.curr.toNat : Int) - r.1.prev.toNat) *
        ((r.1.lastPer.toNat : Int) - r.1.counter.toInt) / r.1.lastPer.toNat

/-- R124: while a slot of a half is filled, oscillator B of a voice is reset before its own step exactly
when A wrapped in this slot and the voice's sync is active, and the slot's two words are the samples of
the two steps with their channels; a legal B that was reset reloads at once and wraps. -/
def Obligations.HardSyncResetsSlave : Prop :=
  (∀ s h sl v, Sized s → MemoryOk s → v < s.cfg.nVoices →
    let a := oscStep s.cfg s.slots (s.osc (2 * v))
    let b := oscStep s.cfg s.slots
      (if a.2.2 = true ∧ s.syncActive.getLsbD v = true
        then { s.osc (2 * v + 1) with phase := 0, counter := 0, half := false }
        else s.osc (2 * v + 1))
    let t := fillVoice h sl v s
    t = { s with oscs := t.oscs, buf := t.buf } ∧ t.osc (2 * v) = a.1 ∧ t.osc (2 * v + 1) = b.1 ∧
    (∀ o, o ≠ 2 * v → o ≠ 2 * v + 1 → t.osc o = s.osc o) ∧
    t.readBuf h sl (2 * v) = BitVec.ofNat 16 (2 * v) ++ a.2.1 ∧
    t.readBuf h sl (2 * v + 1) = BitVec.ofNat 16 (2 * v + 1) ++ b.2.1) ∧
  ∀ c slots x, Config.wf c → OscOk c (oscLen slots x) x →
    (oscStep c slots { x with phase := 0, counter := 0, half := false }).2.2 = true

/-! ## The CV engine and the output buffer -/

/-- R138, R139: BEND and PRESSURE write the registers of the voices in the mask that exist, and nothing
else. -/
def Obligations.ControllerCommands : Prop :=
  ∀ vm imm s, Sized s →
    (∃ t, exec (.bend vm imm) s = .next t ∧ t = { s with bend := t.bend } ∧ SameMemory s t ∧
      ∀ v, v < s.cfg.nVoices → t.bendOf v = if vm.getLsbD v then imm else s.bendOf v) ∧
    ∃ t, exec (.pressure vm imm) s = .next t ∧ t = { s with pressure := t.pressure } ∧ SameMemory s t ∧
      ∀ v, v < s.cfg.nVoices → t.pressureOf v = if vm.getLsbD v then imm else s.pressureOf v

/-- R140, R141, R142: the modulation commands write one amount, one base or the glide rate. -/
def Obligations.ModulationSettings : Prop :=
  ∀ s, Sized s →
    (∀ src dst imm, ∃ t, exec (.modSetAmount src dst imm) s = .next t ∧ t = { s with amt := t.amt } ∧
      SameMemory s t ∧ ∀ d k, d < 7 → k < 8 →
        t.amount d k = if d = min dst.toNat 6 ∧ k = src.toNat then imm.toInt else s.amount d k) ∧
    (∀ dst imm, ∃ t, exec (.modSetBase dst imm) s = .next t ∧ t = { s with base := t.base } ∧
      SameMemory s t ∧ ∀ d, d < 7 → t.baseOf d = if d = min dst.toNat 6 then imm else s.baseOf d) ∧
    ∀ imm, ∃ t, exec (.setGlide imm) s = .next t ∧ t = { s with glide := imm } ∧ SameMemory s t

/-- R132, R131: tick phase 4 moves every PB[v] towards TB[v] by at most GLIDE and never past it, or with
GLIDE 0 sets it to TB[v]; no other state changes. -/
def Obligations.GlideNeverOvershoots : Prop :=
  ∀ s, Sized s → let t := tickTask 4 s
    t = { s with pb := t.pb } ∧ SameMemory s t ∧ ∀ v, v < s.cfg.nVoices →
      (s.glide = 0 → t.pbOf v = s.tbOf v) ∧
      (s.glide ≠ 0 → (s.pbOf v).toNat < (s.tbOf v).toNat →
        (t.pbOf v).toNat = min (s.tbOf v).toNat ((s.pbOf v).toNat + s.glide.toNat)) ∧
      (s.glide ≠ 0 → (s.tbOf v).toNat ≤ (s.pbOf v).toNat →
        ((t.pbOf v).toNat : Int) = max ((s.tbOf v).toNat : Int) ((s.pbOf v).toNat - s.glide.toNat))

/-- R133: the CV frame gives every voice its seven saturated sums of eight sources, and then the parameters
of R119 to its two oscillators; nothing else changes. -/
def Obligations.CvFrameSums : Prop :=
  ∀ s, Sized s → let t := cvFrame s
    t = { s with cvOut := t.cvOut, oscs := t.oscs } ∧ SameMemory s t ∧
    ∀ v, v < s.cfg.nVoices →
      (∀ d, d < 7 → ((t.cv v d).toNat : Int) =
        min (max ((if d < 2 then ((Config.pitchMap v (s.pbOf v)).toNat : Int) + (s.baseOf d).toInt
            else (s.baseOf d).toNat) +
          s.amount d 0 * (s.env (2 * v)).output.toNat / 32768 +
          s.amount d 1 * (s.env (2 * v + 1)).output.toNat / 32768 +
          s.amount d 2 * (s.lfo false).output.toInt / 32768 +
          s.amount d 3 * (s.lfo true).output.toInt / 32768 +
          s.amount d 4 * (s.voice v).velocity.toNat / 32768 +
          s.amount d 5 * (s.bendOf v).toInt / 32768 +
          s.amount d 6 * (s.pressureOf v).toNat / 32768 +
          s.amount d 7 * (s.pbOf v).toNat / 32768) 0) 65535) ∧
      t.osc (2 * v) =
        oscSetParameters s.cfg (oscLen s.slots (s.osc (2 * v))) (t.cv v 0) (t.cv v 6) (s.osc (2 * v)) ∧
      t.osc (2 * v + 1) =
        oscSetParameters s.cfg (oscLen s.slots (s.osc (2 * v + 1))) (t.cv v 1) (t.cv v 6)
          (s.osc (2 * v + 1))

/-- R124, R134, R135, R137: a FILL step while the half at FILL_PTR is pending. In each slot and for each voice
in turn, oscillator A steps, B is reset where A wrapped under an active sync, and B steps; the slot's words
are the two samples of every voice, tagged with their channel, and one CV word of the next round-robin
channel. The oscillators end where the last slot leaves them; the other half is kept, the half is no longer
pending, FILL_PTR and RR advance, and nothing else changes. -/
def Obligations.FillWritesTaggedHalf : Prop :=
  ∀ s rest, Sized s → MemoryOk s → s.rr.toNat < 7 * s.cfg.nVoices → s.script = .agent .fill :: rest →
    s.pending.get s.fillPtr = true → ∃ (t : State) (x : Nat → Nat → Osc), step s = .next t ∧
    t = { s with script := rest, oscs := t.oscs, buf := t.buf, rr := t.rr,
                 pending := s.pending.set s.fillPtr false, fillPtr := !s.fillPtr } ∧
    t.rr.toNat = (s.rr.toNat + s.cfg.halfLen) % (7 * s.cfg.nVoices) ∧
    (∀ sl w, sl < s.cfg.halfLen → w ≤ 2 * s.cfg.nVoices →
      t.readBuf (!s.fillPtr) sl w = s.readBuf (!s.fillPtr) sl w) ∧
    (∀ o, o < 2 * s.cfg.nVoices → x 0 o = s.osc o ∧ t.osc o = x s.cfg.halfLen o) ∧
    ∀ sl, sl < s.cfg.halfLen →
      (∀ v, v < s.cfg.nVoices →
        let a := oscStep s.cfg s.slots (x sl (2 * v))
        let b := oscStep s.cfg s.slots
          (if a.2.2 = true ∧ s.syncActive.getLsbD v = true
            then { x sl (2 * v + 1) with phase := 0, counter := 0, half := false }
            else x sl (2 * v + 1))
        x (sl + 1) (2 * v) = a.1 ∧ x (sl + 1) (2 * v + 1) = b.1 ∧
        t.readBuf s.fillPtr sl (2 * v) = BitVec.ofNat 16 (2 * v) ++ a.2.1 ∧
        t.readBuf s.fillPtr sl (2 * v + 1) = BitVec.ofNat 16 (2 * v + 1) ++ b.2.1) ∧
      ∀ c, c = (s.rr.toNat + sl) % (7 * s.cfg.nVoices) →
        t.readBuf s.fillPtr sl (2 * s.cfg.nVoices) = BitVec.ofNat 16 (0x80 + c) ++ s.cv (c / 7) (c % 7)

/-- R135 enables FILL only while the half at FILL_PTR is pending; the model lets a FILL event in any other
state pass without effect, so that the fill engine waits (the model's choice, log 2). -/
def Obligations.FillWaitsWhileNotPending : Prop :=
  ∀ s rest, s.script = .agent .fill :: rest → s.pending.get s.fillPtr = false →
    step s = .next { s with script := rest }

/-- R136: a drain outputs the whole half at DMA_PTR, sets OVERRUN where the half was still pending, marks it
pending and moves DMA_PTR; nothing else changes. -/
def Obligations.DrainOutputsHalf : Prop :=
  ∀ s rest, s.script = .agent .drain :: rest → ∃ t half, step s = .next t ∧
    t = { s with script := rest, dac := s.dac ++ [half], overrun := t.overrun, pending := t.pending,
                 dmaPtr := !s.dmaPtr } ∧ SameMemory s t ∧
    half.length = s.cfg.halfLen ∧
    (∀ sl w, sl < s.cfg.halfLen → w ≤ 2 * s.cfg.nVoices →
      (half[sl]?.bind fun ws => ws[w]?) = some (s.readBuf s.dmaPtr sl w)) ∧
    (∀ ws ∈ half, ws.length = 2 * s.cfg.nVoices + 1) ∧
    t.overrun = (s.overrun || s.pending.get s.dmaPtr) ∧
    t.pending.get s.dmaPtr = true ∧ t.pending.get (!s.dmaPtr) = s.pending.get (!s.dmaPtr)
end

