-- ==== Sys2Proof/Laws/Arithmetic.lean ====
section
/-! SUPPORT. The arithmetic of 00_scope.md R7: clamps, saturation, the rounded-up quotient, and the floor of
a scaled difference that every interpolation of the block uses. -/

namespace Sys2Proof.Machine

theorem clampInt_bounds {x lo hi : Int} (h : lo ≤ hi) : lo ≤ clampInt x lo hi ∧ clampInt x lo hi ≤ hi := by
  unfold clampInt; omega

theorem clampInt_of_mem {x lo hi : Int} (h1 : lo ≤ x) (h2 : x ≤ hi) : clampInt x lo hi = x := by
  unfold clampInt; omega

theorem clampNat_bounds {x lo hi : Nat} (h : lo ≤ hi) : lo ≤ clampNat x lo hi ∧ clampNat x lo hi ≤ hi := by
  unfold clampNat; omega

theorem clampNat_of_mem {x lo hi : Nat} (h1 : lo ≤ x) (h2 : x ≤ hi) : clampNat x lo hi = x := by
  unfold clampNat; omega

/-- sat16 as a number (R7). -/
theorem toNat_sat16 (x : Int) : ((sat16 x).toNat : Int) = clampInt x 0 65535 := by
  have := clampInt_bounds (x := x) (lo := 0) (hi := 65535) (by decide)
  simp only [sat16, BitVec.toNat_ofNat]
  omega

theorem toNat_sat16_of_mem {x : Int} (h1 : 0 ≤ x) (h2 : x ≤ 65535) : ((sat16 x).toNat : Int) = x := by
  rw [toNat_sat16, clampInt_of_mem h1 h2]

/-- ceil_div(a, b) is the least d with a ≤ b·d (R7). -/
theorem ceilDiv_le_iff {a b d : Nat} (hb : 0 < b) : ceilDiv a b ≤ d ↔ a ≤ b * d := by
  unfold ceilDiv
  rw [← Nat.lt_succ_iff, Nat.div_lt_iff_lt_mul hb, Nat.succ_mul, Nat.mul_comm d b]
  omega

/-- A fraction k/n, 0 ≤ k ≤ n, of a difference d, rounded down, lies between 0 and d. -/
theorem scaled_bounds {d k n : Int} (hn : 0 < n) (h0 : 0 ≤ k) (h1 : k ≤ n) :
    min 0 d ≤ d * k / n ∧ d * k / n ≤ max 0 d := by
  rcases le_total 0 d with hd | hd
  · have hlo : 0 ≤ d * k / n := Int.ediv_nonneg (mul_nonneg hd h0) hn.le
    have hhi : d * k / n ≤ d := Int.ediv_le_of_le_mul hn (mul_le_mul_of_nonneg_left h1 hd)
    omega
  · have hlo : d ≤ d * k / n := by
      rw [Int.le_ediv_iff_mul_le hn]; nlinarith
    have hhi : d * k / n ≤ 0 := Int.ediv_nonpos_of_nonpos_of_neg (mul_nonpos_of_nonpos_of_nonneg hd h0) hn
    omega

end Sys2Proof.Machine
end

