-- ==== Sys2Proof/Laws/State.lean ====
section
/-! SUPPORT. For each named update of the state: every field it keeps (`…_keeps`, one clause per field) and
every register-file or memory read it keeps (`…_reads`). All hold by `rfl` and simplify, so that no proof
unfolds a record update. What an update changes is in Laws/RegisterFiles.lean and Laws/Memory.lean. -/

namespace Sys2Proof.Machine

/-- R28, R135: writeBuf writes buf only. -/
@[simp] theorem writeBuf_keeps (s : State) (h : Bool) (sl w : Nat) (x : Word) :
    (s.writeBuf h sl w x).cfg = s.cfg ∧ (s.writeBuf h sl w x).cmdOvf = s.cmdOvf ∧
    (s.writeBuf h sl w x).overrun = s.overrun ∧ (s.writeBuf h sl w x).badCmd = s.badCmd ∧
    (s.writeBuf h sl w x).tphase = s.tphase ∧ (s.writeBuf h sl w x).ts = s.ts ∧
    (s.writeBuf h sl w x).cmdCount = s.cmdCount ∧ (s.writeBuf h sl w x).fifo = s.fifo ∧
    (s.writeBuf h sl w x).voiceMask = s.voiceMask ∧ (s.writeBuf h sl w x).priority = s.priority ∧
    (s.writeBuf h sl w x).mono = s.mono ∧ (s.writeBuf h sl w x).hold = s.hold ∧
    (s.writeBuf h sl w x).plen = s.plen ∧ (s.writeBuf h sl w x).offsets = s.offsets ∧
    (s.writeBuf h sl w x).offsetsStg = s.offsetsStg ∧ (s.writeBuf h sl w x).noteHeld = s.noteHeld ∧
    (s.writeBuf h sl w x).voices = s.voices ∧ (s.writeBuf h sl w x).envs = s.envs ∧
    (s.writeBuf h sl w x).lfos = s.lfos ∧ (s.writeBuf h sl w x).oscs = s.oscs ∧
    (s.writeBuf h sl w x).slots = s.slots ∧ (s.writeBuf h sl w x).staging = s.staging ∧
    (s.writeBuf h sl w x).waveLenStg = s.waveLenStg ∧ (s.writeBuf h sl w x).amt = s.amt ∧
    (s.writeBuf h sl w x).base = s.base ∧ (s.writeBuf h sl w x).glide = s.glide ∧
    (s.writeBuf h sl w x).pb = s.pb ∧ (s.writeBuf h sl w x).tb = s.tb ∧
    (s.writeBuf h sl w x).bend = s.bend ∧ (s.writeBuf h sl w x).pressure = s.pressure ∧
    (s.writeBuf h sl w x).cvOut = s.cvOut ∧ (s.writeBuf h sl w x).syncStaged = s.syncStaged ∧
    (s.writeBuf h sl w x).syncActive = s.syncActive ∧ (s.writeBuf h sl w x).pending = s.pending ∧
    (s.writeBuf h sl w x).fillPtr = s.fillPtr ∧ (s.writeBuf h sl w x).dmaPtr = s.dmaPtr ∧
    (s.writeBuf h sl w x).rr = s.rr ∧ (s.writeBuf h sl w x).evt = s.evt ∧
    (s.writeBuf h sl w x).dac = s.dac ∧ (s.writeBuf h sl w x).script = s.script ∧
    (s.writeBuf h sl w x).schedPos = s.schedPos ∧ (s.writeBuf h sl w x).reads = s.reads := by
  repeat' apply And.intro
  all_goals rfl

/-- R28, R135: the reads writeBuf keeps. -/
@[simp] theorem writeBuf_reads (s : State) (h : Bool) (sl w : Nat) (x : Word) :
    (∀ u : Nat, (s.writeBuf h sl w x).voice u = s.voice u) ∧
    (∀ a : Nat, (s.writeBuf h sl w x).env a = s.env a) ∧
    (∀ m : Bool, (s.writeBuf h sl w x).lfo m = s.lfo m) ∧
    (∀ a : Nat, (s.writeBuf h sl w x).osc a = s.osc a) ∧
    (∀ a : Nat, (s.writeBuf h sl w x).slot a = s.slot a) ∧
    (∀ i : Nat, (s.writeBuf h sl w x).offset i = s.offset i) ∧
    (∀ c j : Nat, (s.writeBuf h sl w x).amount c j = s.amount c j) ∧
    (∀ c : Nat, (s.writeBuf h sl w x).baseOf c = s.baseOf c) ∧
    (∀ u : Nat, (s.writeBuf h sl w x).pbOf u = s.pbOf u) ∧
    (∀ u : Nat, (s.writeBuf h sl w x).tbOf u = s.tbOf u) ∧
    (∀ u : Nat, (s.writeBuf h sl w x).bendOf u = s.bendOf u) ∧
    (∀ u : Nat, (s.writeBuf h sl w x).pressureOf u = s.pressureOf u) ∧
    (∀ u c : Nat, (s.writeBuf h sl w x).cv u c = s.cv u c) ∧
    (∀ m : BitVec 7, (s.writeBuf h sl w x).held m = s.held m) ∧
    (∀ i : Nat, (s.writeBuf h sl w x).readStaging i = s.readStaging i) ∧
    (∀ a i : Nat, (s.writeBuf h sl w x).readSlot a i = s.readSlot a i) := by
  repeat' apply And.intro
  all_goals intros; rfl

/-- R21: modVoice writes voices only. -/
@[simp] theorem modVoice_keeps (s : State) (v : Nat) (f : Voice → Voice) :
    (s.modVoice v f).cfg = s.cfg ∧ (s.modVoice v f).cmdOvf = s.cmdOvf ∧
    (s.modVoice v f).overrun = s.overrun ∧ (s.modVoice v f).badCmd = s.badCmd ∧
    (s.modVoice v f).tphase = s.tphase ∧ (s.modVoice v f).ts = s.ts ∧
    (s.modVoice v f).cmdCount = s.cmdCount ∧ (s.modVoice v f).fifo = s.fifo ∧
    (s.modVoice v f).voiceMask = s.voiceMask ∧ (s.modVoice v f).priority = s.priority ∧
    (s.modVoice v f).mono = s.mono ∧ (s.modVoice v f).hold = s.hold ∧ (s.modVoice v f).plen = s.plen ∧
    (s.modVoice v f).offsets = s.offsets ∧ (s.modVoice v f).offsetsStg = s.offsetsStg ∧
    (s.modVoice v f).noteHeld = s.noteHeld ∧ (s.modVoice v f).envs = s.envs ∧
    (s.modVoice v f).lfos = s.lfos ∧ (s.modVoice v f).oscs = s.oscs ∧
    (s.modVoice v f).slots = s.slots ∧ (s.modVoice v f).staging = s.staging ∧
    (s.modVoice v f).waveLenStg = s.waveLenStg ∧ (s.modVoice v f).amt = s.amt ∧
    (s.modVoice v f).base = s.base ∧ (s.modVoice v f).glide = s.glide ∧ (s.modVoice v f).pb = s.pb ∧
    (s.modVoice v f).tb = s.tb ∧ (s.modVoice v f).bend = s.bend ∧
    (s.modVoice v f).pressure = s.pressure ∧ (s.modVoice v f).cvOut = s.cvOut ∧
    (s.modVoice v f).syncStaged = s.syncStaged ∧ (s.modVoice v f).syncActive = s.syncActive ∧
    (s.modVoice v f).buf = s.buf ∧ (s.modVoice v f).pending = s.pending ∧
    (s.modVoice v f).fillPtr = s.fillPtr ∧ (s.modVoice v f).dmaPtr = s.dmaPtr ∧
    (s.modVoice v f).rr = s.rr ∧ (s.modVoice v f).evt = s.evt ∧ (s.modVoice v f).dac = s.dac ∧
    (s.modVoice v f).script = s.script ∧ (s.modVoice v f).schedPos = s.schedPos ∧
    (s.modVoice v f).reads = s.reads := by
  repeat' apply And.intro
  all_goals rfl

/-- R21: the reads modVoice keeps. -/
@[simp] theorem modVoice_reads (s : State) (v : Nat) (f : Voice → Voice) :
    (∀ a : Nat, (s.modVoice v f).env a = s.env a) ∧ (∀ m : Bool, (s.modVoice v f).lfo m = s.lfo m) ∧
    (∀ a : Nat, (s.modVoice v f).osc a = s.osc a) ∧ (∀ a : Nat, (s.modVoice v f).slot a = s.slot a) ∧
    (∀ i : Nat, (s.modVoice v f).offset i = s.offset i) ∧
    (∀ c j : Nat, (s.modVoice v f).amount c j = s.amount c j) ∧
    (∀ c : Nat, (s.modVoice v f).baseOf c = s.baseOf c) ∧
    (∀ u : Nat, (s.modVoice v f).pbOf u = s.pbOf u) ∧ (∀ u : Nat, (s.modVoice v f).tbOf u = s.tbOf u) ∧
    (∀ u : Nat, (s.modVoice v f).bendOf u = s.bendOf u) ∧
    (∀ u : Nat, (s.modVoice v f).pressureOf u = s.pressureOf u) ∧
    (∀ u c : Nat, (s.modVoice v f).cv u c = s.cv u c) ∧
    (∀ m : BitVec 7, (s.modVoice v f).held m = s.held m) ∧
    (∀ i : Nat, (s.modVoice v f).readStaging i = s.readStaging i) ∧
    (∀ a i : Nat, (s.modVoice v f).readSlot a i = s.readSlot a i) ∧
    (∀ (g : Bool) (i j : Nat), (s.modVoice v f).readBuf g i j = s.readBuf g i j) := by
  repeat' apply And.intro
  all_goals intros; rfl

/-- R22: modEnv writes envs only. -/
@[simp] theorem modEnv_keeps (s : State) (e : Nat) (f : Env → Env) :
    (s.modEnv e f).cfg = s.cfg ∧ (s.modEnv e f).cmdOvf = s.cmdOvf ∧
    (s.modEnv e f).overrun = s.overrun ∧ (s.modEnv e f).badCmd = s.badCmd ∧
    (s.modEnv e f).tphase = s.tphase ∧ (s.modEnv e f).ts = s.ts ∧
    (s.modEnv e f).cmdCount = s.cmdCount ∧ (s.modEnv e f).fifo = s.fifo ∧
    (s.modEnv e f).voiceMask = s.voiceMask ∧ (s.modEnv e f).priority = s.priority ∧
    (s.modEnv e f).mono = s.mono ∧ (s.modEnv e f).hold = s.hold ∧ (s.modEnv e f).plen = s.plen ∧
    (s.modEnv e f).offsets = s.offsets ∧ (s.modEnv e f).offsetsStg = s.offsetsStg ∧
    (s.modEnv e f).noteHeld = s.noteHeld ∧ (s.modEnv e f).voices = s.voices ∧
    (s.modEnv e f).lfos = s.lfos ∧ (s.modEnv e f).oscs = s.oscs ∧ (s.modEnv e f).slots = s.slots ∧
    (s.modEnv e f).staging = s.staging ∧ (s.modEnv e f).waveLenStg = s.waveLenStg ∧
    (s.modEnv e f).amt = s.amt ∧ (s.modEnv e f).base = s.base ∧ (s.modEnv e f).glide = s.glide ∧
    (s.modEnv e f).pb = s.pb ∧ (s.modEnv e f).tb = s.tb ∧ (s.modEnv e f).bend = s.bend ∧
    (s.modEnv e f).pressure = s.pressure ∧ (s.modEnv e f).cvOut = s.cvOut ∧
    (s.modEnv e f).syncStaged = s.syncStaged ∧ (s.modEnv e f).syncActive = s.syncActive ∧
    (s.modEnv e f).buf = s.buf ∧ (s.modEnv e f).pending = s.pending ∧
    (s.modEnv e f).fillPtr = s.fillPtr ∧ (s.modEnv e f).dmaPtr = s.dmaPtr ∧ (s.modEnv e f).rr = s.rr ∧
    (s.modEnv e f).evt = s.evt ∧ (s.modEnv e f).dac = s.dac ∧ (s.modEnv e f).script = s.script ∧
    (s.modEnv e f).schedPos = s.schedPos ∧ (s.modEnv e f).reads = s.reads := by
  repeat' apply And.intro
  all_goals rfl

/-- R22: the reads modEnv keeps. -/
@[simp] theorem modEnv_reads (s : State) (e : Nat) (f : Env → Env) :
    (∀ u : Nat, (s.modEnv e f).voice u = s.voice u) ∧ (∀ m : Bool, (s.modEnv e f).lfo m = s.lfo m) ∧
    (∀ a : Nat, (s.modEnv e f).osc a = s.osc a) ∧ (∀ a : Nat, (s.modEnv e f).slot a = s.slot a) ∧
    (∀ i : Nat, (s.modEnv e f).offset i = s.offset i) ∧
    (∀ c j : Nat, (s.modEnv e f).amount c j = s.amount c j) ∧
    (∀ c : Nat, (s.modEnv e f).baseOf c = s.baseOf c) ∧ (∀ u : Nat, (s.modEnv e f).pbOf u = s.pbOf u) ∧
    (∀ u : Nat, (s.modEnv e f).tbOf u = s.tbOf u) ∧ (∀ u : Nat, (s.modEnv e f).bendOf u = s.bendOf u) ∧
    (∀ u : Nat, (s.modEnv e f).pressureOf u = s.pressureOf u) ∧
    (∀ u c : Nat, (s.modEnv e f).cv u c = s.cv u c) ∧
    (∀ m : BitVec 7, (s.modEnv e f).held m = s.held m) ∧
    (∀ i : Nat, (s.modEnv e f).readStaging i = s.readStaging i) ∧
    (∀ a i : Nat, (s.modEnv e f).readSlot a i = s.readSlot a i) ∧
    (∀ (g : Bool) (i j : Nat), (s.modEnv e f).readBuf g i j = s.readBuf g i j) := by
  repeat' apply And.intro
  all_goals intros; rfl

/-- R23: modLfo writes lfos only. -/
@[simp] theorem modLfo_keeps (s : State) (l : Bool) (f : Lfo → Lfo) :
    (s.modLfo l f).cfg = s.cfg ∧ (s.modLfo l f).cmdOvf = s.cmdOvf ∧
    (s.modLfo l f).overrun = s.overrun ∧ (s.modLfo l f).badCmd = s.badCmd ∧
    (s.modLfo l f).tphase = s.tphase ∧ (s.modLfo l f).ts = s.ts ∧
    (s.modLfo l f).cmdCount = s.cmdCount ∧ (s.modLfo l f).fifo = s.fifo ∧
    (s.modLfo l f).voiceMask = s.voiceMask ∧ (s.modLfo l f).priority = s.priority ∧
    (s.modLfo l f).mono = s.mono ∧ (s.modLfo l f).hold = s.hold ∧ (s.modLfo l f).plen = s.plen ∧
    (s.modLfo l f).offsets = s.offsets ∧ (s.modLfo l f).offsetsStg = s.offsetsStg ∧
    (s.modLfo l f).noteHeld = s.noteHeld ∧ (s.modLfo l f).voices = s.voices ∧
    (s.modLfo l f).envs = s.envs ∧ (s.modLfo l f).oscs = s.oscs ∧ (s.modLfo l f).slots = s.slots ∧
    (s.modLfo l f).staging = s.staging ∧ (s.modLfo l f).waveLenStg = s.waveLenStg ∧
    (s.modLfo l f).amt = s.amt ∧ (s.modLfo l f).base = s.base ∧ (s.modLfo l f).glide = s.glide ∧
    (s.modLfo l f).pb = s.pb ∧ (s.modLfo l f).tb = s.tb ∧ (s.modLfo l f).bend = s.bend ∧
    (s.modLfo l f).pressure = s.pressure ∧ (s.modLfo l f).cvOut = s.cvOut ∧
    (s.modLfo l f).syncStaged = s.syncStaged ∧ (s.modLfo l f).syncActive = s.syncActive ∧
    (s.modLfo l f).buf = s.buf ∧ (s.modLfo l f).pending = s.pending ∧
    (s.modLfo l f).fillPtr = s.fillPtr ∧ (s.modLfo l f).dmaPtr = s.dmaPtr ∧ (s.modLfo l f).rr = s.rr ∧
    (s.modLfo l f).evt = s.evt ∧ (s.modLfo l f).dac = s.dac ∧ (s.modLfo l f).script = s.script ∧
    (s.modLfo l f).schedPos = s.schedPos ∧ (s.modLfo l f).reads = s.reads := by
  repeat' apply And.intro
  all_goals rfl

/-- R23: the reads modLfo keeps. -/
@[simp] theorem modLfo_reads (s : State) (l : Bool) (f : Lfo → Lfo) :
    (∀ u : Nat, (s.modLfo l f).voice u = s.voice u) ∧ (∀ a : Nat, (s.modLfo l f).env a = s.env a) ∧
    (∀ a : Nat, (s.modLfo l f).osc a = s.osc a) ∧ (∀ a : Nat, (s.modLfo l f).slot a = s.slot a) ∧
    (∀ i : Nat, (s.modLfo l f).offset i = s.offset i) ∧
    (∀ c j : Nat, (s.modLfo l f).amount c j = s.amount c j) ∧
    (∀ c : Nat, (s.modLfo l f).baseOf c = s.baseOf c) ∧ (∀ u : Nat, (s.modLfo l f).pbOf u = s.pbOf u) ∧
    (∀ u : Nat, (s.modLfo l f).tbOf u = s.tbOf u) ∧ (∀ u : Nat, (s.modLfo l f).bendOf u = s.bendOf u) ∧
    (∀ u : Nat, (s.modLfo l f).pressureOf u = s.pressureOf u) ∧
    (∀ u c : Nat, (s.modLfo l f).cv u c = s.cv u c) ∧
    (∀ m : BitVec 7, (s.modLfo l f).held m = s.held m) ∧
    (∀ i : Nat, (s.modLfo l f).readStaging i = s.readStaging i) ∧
    (∀ a i : Nat, (s.modLfo l f).readSlot a i = s.readSlot a i) ∧
    (∀ (g : Bool) (i j : Nat), (s.modLfo l f).readBuf g i j = s.readBuf g i j) := by
  repeat' apply And.intro
  all_goals intros; rfl

/-- R24: modOsc writes oscs only. -/
@[simp] theorem modOsc_keeps (s : State) (o : Nat) (f : Osc → Osc) :
    (s.modOsc o f).cfg = s.cfg ∧ (s.modOsc o f).cmdOvf = s.cmdOvf ∧
    (s.modOsc o f).overrun = s.overrun ∧ (s.modOsc o f).badCmd = s.badCmd ∧
    (s.modOsc o f).tphase = s.tphase ∧ (s.modOsc o f).ts = s.ts ∧
    (s.modOsc o f).cmdCount = s.cmdCount ∧ (s.modOsc o f).fifo = s.fifo ∧
    (s.modOsc o f).voiceMask = s.voiceMask ∧ (s.modOsc o f).priority = s.priority ∧
    (s.modOsc o f).mono = s.mono ∧ (s.modOsc o f).hold = s.hold ∧ (s.modOsc o f).plen = s.plen ∧
    (s.modOsc o f).offsets = s.offsets ∧ (s.modOsc o f).offsetsStg = s.offsetsStg ∧
    (s.modOsc o f).noteHeld = s.noteHeld ∧ (s.modOsc o f).voices = s.voices ∧
    (s.modOsc o f).envs = s.envs ∧ (s.modOsc o f).lfos = s.lfos ∧ (s.modOsc o f).slots = s.slots ∧
    (s.modOsc o f).staging = s.staging ∧ (s.modOsc o f).waveLenStg = s.waveLenStg ∧
    (s.modOsc o f).amt = s.amt ∧ (s.modOsc o f).base = s.base ∧ (s.modOsc o f).glide = s.glide ∧
    (s.modOsc o f).pb = s.pb ∧ (s.modOsc o f).tb = s.tb ∧ (s.modOsc o f).bend = s.bend ∧
    (s.modOsc o f).pressure = s.pressure ∧ (s.modOsc o f).cvOut = s.cvOut ∧
    (s.modOsc o f).syncStaged = s.syncStaged ∧ (s.modOsc o f).syncActive = s.syncActive ∧
    (s.modOsc o f).buf = s.buf ∧ (s.modOsc o f).pending = s.pending ∧
    (s.modOsc o f).fillPtr = s.fillPtr ∧ (s.modOsc o f).dmaPtr = s.dmaPtr ∧ (s.modOsc o f).rr = s.rr ∧
    (s.modOsc o f).evt = s.evt ∧ (s.modOsc o f).dac = s.dac ∧ (s.modOsc o f).script = s.script ∧
    (s.modOsc o f).schedPos = s.schedPos ∧ (s.modOsc o f).reads = s.reads := by
  repeat' apply And.intro
  all_goals rfl

/-- R24: the reads modOsc keeps. -/
@[simp] theorem modOsc_reads (s : State) (o : Nat) (f : Osc → Osc) :
    (∀ u : Nat, (s.modOsc o f).voice u = s.voice u) ∧ (∀ a : Nat, (s.modOsc o f).env a = s.env a) ∧
    (∀ m : Bool, (s.modOsc o f).lfo m = s.lfo m) ∧ (∀ a : Nat, (s.modOsc o f).slot a = s.slot a) ∧
    (∀ i : Nat, (s.modOsc o f).offset i = s.offset i) ∧
    (∀ c j : Nat, (s.modOsc o f).amount c j = s.amount c j) ∧
    (∀ c : Nat, (s.modOsc o f).baseOf c = s.baseOf c) ∧ (∀ u : Nat, (s.modOsc o f).pbOf u = s.pbOf u) ∧
    (∀ u : Nat, (s.modOsc o f).tbOf u = s.tbOf u) ∧ (∀ u : Nat, (s.modOsc o f).bendOf u = s.bendOf u) ∧
    (∀ u : Nat, (s.modOsc o f).pressureOf u = s.pressureOf u) ∧
    (∀ u c : Nat, (s.modOsc o f).cv u c = s.cv u c) ∧
    (∀ m : BitVec 7, (s.modOsc o f).held m = s.held m) ∧
    (∀ i : Nat, (s.modOsc o f).readStaging i = s.readStaging i) ∧
    (∀ a i : Nat, (s.modOsc o f).readSlot a i = s.readSlot a i) ∧
    (∀ (g : Bool) (i j : Nat), (s.modOsc o f).readBuf g i j = s.readBuf g i j) := by
  repeat' apply And.intro
  all_goals intros; rfl

/-- R25: setSlot writes slots only. -/
@[simp] theorem setSlot_keeps (s : State) (k : Nat) (x : Slot) :
    (s.setSlot k x).cfg = s.cfg ∧ (s.setSlot k x).cmdOvf = s.cmdOvf ∧
    (s.setSlot k x).overrun = s.overrun ∧ (s.setSlot k x).badCmd = s.badCmd ∧
    (s.setSlot k x).tphase = s.tphase ∧ (s.setSlot k x).ts = s.ts ∧
    (s.setSlot k x).cmdCount = s.cmdCount ∧ (s.setSlot k x).fifo = s.fifo ∧
    (s.setSlot k x).voiceMask = s.voiceMask ∧ (s.setSlot k x).priority = s.priority ∧
    (s.setSlot k x).mono = s.mono ∧ (s.setSlot k x).hold = s.hold ∧ (s.setSlot k x).plen = s.plen ∧
    (s.setSlot k x).offsets = s.offsets ∧ (s.setSlot k x).offsetsStg = s.offsetsStg ∧
    (s.setSlot k x).noteHeld = s.noteHeld ∧ (s.setSlot k x).voices = s.voices ∧
    (s.setSlot k x).envs = s.envs ∧ (s.setSlot k x).lfos = s.lfos ∧ (s.setSlot k x).oscs = s.oscs ∧
    (s.setSlot k x).staging = s.staging ∧ (s.setSlot k x).waveLenStg = s.waveLenStg ∧
    (s.setSlot k x).amt = s.amt ∧ (s.setSlot k x).base = s.base ∧ (s.setSlot k x).glide = s.glide ∧
    (s.setSlot k x).pb = s.pb ∧ (s.setSlot k x).tb = s.tb ∧ (s.setSlot k x).bend = s.bend ∧
    (s.setSlot k x).pressure = s.pressure ∧ (s.setSlot k x).cvOut = s.cvOut ∧
    (s.setSlot k x).syncStaged = s.syncStaged ∧ (s.setSlot k x).syncActive = s.syncActive ∧
    (s.setSlot k x).buf = s.buf ∧ (s.setSlot k x).pending = s.pending ∧
    (s.setSlot k x).fillPtr = s.fillPtr ∧ (s.setSlot k x).dmaPtr = s.dmaPtr ∧
    (s.setSlot k x).rr = s.rr ∧ (s.setSlot k x).evt = s.evt ∧ (s.setSlot k x).dac = s.dac ∧
    (s.setSlot k x).script = s.script ∧ (s.setSlot k x).schedPos = s.schedPos ∧
    (s.setSlot k x).reads = s.reads := by
  repeat' apply And.intro
  all_goals rfl

/-- R25: the reads setSlot keeps. -/
@[simp] theorem setSlot_reads (s : State) (k : Nat) (x : Slot) :
    (∀ u : Nat, (s.setSlot k x).voice u = s.voice u) ∧ (∀ a : Nat, (s.setSlot k x).env a = s.env a) ∧
    (∀ m : Bool, (s.setSlot k x).lfo m = s.lfo m) ∧ (∀ a : Nat, (s.setSlot k x).osc a = s.osc a) ∧
    (∀ i : Nat, (s.setSlot k x).offset i = s.offset i) ∧
    (∀ c j : Nat, (s.setSlot k x).amount c j = s.amount c j) ∧
    (∀ c : Nat, (s.setSlot k x).baseOf c = s.baseOf c) ∧
    (∀ u : Nat, (s.setSlot k x).pbOf u = s.pbOf u) ∧ (∀ u : Nat, (s.setSlot k x).tbOf u = s.tbOf u) ∧
    (∀ u : Nat, (s.setSlot k x).bendOf u = s.bendOf u) ∧
    (∀ u : Nat, (s.setSlot k x).pressureOf u = s.pressureOf u) ∧
    (∀ u c : Nat, (s.setSlot k x).cv u c = s.cv u c) ∧
    (∀ m : BitVec 7, (s.setSlot k x).held m = s.held m) ∧
    (∀ i : Nat, (s.setSlot k x).readStaging i = s.readStaging i) ∧
    (∀ (g : Bool) (i j : Nat), (s.setSlot k x).readBuf g i j = s.readBuf g i j) := by
  repeat' apply And.intro
  all_goals intros; rfl

/-- R26: setAmount writes amt only. -/
@[simp] theorem setAmount_keeps (s : State) (d k : Nat) (x : BitVec 16) :
    (s.setAmount d k x).cfg = s.cfg ∧ (s.setAmount d k x).cmdOvf = s.cmdOvf ∧
    (s.setAmount d k x).overrun = s.overrun ∧ (s.setAmount d k x).badCmd = s.badCmd ∧
    (s.setAmount d k x).tphase = s.tphase ∧ (s.setAmount d k x).ts = s.ts ∧
    (s.setAmount d k x).cmdCount = s.cmdCount ∧ (s.setAmount d k x).fifo = s.fifo ∧
    (s.setAmount d k x).voiceMask = s.voiceMask ∧ (s.setAmount d k x).priority = s.priority ∧
    (s.setAmount d k x).mono = s.mono ∧ (s.setAmount d k x).hold = s.hold ∧
    (s.setAmount d k x).plen = s.plen ∧ (s.setAmount d k x).offsets = s.offsets ∧
    (s.setAmount d k x).offsetsStg = s.offsetsStg ∧ (s.setAmount d k x).noteHeld = s.noteHeld ∧
    (s.setAmount d k x).voices = s.voices ∧ (s.setAmount d k x).envs = s.envs ∧
    (s.setAmount d k x).lfos = s.lfos ∧ (s.setAmount d k x).oscs = s.oscs ∧
    (s.setAmount d k x).slots = s.slots ∧ (s.setAmount d k x).staging = s.staging ∧
    (s.setAmount d k x).waveLenStg = s.waveLenStg ∧ (s.setAmount d k x).base = s.base ∧
    (s.setAmount d k x).glide = s.glide ∧ (s.setAmount d k x).pb = s.pb ∧
    (s.setAmount d k x).tb = s.tb ∧ (s.setAmount d k x).bend = s.bend ∧
    (s.setAmount d k x).pressure = s.pressure ∧ (s.setAmount d k x).cvOut = s.cvOut ∧
    (s.setAmount d k x).syncStaged = s.syncStaged ∧ (s.setAmount d k x).syncActive = s.syncActive ∧
    (s.setAmount d k x).buf = s.buf ∧ (s.setAmount d k x).pending = s.pending ∧
    (s.setAmount d k x).fillPtr = s.fillPtr ∧ (s.setAmount d k x).dmaPtr = s.dmaPtr ∧
    (s.setAmount d k x).rr = s.rr ∧ (s.setAmount d k x).evt = s.evt ∧ (s.setAmount d k x).dac = s.dac ∧
    (s.setAmount d k x).script = s.script ∧ (s.setAmount d k x).schedPos = s.schedPos ∧
    (s.setAmount d k x).reads = s.reads := by
  repeat' apply And.intro
  all_goals rfl

/-- R26: the reads setAmount keeps. -/
@[simp] theorem setAmount_reads (s : State) (d k : Nat) (x : BitVec 16) :
    (∀ u : Nat, (s.setAmount d k x).voice u = s.voice u) ∧
    (∀ a : Nat, (s.setAmount d k x).env a = s.env a) ∧
    (∀ m : Bool, (s.setAmount d k x).lfo m = s.lfo m) ∧
    (∀ a : Nat, (s.setAmount d k x).osc a = s.osc a) ∧
    (∀ a : Nat, (s.setAmount d k x).slot a = s.slot a) ∧
    (∀ i : Nat, (s.setAmount d k x).offset i = s.offset i) ∧
    (∀ c : Nat, (s.setAmount d k x).baseOf c = s.baseOf c) ∧
    (∀ u : Nat, (s.setAmount d k x).pbOf u = s.pbOf u) ∧
    (∀ u : Nat, (s.setAmount d k x).tbOf u = s.tbOf u) ∧
    (∀ u : Nat, (s.setAmount d k x).bendOf u = s.bendOf u) ∧
    (∀ u : Nat, (s.setAmount d k x).pressureOf u = s.pressureOf u) ∧
    (∀ u c : Nat, (s.setAmount d k x).cv u c = s.cv u c) ∧
    (∀ m : BitVec 7, (s.setAmount d k x).held m = s.held m) ∧
    (∀ i : Nat, (s.setAmount d k x).readStaging i = s.readStaging i) ∧
    (∀ a i : Nat, (s.setAmount d k x).readSlot a i = s.readSlot a i) ∧
    (∀ (g : Bool) (i j : Nat), (s.setAmount d k x).readBuf g i j = s.readBuf g i j) := by
  repeat' apply And.intro
  all_goals intros; rfl

/-- R26: setBase writes base only. -/
@[simp] theorem setBase_keeps (s : State) (d : Nat) (x : U16) :
    (s.setBase d x).cfg = s.cfg ∧ (s.setBase d x).cmdOvf = s.cmdOvf ∧
    (s.setBase d x).overrun = s.overrun ∧ (s.setBase d x).badCmd = s.badCmd ∧
    (s.setBase d x).tphase = s.tphase ∧ (s.setBase d x).ts = s.ts ∧
    (s.setBase d x).cmdCount = s.cmdCount ∧ (s.setBase d x).fifo = s.fifo ∧
    (s.setBase d x).voiceMask = s.voiceMask ∧ (s.setBase d x).priority = s.priority ∧
    (s.setBase d x).mono = s.mono ∧ (s.setBase d x).hold = s.hold ∧ (s.setBase d x).plen = s.plen ∧
    (s.setBase d x).offsets = s.offsets ∧ (s.setBase d x).offsetsStg = s.offsetsStg ∧
    (s.setBase d x).noteHeld = s.noteHeld ∧ (s.setBase d x).voices = s.voices ∧
    (s.setBase d x).envs = s.envs ∧ (s.setBase d x).lfos = s.lfos ∧ (s.setBase d x).oscs = s.oscs ∧
    (s.setBase d x).slots = s.slots ∧ (s.setBase d x).staging = s.staging ∧
    (s.setBase d x).waveLenStg = s.waveLenStg ∧ (s.setBase d x).amt = s.amt ∧
    (s.setBase d x).glide = s.glide ∧ (s.setBase d x).pb = s.pb ∧ (s.setBase d x).tb = s.tb ∧
    (s.setBase d x).bend = s.bend ∧ (s.setBase d x).pressure = s.pressure ∧
    (s.setBase d x).cvOut = s.cvOut ∧ (s.setBase d x).syncStaged = s.syncStaged ∧
    (s.setBase d x).syncActive = s.syncActive ∧ (s.setBase d x).buf = s.buf ∧
    (s.setBase d x).pending = s.pending ∧ (s.setBase d x).fillPtr = s.fillPtr ∧
    (s.setBase d x).dmaPtr = s.dmaPtr ∧ (s.setBase d x).rr = s.rr ∧ (s.setBase d x).evt = s.evt ∧
    (s.setBase d x).dac = s.dac ∧ (s.setBase d x).script = s.script ∧
    (s.setBase d x).schedPos = s.schedPos ∧ (s.setBase d x).reads = s.reads := by
  repeat' apply And.intro
  all_goals rfl

/-- R26: the reads setBase keeps. -/
@[simp] theorem setBase_reads (s : State) (d : Nat) (x : U16) :
    (∀ u : Nat, (s.setBase d x).voice u = s.voice u) ∧ (∀ a : Nat, (s.setBase d x).env a = s.env a) ∧
    (∀ m : Bool, (s.setBase d x).lfo m = s.lfo m) ∧ (∀ a : Nat, (s.setBase d x).osc a = s.osc a) ∧
    (∀ a : Nat, (s.setBase d x).slot a = s.slot a) ∧
    (∀ i : Nat, (s.setBase d x).offset i = s.offset i) ∧
    (∀ c j : Nat, (s.setBase d x).amount c j = s.amount c j) ∧
    (∀ u : Nat, (s.setBase d x).pbOf u = s.pbOf u) ∧ (∀ u : Nat, (s.setBase d x).tbOf u = s.tbOf u) ∧
    (∀ u : Nat, (s.setBase d x).bendOf u = s.bendOf u) ∧
    (∀ u : Nat, (s.setBase d x).pressureOf u = s.pressureOf u) ∧
    (∀ u c : Nat, (s.setBase d x).cv u c = s.cv u c) ∧
    (∀ m : BitVec 7, (s.setBase d x).held m = s.held m) ∧
    (∀ i : Nat, (s.setBase d x).readStaging i = s.readStaging i) ∧
    (∀ a i : Nat, (s.setBase d x).readSlot a i = s.readSlot a i) ∧
    (∀ (g : Bool) (i j : Nat), (s.setBase d x).readBuf g i j = s.readBuf g i j) := by
  repeat' apply And.intro
  all_goals intros; rfl

/-- R26: setPb writes pb only. -/
@[simp] theorem setPb_keeps (s : State) (v : Nat) (x : U16) :
    (s.setPb v x).cfg = s.cfg ∧ (s.setPb v x).cmdOvf = s.cmdOvf ∧ (s.setPb v x).overrun = s.overrun ∧
    (s.setPb v x).badCmd = s.badCmd ∧ (s.setPb v x).tphase = s.tphase ∧ (s.setPb v x).ts = s.ts ∧
    (s.setPb v x).cmdCount = s.cmdCount ∧ (s.setPb v x).fifo = s.fifo ∧
    (s.setPb v x).voiceMask = s.voiceMask ∧ (s.setPb v x).priority = s.priority ∧
    (s.setPb v x).mono = s.mono ∧ (s.setPb v x).hold = s.hold ∧ (s.setPb v x).plen = s.plen ∧
    (s.setPb v x).offsets = s.offsets ∧ (s.setPb v x).offsetsStg = s.offsetsStg ∧
    (s.setPb v x).noteHeld = s.noteHeld ∧ (s.setPb v x).voices = s.voices ∧
    (s.setPb v x).envs = s.envs ∧ (s.setPb v x).lfos = s.lfos ∧ (s.setPb v x).oscs = s.oscs ∧
    (s.setPb v x).slots = s.slots ∧ (s.setPb v x).staging = s.staging ∧
    (s.setPb v x).waveLenStg = s.waveLenStg ∧ (s.setPb v x).amt = s.amt ∧ (s.setPb v x).base = s.base ∧
    (s.setPb v x).glide = s.glide ∧ (s.setPb v x).tb = s.tb ∧ (s.setPb v x).bend = s.bend ∧
    (s.setPb v x).pressure = s.pressure ∧ (s.setPb v x).cvOut = s.cvOut ∧
    (s.setPb v x).syncStaged = s.syncStaged ∧ (s.setPb v x).syncActive = s.syncActive ∧
    (s.setPb v x).buf = s.buf ∧ (s.setPb v x).pending = s.pending ∧ (s.setPb v x).fillPtr = s.fillPtr ∧
    (s.setPb v x).dmaPtr = s.dmaPtr ∧ (s.setPb v x).rr = s.rr ∧ (s.setPb v x).evt = s.evt ∧
    (s.setPb v x).dac = s.dac ∧ (s.setPb v x).script = s.script ∧ (s.setPb v x).schedPos = s.schedPos ∧
    (s.setPb v x).reads = s.reads := by
  repeat' apply And.intro
  all_goals rfl

/-- R26: the reads setPb keeps. -/
@[simp] theorem setPb_reads (s : State) (v : Nat) (x : U16) :
    (∀ u : Nat, (s.setPb v x).voice u = s.voice u) ∧ (∀ a : Nat, (s.setPb v x).env a = s.env a) ∧
    (∀ m : Bool, (s.setPb v x).lfo m = s.lfo m) ∧ (∀ a : Nat, (s.setPb v x).osc a = s.osc a) ∧
    (∀ a : Nat, (s.setPb v x).slot a = s.slot a) ∧ (∀ i : Nat, (s.setPb v x).offset i = s.offset i) ∧
    (∀ c j : Nat, (s.setPb v x).amount c j = s.amount c j) ∧
    (∀ c : Nat, (s.setPb v x).baseOf c = s.baseOf c) ∧ (∀ u : Nat, (s.setPb v x).tbOf u = s.tbOf u) ∧
    (∀ u : Nat, (s.setPb v x).bendOf u = s.bendOf u) ∧
    (∀ u : Nat, (s.setPb v x).pressureOf u = s.pressureOf u) ∧
    (∀ u c : Nat, (s.setPb v x).cv u c = s.cv u c) ∧
    (∀ m : BitVec 7, (s.setPb v x).held m = s.held m) ∧
    (∀ i : Nat, (s.setPb v x).readStaging i = s.readStaging i) ∧
    (∀ a i : Nat, (s.setPb v x).readSlot a i = s.readSlot a i) ∧
    (∀ (g : Bool) (i j : Nat), (s.setPb v x).readBuf g i j = s.readBuf g i j) := by
  repeat' apply And.intro
  all_goals intros; rfl

/-- R26: setTb writes tb only. -/
@[simp] theorem setTb_keeps (s : State) (v : Nat) (x : U16) :
    (s.setTb v x).cfg = s.cfg ∧ (s.setTb v x).cmdOvf = s.cmdOvf ∧ (s.setTb v x).overrun = s.overrun ∧
    (s.setTb v x).badCmd = s.badCmd ∧ (s.setTb v x).tphase = s.tphase ∧ (s.setTb v x).ts = s.ts ∧
    (s.setTb v x).cmdCount = s.cmdCount ∧ (s.setTb v x).fifo = s.fifo ∧
    (s.setTb v x).voiceMask = s.voiceMask ∧ (s.setTb v x).priority = s.priority ∧
    (s.setTb v x).mono = s.mono ∧ (s.setTb v x).hold = s.hold ∧ (s.setTb v x).plen = s.plen ∧
    (s.setTb v x).offsets = s.offsets ∧ (s.setTb v x).offsetsStg = s.offsetsStg ∧
    (s.setTb v x).noteHeld = s.noteHeld ∧ (s.setTb v x).voices = s.voices ∧
    (s.setTb v x).envs = s.envs ∧ (s.setTb v x).lfos = s.lfos ∧ (s.setTb v x).oscs = s.oscs ∧
    (s.setTb v x).slots = s.slots ∧ (s.setTb v x).staging = s.staging ∧
    (s.setTb v x).waveLenStg = s.waveLenStg ∧ (s.setTb v x).amt = s.amt ∧ (s.setTb v x).base = s.base ∧
    (s.setTb v x).glide = s.glide ∧ (s.setTb v x).pb = s.pb ∧ (s.setTb v x).bend = s.bend ∧
    (s.setTb v x).pressure = s.pressure ∧ (s.setTb v x).cvOut = s.cvOut ∧
    (s.setTb v x).syncStaged = s.syncStaged ∧ (s.setTb v x).syncActive = s.syncActive ∧
    (s.setTb v x).buf = s.buf ∧ (s.setTb v x).pending = s.pending ∧ (s.setTb v x).fillPtr = s.fillPtr ∧
    (s.setTb v x).dmaPtr = s.dmaPtr ∧ (s.setTb v x).rr = s.rr ∧ (s.setTb v x).evt = s.evt ∧
    (s.setTb v x).dac = s.dac ∧ (s.setTb v x).script = s.script ∧ (s.setTb v x).schedPos = s.schedPos ∧
    (s.setTb v x).reads = s.reads := by
  repeat' apply And.intro
  all_goals rfl

/-- R26: the reads setTb keeps. -/
@[simp] theorem setTb_reads (s : State) (v : Nat) (x : U16) :
    (∀ u : Nat, (s.setTb v x).voice u = s.voice u) ∧ (∀ a : Nat, (s.setTb v x).env a = s.env a) ∧
    (∀ m : Bool, (s.setTb v x).lfo m = s.lfo m) ∧ (∀ a : Nat, (s.setTb v x).osc a = s.osc a) ∧
    (∀ a : Nat, (s.setTb v x).slot a = s.slot a) ∧ (∀ i : Nat, (s.setTb v x).offset i = s.offset i) ∧
    (∀ c j : Nat, (s.setTb v x).amount c j = s.amount c j) ∧
    (∀ c : Nat, (s.setTb v x).baseOf c = s.baseOf c) ∧ (∀ u : Nat, (s.setTb v x).pbOf u = s.pbOf u) ∧
    (∀ u : Nat, (s.setTb v x).bendOf u = s.bendOf u) ∧
    (∀ u : Nat, (s.setTb v x).pressureOf u = s.pressureOf u) ∧
    (∀ u c : Nat, (s.setTb v x).cv u c = s.cv u c) ∧
    (∀ m : BitVec 7, (s.setTb v x).held m = s.held m) ∧
    (∀ i : Nat, (s.setTb v x).readStaging i = s.readStaging i) ∧
    (∀ a i : Nat, (s.setTb v x).readSlot a i = s.readSlot a i) ∧
    (∀ (g : Bool) (i j : Nat), (s.setTb v x).readBuf g i j = s.readBuf g i j) := by
  repeat' apply And.intro
  all_goals intros; rfl

/-- R26: setBend writes bend only. -/
@[simp] theorem setBend_keeps (s : State) (v : Nat) (x : BitVec 16) :
    (s.setBend v x).cfg = s.cfg ∧ (s.setBend v x).cmdOvf = s.cmdOvf ∧
    (s.setBend v x).overrun = s.overrun ∧ (s.setBend v x).badCmd = s.badCmd ∧
    (s.setBend v x).tphase = s.tphase ∧ (s.setBend v x).ts = s.ts ∧
    (s.setBend v x).cmdCount = s.cmdCount ∧ (s.setBend v x).fifo = s.fifo ∧
    (s.setBend v x).voiceMask = s.voiceMask ∧ (s.setBend v x).priority = s.priority ∧
    (s.setBend v x).mono = s.mono ∧ (s.setBend v x).hold = s.hold ∧ (s.setBend v x).plen = s.plen ∧
    (s.setBend v x).offsets = s.offsets ∧ (s.setBend v x).offsetsStg = s.offsetsStg ∧
    (s.setBend v x).noteHeld = s.noteHeld ∧ (s.setBend v x).voices = s.voices ∧
    (s.setBend v x).envs = s.envs ∧ (s.setBend v x).lfos = s.lfos ∧ (s.setBend v x).oscs = s.oscs ∧
    (s.setBend v x).slots = s.slots ∧ (s.setBend v x).staging = s.staging ∧
    (s.setBend v x).waveLenStg = s.waveLenStg ∧ (s.setBend v x).amt = s.amt ∧
    (s.setBend v x).base = s.base ∧ (s.setBend v x).glide = s.glide ∧ (s.setBend v x).pb = s.pb ∧
    (s.setBend v x).tb = s.tb ∧ (s.setBend v x).pressure = s.pressure ∧
    (s.setBend v x).cvOut = s.cvOut ∧ (s.setBend v x).syncStaged = s.syncStaged ∧
    (s.setBend v x).syncActive = s.syncActive ∧ (s.setBend v x).buf = s.buf ∧
    (s.setBend v x).pending = s.pending ∧ (s.setBend v x).fillPtr = s.fillPtr ∧
    (s.setBend v x).dmaPtr = s.dmaPtr ∧ (s.setBend v x).rr = s.rr ∧ (s.setBend v x).evt = s.evt ∧
    (s.setBend v x).dac = s.dac ∧ (s.setBend v x).script = s.script ∧
    (s.setBend v x).schedPos = s.schedPos ∧ (s.setBend v x).reads = s.reads := by
  repeat' apply And.intro
  all_goals rfl

/-- R26: the reads setBend keeps. -/
@[simp] theorem setBend_reads (s : State) (v : Nat) (x : BitVec 16) :
    (∀ u : Nat, (s.setBend v x).voice u = s.voice u) ∧ (∀ a : Nat, (s.setBend v x).env a = s.env a) ∧
    (∀ m : Bool, (s.setBend v x).lfo m = s.lfo m) ∧ (∀ a : Nat, (s.setBend v x).osc a = s.osc a) ∧
    (∀ a : Nat, (s.setBend v x).slot a = s.slot a) ∧
    (∀ i : Nat, (s.setBend v x).offset i = s.offset i) ∧
    (∀ c j : Nat, (s.setBend v x).amount c j = s.amount c j) ∧
    (∀ c : Nat, (s.setBend v x).baseOf c = s.baseOf c) ∧
    (∀ u : Nat, (s.setBend v x).pbOf u = s.pbOf u) ∧ (∀ u : Nat, (s.setBend v x).tbOf u = s.tbOf u) ∧
    (∀ u : Nat, (s.setBend v x).pressureOf u = s.pressureOf u) ∧
    (∀ u c : Nat, (s.setBend v x).cv u c = s.cv u c) ∧
    (∀ m : BitVec 7, (s.setBend v x).held m = s.held m) ∧
    (∀ i : Nat, (s.setBend v x).readStaging i = s.readStaging i) ∧
    (∀ a i : Nat, (s.setBend v x).readSlot a i = s.readSlot a i) ∧
    (∀ (g : Bool) (i j : Nat), (s.setBend v x).readBuf g i j = s.readBuf g i j) := by
  repeat' apply And.intro
  all_goals intros; rfl

/-- R26: setPressure writes pressure only. -/
@[simp] theorem setPressure_keeps (s : State) (v : Nat) (x : U16) :
    (s.setPressure v x).cfg = s.cfg ∧ (s.setPressure v x).cmdOvf = s.cmdOvf ∧
    (s.setPressure v x).overrun = s.overrun ∧ (s.setPressure v x).badCmd = s.badCmd ∧
    (s.setPressure v x).tphase = s.tphase ∧ (s.setPressure v x).ts = s.ts ∧
    (s.setPressure v x).cmdCount = s.cmdCount ∧ (s.setPressure v x).fifo = s.fifo ∧
    (s.setPressure v x).voiceMask = s.voiceMask ∧ (s.setPressure v x).priority = s.priority ∧
    (s.setPressure v x).mono = s.mono ∧ (s.setPressure v x).hold = s.hold ∧
    (s.setPressure v x).plen = s.plen ∧ (s.setPressure v x).offsets = s.offsets ∧
    (s.setPressure v x).offsetsStg = s.offsetsStg ∧ (s.setPressure v x).noteHeld = s.noteHeld ∧
    (s.setPressure v x).voices = s.voices ∧ (s.setPressure v x).envs = s.envs ∧
    (s.setPressure v x).lfos = s.lfos ∧ (s.setPressure v x).oscs = s.oscs ∧
    (s.setPressure v x).slots = s.slots ∧ (s.setPressure v x).staging = s.staging ∧
    (s.setPressure v x).waveLenStg = s.waveLenStg ∧ (s.setPressure v x).amt = s.amt ∧
    (s.setPressure v x).base = s.base ∧ (s.setPressure v x).glide = s.glide ∧
    (s.setPressure v x).pb = s.pb ∧ (s.setPressure v x).tb = s.tb ∧ (s.setPressure v x).bend = s.bend ∧
    (s.setPressure v x).cvOut = s.cvOut ∧ (s.setPressure v x).syncStaged = s.syncStaged ∧
    (s.setPressure v x).syncActive = s.syncActive ∧ (s.setPressure v x).buf = s.buf ∧
    (s.setPressure v x).pending = s.pending ∧ (s.setPressure v x).fillPtr = s.fillPtr ∧
    (s.setPressure v x).dmaPtr = s.dmaPtr ∧ (s.setPressure v x).rr = s.rr ∧
    (s.setPressure v x).evt = s.evt ∧ (s.setPressure v x).dac = s.dac ∧
    (s.setPressure v x).script = s.script ∧ (s.setPressure v x).schedPos = s.schedPos ∧
    (s.setPressure v x).reads = s.reads := by
  repeat' apply And.intro
  all_goals rfl

/-- R26: the reads setPressure keeps. -/
@[simp] theorem setPressure_reads (s : State) (v : Nat) (x : U16) :
    (∀ u : Nat, (s.setPressure v x).voice u = s.voice u) ∧
    (∀ a : Nat, (s.setPressure v x).env a = s.env a) ∧
    (∀ m : Bool, (s.setPressure v x).lfo m = s.lfo m) ∧
    (∀ a : Nat, (s.setPressure v x).osc a = s.osc a) ∧
    (∀ a : Nat, (s.setPressure v x).slot a = s.slot a) ∧
    (∀ i : Nat, (s.setPressure v x).offset i = s.offset i) ∧
    (∀ c j : Nat, (s.setPressure v x).amount c j = s.amount c j) ∧
    (∀ c : Nat, (s.setPressure v x).baseOf c = s.baseOf c) ∧
    (∀ u : Nat, (s.setPressure v x).pbOf u = s.pbOf u) ∧
    (∀ u : Nat, (s.setPressure v x).tbOf u = s.tbOf u) ∧
    (∀ u : Nat, (s.setPressure v x).bendOf u = s.bendOf u) ∧
    (∀ u c : Nat, (s.setPressure v x).cv u c = s.cv u c) ∧
    (∀ m : BitVec 7, (s.setPressure v x).held m = s.held m) ∧
    (∀ i : Nat, (s.setPressure v x).readStaging i = s.readStaging i) ∧
    (∀ a i : Nat, (s.setPressure v x).readSlot a i = s.readSlot a i) ∧
    (∀ (g : Bool) (i j : Nat), (s.setPressure v x).readBuf g i j = s.readBuf g i j) := by
  repeat' apply And.intro
  all_goals intros; rfl

/-- R26: setCv writes cvOut only. -/
@[simp] theorem setCv_keeps (s : State) (v d : Nat) (x : U16) :
    (s.setCv v d x).cfg = s.cfg ∧ (s.setCv v d x).cmdOvf = s.cmdOvf ∧
    (s.setCv v d x).overrun = s.overrun ∧ (s.setCv v d x).badCmd = s.badCmd ∧
    (s.setCv v d x).tphase = s.tphase ∧ (s.setCv v d x).ts = s.ts ∧
    (s.setCv v d x).cmdCount = s.cmdCount ∧ (s.setCv v d x).fifo = s.fifo ∧
    (s.setCv v d x).voiceMask = s.voiceMask ∧ (s.setCv v d x).priority = s.priority ∧
    (s.setCv v d x).mono = s.mono ∧ (s.setCv v d x).hold = s.hold ∧ (s.setCv v d x).plen = s.plen ∧
    (s.setCv v d x).offsets = s.offsets ∧ (s.setCv v d x).offsetsStg = s.offsetsStg ∧
    (s.setCv v d x).noteHeld = s.noteHeld ∧ (s.setCv v d x).voices = s.voices ∧
    (s.setCv v d x).envs = s.envs ∧ (s.setCv v d x).lfos = s.lfos ∧ (s.setCv v d x).oscs = s.oscs ∧
    (s.setCv v d x).slots = s.slots ∧ (s.setCv v d x).staging = s.staging ∧
    (s.setCv v d x).waveLenStg = s.waveLenStg ∧ (s.setCv v d x).amt = s.amt ∧
    (s.setCv v d x).base = s.base ∧ (s.setCv v d x).glide = s.glide ∧ (s.setCv v d x).pb = s.pb ∧
    (s.setCv v d x).tb = s.tb ∧ (s.setCv v d x).bend = s.bend ∧ (s.setCv v d x).pressure = s.pressure ∧
    (s.setCv v d x).syncStaged = s.syncStaged ∧ (s.setCv v d x).syncActive = s.syncActive ∧
    (s.setCv v d x).buf = s.buf ∧ (s.setCv v d x).pending = s.pending ∧
    (s.setCv v d x).fillPtr = s.fillPtr ∧ (s.setCv v d x).dmaPtr = s.dmaPtr ∧
    (s.setCv v d x).rr = s.rr ∧ (s.setCv v d x).evt = s.evt ∧ (s.setCv v d x).dac = s.dac ∧
    (s.setCv v d x).script = s.script ∧ (s.setCv v d x).schedPos = s.schedPos ∧
    (s.setCv v d x).reads = s.reads := by
  repeat' apply And.intro
  all_goals rfl

/-- R26: the reads setCv keeps. -/
@[simp] theorem setCv_reads (s : State) (v d : Nat) (x : U16) :
    (∀ u : Nat, (s.setCv v d x).voice u = s.voice u) ∧ (∀ a : Nat, (s.setCv v d x).env a = s.env a) ∧
    (∀ m : Bool, (s.setCv v d x).lfo m = s.lfo m) ∧ (∀ a : Nat, (s.setCv v d x).osc a = s.osc a) ∧
    (∀ a : Nat, (s.setCv v d x).slot a = s.slot a) ∧
    (∀ i : Nat, (s.setCv v d x).offset i = s.offset i) ∧
    (∀ c j : Nat, (s.setCv v d x).amount c j = s.amount c j) ∧
    (∀ c : Nat, (s.setCv v d x).baseOf c = s.baseOf c) ∧
    (∀ u : Nat, (s.setCv v d x).pbOf u = s.pbOf u) ∧ (∀ u : Nat, (s.setCv v d x).tbOf u = s.tbOf u) ∧
    (∀ u : Nat, (s.setCv v d x).bendOf u = s.bendOf u) ∧
    (∀ u : Nat, (s.setCv v d x).pressureOf u = s.pressureOf u) ∧
    (∀ m : BitVec 7, (s.setCv v d x).held m = s.held m) ∧
    (∀ i : Nat, (s.setCv v d x).readStaging i = s.readStaging i) ∧
    (∀ a i : Nat, (s.setCv v d x).readSlot a i = s.readSlot a i) ∧
    (∀ (g : Bool) (i j : Nat), (s.setCv v d x).readBuf g i j = s.readBuf g i j) := by
  repeat' apply And.intro
  all_goals intros; rfl

/-- R20: setHeld writes noteHeld only. -/
@[simp] theorem setHeld_keeps (s : State) (n : BitVec 7) (b : Bool) :
    (s.setHeld n b).cfg = s.cfg ∧ (s.setHeld n b).cmdOvf = s.cmdOvf ∧
    (s.setHeld n b).overrun = s.overrun ∧ (s.setHeld n b).badCmd = s.badCmd ∧
    (s.setHeld n b).tphase = s.tphase ∧ (s.setHeld n b).ts = s.ts ∧
    (s.setHeld n b).cmdCount = s.cmdCount ∧ (s.setHeld n b).fifo = s.fifo ∧
    (s.setHeld n b).voiceMask = s.voiceMask ∧ (s.setHeld n b).priority = s.priority ∧
    (s.setHeld n b).mono = s.mono ∧ (s.setHeld n b).hold = s.hold ∧ (s.setHeld n b).plen = s.plen ∧
    (s.setHeld n b).offsets = s.offsets ∧ (s.setHeld n b).offsetsStg = s.offsetsStg ∧
    (s.setHeld n b).voices = s.voices ∧ (s.setHeld n b).envs = s.envs ∧ (s.setHeld n b).lfos = s.lfos ∧
    (s.setHeld n b).oscs = s.oscs ∧ (s.setHeld n b).slots = s.slots ∧
    (s.setHeld n b).staging = s.staging ∧ (s.setHeld n b).waveLenStg = s.waveLenStg ∧
    (s.setHeld n b).amt = s.amt ∧ (s.setHeld n b).base = s.base ∧ (s.setHeld n b).glide = s.glide ∧
    (s.setHeld n b).pb = s.pb ∧ (s.setHeld n b).tb = s.tb ∧ (s.setHeld n b).bend = s.bend ∧
    (s.setHeld n b).pressure = s.pressure ∧ (s.setHeld n b).cvOut = s.cvOut ∧
    (s.setHeld n b).syncStaged = s.syncStaged ∧ (s.setHeld n b).syncActive = s.syncActive ∧
    (s.setHeld n b).buf = s.buf ∧ (s.setHeld n b).pending = s.pending ∧
    (s.setHeld n b).fillPtr = s.fillPtr ∧ (s.setHeld n b).dmaPtr = s.dmaPtr ∧
    (s.setHeld n b).rr = s.rr ∧ (s.setHeld n b).evt = s.evt ∧ (s.setHeld n b).dac = s.dac ∧
    (s.setHeld n b).script = s.script ∧ (s.setHeld n b).schedPos = s.schedPos ∧
    (s.setHeld n b).reads = s.reads := by
  repeat' apply And.intro
  all_goals rfl

/-- R20: the reads setHeld keeps. -/
@[simp] theorem setHeld_reads (s : State) (n : BitVec 7) (b : Bool) :
    (∀ u : Nat, (s.setHeld n b).voice u = s.voice u) ∧ (∀ a : Nat, (s.setHeld n b).env a = s.env a) ∧
    (∀ m : Bool, (s.setHeld n b).lfo m = s.lfo m) ∧ (∀ a : Nat, (s.setHeld n b).osc a = s.osc a) ∧
    (∀ a : Nat, (s.setHeld n b).slot a = s.slot a) ∧
    (∀ i : Nat, (s.setHeld n b).offset i = s.offset i) ∧
    (∀ c j : Nat, (s.setHeld n b).amount c j = s.amount c j) ∧
    (∀ c : Nat, (s.setHeld n b).baseOf c = s.baseOf c) ∧
    (∀ u : Nat, (s.setHeld n b).pbOf u = s.pbOf u) ∧ (∀ u : Nat, (s.setHeld n b).tbOf u = s.tbOf u) ∧
    (∀ u : Nat, (s.setHeld n b).bendOf u = s.bendOf u) ∧
    (∀ u : Nat, (s.setHeld n b).pressureOf u = s.pressureOf u) ∧
    (∀ u c : Nat, (s.setHeld n b).cv u c = s.cv u c) ∧
    (∀ i : Nat, (s.setHeld n b).readStaging i = s.readStaging i) ∧
    (∀ a i : Nat, (s.setHeld n b).readSlot a i = s.readSlot a i) ∧
    (∀ (g : Bool) (i j : Nat), (s.setHeld n b).readBuf g i j = s.readBuf g i j) := by
  repeat' apply And.intro
  all_goals intros; rfl

/-- R18: raiseCmdOvf writes cmdOvf only. -/
@[simp] theorem raiseCmdOvf_keeps (s : State) :
    (raiseCmdOvf s).cfg = s.cfg ∧ (raiseCmdOvf s).overrun = s.overrun ∧
    (raiseCmdOvf s).badCmd = s.badCmd ∧ (raiseCmdOvf s).tphase = s.tphase ∧ (raiseCmdOvf s).ts = s.ts ∧
    (raiseCmdOvf s).cmdCount = s.cmdCount ∧ (raiseCmdOvf s).fifo = s.fifo ∧
    (raiseCmdOvf s).voiceMask = s.voiceMask ∧ (raiseCmdOvf s).priority = s.priority ∧
    (raiseCmdOvf s).mono = s.mono ∧ (raiseCmdOvf s).hold = s.hold ∧ (raiseCmdOvf s).plen = s.plen ∧
    (raiseCmdOvf s).offsets = s.offsets ∧ (raiseCmdOvf s).offsetsStg = s.offsetsStg ∧
    (raiseCmdOvf s).noteHeld = s.noteHeld ∧ (raiseCmdOvf s).voices = s.voices ∧
    (raiseCmdOvf s).envs = s.envs ∧ (raiseCmdOvf s).lfos = s.lfos ∧ (raiseCmdOvf s).oscs = s.oscs ∧
    (raiseCmdOvf s).slots = s.slots ∧ (raiseCmdOvf s).staging = s.staging ∧
    (raiseCmdOvf s).waveLenStg = s.waveLenStg ∧ (raiseCmdOvf s).amt = s.amt ∧
    (raiseCmdOvf s).base = s.base ∧ (raiseCmdOvf s).glide = s.glide ∧ (raiseCmdOvf s).pb = s.pb ∧
    (raiseCmdOvf s).tb = s.tb ∧ (raiseCmdOvf s).bend = s.bend ∧ (raiseCmdOvf s).pressure = s.pressure ∧
    (raiseCmdOvf s).cvOut = s.cvOut ∧ (raiseCmdOvf s).syncStaged = s.syncStaged ∧
    (raiseCmdOvf s).syncActive = s.syncActive ∧ (raiseCmdOvf s).buf = s.buf ∧
    (raiseCmdOvf s).pending = s.pending ∧ (raiseCmdOvf s).fillPtr = s.fillPtr ∧
    (raiseCmdOvf s).dmaPtr = s.dmaPtr ∧ (raiseCmdOvf s).rr = s.rr ∧ (raiseCmdOvf s).evt = s.evt ∧
    (raiseCmdOvf s).dac = s.dac ∧ (raiseCmdOvf s).script = s.script ∧
    (raiseCmdOvf s).schedPos = s.schedPos ∧ (raiseCmdOvf s).reads = s.reads := by
  repeat' apply And.intro
  all_goals rfl

/-- R18: the reads raiseCmdOvf keeps. -/
@[simp] theorem raiseCmdOvf_reads (s : State) :
    (∀ u : Nat, (raiseCmdOvf s).voice u = s.voice u) ∧ (∀ a : Nat, (raiseCmdOvf s).env a = s.env a) ∧
    (∀ m : Bool, (raiseCmdOvf s).lfo m = s.lfo m) ∧ (∀ a : Nat, (raiseCmdOvf s).osc a = s.osc a) ∧
    (∀ a : Nat, (raiseCmdOvf s).slot a = s.slot a) ∧
    (∀ i : Nat, (raiseCmdOvf s).offset i = s.offset i) ∧
    (∀ c j : Nat, (raiseCmdOvf s).amount c j = s.amount c j) ∧
    (∀ c : Nat, (raiseCmdOvf s).baseOf c = s.baseOf c) ∧
    (∀ u : Nat, (raiseCmdOvf s).pbOf u = s.pbOf u) ∧ (∀ u : Nat, (raiseCmdOvf s).tbOf u = s.tbOf u) ∧
    (∀ u : Nat, (raiseCmdOvf s).bendOf u = s.bendOf u) ∧
    (∀ u : Nat, (raiseCmdOvf s).pressureOf u = s.pressureOf u) ∧
    (∀ u c : Nat, (raiseCmdOvf s).cv u c = s.cv u c) ∧
    (∀ m : BitVec 7, (raiseCmdOvf s).held m = s.held m) ∧
    (∀ i : Nat, (raiseCmdOvf s).readStaging i = s.readStaging i) ∧
    (∀ a i : Nat, (raiseCmdOvf s).readSlot a i = s.readSlot a i) ∧
    (∀ (g : Bool) (i j : Nat), (raiseCmdOvf s).readBuf g i j = s.readBuf g i j) := by
  repeat' apply And.intro
  all_goals intros; rfl

/-- R18: raiseOverrun writes overrun only. -/
@[simp] theorem raiseOverrun_keeps (s : State) :
    (raiseOverrun s).cfg = s.cfg ∧ (raiseOverrun s).cmdOvf = s.cmdOvf ∧
    (raiseOverrun s).badCmd = s.badCmd ∧ (raiseOverrun s).tphase = s.tphase ∧
    (raiseOverrun s).ts = s.ts ∧ (raiseOverrun s).cmdCount = s.cmdCount ∧
    (raiseOverrun s).fifo = s.fifo ∧ (raiseOverrun s).voiceMask = s.voiceMask ∧
    (raiseOverrun s).priority = s.priority ∧ (raiseOverrun s).mono = s.mono ∧
    (raiseOverrun s).hold = s.hold ∧ (raiseOverrun s).plen = s.plen ∧
    (raiseOverrun s).offsets = s.offsets ∧ (raiseOverrun s).offsetsStg = s.offsetsStg ∧
    (raiseOverrun s).noteHeld = s.noteHeld ∧ (raiseOverrun s).voices = s.voices ∧
    (raiseOverrun s).envs = s.envs ∧ (raiseOverrun s).lfos = s.lfos ∧ (raiseOverrun s).oscs = s.oscs ∧
    (raiseOverrun s).slots = s.slots ∧ (raiseOverrun s).staging = s.staging ∧
    (raiseOverrun s).waveLenStg = s.waveLenStg ∧ (raiseOverrun s).amt = s.amt ∧
    (raiseOverrun s).base = s.base ∧ (raiseOverrun s).glide = s.glide ∧ (raiseOverrun s).pb = s.pb ∧
    (raiseOverrun s).tb = s.tb ∧ (raiseOverrun s).bend = s.bend ∧
    (raiseOverrun s).pressure = s.pressure ∧ (raiseOverrun s).cvOut = s.cvOut ∧
    (raiseOverrun s).syncStaged = s.syncStaged ∧ (raiseOverrun s).syncActive = s.syncActive ∧
    (raiseOverrun s).buf = s.buf ∧ (raiseOverrun s).pending = s.pending ∧
    (raiseOverrun s).fillPtr = s.fillPtr ∧ (raiseOverrun s).dmaPtr = s.dmaPtr ∧
    (raiseOverrun s).rr = s.rr ∧ (raiseOverrun s).evt = s.evt ∧ (raiseOverrun s).dac = s.dac ∧
    (raiseOverrun s).script = s.script ∧ (raiseOverrun s).schedPos = s.schedPos ∧
    (raiseOverrun s).reads = s.reads := by
  repeat' apply And.intro
  all_goals rfl

/-- R18: the reads raiseOverrun keeps. -/
@[simp] theorem raiseOverrun_reads (s : State) :
    (∀ u : Nat, (raiseOverrun s).voice u = s.voice u) ∧ (∀ a : Nat, (raiseOverrun s).env a = s.env a) ∧
    (∀ m : Bool, (raiseOverrun s).lfo m = s.lfo m) ∧ (∀ a : Nat, (raiseOverrun s).osc a = s.osc a) ∧
    (∀ a : Nat, (raiseOverrun s).slot a = s.slot a) ∧
    (∀ i : Nat, (raiseOverrun s).offset i = s.offset i) ∧
    (∀ c j : Nat, (raiseOverrun s).amount c j = s.amount c j) ∧
    (∀ c : Nat, (raiseOverrun s).baseOf c = s.baseOf c) ∧
    (∀ u : Nat, (raiseOverrun s).pbOf u = s.pbOf u) ∧ (∀ u : Nat, (raiseOverrun s).tbOf u = s.tbOf u) ∧
    (∀ u : Nat, (raiseOverrun s).bendOf u = s.bendOf u) ∧
    (∀ u : Nat, (raiseOverrun s).pressureOf u = s.pressureOf u) ∧
    (∀ u c : Nat, (raiseOverrun s).cv u c = s.cv u c) ∧
    (∀ m : BitVec 7, (raiseOverrun s).held m = s.held m) ∧
    (∀ i : Nat, (raiseOverrun s).readStaging i = s.readStaging i) ∧
    (∀ a i : Nat, (raiseOverrun s).readSlot a i = s.readSlot a i) ∧
    (∀ (g : Bool) (i j : Nat), (raiseOverrun s).readBuf g i j = s.readBuf g i j) := by
  repeat' apply And.intro
  all_goals intros; rfl

/-- R18: raiseBadCmd writes badCmd only. -/
@[simp] theorem raiseBadCmd_keeps (s : State) :
    (raiseBadCmd s).cfg = s.cfg ∧ (raiseBadCmd s).cmdOvf = s.cmdOvf ∧
    (raiseBadCmd s).overrun = s.overrun ∧ (raiseBadCmd s).tphase = s.tphase ∧
    (raiseBadCmd s).ts = s.ts ∧ (raiseBadCmd s).cmdCount = s.cmdCount ∧ (raiseBadCmd s).fifo = s.fifo ∧
    (raiseBadCmd s).voiceMask = s.voiceMask ∧ (raiseBadCmd s).priority = s.priority ∧
    (raiseBadCmd s).mono = s.mono ∧ (raiseBadCmd s).hold = s.hold ∧ (raiseBadCmd s).plen = s.plen ∧
    (raiseBadCmd s).offsets = s.offsets ∧ (raiseBadCmd s).offsetsStg = s.offsetsStg ∧
    (raiseBadCmd s).noteHeld = s.noteHeld ∧ (raiseBadCmd s).voices = s.voices ∧
    (raiseBadCmd s).envs = s.envs ∧ (raiseBadCmd s).lfos = s.lfos ∧ (raiseBadCmd s).oscs = s.oscs ∧
    (raiseBadCmd s).slots = s.slots ∧ (raiseBadCmd s).staging = s.staging ∧
    (raiseBadCmd s).waveLenStg = s.waveLenStg ∧ (raiseBadCmd s).amt = s.amt ∧
    (raiseBadCmd s).base = s.base ∧ (raiseBadCmd s).glide = s.glide ∧ (raiseBadCmd s).pb = s.pb ∧
    (raiseBadCmd s).tb = s.tb ∧ (raiseBadCmd s).bend = s.bend ∧ (raiseBadCmd s).pressure = s.pressure ∧
    (raiseBadCmd s).cvOut = s.cvOut ∧ (raiseBadCmd s).syncStaged = s.syncStaged ∧
    (raiseBadCmd s).syncActive = s.syncActive ∧ (raiseBadCmd s).buf = s.buf ∧
    (raiseBadCmd s).pending = s.pending ∧ (raiseBadCmd s).fillPtr = s.fillPtr ∧
    (raiseBadCmd s).dmaPtr = s.dmaPtr ∧ (raiseBadCmd s).rr = s.rr ∧ (raiseBadCmd s).evt = s.evt ∧
    (raiseBadCmd s).dac = s.dac ∧ (raiseBadCmd s).script = s.script ∧
    (raiseBadCmd s).schedPos = s.schedPos ∧ (raiseBadCmd s).reads = s.reads := by
  repeat' apply And.intro
  all_goals rfl

/-- R18: the reads raiseBadCmd keeps. -/
@[simp] theorem raiseBadCmd_reads (s : State) :
    (∀ u : Nat, (raiseBadCmd s).voice u = s.voice u) ∧ (∀ a : Nat, (raiseBadCmd s).env a = s.env a) ∧
    (∀ m : Bool, (raiseBadCmd s).lfo m = s.lfo m) ∧ (∀ a : Nat, (raiseBadCmd s).osc a = s.osc a) ∧
    (∀ a : Nat, (raiseBadCmd s).slot a = s.slot a) ∧
    (∀ i : Nat, (raiseBadCmd s).offset i = s.offset i) ∧
    (∀ c j : Nat, (raiseBadCmd s).amount c j = s.amount c j) ∧
    (∀ c : Nat, (raiseBadCmd s).baseOf c = s.baseOf c) ∧
    (∀ u : Nat, (raiseBadCmd s).pbOf u = s.pbOf u) ∧ (∀ u : Nat, (raiseBadCmd s).tbOf u = s.tbOf u) ∧
    (∀ u : Nat, (raiseBadCmd s).bendOf u = s.bendOf u) ∧
    (∀ u : Nat, (raiseBadCmd s).pressureOf u = s.pressureOf u) ∧
    (∀ u c : Nat, (raiseBadCmd s).cv u c = s.cv u c) ∧
    (∀ m : BitVec 7, (raiseBadCmd s).held m = s.held m) ∧
    (∀ i : Nat, (raiseBadCmd s).readStaging i = s.readStaging i) ∧
    (∀ a i : Nat, (raiseBadCmd s).readSlot a i = s.readSlot a i) ∧
    (∀ (g : Bool) (i j : Nat), (raiseBadCmd s).readBuf g i j = s.readBuf g i j) := by
  repeat' apply And.intro
  all_goals intros; rfl

/-- R63: clearStickyFlags writes cmdOvf, overrun, badCmd only. -/
@[simp] theorem clearStickyFlags_keeps (s : State) (clr : BitVec 3) :
    (clearStickyFlags clr s).cfg = s.cfg ∧ (clearStickyFlags clr s).tphase = s.tphase ∧
    (clearStickyFlags clr s).ts = s.ts ∧ (clearStickyFlags clr s).cmdCount = s.cmdCount ∧
    (clearStickyFlags clr s).fifo = s.fifo ∧ (clearStickyFlags clr s).voiceMask = s.voiceMask ∧
    (clearStickyFlags clr s).priority = s.priority ∧ (clearStickyFlags clr s).mono = s.mono ∧
    (clearStickyFlags clr s).hold = s.hold ∧ (clearStickyFlags clr s).plen = s.plen ∧
    (clearStickyFlags clr s).offsets = s.offsets ∧ (clearStickyFlags clr s).offsetsStg = s.offsetsStg ∧
    (clearStickyFlags clr s).noteHeld = s.noteHeld ∧ (clearStickyFlags clr s).voices = s.voices ∧
    (clearStickyFlags clr s).envs = s.envs ∧ (clearStickyFlags clr s).lfos = s.lfos ∧
    (clearStickyFlags clr s).oscs = s.oscs ∧ (clearStickyFlags clr s).slots = s.slots ∧
    (clearStickyFlags clr s).staging = s.staging ∧ (clearStickyFlags clr s).waveLenStg = s.waveLenStg ∧
    (clearStickyFlags clr s).amt = s.amt ∧ (clearStickyFlags clr s).base = s.base ∧
    (clearStickyFlags clr s).glide = s.glide ∧ (clearStickyFlags clr s).pb = s.pb ∧
    (clearStickyFlags clr s).tb = s.tb ∧ (clearStickyFlags clr s).bend = s.bend ∧
    (clearStickyFlags clr s).pressure = s.pressure ∧ (clearStickyFlags clr s).cvOut = s.cvOut ∧
    (clearStickyFlags clr s).syncStaged = s.syncStaged ∧
    (clearStickyFlags clr s).syncActive = s.syncActive ∧ (clearStickyFlags clr s).buf = s.buf ∧
    (clearStickyFlags clr s).pending = s.pending ∧ (clearStickyFlags clr s).fillPtr = s.fillPtr ∧
    (clearStickyFlags clr s).dmaPtr = s.dmaPtr ∧ (clearStickyFlags clr s).rr = s.rr ∧
    (clearStickyFlags clr s).evt = s.evt ∧ (clearStickyFlags clr s).dac = s.dac ∧
    (clearStickyFlags clr s).script = s.script ∧ (clearStickyFlags clr s).schedPos = s.schedPos ∧
    (clearStickyFlags clr s).reads = s.reads := by
  repeat' apply And.intro
  all_goals rfl

/-- R63: the reads clearStickyFlags keeps. -/
@[simp] theorem clearStickyFlags_reads (s : State) (clr : BitVec 3) :
    (∀ u : Nat, (clearStickyFlags clr s).voice u = s.voice u) ∧
    (∀ a : Nat, (clearStickyFlags clr s).env a = s.env a) ∧
    (∀ m : Bool, (clearStickyFlags clr s).lfo m = s.lfo m) ∧
    (∀ a : Nat, (clearStickyFlags clr s).osc a = s.osc a) ∧
    (∀ a : Nat, (clearStickyFlags clr s).slot a = s.slot a) ∧
    (∀ i : Nat, (clearStickyFlags clr s).offset i = s.offset i) ∧
    (∀ c j : Nat, (clearStickyFlags clr s).amount c j = s.amount c j) ∧
    (∀ c : Nat, (clearStickyFlags clr s).baseOf c = s.baseOf c) ∧
    (∀ u : Nat, (clearStickyFlags clr s).pbOf u = s.pbOf u) ∧
    (∀ u : Nat, (clearStickyFlags clr s).tbOf u = s.tbOf u) ∧
    (∀ u : Nat, (clearStickyFlags clr s).bendOf u = s.bendOf u) ∧
    (∀ u : Nat, (clearStickyFlags clr s).pressureOf u = s.pressureOf u) ∧
    (∀ u c : Nat, (clearStickyFlags clr s).cv u c = s.cv u c) ∧
    (∀ m : BitVec 7, (clearStickyFlags clr s).held m = s.held m) ∧
    (∀ i : Nat, (clearStickyFlags clr s).readStaging i = s.readStaging i) ∧
    (∀ a i : Nat, (clearStickyFlags clr s).readSlot a i = s.readSlot a i) ∧
    (∀ (g : Bool) (i j : Nat), (clearStickyFlags clr s).readBuf g i j = s.readBuf g i j) := by
  repeat' apply And.intro
  all_goals intros; rfl

end Sys2Proof.Machine
end

