-- ==== Sys2Proof/Laws/RegisterFiles.lean ====
section
/-! SUPPORT. What each named update changes in its register file, the sizes of the files, and the
induction rules of the loops (00_scope.md R6). -/

namespace Sys2Proof.Machine

/-! ## Register files as lists -/

theorem getD_modify {α : Type} (l : List α) (d : α) (i j : Nat) (f : α → α) :
    (l.modify i f).getD j d = if j = i ∧ i < l.length then f (l.getD i d) else l.getD j d := by
  by_cases hj : j < l.length
  · simp only [List.getD_eq_getElem?_getD, List.getElem?_modify]
    by_cases h : i = j
    · subst h; simp [hj]
    · simp [h, Ne.symm h]
  · rw [if_neg (by omega)]
    simp [List.getD_eq_getElem?_getD, List.getElem?_modify, List.getElem?_eq_none (Nat.le_of_not_lt hj)]

theorem getD_set {α : Type} (l : List α) (d : α) (i j : Nat) (x : α) :
    (l.set i x).getD j d = if j = i ∧ i < l.length then x else l.getD j d := by
  simp only [List.getD_eq_getElem?_getD, List.getElem?_set]
  by_cases h : i = j
  · subst h
    by_cases hl : i < l.length <;> simp [hl]
  · simp [h, Ne.symm h]

theorem two_get_set {α : Type} (t : Two α) (h g : Bool) (x : α) :
    (t.set h x).get g = if g = h then x else t.get g := by
  cases h <;> cases g <;> rfl

/-! ## What an update changes -/

theorem voice_modVoice (s : State) (v u : Nat) (f : Voice → Voice) :
    (s.modVoice v f).voice u = if u = v ∧ v < s.voices.length then f (s.voice v) else s.voice u :=
  getD_modify _ _ _ _ _

theorem env_modEnv (s : State) (e k : Nat) (f : Env → Env) :
    (s.modEnv e f).env k = if k = e ∧ e < s.envs.length then f (s.env e) else s.env k :=
  getD_modify _ _ _ _ _

theorem lfo_modLfo (s : State) (l m : Bool) (f : Lfo → Lfo) :
    (s.modLfo l f).lfo m = if m = l then f (s.lfo l) else s.lfo m := two_get_set _ _ _ _

theorem osc_modOsc (s : State) (o k : Nat) (f : Osc → Osc) :
    (s.modOsc o f).osc k = if k = o ∧ o < s.oscs.length then f (s.osc o) else s.osc k :=
  getD_modify _ _ _ _ _

theorem slot_setSlot (s : State) (k j : Nat) (x : Slot) :
    (s.setSlot k x).slot j = if j = k ∧ k < s.slots.length then x else s.slot j := getD_set _ _ _ _ _

theorem amount_setAmount (s : State) (d k c j : Nat) (x : BitVec 16) (hk : k < 8) (hj : j < 8) :
    (s.setAmount d k x).amount c j =
      if c = d ∧ j = k ∧ 8 * d + k < s.amt.length then x.toInt else s.amount c j := by
  simp only [State.amount, State.setAmount, getD_set]
  by_cases h : c = d ∧ j = k
  · obtain ⟨rfl, rfl⟩ := h; simp only [true_and]; split <;> rfl
  · rw [if_neg (by omega), if_neg (by omega)]

theorem baseOf_setBase (s : State) (d c : Nat) (x : U16) :
    (s.setBase d x).baseOf c = if c = d ∧ d < s.base.length then x else s.baseOf c := getD_set _ _ _ _ _

theorem pbOf_setPb (s : State) (v u : Nat) (x : U16) :
    (s.setPb v x).pbOf u = if u = v ∧ v < s.pb.length then x else s.pbOf u := getD_set _ _ _ _ _

theorem tbOf_setTb (s : State) (v u : Nat) (x : U16) :
    (s.setTb v x).tbOf u = if u = v ∧ v < s.tb.length then x else s.tbOf u := getD_set _ _ _ _ _

theorem bendOf_setBend (s : State) (v u : Nat) (x : BitVec 16) :
    (s.setBend v x).bendOf u = if u = v ∧ v < s.bend.length then x else s.bendOf u := getD_set _ _ _ _ _

theorem pressureOf_setPressure (s : State) (v u : Nat) (x : U16) :
    (s.setPressure v x).pressureOf u = if u = v ∧ v < s.pressure.length then x else s.pressureOf u :=
  getD_set _ _ _ _ _

theorem cv_setCv (s : State) (v d u c : Nat) (x : U16) (hd : d < 7) (hc : c < 7) :
    (s.setCv v d x).cv u c = if u = v ∧ c = d ∧ 7 * v + d < s.cvOut.length then x else s.cv u c := by
  simp only [State.cv, State.setCv, getD_set]
  by_cases h : u = v ∧ c = d
  · obtain ⟨rfl, rfl⟩ := h; simp
  · rw [if_neg (by omega), if_neg (by omega)]

theorem held_setHeld (s : State) (n m : BitVec 7) (b : Bool) :
    (s.setHeld n b).held m = if m = n then b else s.held m := by
  have hm := m.isLt
  have e : m = n ↔ m.toNat = n.toNat := BitVec.toNat_eq
  by_cases h : m = n
  · subst h
    cases b <;> simp [State.setHeld, State.held]
    all_goals omega
  · have hne : m.toNat ≠ n.toNat := fun x => h (e.mpr x)
    cases b <;> simp [State.setHeld, State.held, h]
    all_goals omega

/-! ## Sizes -/

@[simp] theorem length_voices_modVoice (s : State) (v : Nat) (f : Voice → Voice) :
    (s.modVoice v f).voices.length = s.voices.length := List.length_modify _ _ _

@[simp] theorem length_envs_modEnv (s : State) (e : Nat) (f : Env → Env) :
    (s.modEnv e f).envs.length = s.envs.length := List.length_modify _ _ _

@[simp] theorem length_oscs_modOsc (s : State) (o : Nat) (f : Osc → Osc) :
    (s.modOsc o f).oscs.length = s.oscs.length := List.length_modify _ _ _

@[simp] theorem length_slots_setSlot (s : State) (k : Nat) (x : Slot) :
    (s.setSlot k x).slots.length = s.slots.length := List.length_set

@[simp] theorem length_amt_setAmount (s : State) (d k : Nat) (x : BitVec 16) :
    (s.setAmount d k x).amt.length = s.amt.length := List.length_set

@[simp] theorem length_base_setBase (s : State) (d : Nat) (x : U16) :
    (s.setBase d x).base.length = s.base.length := List.length_set

@[simp] theorem length_pb_setPb (s : State) (v : Nat) (x : U16) :
    (s.setPb v x).pb.length = s.pb.length := List.length_set

@[simp] theorem length_tb_setTb (s : State) (v : Nat) (x : U16) :
    (s.setTb v x).tb.length = s.tb.length := List.length_set

@[simp] theorem length_bend_setBend (s : State) (v : Nat) (x : BitVec 16) :
    (s.setBend v x).bend.length = s.bend.length := List.length_set

@[simp] theorem length_pressure_setPressure (s : State) (v : Nat) (x : U16) :
    (s.setPressure v x).pressure.length = s.pressure.length := List.length_set

@[simp] theorem length_cvOut_setCv (s : State) (v d : Nat) (x : U16) :
    (s.setCv v d x).cvOut.length = s.cvOut.length := List.length_set

/-! ## Two updates of one file, and of two files -/

theorem modEnv_modVoice_comm (s : State) (e v : Nat) (f : Env → Env) (g : Voice → Voice) :
    (s.modVoice v g).modEnv e f = (s.modEnv e f).modVoice v g := rfl

/-! ## Loops -/

/-- The loop over 0..n−1, one pass more. -/
theorem forUpTo_succ (n : Nat) (f : Nat → State → State) (s : State) :
    forUpTo (n + 1) f s = f n (forUpTo n f s) := by
  simp [forUpTo, List.range_succ]

@[simp] theorem forUpTo_zero (f : Nat → State → State) (s : State) : forUpTo 0 f s = s := rfl

/-- What a loop over 0..n−1 establishes, pass by pass. -/
theorem forUpTo_induct {P : Nat → State → Prop} {n : Nat} {f : Nat → State → State} {s : State}
    (h0 : P 0 s) (hs : ∀ k t, k < n → P k t → P (k + 1) (f k t)) : P n (forUpTo n f s) := by
  induction n with
  | zero => exact h0
  | succ n ih =>
    rw [forUpTo_succ]
    exact hs n _ (Nat.lt_succ_self n) (ih fun k t hk => hs k t (Nat.lt_succ_of_lt hk))

/-- What every pass of a loop keeps, the loop keeps. -/
theorem forUpTo_keeps {P : State → Prop} {n : Nat} {f : Nat → State → State} {s : State}
    (h0 : P s) (hs : ∀ k t, k < n → P t → P (f k t)) : P (forUpTo n f s) :=
  forUpTo_induct (P := fun _ => P) h0 hs

/-- What every pass keeps, the loop over the voices keeps. -/
theorem forVoices_keeps {P : State → Prop} {f : Nat → State → State} {s : State}
    (h0 : P s) (hs : ∀ k t, k < s.cfg.nVoices → P t → P (f k t)) : P (forVoices f s) :=
  forUpTo_keeps h0 hs

/-- What a loop over a list establishes, element by element. -/
theorem foldl_induct {α : Type} {P : Nat → State → Prop} {f : State → α → State} (l : List α) {s : State}
    (h0 : P 0 s) (hs : ∀ k t a, l[k]? = some a → P k t → P (k + 1) (f t a)) :
    P l.length (l.foldl f s) := by
  induction l using List.reverseRecOn with
  | nil => exact h0
  | append_singleton l a ih =>
    rw [List.foldl_append, List.length_append]
    refine hs l.length _ a (by simp) (ih fun k t b hk => hs k t b ?_)
    obtain ⟨hlt, -⟩ := List.getElem?_eq_some_iff.mp hk
    rw [List.getElem?_append_left hlt, hk]

/-- What every element's pass keeps, the loop keeps. -/
theorem foldl_keeps {α : Type} {P : State → Prop} {f : State → α → State} (l : List α) {s : State}
    (h0 : P s) (hs : ∀ t a, a ∈ l → P t → P (f t a)) : P (l.foldl f s) :=
  foldl_induct (P := fun _ => P) l h0 fun _ t _ hk => hs t _ (List.mem_of_getElem? hk)

end Sys2Proof.Machine
end

