-- ==== Sys2Proof/Laws/Envelope.lean ====
section
/-! SUPPORT. What the envelope generator's procedures can do (42_envelope.md R91 to R98). -/

namespace Sys2Proof.Machine

/-- Recomputing twice is recomputing once (R91). -/
@[simp] theorem envRecompute_idem (x : Env) : envRecompute (envRecompute x) = envRecompute x := rfl

/-- SUS is a u16 (R92). -/
theorem envSus_le (x : Env) : envSus x ≤ 65535 := by
  have h1 := x.susCv.isLt
  have h2 := x.level.isLt
  have h3 : x.susCv.toNat * x.level.toNat ≤ 65535 * 65535 := Nat.mul_le_mul (by omega) (by omega)
  unfold envSus; omega

/-- The exponential shape is a u16 (R93). -/
theorem envShapeExp_le (p : Nat) : envShapeExp p ≤ 65535 := by
  have h := fun y => clampInt_bounds (x := y) (lo := 0) (hi := 65535) (by decide)
  simp only [envShapeExp]
  generalize (_ : Int) / (_ : Int) = y
  have := h y
  omega

/-- Everything envEnter does (R94): the stage starts at phase 0 from the output, MUL being the way to the
target. -/
theorem envEnter_spec (st : Stage) (target : Nat) (x : Env) (h : target ≤ 65535) :
    ∃ m : BitVec 17, m.toInt = (target : Int) - x.output.toNat ∧
      envEnter st target x = { x with stage := st, phase := 0, add := x.output, mul := m } := by
  refine ⟨_, ?_, rfl⟩
  have := x.output.isLt
  rw [BitVec.toInt_ofInt]
  apply Int.bmod_eq_of_le <;> omega

/-- Everything envSetGate does (R95): Attack towards LEVEL or Release towards 0. -/
theorem envSetGate_spec (g : Bool) (x : Env) :
    ∃ m : BitVec 17, m.toInt = (if g then (x.level.toNat : Int) else 0) - x.output.toNat ∧
      envSetGate g x =
        { x with stage := if g then .attack else .release, phase := 0, add := x.output, mul := m } := by
  have := x.level.isLt
  cases g
  · exact envEnter_spec .release 0 x (by omega)
  · exact envEnter_spec .attack x.level.toNat x (by omega)

/-- Gating on after gating off is gating on: the first leaves the output alone (R95, R96). -/
@[simp] theorem envSetGate_true_false (x : Env) : envSetGate true (envSetGate false x) = envSetGate true x := rfl

/-- No gate change leaves an envelope in Wait (R95). -/
theorem envSetGate_stage (g : Bool) (x : Env) : (envSetGate g x).stage ≠ .wait := by
  cases g <;> simp [envSetGate, envEnter]

/-- What the end of a stage keeps and where it leads (R97). -/
theorem envComplete_keeps (x : Env) :
    envComplete x =
      { x with
        stage := (envComplete x).stage
        phase := 0
        add := (envComplete x).add
        mul := (envComplete x).mul
        output := envTarget x } ∧ (envComplete x).stage ≠ .wait := by
  obtain ⟨st, _⟩ := x
  cases st <;> exact ⟨rfl, by simp [envComplete, envEnter]⟩

/-- What an update of a running stage keeps: the parameters (R97). -/
theorem envRun_keeps (x : Env) :
    envRun x =
      { x with
        stage := (envRun x).stage
        phase := (envRun x).phase
        add := (envRun x).add
        mul := (envRun x).mul
        output := (envRun x).output } ∧ ((envRun x).stage = .wait → x.stage = .wait) := by
  simp only [envRun]
  split
  · obtain ⟨h1, h2⟩ := envComplete_keeps x
    exact ⟨by rw [h1], fun h => absurd h h2⟩
  · exact ⟨rfl, id⟩

/-- No procedure but the parameter commands writes an envelope's parameters, and an update neither enters
nor leaves Wait (R97, R99, 42_envelope.md section 3). -/
theorem envUpdate_keeps (x : Env) :
    envUpdate x =
      { x with
        stage := (envUpdate x).stage
        phase := (envUpdate x).phase
        add := (envUpdate x).add
        mul := (envUpdate x).mul
        output := (envUpdate x).output } ∧ ((envUpdate x).stage = .wait ↔ x.stage = .wait) := by
  have hr := envRun_keeps x
  unfold envUpdate
  split <;> rename_i h
  · exact ⟨rfl, Iff.rfl⟩
  · exact ⟨rfl, Iff.rfl⟩
  · split <;> simp [envEnter, h]
  all_goals exact ⟨hr.1, hr.2, fun e => by simp [e] at h⟩

/-! ## Target sets (R54) -/

/-- The envelopes of a target set are distinct. -/
theorem envset_nodup (n : Nat) (b : Bool) (e : BitVec 4) : (envsetOperand n b e).Nodup := by
  cases b
  · simp [envsetOperand]
  · exact List.nodup_range.filter _

/-- Which envelopes a target set holds: with B = 1 those of kind w[16], else the one the clamp gives. -/
theorem mem_envset (n : Nat) (hn : 0 < n) (b : Bool) (e : BitVec 4) (k : Nat) :
    k ∈ envsetOperand n b e ↔
      k < 2 * n ∧ if b then k % 2 = e.toNat % 2 else k = min e.toNat (2 * n - 1) := by
  cases b
  · simp [envsetOperand]; omega
  · simp [envsetOperand]

/-- Everything a parameter command does to the envelopes (42_envelope.md section 3): each envelope of the
set is changed once and recomputed, and nothing else differs. -/
theorem forEnvset_spec (es : List Nat) (h : es.Nodup) (f : Env → Env) (s : State)
    (hl : ∀ e ∈ es, e < s.envs.length) :
    forEnvset es f s = { s with envs := (forEnvset es f s).envs } ∧
    (forEnvset es f s).envs.length = s.envs.length ∧
    ∀ k, (forEnvset es f s).env k = if k ∈ es then envRecompute (f (s.env k)) else s.env k := by
  unfold forEnvset
  induction es generalizing s with
  | nil => exact ⟨rfl, rfl, fun k => by simp⟩
  | cons e es ih =>
    obtain ⟨he, hn⟩ := List.nodup_cons.mp h
    obtain ⟨h1, h2, h3⟩ := ih hn (s.modEnv e fun x => envRecompute (f x)) fun x hx => by
      simpa using hl x (by simp [hx])
    have hle := hl e (by simp)
    refine ⟨?_, by simpa using h2, fun k => ?_⟩
    · rw [List.foldl_cons, h1]; rfl
    · rw [List.foldl_cons, h3, env_modEnv]
      by_cases hk : k = e
      · subst hk; simp [he, hle]
      · simp [hk]

end Sys2Proof.Machine
end

