-- ==== Sys2Proof/Laws/Assigner.lean ====
section
/-! SUPPORT. What the Voice Assigner's procedures can do (41_voice_assigner.md R67 to R82): for each, the
fields it may write, the sizes it keeps and what every register it writes holds after it. -/

namespace Sys2Proof.Machine

/-! ## Choosing voices -/

/-- E holds the enabled voices (R67). -/
theorem mem_enabledVoices {s : State} {v : Nat} :
    v ∈ enabledVoices s ↔ v < s.cfg.nVoices ∧ s.voiceMask.getLsbD v = true := by
  simp [enabledVoices]

/-- E is in ascending order (R67). -/
theorem enabledVoices_sorted (s : State) : (enabledVoices s).Pairwise (· < ·) :=
  List.pairwise_lt_range.filter _

/-- What oldest(C) answers (R68): a voice of C that no other is older than, the first of the oldest. -/
theorem oldest_spec (s : State) (C : List Nat) (hC : C ≠ []) (hs : C.Pairwise (· < ·)) :
    oldest s C ∈ C ∧ ∀ u ∈ C, age s u < age s (oldest s C) ∨ (age s u = age s (oldest s C) ∧ oldest s C ≤ u) := by
  obtain ⟨v, vs, rfl⟩ := List.exists_cons_of_ne_nil hC
  simp only [oldest]
  clear hC
  induction vs using List.reverseRecOn with
  | nil => simp
  | append_singleton vs w ih =>
    rw [← List.cons_append] at hs
    obtain ⟨h1, -, h2⟩ := List.pairwise_append.mp hs
    obtain ⟨hm, ha⟩ := ih h1
    rw [List.foldl_append, List.foldl_cons, List.foldl_nil]
    generalize List.foldl (fun b u => if age s b < age s u then u else b) v vs = b at hm ha
    have hbw := h2 b hm w (by simp)
    split <;> rename_i hlt
    · refine ⟨by simp, fun u hu => ?_⟩
      rw [← List.cons_append] at hu
      rcases List.mem_append.mp hu with hu | hu
      · have := ha u hu; omega
      · simp only [List.mem_singleton] at hu; subst hu; omega
    · refine ⟨by rw [← List.cons_append]; exact List.mem_append_left _ hm, fun u hu => ?_⟩
      rw [← List.cons_append] at hu
      rcases List.mem_append.mp hu with hu | hu
      · exact ha u hu
      · simp only [List.mem_singleton] at hu; subst hu; omega

/-- The targets of a grant are enabled voices (R69). -/
theorem enabled_of_mem_targets {s : State} {start v : Nat} (h : v ∈ targets s start) :
    v < s.cfg.nVoices ∧ s.voiceMask.getLsbD v = true := by
  have h := List.mem_of_mem_take h
  simp only [List.mem_filter, List.mem_map, List.mem_range] at h
  obtain ⟨⟨k, hk, rfl⟩, hm⟩ := h
  exact ⟨Nat.mod_lt _ (by omega), hm⟩

/-- No voice is a target twice (R69). -/
theorem targets_nodup (s : State) (start : Nat) : (targets s start).Nodup := by
  refine List.Nodup.sublist (List.take_sublist _ _) (List.Nodup.filter _ ?_)
  refine List.Nodup.map_on (fun x hx y hy h => ?_) List.nodup_range
  rw [List.mem_range] at hx hy
  have h1 : x ≡ y [MOD s.cfg.nVoices] := Nat.ModEq.add_left_cancel' start h
  exact h1.eq_of_lt_of_lt hx hy

/-! ## Gates and events -/

/-- Everything gating a voice's envelopes does (R70, R95). -/
theorem gateEnvs_spec (v : Nat) (g : Bool) (s : State) (h : 2 * v + 1 < s.envs.length) :
    gateEnvs v g s = { s with envs := (gateEnvs v g s).envs } ∧
    (gateEnvs v g s).envs.length = s.envs.length ∧
    ∀ k, (gateEnvs v g s).env k = if k / 2 = v then envSetGate g (s.env k) else s.env k := by
  refine ⟨rfl, by simp [gateEnvs], fun k => ?_⟩
  simp only [gateEnvs, env_modEnv, length_envs_modEnv]
  by_cases h1 : k = 2 * v
  · subst h1; simp [show 2 * v < s.envs.length by omega]
  · by_cases h2 : k = 2 * v + 1
    · subst h2; simp [h, show (2 * v + 1) / 2 = v by omega]
    · simp [h1, h2, show ¬k / 2 = v by omega]

/-- Everything emit does (R70): the record is appended, and the voice's envelopes are gated, but not for a
legato GATE_ON. -/
theorem emit_spec (r : Evt) (s : State) (h : 2 * r.voice + 1 < s.envs.length) :
    emit r s = { s with envs := (emit r s).envs, evt := s.evt ++ [r] } ∧
    (emit r s).envs.length = s.envs.length ∧
    ∀ k, (emit r s).env k =
      if k / 2 = r.voice ∧ ¬(r.kind = .gateOn ∧ r.legato = true)
      then envSetGate (decide (r.kind = .gateOn)) (s.env k) else s.env k := by
  have hg : ∀ g, gateEnvs r.voice g { s with evt := s.evt ++ [r] } =
        { s with envs := (gateEnvs r.voice g { s with evt := s.evt ++ [r] }).envs, evt := s.evt ++ [r] } ∧
      (gateEnvs r.voice g { s with evt := s.evt ++ [r] }).envs.length = s.envs.length ∧
      ∀ k, (gateEnvs r.voice g { s with evt := s.evt ++ [r] }).env k =
        if k / 2 = r.voice then envSetGate g (s.env k) else s.env k := fun g =>
    gateEnvs_spec r.voice g { s with evt := s.evt ++ [r] } h
  obtain ⟨k, v, n, ve, l, kb⟩ := r
  cases k
  · cases l
    · obtain ⟨h1, h2, h3⟩ := hg true
      exact ⟨h1, h2, fun k => by simpa [emit] using h3 k⟩
    · exact ⟨rfl, rfl, fun k => by simp [emit]; rfl⟩
  · obtain ⟨h1, h2, h3⟩ := hg false
    exact ⟨h1, h2, fun k => by simpa [emit] using h3 k⟩
  · obtain ⟨h1, h2, h3⟩ := hg false
    exact ⟨h1, h2, fun k => by simpa [emit] using h3 k⟩

/-- Everything gateOffVoice does (R73): the key is up; without HOLD a gated voice is gated off, its
envelopes released and one GATE_OFF appended. -/
theorem gateOffVoice_spec (v : Nat) (s : State) (hv : v < s.voices.length) (he : 2 * v + 1 < s.envs.length) :
    gateOffVoice v s =
      { s with
        voices := (gateOffVoice v s).voices
        envs := (gateOffVoice v s).envs
        evt := s.evt ++ if !s.hold && (s.voice v).gated then [offEvent .gateOff v s] else [] } ∧
    (gateOffVoice v s).voices.length = s.voices.length ∧ (gateOffVoice v s).envs.length = s.envs.length ∧
    (∀ u, (gateOffVoice v s).voice u =
      if u = v then { s.voice v with keyPressed := false, gated := (s.voice v).gated && s.hold }
      else s.voice u) ∧
    ∀ k, (gateOffVoice v s).env k =
      if k / 2 = v ∧ (s.voice v).gated = true ∧ s.hold = false then envSetGate false (s.env k) else s.env k := by
  by_cases hc : (!s.hold && (s.voice v).gated) = true
  · obtain ⟨hh, hg⟩ : s.hold = false ∧ (s.voice v).gated = true := by simpa using hc
    obtain ⟨h1, h2, h3⟩ := emit_spec (offEvent .gateOff v (s.modVoice v fun x => { x with keyPressed := false }))
      ((s.modVoice v fun x => { x with keyPressed := false }).modVoice v fun x => { x with gated := false }) he
    have ho : offEvent .gateOff v (s.modVoice v fun x => { x with keyPressed := false }) = offEvent .gateOff v s := by
      simp [offEvent, voice_modVoice, hv]
    have hx : gateOffVoice v s = emit (offEvent .gateOff v (s.modVoice v fun x => { x with keyPressed := false }))
      ((s.modVoice v fun x => { x with keyPressed := false }).modVoice v fun x => { x with gated := false }) := by
      simp only [gateOffVoice]; rw [if_pos hc]
    refine ⟨?_, ?_, ?_, fun u => ?_, fun k => ?_⟩
    · rw [if_pos hc, hx, h1, ho]; rfl
    · rw [hx, h1]; simp
    · rw [hx, h2]; simp
    · rw [hx, h1, ho]
      show ((s.modVoice v fun x => { x with keyPressed := false }).modVoice v
        fun x => { x with gated := false }).voice u = _
      simp only [voice_modVoice, length_voices_modVoice]
      by_cases hu : u = v <;> simp [hu, hv, hh]
    · rw [hx, h3 k, ho]; simp [offEvent, hg, hh]
  · have hx : gateOffVoice v s = s.modVoice v fun x => { x with keyPressed := false } := by
      simp only [gateOffVoice]; rw [if_neg hc]
    have hgh : (s.voice v).gated = ((s.voice v).gated && s.hold) := by
      cases h1 : (s.voice v).gated <;> cases h2 : s.hold <;> simp_all
    refine ⟨?_, ?_, ?_, fun u => ?_, fun k => ?_⟩
    · rw [if_neg hc, hx, List.append_nil]; rfl
    · rw [hx]; simp
    · rw [hx]; simp
    · rw [hx, voice_modVoice]
      by_cases hu : u = v <;> simp [hu, hv, ← hgh]
    · rw [hx, if_neg]
      · rfl
      · rintro ⟨-, h1, h2⟩; simp [h1, h2] at hc

/-- Everything voiceDone does (R74): the voice is free and its two envelopes are forced to Wait. -/
theorem voiceDone_spec (v : Nat) (s : State) (hv : v < s.voices.length) (he : 2 * v + 1 < s.envs.length) :
    voiceDone v s = { s with voices := (voiceDone v s).voices, envs := (voiceDone v s).envs } ∧
    (voiceDone v s).voices.length = s.voices.length ∧ (voiceDone v s).envs.length = s.envs.length ∧
    (∀ u, (voiceDone v s).voice u =
      if u = v then { s.voice v with assigned := false, gated := false, keyPressed := false, legato := false }
      else s.voice u) ∧
    ∀ k, (voiceDone v s).env k = if k / 2 = v then envForceWait (s.env k) else s.env k := by
  refine ⟨rfl, by simp [voiceDone], by simp [voiceDone], fun u => ?_, fun k => ?_⟩
  · simp only [voiceDone, modEnv_reads, voice_modVoice]
    by_cases hu : u = v <;> simp [hu, hv]
  · simp only [voiceDone, env_modEnv, length_envs_modEnv, modVoice_reads, modVoice_keeps]
    by_cases h1 : k = 2 * v
    · subst h1; simp [show 2 * v < s.envs.length by omega]
    · by_cases h2 : k = 2 * v + 1
      · subst h2; simp [he, show (2 * v + 1) / 2 = v by omega]
      · simp [h1, h2, show ¬k / 2 = v by omega]

/-! ## Granting -/

/-- Everything one target's grant does (R71): the record, the pitch target and base, the envelopes, and the
events, a STOLEN_OFF first where in poly mode the voice carried another root. -/
theorem grantVoice_spec (root : BitVec 7) (vel : U16) (kbd legato : Bool) (v i : Nat) (s : State)
    (hv : v < s.voices.length) (he : 2 * v + 1 < s.envs.length) (hp : v < s.pb.length) (ht : v < s.tb.length) :
    let t := grantVoice root vel kbd legato v i s
    let n := patternNote s i root
    let lg := legato && (s.voice v).gated
    let stolen := !s.mono && (s.voice v).assigned && (s.voice v).rootNote != root
    t =
      { s with
        voices := t.voices
        envs := t.envs
        pb := t.pb
        tb := t.tb
        evt := s.evt ++ (if stolen then [offEvent .stolenOff v s] else []) ++ [⟨.gateOn, v, n, vel, lg, kbd⟩] } ∧
    (t.voices.length = s.voices.length ∧ t.envs.length = s.envs.length ∧ t.pb.length = s.pb.length ∧
      t.tb.length = s.tb.length) ∧
    (∀ u, t.voice u = if u = v then
      { assigned := true, gated := true, keyPressed := true, fromKeyboard := kbd, legato := lg, note := n,
        rootNote := root, velocity := vel, ts := s.ts } else s.voice u) ∧
    (∀ u, t.tbOf u = if u = v then BitVec.ofNat 16 (n.toNat * 256) else s.tbOf u) ∧
    (∀ u, t.pbOf u = if u = v ∧ (lg = false ∨ s.glide = 0) then BitVec.ofNat 16 (n.toNat * 256) else s.pbOf u) ∧
    ∀ k, t.env k = if k / 2 = v then
      (if lg then (if stolen then envSetGate false (s.env k) else s.env k) else envSetGate true (s.env k))
      else s.env k := by
  intro t n lg stolen
  -- the state after the STOLEN_OFF, if there is one
  obtain ⟨s1, hs1⟩ : ∃ s1, s1 = if stolen then emit (offEvent .stolenOff v s) s else s := ⟨_, rfl⟩
  obtain ⟨f1, l1, e1⟩ : s1 = { s with
        envs := s1.envs
        evt := s.evt ++ (if stolen then [offEvent .stolenOff v s] else []) } ∧
      s1.envs.length = s.envs.length ∧
      ∀ k, s1.env k = if k / 2 = v ∧ stolen = true then envSetGate false (s.env k) else s.env k := by
    obtain ⟨a1, a2, a3⟩ := emit_spec (offEvent .stolenOff v s) s he
    cases hst : stolen
    · rw [hst] at hs1; subst hs1; exact ⟨by simp, rfl, fun k => by simp⟩
    · rw [hst] at hs1; simp only [if_true] at hs1
      rw [hs1]; exact ⟨a1, a2, fun k => by rw [a3 k]; simp [offEvent]⟩
  -- the record and the pitch
  obtain ⟨s3, hs3⟩ : ∃ s3, s3 = (s1.modVoice v fun _ =>
      { assigned := true, gated := true, keyPressed := true, fromKeyboard := kbd, legato := lg,
        note := n, rootNote := root, velocity := vel, ts := s.ts }).setTb v (BitVec.ofNat 16 (n.toNat * 256)) :=
    ⟨_, rfl⟩
  obtain ⟨s4, hs4⟩ : ∃ s4, s4 = if (!lg || s.glide == 0) = true then s3.setPb v (BitVec.ofNat 16 (n.toNat * 256))
      else s3 := ⟨_, rfl⟩
  have ht4 : t = emit ⟨.gateOn, v, n, vel, lg, kbd⟩ s4 := by
    rw [hs4, hs3, hs1]; rfl
  have f3 : s3 = { s1 with voices := s3.voices, tb := s3.tb } := by rw [hs3]; rfl
  have f4 : s4 = { s3 with pb := s4.pb } := by rw [hs4]; split <;> rfl
  have f4' : s4 = { s with
      voices := s4.voices
      envs := s1.envs
      pb := s4.pb
      tb := s4.tb
      evt := s.evt ++ (if stolen then [offEvent .stolenOff v s] else []) } := by
    rw [f4, f3, f1]
  have lv : s4.voices.length = s.voices.length := by rw [f4, hs3, f1]; simp
  have lt : s4.tb.length = s.tb.length := by rw [f4, hs3, f1]; simp
  have lp : s4.pb.length = s.pb.length := by
    rw [hs4, f3, f1]; split <;> simp
  have le : s4.envs.length = s.envs.length := by rw [f4']; exact l1
  obtain ⟨b1, b2, b3⟩ := emit_spec ⟨.gateOn, v, n, vel, lg, kbd⟩ s4 (by rw [le]; exact he)
  rw [ht4]
  refine ⟨?_, ⟨?_, ?_, ?_, ?_⟩, fun u => ?_, fun u => ?_, fun u => ?_, fun k => ?_⟩
  · rw [b1, f4']
  · rw [b1]; exact lv
  · rw [b2]; exact le
  · rw [b1]; exact lp
  · rw [b1]; exact lt
  · rw [b1, f4]
    show s3.voice u = _
    rw [hs3]; simp only [setTb_reads, voice_modVoice]
    rw [f1]; by_cases hu : u = v
    · simp [hu, hv]
    · simp only [hu, if_false, false_and]; rfl
  · rw [b1, f4]
    show s3.tbOf u = _
    rw [hs3, tbOf_setTb]
    rw [f1]; by_cases hu : u = v
    · simp [hu, ht]
    · simp only [hu, if_false, false_and]; rfl
  · rw [b1]
    show s4.pbOf u = _
    have h3 : ∀ u, s3.pbOf u = s.pbOf u := fun u => by rw [hs3, f1]; rfl
    have l3 : s3.pb.length = s.pb.length := by rw [hs3, f1]; rfl
    rw [hs4]; split <;> rename_i hc
    · rw [pbOf_setPb, h3, l3]
      have : lg = false ∨ s.glide = 0 := by simpa using hc
      simp only [hp, this, and_true]
    · rw [h3, if_neg]
      rintro ⟨-, h⟩; apply hc; simpa using h
  · rw [b3 k]
    have h4 : s4.env k = s1.env k := by rw [f4']; rfl
    rw [h4, e1 k]
    by_cases hk : k / 2 = v <;> cases lg <;> cases stolen <;> simp [hk]

/-- What a whole grant may write and keeps (R71). -/
theorem assignPattern_frame (start : Nat) (root : BitVec 7) (vel : U16) (kbd legato : Bool) (s : State)
    (hv : s.voices.length = s.cfg.nVoices) (he : s.envs.length = 2 * s.cfg.nVoices)
    (hp : s.pb.length = s.cfg.nVoices) (ht : s.tb.length = s.cfg.nVoices) :
    let t := assignPattern start root vel kbd legato s
    t =
      { s with
        voices := t.voices
        envs := t.envs
        pb := t.pb
        tb := t.tb
        ts := s.ts + 1
        evt := t.evt } ∧
    t.voices.length = s.voices.length ∧ t.envs.length = s.envs.length ∧ t.pb.length = s.pb.length ∧
    t.tb.length = s.tb.length := by
  have key := foldl_keeps (targets s start).zipIdx (s := s)
    (f := fun t p => grantVoice root vel kbd legato p.1 p.2 t)
    (P := fun t => t = { s with voices := t.voices, envs := t.envs, pb := t.pb, tb := t.tb, evt := t.evt } ∧
      t.voices.length = s.voices.length ∧ t.envs.length = s.envs.length ∧ t.pb.length = s.pb.length ∧
      t.tb.length = s.tb.length)
    ⟨rfl, rfl, rfl, rfl, rfl⟩
    (fun t p hpT ⟨f, l1, l2, l3, l4⟩ => by
      have hlt := (enabled_of_mem_targets (List.fst_mem_of_mem_zipIdx hpT)).1
      obtain ⟨g, ⟨m1, m2, m3, m4⟩, -⟩ := grantVoice_spec root vel kbd legato p.1 p.2 t (by omega) (by omega)
        (by omega) (by omega)
      exact ⟨by rw [g, f], by omega, by omega, by omega, by omega⟩)
  obtain ⟨f, l⟩ := key
  refine ⟨?_, l⟩
  simp only [assignPattern]
  rw [f]

end Sys2Proof.Machine
end

