-- ==== Sys2Proof/Laws/Lfo.lean ====
section
/-! SUPPORT. What the LFO's procedures can do (43_lfo.md R109 to R112). -/

namespace Sys2Proof.Machine

/-- The register's step, as a number: halved, and with the low bit set the mask added (R110). -/
theorem lfsrStep_bit (x : BitVec 32) (i : Nat) (h : i < 32) :
    (lfsrStep x).getLsbD i = (x.getLsbD (i + 1) ^^ (x.getLsbD 0 && (0xD0000001#32).getLsbD i)) := by
  unfold lfsrStep
  cases h0 : x.getLsbD 0 <;> simp [h, Nat.add_comm]

/-- The interpolated sine is a u16 (R112). -/
theorem lfoSine_bounds (ph : Nat) : 0 ≤ lfoSine ph ∧ lfoSine ph ≤ 65535 := by
  have h1 := (Config.lfoSineLut (ph / 65536)).isLt
  have h2 := (Config.lfoSineLut (ph / 65536 + 1)).isLt
  have h3 := scaled_bounds (d := ((Config.lfoSineLut (ph / 65536 + 1)).toNat : Int)
    - (Config.lfoSineLut (ph / 65536)).toNat) (k := (ph % 65536 : Nat)) (n := 65536) (by decide) (by omega)
    (by omega)
  simp only [lfoSine]
  omega

/-- The raw value is an s16 in every shape (R112). -/
theorem lfoRaw_bounds (x : Lfo) : -32768 ≤ lfoRaw x ∧ lfoRaw x ≤ 32767 := by
  have h1 := x.phase.isLt
  have h2 := lfoSine_bounds x.phase.toNat
  have h3 := BitVec.toInt_lt (x := x.randVal)
  have h4 := BitVec.le_toInt (x := x.randVal)
  have h5 := BitVec.toInt_lt (x := lfsrSample x.lfsr)
  have h6 := BitVec.le_toInt (x := lfsrSample x.lfsr)
  have h7 : x.half.toNat ≤ 1 := by cases x.half <;> decide
  unfold lfoRaw
  cases x.shape <;> simp only <;> (try split) <;> omega

/-- What an update of an LFO keeps: its parameters, active and staged (R111, R113). -/
theorem lfoUpdate_keeps (x : Lfo) :
    lfoUpdate x =
      { x with
        phase := (lfoUpdate x).phase
        half := (lfoUpdate x).half
        lfsr := (lfoUpdate x).lfsr
        randVal := (lfoUpdate x).randVal
        raw := (lfoUpdate x).raw
        output := (lfoUpdate x).output } := by
  simp only [lfoUpdate, lfoNoise, lfoAdvance]
  split <;> split <;> rfl

/-- What lfoNoise does (R111): one register step more under NOISE. -/
theorem lfoNoise_eq (x : Lfo) :
    lfoNoise x = { x with lfsr := if x.shape = .noise then lfsrStep x.lfsr else x.lfsr } := by
  obtain ⟨_, _, _, sh, _⟩ := x
  cases sh <;> rfl

end Sys2Proof.Machine
end

