-- ==== Sys2Proof/Laws/Memory.lean ====
section
/-! SUPPORT. The laws of the sparse memories STAGING, SLOT and BUF: reading after writing, and the canonical
form that every operation keeps. -/

namespace Sys2Proof.Machine

/-- An index below every listed one reads the default. -/
theorem Memory.read_eq_dflt {w : Nat} {d : BitVec w} {m : Memory w} {a : Nat} (h : ∀ c ∈ m, c.1 ≠ a) :
    Memory.read d m a = d := by
  induction m with
  | nil => rfl
  | cons c m ih =>
    have hc : c.1 ≠ a := h c (by simp)
    simp only [Memory.read]
    rw [if_neg (fun e => hc e.symm), ih fun x hx => h x (by simp [hx])]

/-- A read answers the listed entry, or the default where there is none. -/
theorem Memory.read_cases {w : Nat} (d : BitVec w) (m : Memory w) (a : Nat) :
    (a, Memory.read d m a) ∈ m ∨ (Memory.read d m a = d ∧ ∀ c ∈ m, c.1 ≠ a) := by
  induction m with
  | nil => exact .inr ⟨rfl, by simp⟩
  | cons c m ih =>
    simp only [Memory.read]
    by_cases h : a = c.1
    · subst h; simp
    · rcases ih with h1 | h1
      · left; simp [h, h1]
      · right
        refine ⟨by simpa [h] using h1.1, fun x hx => ?_⟩
        rcases List.mem_cons.mp hx with rfl | hx
        · exact fun e => h e.symm
        · exact h1.2 x hx

/-- Where the entries of a write come from. -/
theorem Memory.mem_write {w : Nat} {d : BitVec w} {m : Memory w} {a : Nat} {v : BitVec w}
    {c : Nat × BitVec w} (h : c ∈ Memory.write d m a v) : (c = (a, v) ∧ v ≠ d) ∨ c ∈ m := by
  induction m with
  | nil =>
    simp only [Memory.write] at h
    split at h
    · simp at h
    · exact .inl ⟨by simpa using h, ‹_›⟩
  | cons b m ih =>
    simp only [Memory.write] at h
    split at h
    · split at h
      · exact .inr h
      · rcases List.mem_cons.mp h with h | h
        · exact .inl ⟨h, ‹_›⟩
        · exact .inr h
    · split at h
      · split at h
        · exact .inr (by simp [h])
        · rcases List.mem_cons.mp h with h | h
          · exact .inl ⟨h, ‹_›⟩
          · exact .inr (by simp [h])
      · rcases List.mem_cons.mp h with h | h
        · exact .inr (by simp [h])
        · exact (ih h).imp id (by simp +contextual)

/-- A write keeps the canonical form. -/
theorem Memory.wf_write {w : Nat} {d : BitVec w} {m : Memory w} (h : Memory.wf d m) (a : Nat) (v : BitVec w) :
    Memory.wf d (Memory.write d m a v) := by
  refine ⟨?_, fun c hc => ?_⟩
  · obtain ⟨hs, -⟩ := h
    induction m with
    | nil => simp only [Memory.write]; split <;> simp
    | cons b m ih =>
      obtain ⟨hb, hm⟩ := List.pairwise_cons.mp hs
      simp only [Memory.write]
      split
      · split
        · exact hs
        · refine List.pairwise_cons.mpr ⟨fun x hx => ?_, hs⟩
          rcases List.mem_cons.mp hx with rfl | hx
          · assumption
          · exact Nat.lt_trans ‹_› (hb x hx)
      · split
        · split
          · exact hm
          · exact List.pairwise_cons.mpr ⟨fun x hx => by have := hb x hx; simp_all, hm⟩
        · refine List.pairwise_cons.mpr ⟨fun x hx => ?_, ih hm⟩
          rcases Memory.mem_write hx with ⟨rfl, -⟩ | hx
          · simp only; omega
          · exact hb x hx
  · rcases Memory.mem_write hc with ⟨rfl, hv⟩ | hc
    · exact hv
    · exact h.2 c hc

/-- Reading after writing: the written index holds the value, every other index what it held. -/
theorem Memory.read_write {w : Nat} {d : BitVec w} {m : Memory w} (h : Memory.wf d m) (a b : Nat)
    (v : BitVec w) : Memory.read d (Memory.write d m a v) b = if b = a then v else Memory.read d m b := by
  obtain ⟨hs, -⟩ := h
  induction m with
  | nil => simp only [Memory.write]; split <;> simp_all [Memory.read]
  | cons c m ih =>
    obtain ⟨hb, hm⟩ := List.pairwise_cons.mp hs
    have hr : ∀ x : Nat, x ≤ c.1 → Memory.read d m x = d := fun x hx =>
      Memory.read_eq_dflt fun y hy => by have := hb y hy; omega
    simp only [Memory.write]
    split
    · have := hr a (by omega)
      split <;> (simp only [Memory.read]; repeat' split) <;> simp_all
    · split
      · have := hr a (by omega)
        split <;> simp only [Memory.read] <;> split <;> simp_all
      · simp only [Memory.read, ih hm]; split <;> split <;> simp_all

/-- `Memory.ofFn` is canonical. -/
theorem Memory.wf_ofFn {w : Nat} (d : BitVec w) (n : Nat) (f : Nat → BitVec w) :
    Memory.wf d (Memory.ofFn d n f) := by
  constructor
  · unfold Memory.ofFn
    refine List.Pairwise.filterMap _ (R := (· < ·)) ?_ List.pairwise_lt_range
    intro i j hij c hc e he
    split at hc <;> split at he <;> simp_all
    rw [← hc, ← he]; exact hij
  · intro c hc
    simp only [Memory.ofFn, List.mem_filterMap] at hc
    obtain ⟨i, -, hi⟩ := hc
    split at hi <;> simp_all
    rw [← hi]; assumption

/-- `Memory.ofFn` lists indices below its length only. -/
theorem Memory.mem_ofFn_lt {w : Nat} {d : BitVec w} {n : Nat} {f : Nat → BitVec w} {c : Nat × BitVec w}
    (h : c ∈ Memory.ofFn d n f) : c.1 < n := by
  simp only [Memory.ofFn, List.mem_filterMap, List.mem_range] at h
  obtain ⟨i, hi, h⟩ := h
  split at h <;> simp_all
  rw [← h]; exact hi

/-- What `Memory.ofFn` reads. -/
theorem Memory.read_ofFn {w : Nat} (d : BitVec w) (n : Nat) (f : Nat → BitVec w) (i : Nat) :
    Memory.read d (Memory.ofFn d n f) i = if i < n then f i else d := by
  rcases Memory.read_cases d (Memory.ofFn d n f) i with h | ⟨h, hn⟩
  · have hi := Memory.mem_ofFn_lt h
    simp only [Memory.ofFn, List.mem_filterMap, List.mem_range] at h
    obtain ⟨j, -, h⟩ := h
    split at h
    · simp at h
    · simp only [Option.some.injEq, Prod.mk.injEq] at h
      rw [if_pos hi]; simp only [Memory.ofFn]; rw [← h.2, h.1]
  · rw [h]
    split
    · by_contra hf
      refine hn (i, f i) ?_ rfl
      simp only [Memory.ofFn, List.mem_filterMap, List.mem_range]
      exact ⟨i, ‹_›, if_neg fun e => hf e.symm⟩
    · rfl

/-- Everything a write to the output buffer does (R28, R135). -/
theorem readBuf_writeBuf {s : State} (hm : Memory.wf 0 s.buf) (h g : Bool) (sl w i j : Nat) (x : Word) :
    (s.writeBuf h sl w x).readBuf g i j =
      if bufAddr s.cfg g i j = bufAddr s.cfg h sl w then x else s.readBuf g i j :=
  Memory.read_write hm _ _ _

/-- The index of a buffer word tells its half, slot and word apart (R28). -/
theorem bufAddr_inj {c : Config} {h g : Bool} {sl w i j : Nat} (h1 : sl < c.halfLen) (h2 : i < c.halfLen)
    (h3 : w ≤ 2 * c.nVoices) (h4 : j ≤ 2 * c.nVoices) :
    bufAddr c g i j = bufAddr c h sl w ↔ g = h ∧ i = sl ∧ j = w := by
  constructor
  · intro e
    simp only [bufAddr] at e
    have key : ∀ x y : Nat, x * (2 * c.nVoices + 1) + j = y * (2 * c.nVoices + 1) + w → x = y ∧ j = w := by
      intro x y e
      have hd := congrArg (· / (2 * c.nVoices + 1)) e
      have hm := congrArg (· % (2 * c.nVoices + 1)) e
      simp only [Nat.mul_comm _ (2 * c.nVoices + 1), Nat.mul_add_mod, Nat.mul_add_div (Nat.succ_pos _),
        Nat.mod_eq_of_lt (Nat.lt_succ_of_le h3), Nat.mod_eq_of_lt (Nat.lt_succ_of_le h4),
        Nat.div_eq_of_lt (Nat.lt_succ_of_le h3), Nat.div_eq_of_lt (Nat.lt_succ_of_le h4)] at hd hm
      omega
    obtain ⟨ex, ew⟩ := key _ _ e
    cases g <;> cases h <;> simp at ex ⊢ <;> omega
  · rintro ⟨rfl, rfl, rfl⟩; rfl

/-- Everything a STAGE write does (R33). -/
theorem stageWrite_spec {s : State} (hm : Memory.wf 0 s.staging) (i : BitVec 12) (v : U16) :
    stageWrite i v s = { s with staging := (stageWrite i v s).staging } ∧
    Memory.wf 0 (stageWrite i v s).staging ∧
    ∀ j, (stageWrite i v s).readStaging j =
      if j = i.toNat ∧ i.toNat < s.cfg.waveMax then v else s.readStaging j := by
  unfold stageWrite
  split
  · refine ⟨rfl, Memory.wf_write hm _ _, fun j => ?_⟩
    rw [State.readStaging, Memory.read_write hm]; simp_all [State.readStaging]
  · exact ⟨rfl, hm, fun j => by simp_all⟩

/-- The three memories are canonical at reset. -/
theorem memory_wf_reset (c : Config) :
    Memory.wf 0 (State.resetWith c).staging ∧ Memory.wf 0 (State.resetWith c).buf ∧
    ∀ x ∈ (State.resetWith c).slots, Memory.wf slotDefault x.data := by
  simp [State.resetWith, Slot.reset, Memory.wf]

end Sys2Proof.Machine
end

