-- ==== Sys2Proof/Laws/Oscillator.lean ====
section
/-! SUPPORT. What the oscillator's procedures can do (44_oscillator.md R119 to R124, R129). -/

namespace Sys2Proof.Machine

/-- The increment and the period of a half are in R24's ranges whatever the frequency (R119). -/
theorem oscHalfParams_bounds (c : Config) (hc : c.wf) (f P Wh ceil : Nat) :
    (1 ≤ (oscHalfParams c f P Wh ceil).1.toNat ∧ (oscHalfParams c f P Wh ceil).1.toNat ≤ c.oscMaxIncr) ∧
    1 ≤ (oscHalfParams c f P Wh ceil).2.toNat := by
  obtain ⟨-, -, -, -, -, -, -, h1, h2⟩ := hc
  unfold oscHalfParams
  split
  · exact ⟨⟨by decide, h1⟩, by decide⟩
  · have hd := clampNat_bounds (x := ceilDiv (f * P * 32768) (Wh * ceil)) h1
    have hp := fun q => clampNat_bounds (x := q) (lo := 1) (hi := 2 ^ 31 - 1) (by decide)
    dsimp only
    generalize clampNat (ceilDiv (f * P * 32768) (Wh * ceil)) 1 c.oscMaxIncr = d at hd
    have hp := hp (c.vclk * 256 * d * Wh / (f * P * 32768))
    generalize clampNat (c.vclk * 256 * d * Wh / (f * P * 32768)) 1 (2 ^ 31 - 1) = q at hp
    simp only [BitVec.toNat_ofNat]
    omega

/-- What setting the parameters keeps (R119, R123): phase, counter, half, samples and running period. -/
theorem oscSetParameters_keeps (c : Config) (P : Nat) (pitch amt : U16) (x : Osc) :
    oscSetParameters c P pitch amt x =
      { x with
        raw := (oscSetParameters c P pitch amt x).raw
        xamt := (oscSetParameters c P pitch amt x).xamt
        incr := (oscSetParameters c P pitch amt x).incr
        period := (oscSetParameters c P pitch amt x).period } := rfl

/-- The periods and increments that setting the parameters gives are in R24's ranges (R119). -/
theorem oscSetParameters_bounds (c : Config) (hc : c.wf) (P : Nat) (pitch amt : U16) (x : Osc) (h : Bool) :
    (1 ≤ ((oscSetParameters c P pitch amt x).incr.get h).toNat ∧
      ((oscSetParameters c P pitch amt x).incr.get h).toNat ≤ c.oscMaxIncr) ∧
    1 ≤ ((oscSetParameters c P pitch amt x).period.get h).toNat := by
  cases h <;> exact oscHalfParams_bounds c hc _ _ _ _

/-- What one reload keeps: the settings (R122). -/
theorem oscReload_keeps (slots : List Slot) (n : Int) (x : Osc) :
    (oscReload slots n x).2.2 =
      { x with
        lastPer := x.period.get x.half
        phase := (oscReload slots n x).2.2.phase
        half := (oscReload slots n x).2.2.half
        prev := x.curr
        curr := (oscReload slots n x).2.2.curr } := rfl

/-- The phase after a reload is inside the slot (R122, R31 (e)). -/
theorem oscReload_phase_lt (slots : List Slot) (n : Int) (x : Osc) (h : 0 < oscLen slots x) :
    (oscReload slots n x).2.2.phase.toNat < oscLen slots x := by
  have hlt : oscLen slots x < 4096 := (slotOf slots x.main.toNat).len.isLt
  simp only [oscReload]
  have h1 := Int.emod_nonneg ((x.phase.toNat : Int) - (x.incr.get x.half).toNat) (b := (oscLen slots x : Int))
    (by omega)
  have h2 := Int.emod_lt_of_pos ((x.phase.toNat : Int) - (x.incr.get x.half).toNat)
    (b := (oscLen slots x : Int)) (by omega)
  simp only [BitVec.toNat_ofNat]
  omega

/-- What every reload keeps, R122's loop keeps. -/
theorem oscReloads_induct {slots : List Slot} {P : Int → Bool → Osc → Prop}
    (hs : ∀ n w x, n ≤ 0 → P n w x →
      P (oscReload slots n x).1 (w || (oscReload slots n x).2.1) (oscReload slots n x).2.2) :
    ∀ fuel n w x, P n w x → P (oscReloads slots fuel n w x).1 (oscReloads slots fuel n w x).2.1
      (oscReloads slots fuel n w x).2.2
  | 0, _, _, _, h => h
  | fuel + 1, n, w, x, h => by
    unfold oscReloads
    split
    · exact oscReloads_induct hs fuel _ _ _ (hs n w x ‹_› h)
    · exact h

/-- What the loop keeps: the settings (R122). -/
theorem oscReloads_keeps (slots : List Slot) (fuel : Nat) (n : Int) (w : Bool) (x : Osc) :
    (oscReloads slots fuel n w x).2.2 =
      { x with
        lastPer := (oscReloads slots fuel n w x).2.2.lastPer
        phase := (oscReloads slots fuel n w x).2.2.phase
        half := (oscReloads slots fuel n w x).2.2.half
        prev := (oscReloads slots fuel n w x).2.2.prev
        curr := (oscReloads slots fuel n w x).2.2.curr } :=
  oscReloads_induct
    (P := fun _ _ y =>
      y = { x with lastPer := y.lastPer, phase := y.phase, half := y.half, prev := y.prev, curr := y.curr })
    (fun m v y _ h => by rw [oscReload_keeps slots m y, h]) fuel n w x rfl

/-- The loop of R122 ends because its condition fails, never because the model's fuel runs out: with both
periods at least 1 the counter it answers is positive. -/
theorem oscReloads_exits (slots : List Slot) : ∀ (fuel : Nat) (n : Int) (w : Bool) (x : Osc),
    (∀ h, 1 ≤ (x.period.get h).toNat) → 1 - n ≤ fuel → 0 < (oscReloads slots fuel n w x).1
  | 0, n, w, x, _, hf => by simp only [oscReloads]; omega
  | fuel + 1, n, w, x, hp, hf => by
    unfold oscReloads
    split
    · refine oscReloads_exits slots fuel _ _ _ ?_ ?_
      · rw [oscReload_keeps]; exact hp
      · have := hp x.half
        simp only [oscReload]; omega
    · simp only; omega

/-- The counter the loop answers is at most the period it last reloaded, or the counter it began with. -/
theorem oscReloads_counter_le (slots : List Slot) (fuel : Nat) (n : Int) (w : Bool) (x : Osc)
    (h : n ≤ x.lastPer.toNat) :
    (oscReloads slots fuel n w x).1 ≤ (oscReloads slots fuel n w x).2.2.lastPer.toNat :=
  oscReloads_induct (P := fun m _ y => m ≤ y.lastPer.toNat)
    (fun m v y hm _ => by rw [oscReload_keeps]; simp only [oscReload]; omega) fuel n w x h

/-- The phase stays inside the slot through the loop (R31 (e)). -/
theorem oscReloads_phase_lt (slots : List Slot) (fuel : Nat) (n : Int) (w : Bool) (x : Osc)
    (h : x.phase.toNat < oscLen slots x) :
    (oscReloads slots fuel n w x).2.2.phase.toNat < oscLen slots x :=
  (oscReloads_induct (P := fun _ _ y => y.main = x.main ∧ y.phase.toNat < oscLen slots x)
    (fun m v y _ hy => by
      have e : oscLen slots y = oscLen slots x := by simp only [oscLen, hy.1]
      exact ⟨hy.1, e ▸ oscReload_phase_lt slots m y (by omega)⟩) fuel n w x ⟨rfl, h⟩).2

/-- What an output step keeps: the settings (R122). -/
theorem oscStep_keeps (c : Config) (slots : List Slot) (x : Osc) :
    (oscStep c slots x).1 =
      { x with
        counter := (oscStep c slots x).1.counter
        lastPer := (oscStep c slots x).1.lastPer
        phase := (oscStep c slots x).1.phase
        half := (oscStep c slots x).1.half
        prev := (oscStep c slots x).1.prev
        curr := (oscStep c slots x).1.curr } := by
  simp only [oscStep]
  rw [oscReloads_keeps]

/-- A clamped phase is inside a slot that is not empty, and is the old one where that was (R125, R129). -/
theorem oscClampPhase_spec (len : Nat) (x : Osc) :
    ∃ p : BitVec 12, p.toNat = min x.phase.toNat (len - 1) ∧ oscClampPhase len x = { x with phase := p } := by
  refine ⟨_, ?_, rfl⟩
  have := x.phase.isLt
  rw [BitVec.toNat_ofNat]; omega

/-- The length WAVE_COMMIT gives a slot (R129). -/
theorem commitLen_bounds (s : State) (h : s.cfg.wf) : 2 ≤ commitLen s ∧ commitLen s ≤ s.cfg.waveMax :=
  clampNat_bounds h.2.1.1

/-- The slot WAVE_COMMIT builds: canonical, of the clamped length, staged samples first (R129). -/
theorem committedSlot_spec (valid : Nat) (s : State) (h : s.cfg.wf) :
    (committedSlot valid s).len.toNat = commitLen s ∧
    Memory.wf slotDefault (committedSlot valid s).data ∧
    (∀ c ∈ (committedSlot valid s).data, c.1 < s.cfg.waveMax) ∧
    ∀ i, (committedSlot valid s).read i =
      if i < min valid (commitLen s) then s.readStaging i else slotDefault := by
  have h1 := commitLen_bounds s h
  have h2 := h.2.1.2
  refine ⟨?_, Memory.wf_ofFn _ _ _, fun c hc => ?_, fun i => Memory.read_ofFn _ _ _ i⟩
  · simp only [committedSlot, BitVec.toNat_ofNat]; omega
  · have := Memory.mem_ofFn_lt hc; omega

/-- Everything WAVE_COMMIT does (R129): the slot is replaced, and the phases of the oscillators that read it
are clamped once each. -/
theorem waveCommit_spec (k valid : Nat) (s : State) (hl : s.oscs.length = 2 * s.cfg.nVoices) :
    waveCommit k valid s =
      { s with slots := s.slots.set k (committedSlot valid s), oscs := (waveCommit k valid s).oscs } ∧
    (waveCommit k valid s).oscs.length = s.oscs.length ∧
    ∀ o, o < 2 * s.cfg.nVoices → (waveCommit k valid s).osc o =
      if (s.osc o).main.toNat = k then oscClampPhase (commitLen s) (s.osc o) else s.osc o := by
  have key := forUpTo_induct (n := 2 * s.cfg.nVoices) (s := s.setSlot k (committedSlot valid s))
    (f := fun o t => if (t.osc o).main.toNat = k then t.modOsc o (oscClampPhase (commitLen s)) else t)
    (P := fun n t =>
      t = { s with slots := s.slots.set k (committedSlot valid s), oscs := t.oscs } ∧
      t.oscs.length = s.oscs.length ∧ ∀ o, t.osc o =
        if o < n ∧ (s.osc o).main.toNat = k then oscClampPhase (commitLen s) (s.osc o) else s.osc o)
    ⟨rfl, rfl, fun o => by simp⟩
    (fun n t hn ⟨h1, h2, h3⟩ => by
      have hosc : t.osc n = s.osc n := by rw [h3]; simp
      rw [hosc]
      have hlt : ∀ o, o ≠ n → (o < n + 1 ↔ o < n) := fun o ho => by omega
      split <;> rename_i hm
      · refine ⟨by rw [h1]; rfl, by simpa using h2, fun o => ?_⟩
        rw [osc_modOsc, hosc, h3 o]
        by_cases ho : o = n
        · subst ho; rw [if_pos ⟨rfl, by omega⟩, if_pos ⟨by omega, hm⟩]
        · rw [if_neg fun e => ho e.1]; simp only [hlt o ho]
      · refine ⟨h1, h2, fun o => ?_⟩
        rw [h3 o]
        by_cases ho : o = n
        · subst ho; rw [if_neg fun e => hm e.2, if_neg fun e => hm e.2]
        · simp only [hlt o ho])
  exact ⟨key.1, key.2.1, fun o ho => by
    rw [show (waveCommit k valid s).osc o = _ from key.2.2 o]; simp only [ho, true_and]⟩

end Sys2Proof.Machine
end

