-- ==== Sys2Proof/Laws/Engine.lean ====
section
/-! SUPPORT. What the CV/voice engine's procedures can do (45_cv_engine.md R131 to R136): the fields each may
write and the sizes it keeps; what a step of one voice or one oscillator leaves in its registers. -/

namespace Sys2Proof.Machine

/-! ## Glide and the CV frame -/

/-- Everything a glide step does (R132). -/
theorem glideStep_spec (v : Nat) (s : State) (hv : v < s.pb.length) :
    glideStep v s = { s with pb := (glideStep v s).pb } ∧ (glideStep v s).pb.length = s.pb.length ∧
    ∀ u, ((glideStep v s).pbOf u).toNat = if u = v then
      (if s.glide = 0 then (s.tbOf v).toNat
       else if (s.pbOf v).toNat < (s.tbOf v).toNat then min (s.tbOf v).toNat ((s.pbOf v).toNat + s.glide.toNat)
       else max (s.tbOf v).toNat ((s.pbOf v).toNat - s.glide.toNat)) else (s.pbOf u).toNat := by
  have h1 := (s.pbOf v).isLt
  have h2 := (s.tbOf v).isLt
  unfold glideStep
  dsimp only
  split
  · refine ⟨rfl, by simp, fun u => ?_⟩
    rw [pbOf_setPb]; by_cases hu : u = v <;> simp [hu, hv]
  · split
    · refine ⟨rfl, by simp, fun u => ?_⟩
      rw [pbOf_setPb]; by_cases hu : u = v
      · subst hu; rw [if_pos ⟨rfl, hv⟩, if_pos rfl, BitVec.toNat_ofNat]; omega
      · simp [hu]
    · refine ⟨rfl, by simp, fun u => ?_⟩
      rw [pbOf_setPb]; by_cases hu : u = v
      · subst hu; rw [if_pos ⟨rfl, hv⟩, if_pos rfl, BitVec.toNat_ofNat]; omega
      · simp [hu]

/-- Everything the sums of one voice do (R133): its seven CVs are the saturated sums of the state before, and
no other CV changes. -/
theorem cvVoiceSums_spec (v : Nat) (s : State) (hl : 7 * v + 6 < s.cvOut.length) :
    cvVoiceSums v s = { s with cvOut := (cvVoiceSums v s).cvOut } ∧
    (cvVoiceSums v s).cvOut.length = s.cvOut.length ∧
    ∀ u d, d < 7 → (cvVoiceSums v s).cv u d = if u = v then sat16 (cvSum s v d) else s.cv u d := by
  have key := forUpTo_induct (n := 7) (s := s) (f := fun d t => t.setCv v d (sat16 (cvSum t v d)))
    (P := fun n t => t = { s with cvOut := t.cvOut } ∧ t.cvOut.length = s.cvOut.length ∧
      ∀ u d, d < 7 → t.cv u d = if u = v ∧ d < n then sat16 (cvSum s v d) else s.cv u d)
    ⟨rfl, rfl, fun u d _ => by simp⟩
    (fun n t hn ⟨h1, h2, h3⟩ => by
      have hsum : cvSum t v n = cvSum s v n := by rw [h1]; rfl
      refine ⟨by rw [h1]; rfl, by simpa using h2, fun u d hd => ?_⟩
      rw [cv_setCv _ _ _ _ _ _ hn hd, hsum, h3 u d hd, h2]
      by_cases he : u = v ∧ d = n
      · obtain ⟨rfl, rfl⟩ := he
        rw [if_pos ⟨rfl, rfl, by omega⟩, if_pos ⟨rfl, by omega⟩]
      · rw [if_neg fun e => he ⟨e.1, e.2.1⟩]
        by_cases hu : u = v
        · have : d < n + 1 ↔ d < n := by have := fun e => he ⟨hu, e⟩; omega
          simp only [this]
        · simp only [hu, false_and])
  exact ⟨key.1, key.2.1, fun u d hd => by
    rw [show (cvVoiceSums v s).cv u d = _ from key.2.2 u d hd]; simp only [hd, and_true]⟩

/-- Everything one voice's part of the CV frame does (R133): its CVs, then its two oscillators' parameters. -/
theorem cvVoice_spec (v : Nat) (s : State) (hl : 7 * v + 6 < s.cvOut.length) (ho : 2 * v + 1 < s.oscs.length) :
    let t := cvVoice v s
    t = { s with cvOut := t.cvOut, oscs := t.oscs } ∧ t.cvOut.length = s.cvOut.length ∧
    t.oscs.length = s.oscs.length ∧
    (∀ u d, d < 7 → t.cv u d = if u = v then sat16 (cvSum s v d) else s.cv u d) ∧
    ∀ o, t.osc o = if o / 2 = v then
      oscSetParameters s.cfg (oscLen s.slots (s.osc o)) (t.cv v (o % 2)) (t.cv v 6) (s.osc o) else s.osc o := by
  intro t
  obtain ⟨h1, h2, h3⟩ := cvVoiceSums_spec v s hl
  have ht : t = setOscParameters (2 * v + 1) ((cvVoiceSums v s).cv v 1) ((cvVoiceSums v s).cv v 6)
      (setOscParameters (2 * v) ((cvVoiceSums v s).cv v 0) ((cvVoiceSums v s).cv v 6) (cvVoiceSums v s)) := rfl
  generalize cvVoiceSums v s = w at h1 h2 h3 ht
  have hc : ∀ u d, t.cv u d = w.cv u d := fun u d => by rw [ht]; simp [setOscParameters]
  have hw : w.oscs = s.oscs := by rw [h1]
  have hwo : ∀ o, w.osc o = s.osc o := fun o => by simp only [State.osc, hw]
  have hs : w.slots = s.slots := by rw [h1]
  have hcfg : w.cfg = s.cfg := by rw [h1]
  obtain ⟨f, g, htg⟩ : ∃ f g, t = (w.modOsc (2 * v) f).modOsc (2 * v + 1) g := ⟨_, _, ht⟩
  refine ⟨by rw [htg, h1]; rfl, by rw [htg]; exact h2, by rw [htg]; simp [hw],
    fun u d hd => by rw [hc]; exact h3 u d hd, fun o => ?_⟩
  rw [hc, hc, ht]
  simp only [setOscParameters, osc_modOsc, length_oscs_modOsc, modOsc_keeps, hwo, hw, hs, hcfg]
  by_cases h4 : o = 2 * v + 1
  · subst h4
    rw [if_pos ⟨rfl, ho⟩, if_neg (by omega), if_pos (by omega), show (2 * v + 1) % 2 = 1 by omega]
  · rw [if_neg fun e => h4 e.1]
    by_cases h5 : o = 2 * v
    · subst h5
      rw [if_pos ⟨rfl, by omega⟩, if_pos (by omega), show (2 * v) % 2 = 0 by omega]
    · rw [if_neg fun e => h5 e.1, if_neg (by omega)]

/-- What the CV frame may write (R133). -/
theorem cvFrame_frame (s : State) :
    cvFrame s = { s with cvOut := (cvFrame s).cvOut, oscs := (cvFrame s).oscs } ∧
    (cvFrame s).cvOut.length = s.cvOut.length ∧ (cvFrame s).oscs.length = s.oscs.length := by
  refine forVoices_keeps (P := fun t => t = { s with cvOut := t.cvOut, oscs := t.oscs } ∧
    t.cvOut.length = s.cvOut.length ∧ t.oscs.length = s.oscs.length) ⟨rfl, rfl, rfl⟩ ?_
  rintro v t - ⟨h1, h2, h3⟩
  have key := forUpTo_keeps (n := 7) (s := t) (f := fun d t => t.setCv v d (sat16 (cvSum t v d)))
    (P := fun u => u = { s with cvOut := u.cvOut, oscs := u.oscs } ∧ u.cvOut.length = s.cvOut.length ∧
      u.oscs.length = s.oscs.length) ⟨h1, h2, h3⟩
    (fun d u _ ⟨g1, g2, g3⟩ => ⟨by rw [g1]; rfl, by simpa using g2, by simpa using g3⟩)
  obtain ⟨f, g, ht⟩ : ∃ f g, cvVoice v t = ((cvVoiceSums v t).modOsc (2 * v) f).modOsc (2 * v + 1) g :=
    ⟨_, _, rfl⟩
  rw [ht]
  change _ = _ ∧ _ = _ ∧ _ = _ at key
  generalize hw : cvVoiceSums v t = w
  obtain ⟨g1, g2, g3⟩ : w = { s with cvOut := w.cvOut, oscs := w.oscs } ∧ w.cvOut.length = s.cvOut.length ∧
    w.oscs.length = s.oscs.length := hw ▸ key
  exact ⟨by rw [g1]; rfl, g2, by simpa using g3⟩

/-! ## The strobe -/

/-- What the tick phases that execute no command may write (R131). -/
theorem tickTask_frame (k : Nat) (s : State) :
    tickTask k s =
      { s with
        voices := (tickTask k s).voices
        envs := (tickTask k s).envs
        pb := (tickTask k s).pb
        lfos := (tickTask k s).lfos
        syncActive := (tickTask k s).syncActive
        ts := (tickTask k s).ts } ∧
    (tickTask k s).voices.length = s.voices.length ∧ (tickTask k s).envs.length = s.envs.length ∧
    (tickTask k s).pb.length = s.pb.length := by
  unfold tickTask
  split
  · refine forVoices_keeps (P := fun t => t =
        { s with
          voices := t.voices
          envs := t.envs
          pb := t.pb
          lfos := t.lfos
          syncActive := t.syncActive
          ts := t.ts } ∧ t.voices.length = s.voices.length ∧ t.envs.length = s.envs.length ∧
        t.pb.length = s.pb.length) ⟨rfl, rfl, rfl, rfl⟩ ?_
    rintro v t - ⟨h1, h2, h3, h4⟩
    unfold housekeepVoice
    split
    · exact ⟨by rw [h1]; rfl, by simpa [voiceDone] using h2, by simpa [voiceDone] using h3,
        by simpa [voiceDone] using h4⟩
    · exact ⟨h1, h2, h3, h4⟩
  · refine forVoices_keeps (P := fun t => t =
        { s with
          voices := t.voices
          envs := t.envs
          pb := t.pb
          lfos := t.lfos
          syncActive := t.syncActive
          ts := t.ts } ∧ t.voices.length = s.voices.length ∧ t.envs.length = s.envs.length ∧
        t.pb.length = s.pb.length) ⟨rfl, rfl, rfl, rfl⟩ ?_
    rintro v t - ⟨h1, h2, h3, h4⟩
    unfold glideStep
    dsimp only
    split
    · exact ⟨by rw [h1]; rfl, h2, h3, by simpa using h4⟩
    · split <;> exact ⟨by rw [h1]; rfl, h2, h3, by simpa using h4⟩
  all_goals exact ⟨rfl, rfl, rfl, rfl⟩

/-- What a strobe may write after its tick phase (R130). -/
theorem strobeTail_frame (s : State) :
    strobeTail s =
      { s with
        tphase := s.tphase + 1
        envs := (strobeTail s).envs
        lfos := (strobeTail s).lfos
        cvOut := (strobeTail s).cvOut
        oscs := (strobeTail s).oscs } ∧
    (strobeTail s).envs.length = s.envs.length ∧ (strobeTail s).cvOut.length = s.cvOut.length ∧
    (strobeTail s).oscs.length = s.oscs.length := by
  have h2 := forUpTo_keeps (n := 2 * s.cfg.nVoices) (s := { s with tphase := s.tphase + 1 })
    (f := fun e t => t.modEnv e envUpdate)
    (P := fun t => t = { s with tphase := s.tphase + 1, envs := t.envs } ∧ t.envs.length = s.envs.length)
    ⟨rfl, rfl⟩ (fun e t _ ⟨h1, h2⟩ => ⟨by rw [h1]; rfl, by simpa using h2⟩)
  obtain ⟨f2, l2⟩ := h2
  have ht : strobeTail s = cvFrame (((forUpTo (2 * s.cfg.nVoices) (fun e t => t.modEnv e envUpdate)
    { s with tphase := s.tphase + 1 }).modLfo false lfoUpdate).modLfo true lfoUpdate) := rfl
  rw [ht]
  generalize forUpTo (2 * s.cfg.nVoices) (fun e t => t.modEnv e envUpdate) { s with tphase := s.tphase + 1 } = t
    at f2 l2
  obtain ⟨g1, g2, g3⟩ := cvFrame_frame ((t.modLfo false lfoUpdate).modLfo true lfoUpdate)
  refine ⟨?_, ?_, ?_, ?_⟩
  · rw [g1, f2]; rfl
  · rw [g1]; exact l2
  · rw [g2, f2]; rfl
  · rw [g3, f2]; rfl

/-! ## The output buffer -/

/-- What stepping one oscillator does to the state (R122). -/
theorem stepOsc_spec (o : Nat) (s : State) (ho : o < s.oscs.length) :
    (stepOsc o s).1 = { s with oscs := (stepOsc o s).1.oscs } ∧ (stepOsc o s).1.oscs.length = s.oscs.length ∧
    (stepOsc o s).2 = (oscStep s.cfg s.slots (s.osc o)).2 ∧
    ∀ k, (stepOsc o s).1.osc k = if k = o then (oscStep s.cfg s.slots (s.osc o)).1 else s.osc k := by
  refine ⟨rfl, by simp [stepOsc], rfl, fun k => ?_⟩
  simp only [stepOsc, osc_modOsc]
  by_cases hk : k = o <;> simp [hk, ho]

/-- What a voice's part of a fill may write (R124, R135). -/
theorem fillVoice_frame (h : Bool) (sl v : Nat) (s : State) :
    fillVoice h sl v s = { s with oscs := (fillVoice h sl v s).oscs, buf := (fillVoice h sl v s).buf } ∧
    (fillVoice h sl v s).oscs.length = s.oscs.length := by
  have hf : ∀ o t, (stepOsc o t).1 = { t with oscs := (stepOsc o t).1.oscs } ∧
      (stepOsc o t).1.oscs.length = t.oscs.length := fun o t => ⟨rfl, by simp [stepOsc]⟩
  have fa := hf (2 * v) s
  simp only [fillVoice]
  generalize stepOsc (2 * v) s = a at fa ⊢
  obtain ⟨s1, hs1⟩ : ∃ s1, s1 = if (a.2.2 && a.1.syncActive.getLsbD v) = true
      then a.1.modOsc (2 * v + 1) oscSyncReset else a.1 := ⟨_, rfl⟩
  rw [← hs1]
  have f1 : s1 = { s with oscs := s1.oscs } ∧ s1.oscs.length = s.oscs.length := by
    rw [hs1]; split
    · exact ⟨by rw [fa.1]; rfl, by simpa using fa.2⟩
    · exact fa
  have fb := hf (2 * v + 1) s1
  generalize stepOsc (2 * v + 1) s1 = b at fb ⊢
  have hw : ∀ x y : Word, ((b.1.writeBuf h sl (2 * v) x).writeBuf h sl (2 * v + 1) y) =
      { s with
        oscs := ((b.1.writeBuf h sl (2 * v) x).writeBuf h sl (2 * v + 1) y).oscs
        buf := ((b.1.writeBuf h sl (2 * v) x).writeBuf h sl (2 * v + 1) y).buf } := fun x y => by
    rw [fb.1, f1.1]; rfl
  exact ⟨hw _ _, by simp only [writeBuf_keeps]; omega⟩

/-- What a slot's part of a fill may write (R134, R135). -/
theorem fillSlot_frame (h : Bool) (sl : Nat) (s : State) :
    fillSlot h sl s =
      { s with
        oscs := (fillSlot h sl s).oscs
        buf := (fillSlot h sl s).buf
        rr := BitVec.ofNat 6 ((s.rr.toNat + 1) % (7 * s.cfg.nVoices)) } ∧
    (fillSlot h sl s).oscs.length = s.oscs.length := by
  have key := forVoices_keeps (s := s) (f := fillVoice h sl)
    (P := fun t => t = { s with oscs := t.oscs, buf := t.buf } ∧ t.oscs.length = s.oscs.length) ⟨rfl, rfl⟩
    (fun v t _ ⟨h1, h2⟩ => by
      obtain ⟨g1, g2⟩ := fillVoice_frame h sl v t
      exact ⟨by rw [g1, h1], by omega⟩)
  obtain ⟨h1, h2⟩ := key
  have ht : fillSlot h sl s = fillCv h sl (forVoices (fillVoice h sl) s) := rfl
  rw [ht]
  generalize forVoices (fillVoice h sl) s = t at h1 h2
  exact ⟨by rw [h1]; rfl, by simpa [fillCv] using h2⟩

/-- What a fill may write (R135). -/
theorem fill_frame (s : State) :
    fill s =
      { s with
        oscs := (fill s).oscs
        buf := (fill s).buf
        rr := (fill s).rr
        pending := s.pending.set s.fillPtr false
        fillPtr := !s.fillPtr } ∧
    (fill s).oscs.length = s.oscs.length := by
  have key := forUpTo_keeps (n := s.cfg.halfLen) (s := s) (f := fillSlot s.fillPtr)
    (P := fun t => t = { s with oscs := t.oscs, buf := t.buf, rr := t.rr } ∧ t.oscs.length = s.oscs.length)
    ⟨rfl, rfl⟩ (fun sl t _ ⟨h1, h2⟩ => by
      obtain ⟨g1, g2⟩ := fillSlot_frame s.fillPtr sl t
      exact ⟨by rw [g1, h1], by omega⟩)
  obtain ⟨h1, h2⟩ := key
  have ht : fill s =
      { forUpTo s.cfg.halfLen (fillSlot s.fillPtr) s with
        pending := (forUpTo s.cfg.halfLen (fillSlot s.fillPtr) s).pending.set s.fillPtr false
        fillPtr := !s.fillPtr } := rfl
  rw [ht]
  generalize forUpTo s.cfg.halfLen (fillSlot s.fillPtr) s = t at h1 h2
  exact ⟨by rw [h1], h2⟩

/-- What a drain may write (R136). -/
theorem drain_frame (s : State) :
    drain s =
      { s with
        dac := s.dac ++ [bufHalf s s.dmaPtr]
        overrun := s.overrun || s.pending.get s.dmaPtr
        pending := s.pending.set s.dmaPtr true
        dmaPtr := !s.dmaPtr } := by
  simp only [drain, raiseOverrun]
  cases h : s.pending.get s.dmaPtr <;> simp

end Sys2Proof.Machine
end

