-- ==== Sys2Proof/Laws/Step.lean ====
section
/-! SUPPORT. What a step is: the event it takes, the commands a strobe executes, and where each answers a
next state (00_scope.md R9, 40_command_processing.md R59 to R64, 45_cv_engine.md R130). -/

namespace Sys2Proof.Machine

/-! ## Sequencing -/

@[simp] theorem andThen_next (s : State) (f : State → Result) : andThen (.next s) f = f s := rfl

/-- Two results in sequence answer a next state exactly where both do. -/
theorem andThen_eq_next {r : Result} {f : State → Result} {t : State} :
    andThen r f = .next t ↔ ∃ u, r = .next u ∧ f u = .next t := by
  cases r <;> simp [andThen]

theorem andThen_assoc (r : Result) (f g : State → Result) :
    andThen (andThen r f) g = andThen r fun s => andThen (f s) g := by
  cases r <;> rfl

/-! ## The step -/

/-- A step takes the next event on the state in which the event is consumed (R9, log 2). -/
theorem step_eq (s : State) : step s = runEvent (nextEvent s) (afterEvent s) := by
  simp only [step, runNext, nextEvent, afterEvent]
  cases s.script <;> rfl

/-- Consuming an event writes the model's own fields only (log 2). -/
theorem afterEvent_frame (s : State) :
    afterEvent s = { s with script := (afterEvent s).script, schedPos := (afterEvent s).schedPos } := by
  simp only [afterEvent]
  split <;> rfl

@[simp] theorem afterEvent_of_script {s : State} {e : Event} {rest : List Event} (h : s.script = e :: rest) :
    afterEvent s = { s with script := rest } := by
  simp [afterEvent, h]

@[simp] theorem nextEvent_of_script {s : State} {e : Event} {rest : List Event} (h : s.script = e :: rest) :
    nextEvent s = e := by
  simp [nextEvent, h]

/-! ## Commands -/

/-- A word that is a command runs it with CMD_COUNT advanced (R61). -/
theorem execute_of_decode {w : Word} {i : Instr} (h : decode w = .ok i) (s : State) :
    execute w s = exec i { s with cmdCount := s.cmdCount + 1 } := by
  simp [execute, h]

/-- A word that is no command sets BADCMD with CMD_COUNT advanced (R61, R64). -/
theorem execute_of_illegal {w : Word} {e : Illegal} (h : decode w = .error e) (s : State) :
    execute w s = .next { s with cmdCount := s.cmdCount + 1, badCmd := true } := by
  simp [execute, h, raiseBadCmd]

theorem drainWords_zero (s : State) : drainWords 0 s = .next s := rfl

/-- A drain of an empty FIFO does nothing (R60). -/
theorem drainWords_nil {n : Nat} {s : State} (h : s.fifo = []) : drainWords n s = .next s := by
  cases n <;> simp [drainWords, h]

/-- A drain removes and executes the oldest word first (R60). -/
theorem drainWords_cons {n : Nat} {s : State} {w : Word} {q : List Word} (h : s.fifo = w :: q) :
    drainWords (n + 1) s = andThen (execute w { s with fifo := q }) (drainWords n) := by
  simp [drainWords, h]

/-! ## The strobe -/

/-- A strobe of a tick phase other than 0 executes no command (R130, R131). -/
theorem strobe_of_phase_ne {s : State} (h : s.tphase ≠ 0) :
    strobe s = .next (strobeTail (tickTask s.tphase.toNat s)) := by
  have : ¬s.tphase.toNat = 0 := fun e => h (BitVec.eq_of_toNat_eq (by simpa using e))
  simp [strobe, tickPhase, this]

/-- A strobe of tick phase 0 drains the commands (R130, R131). -/
theorem strobe_of_phase_zero {s : State} (h : s.tphase = 0) :
    strobe s = andThen (drainCommands s) fun t => .next (strobeTail t) := by
  simp [strobe, tickPhase, h]

end Sys2Proof.Machine
end

