-- ==== Sys2Proof/Laws/Commands.lean ====
section
/-! SUPPORT. What no command can change: the counters and the queue of the command port, the CV outputs, the
output buffer and its bookkeeping, the latched sync mask, the DAC trace, the parameters and the model's own
fields. -/

namespace Sys2Proof.Machine

/-- Nothing differs but what some command may write. -/
def CommandFrame (s t : State) : Prop :=
  t =
    { s with
      cmdOvf := t.cmdOvf
      overrun := t.overrun
      badCmd := t.badCmd
      ts := t.ts
      voiceMask := t.voiceMask
      priority := t.priority
      mono := t.mono
      hold := t.hold
      plen := t.plen
      offsets := t.offsets
      offsetsStg := t.offsetsStg
      noteHeld := t.noteHeld
      voices := t.voices
      envs := t.envs
      lfos := t.lfos
      oscs := t.oscs
      slots := t.slots
      waveLenStg := t.waveLenStg
      amt := t.amt
      base := t.base
      glide := t.glide
      pb := t.pb
      tb := t.tb
      bend := t.bend
      pressure := t.pressure
      syncStaged := t.syncStaged
      evt := t.evt }

theorem CommandFrame.refl (s : State) : CommandFrame s s := rfl

theorem CommandFrame.trans {s t u : State} (h : CommandFrame s t) (k : CommandFrame t u) : CommandFrame s u := by
  unfold CommandFrame at *
  rw [h] at k
  exact k

theorem emit_commandFrame (r : Evt) (s : State) : CommandFrame s (emit r s) := by
  obtain ⟨k, v, n, ve, l, kb⟩ := r
  cases k <;> cases l <;> rfl

theorem gateOffVoice_commandFrame (v : Nat) (s : State) : CommandFrame s (gateOffVoice v s) := by
  unfold gateOffVoice
  split
  · exact .trans (t := (s.modVoice v _).modVoice v _) rfl (emit_commandFrame _ _)
  · rfl

theorem grantVoice_commandFrame (root : BitVec 7) (vel : U16) (kbd legato : Bool) (v i : Nat) (s : State) :
    CommandFrame s (grantVoice root vel kbd legato v i s) := by
  unfold grantVoice
  refine .trans ?_ (emit_commandFrame _ _)
  have h := emit_commandFrame (offEvent .stolenOff v s) s
  split <;> split <;> exact h.trans rfl

theorem assignPattern_commandFrame (start : Nat) (root : BitVec 7) (vel : U16) (kbd legato : Bool) (s : State) :
    CommandFrame s (assignPattern start root vel kbd legato s) := by
  have key := foldl_keeps (targets s start).zipIdx (s := s) (f := fun t p => grantVoice root vel kbd legato p.1 p.2 t)
    (P := CommandFrame s) (.refl s) fun t p _ h => h.trans (grantVoice_commandFrame root vel kbd legato p.1 p.2 t)
  exact key.trans rfl

/-- What every pass of a loop may write, the loop may write. -/
theorem forUpTo_commandFrame {f : Nat → State → State} (hf : ∀ v t, CommandFrame t (f v t)) (n : Nat) (s : State) :
    CommandFrame s (forUpTo n f s) :=
  forUpTo_keeps (P := CommandFrame s) rfl fun v t _ h => h.trans (hf v t)

/-- A pass that runs under a condition. -/
theorem ite_commandFrame {c : Prop} [Decidable c] {s t : State} (h : CommandFrame s t) :
    CommandFrame s (if c then t else s) := by
  split
  · exact h
  · rfl

theorem gateOffRoot_commandFrame (note : BitVec 7) (s : State) : CommandFrame s (gateOffRoot note s) :=
  forUpTo_commandFrame (fun v t => ite_commandFrame (gateOffVoice_commandFrame v t)) _ s

theorem releaseHeld_commandFrame (s : State) : CommandFrame s (releaseHeld s) :=
  forUpTo_commandFrame (fun v t => ite_commandFrame
    (.trans (t := t.modVoice v fun x => { x with gated := false }) rfl (emit_commandFrame _ _))) _ s

theorem forEnvset_commandFrame (es : List Nat) (f : Env → Env) (s : State) : CommandFrame s (forEnvset es f s) :=
  foldl_keeps es (P := CommandFrame s) rfl fun t _ _ h => h.trans (show CommandFrame t (t.modEnv _ _) from rfl)

theorem noteOnPoly_commandFrame (note : BitVec 7) (vel : U16) (kbd : Bool) (s : State) :
    CommandFrame s (noteOnPoly note vel kbd s) := by
  refine .trans (t := s.setHeld note true) rfl ?_
  simp only [noteOnPoly]
  split
  · exact assignPattern_commandFrame ..
  · rfl

theorem noteOnMono_commandFrame (note : BitVec 7) (vel : U16) (kbd : Bool) (s : State) :
    CommandFrame s (noteOnMono note vel kbd s) := by
  refine .trans (t := s.setHeld note true) rfl ?_
  simp only [noteOnMono]
  split
  · rfl
  · exact ite_commandFrame (assignPattern_commandFrame ..)

theorem noteOffMono_commandFrame (note : BitVec 7) (s : State) : CommandFrame s (noteOffMono note s) := by
  refine .trans (t := s.setHeld note false) rfl ?_
  simp only [noteOffMono]
  split
  · rfl
  · split
    · exact assignPattern_commandFrame ..
    · exact gateOffRoot_commandFrame ..

/-- A command writes nothing outside `CommandFrame`: it removes no word from the FIFO, advances no counter of
the command port, and leaves the CV outputs, the output buffer, the DAC trace and the parameters. -/
theorem exec_commandFrame {i : Instr} {s t : State} (h : exec i s = .next t) : CommandFrame s t := by
  cases i <;> injection h with h <;> subst h
  case noteOn k note vel =>
    split
    · exact noteOnMono_commandFrame ..
    · exact noteOnPoly_commandFrame ..
  case noteOff note =>
    split
    · exact noteOffMono_commandFrame ..
    · exact .trans (t := s.setHeld note false) rfl (gateOffRoot_commandFrame ..)
  case allKeysOff =>
    exact .trans (t := { s with noteHeld := 0 }) rfl
      (forUpTo_commandFrame (fun v t => ite_commandFrame (gateOffVoice_commandFrame v t)) _ _)
  case panicOff =>
    exact .trans (t := { s with noteHeld := 0 }) rfl
      (forUpTo_commandFrame (fun v t => show CommandFrame t (voiceDone v t) from rfl) _ _)
  case hold on =>
    cases on
    · exact .trans (t := { s with hold := false }) rfl (releaseHeld_commandFrame _)
    · rfl
  case bend vm imm =>
    exact forUpTo_commandFrame (fun v t => ite_commandFrame (show CommandFrame t (t.setBend v imm) from rfl)) _ _
  case pressure vm imm =>
    exact forUpTo_commandFrame (fun v t => ite_commandFrame (show CommandFrame t (t.setPressure v imm) from rfl)) _ _
  case waveCommit slot valid =>
    exact .trans (t := s.setSlot slot.toNat (committedSlot valid.toNat s)) rfl
      (forUpTo_commandFrame (fun o t => ite_commandFrame (show CommandFrame t (t.modOsc o _) from rfl)) _ _)
  case envSetAttack => exact forEnvset_commandFrame ..
  case envSetDecay => exact forEnvset_commandFrame ..
  case envSetSustain => exact forEnvset_commandFrame ..
  case envSetRelease => exact forEnvset_commandFrame ..
  case envSetLevel => exact forEnvset_commandFrame ..
  case envSetMode => exact forEnvset_commandFrame ..
  case envSetShift => exact forEnvset_commandFrame ..
  case envGate => exact forEnvset_commandFrame ..
  all_goals rfl

end Sys2Proof.Machine
end

