-- ==== Sys2Proof/Laws/Encoding.lean ====
section
/-! SUPPORT. How a field that was placed in a word reads back, and which bits it occupies (30_encoding.md
R51, R52). -/

namespace Sys2Proof

theorem field_or (a b : Word) (lo len : Nat) : field (a ||| b) lo len = field a lo len ||| field b lo len := by
  unfold field; ext i hi; simp

/-- A bit of a word is a field of one bit (R6). -/
theorem bit_eq_field (a : Word) (i : Nat) : bit a i = (field a i 1).getLsbD 0 := by simp [bit, field]

/-- A field reads back where it was placed. -/
theorem field_fieldAt_self (lo len : Nat) (x : BitVec len) (h : lo + len ≤ 32) :
    field (fieldAt lo x) lo len = x := by
  unfold field fieldAt
  ext i hi
  simp only [BitVec.getElem_extractLsb', BitVec.getLsbD_shiftLeft, BitVec.getLsbD_setWidth]
  simp [show lo + i < 32 by omega, show i < 32 by omega, BitVec.getLsbD_eq_getElem hi]

/-- A field above the one that was placed reads 0. -/
theorem field_fieldAt_of_le (lo len lo' len' : Nat) (x : BitVec len) (h : lo + len ≤ lo') :
    field (fieldAt lo x) lo' len' = 0 := by
  unfold field fieldAt; ext i hi
  simp; intro _ _ _; apply BitVec.getLsbD_of_ge; omega

/-- A field below the one that was placed reads 0. -/
theorem field_fieldAt_of_ge (lo len lo' len' : Nat) (x : BitVec len) (h : lo' + len' ≤ lo) :
    field (fieldAt lo x) lo' len' = 0 := by
  unfold field fieldAt; ext i hi
  simp; omega

/-- A mask that holds every bit of a field leaves the field as it is. -/
theorem fieldAt_and (lo len : Nat) (x : BitVec len) (m : Word)
    (h : ∀ i, i < len → m.getLsbD (lo + i) = true) : fieldAt lo x &&& m = fieldAt lo x := by
  unfold fieldAt
  ext j hj
  simp only [BitVec.getElem_and, BitVec.getElem_shiftLeft]
  by_cases hx : j < lo
  · simp [hx]
  · by_cases hl : j - lo < len
    · have := h (j - lo) hl
      rw [show lo + (j - lo) = j by omega, BitVec.getLsbD_eq_getElem hj] at this
      simp [this]
    · simp [BitVec.getLsbD_of_ge x (j - lo) (by omega)]

theorem or_and_distrib (a b m : Word) : (a ||| b) &&& m = (a &&& m) ||| (b &&& m) := by
  ext i hi; simp [Bool.and_or_distrib_right]

end Sys2Proof
end

