-- ==== Sys2Proof/Laws/PerInstr.lean ====
section
/-! SUPPORT. The statements made once per command: its encoding carries its opcode and uses only the bits
its row of R55 names (30_encoding.md R51 to R53, R55). -/

namespace Sys2Proof

/-- The word of the command has the command's OP, and every reserved bit of it is 0 (R51, R52, R53). -/
def Laws.EncodingFollowsTable.Statement (i : Instr) : Prop :=
  opOf (encode i) = opcode i ∧ encode i &&& namedBits (opcode i) = encode i

/-- Every constructor's case at once; the lemmas below say it command by command. -/
theorem encoding_follows_table (i : Instr) : Laws.EncodingFollowsTable.Statement i := by
  cases i
  all_goals
    constructor <;> simp (disch := decide) [encode, opcode, namedBits, opOf, opAt, bitAt, field_or,
      field_fieldAt_self, field_fieldAt_of_le, or_and_distrib, fieldAt_and]

theorem Laws.EncodingFollowsTable.nop :
    Laws.EncodingFollowsTable.Statement (.nop) :=
  encoding_follows_table _

theorem Laws.EncodingFollowsTable.noteOn (k : Bool) (note : BitVec 7) (vel : U16) :
    Laws.EncodingFollowsTable.Statement (.noteOn k note vel) :=
  encoding_follows_table _

theorem Laws.EncodingFollowsTable.noteOff (note : BitVec 7) :
    Laws.EncodingFollowsTable.Statement (.noteOff note) :=
  encoding_follows_table _

theorem Laws.EncodingFollowsTable.voiceDone (v : BitVec 3) :
    Laws.EncodingFollowsTable.Statement (.voiceDone v) :=
  encoding_follows_table _

theorem Laws.EncodingFollowsTable.allKeysOff :
    Laws.EncodingFollowsTable.Statement (.allKeysOff) :=
  encoding_follows_table _

theorem Laws.EncodingFollowsTable.panicOff :
    Laws.EncodingFollowsTable.Statement (.panicOff) :=
  encoding_follows_table _

theorem Laws.EncodingFollowsTable.setPriority (prio : BitVec 2) :
    Laws.EncodingFollowsTable.Statement (.setPriority prio) :=
  encoding_follows_table _

theorem Laws.EncodingFollowsTable.setVoiceMask (vmask : BitVec 6) :
    Laws.EncodingFollowsTable.Statement (.setVoiceMask vmask) :=
  encoding_follows_table _

theorem Laws.EncodingFollowsTable.setPatternStep (idx : BitVec 3) (ofs : BitVec 8) :
    Laws.EncodingFollowsTable.Statement (.setPatternStep idx ofs) :=
  encoding_follows_table _

theorem Laws.EncodingFollowsTable.setPattern (mono : Bool) (len : BitVec 3) :
    Laws.EncodingFollowsTable.Statement (.setPattern mono len) :=
  encoding_follows_table _

theorem Laws.EncodingFollowsTable.hold (on : Bool) :
    Laws.EncodingFollowsTable.Statement (.hold on) :=
  encoding_follows_table _

theorem Laws.EncodingFollowsTable.bend (vm : BitVec 6) (imm : U16) :
    Laws.EncodingFollowsTable.Statement (.bend vm imm) :=
  encoding_follows_table _

theorem Laws.EncodingFollowsTable.pressure (vm : BitVec 6) (imm : U16) :
    Laws.EncodingFollowsTable.Statement (.pressure vm imm) :=
  encoding_follows_table _

theorem Laws.EncodingFollowsTable.envSetAttack (b : Bool) (e : BitVec 4) (imm : U16) :
    Laws.EncodingFollowsTable.Statement (.envSetAttack b e imm) :=
  encoding_follows_table _

theorem Laws.EncodingFollowsTable.envSetDecay (b : Bool) (e : BitVec 4) (imm : U16) :
    Laws.EncodingFollowsTable.Statement (.envSetDecay b e imm) :=
  encoding_follows_table _

theorem Laws.EncodingFollowsTable.envSetSustain (b : Bool) (e : BitVec 4) (imm : U16) :
    Laws.EncodingFollowsTable.Statement (.envSetSustain b e imm) :=
  encoding_follows_table _

theorem Laws.EncodingFollowsTable.envSetRelease (b : Bool) (e : BitVec 4) (imm : U16) :
    Laws.EncodingFollowsTable.Statement (.envSetRelease b e imm) :=
  encoding_follows_table _

theorem Laws.EncodingFollowsTable.envSetLevel (b : Bool) (e : BitVec 4) (imm : U16) :
    Laws.EncodingFollowsTable.Statement (.envSetLevel b e imm) :=
  encoding_follows_table _

theorem Laws.EncodingFollowsTable.envSetMode (b : Bool) (e : BitVec 4) (loop : Bool) (shape : Bool) :
    Laws.EncodingFollowsTable.Statement (.envSetMode b e loop shape) :=
  encoding_follows_table _

theorem Laws.EncodingFollowsTable.envSetShift (b : Bool) (e : BitVec 4) (shift : BitVec 5) :
    Laws.EncodingFollowsTable.Statement (.envSetShift b e shift) :=
  encoding_follows_table _

theorem Laws.EncodingFollowsTable.envGate (b : Bool) (e : BitVec 4) (gate : Bool) :
    Laws.EncodingFollowsTable.Statement (.envGate b e gate) :=
  encoding_follows_table _

theorem Laws.EncodingFollowsTable.lfoSetSpeed (l : Bool) (imm : U16) :
    Laws.EncodingFollowsTable.Statement (.lfoSetSpeed l imm) :=
  encoding_follows_table _

theorem Laws.EncodingFollowsTable.lfoSetShift (l : Bool) (shift : BitVec 5) :
    Laws.EncodingFollowsTable.Statement (.lfoSetShift l shift) :=
  encoding_follows_table _

theorem Laws.EncodingFollowsTable.lfoSetShape (l : Bool) (lshape : BitVec 3) :
    Laws.EncodingFollowsTable.Statement (.lfoSetShape l lshape) :=
  encoding_follows_table _

theorem Laws.EncodingFollowsTable.lfoSetLevel (l : Bool) (imm : U16) :
    Laws.EncodingFollowsTable.Statement (.lfoSetLevel l imm) :=
  encoding_follows_table _

theorem Laws.EncodingFollowsTable.lfoReset (l : Bool) :
    Laws.EncodingFollowsTable.Statement (.lfoReset l) :=
  encoding_follows_table _

theorem Laws.EncodingFollowsTable.oscSetWave (x : Bool) (v : BitVec 3) (xslot : BitVec 3) (xen : Bool) (main : BitVec 3) :
    Laws.EncodingFollowsTable.Statement (.oscSetWave x v xslot xen main) :=
  encoding_follows_table _

theorem Laws.EncodingFollowsTable.oscSetTarget (x : Bool) (v : BitVec 3) (tgt : BitVec 2) :
    Laws.EncodingFollowsTable.Statement (.oscSetTarget x v tgt) :=
  encoding_follows_table _

theorem Laws.EncodingFollowsTable.setSyncMask (vmask : BitVec 6) :
    Laws.EncodingFollowsTable.Statement (.setSyncMask vmask) :=
  encoding_follows_table _

theorem Laws.EncodingFollowsTable.waveSetLen (len12 : BitVec 12) :
    Laws.EncodingFollowsTable.Statement (.waveSetLen len12) :=
  encoding_follows_table _

theorem Laws.EncodingFollowsTable.waveCommit (slot : BitVec 3) (valid : BitVec 12) :
    Laws.EncodingFollowsTable.Statement (.waveCommit slot valid) :=
  encoding_follows_table _

theorem Laws.EncodingFollowsTable.modSetAmount (src : BitVec 3) (dst : BitVec 3) (imm : U16) :
    Laws.EncodingFollowsTable.Statement (.modSetAmount src dst imm) :=
  encoding_follows_table _

theorem Laws.EncodingFollowsTable.modSetBase (dst : BitVec 3) (imm : U16) :
    Laws.EncodingFollowsTable.Statement (.modSetBase dst imm) :=
  encoding_follows_table _

theorem Laws.EncodingFollowsTable.setGlide (imm : U16) :
    Laws.EncodingFollowsTable.Statement (.setGlide imm) :=
  encoding_follows_table _

theorem Laws.EncodingFollowsTable.clearFlags (clr : BitVec 3) :
    Laws.EncodingFollowsTable.Statement (.clearFlags clr) :=
  encoding_follows_table _

end Sys2Proof
end

