-- ==== Sys2Proof/Tests/Slice0.lean ====
section
/-! SUPPORT. Tests of the model, each by `decide` on one word, one record or one small state: words written
out from the encodings of R52, R54 and R55 or taken from the examples of R57; results from the vectors of
spec/95_test_vectors.md or worked out by hand from the rule named. After them, for every statement of
Obligations.lean that has hypotheses, a state and operands that meet them. -/

namespace Sys2Proof.Tests

open Sys2Proof.Machine

/-! ## Helpers -/

/-- Two voices, four samples, a FIFO of two words drained one by one, a half of one slot. -/
def cfg2 : Config where
  nVoices := 2
  waveMax := 4
  fifoDepth := 2
  cmdBudget := 1
  halfLen := 1
  vclk := 48000000
  oscTick := 1000
  oscMaxIncr := 64

/-- Six voices, otherwise as `cfg2`. -/
def cfg6 : Config := { cfg2 with nVoices := 6 }

def s2 : State := State.resetWith cfg2

def s6 : State := State.resetWith cfg6

/-- The words executed in order, with no strobe in between (spec/95_test_vectors.md, "Executed"). -/
def run (ws : List Word) (s : State) : State :=
  ws.foldl (fun t w => match execute w t with | .next u => u | _ => t) s

/-- `r` is a next state with the property `p`. -/
def after (r : Result) (p : State → Bool) : Bool :=
  match r with
  | .next t => p t
  | _ => false

theorem next_of_after {r : Result} {p : State → Bool} (h : after r p = true) :
    ∃ t, r = .next t ∧ p t = true := by
  cases r with
  | next t => exact ⟨t, rfl, h⟩
  | fault e => exact nomatch e
  | refused e => simp [after] at h

/-- `s` with one agent's step next. -/
def doing (a : AgentStep) (s : State) : State := { s with script := [.agent a] }

/-! ## WellFormed: an ill-formed command for each check -/

theorem test_wellFormed_voice : (Instr.voiceDone 5).wellFormed 6 = true ∧ (Instr.voiceDone 6).wellFormed 6 = false := by
  decide

theorem test_wellFormed_priority :
    (Instr.setPriority 2).wellFormed 6 = true ∧ (Instr.setPriority 3).wellFormed 6 = false := by decide

theorem test_wellFormed_masks :
    (Instr.setVoiceMask 3).wellFormed 2 = true ∧ (Instr.setVoiceMask 4).wellFormed 2 = false ∧
    (Instr.setSyncMask 4).wellFormed 2 = false ∧ (Instr.bend 4 0).wellFormed 2 = false ∧
    (Instr.pressure 4 0).wellFormed 2 = false := by decide

theorem test_wellFormed_pattern :
    (Instr.setPatternStep 5 0).wellFormed 6 = true ∧ (Instr.setPatternStep 6 0).wellFormed 6 = false ∧
    (Instr.setPattern true 6).wellFormed 6 = true ∧ (Instr.setPattern true 0).wellFormed 6 = false ∧
    (Instr.setPattern false 7).wellFormed 6 = false := by decide

theorem test_wellFormed_envelope :
    (Instr.envGate false 11 true).wellFormed 6 = true ∧ (Instr.envGate true 1 true).wellFormed 6 = true ∧
    (Instr.envGate false 12 true).wellFormed 6 = false ∧ (Instr.envGate true 2 true).wellFormed 6 = false ∧
    (Instr.envSetAttack false 12 0).wellFormed 6 = false ∧ (Instr.envSetDecay true 3 0).wellFormed 6 = false ∧
    (Instr.envSetSustain false 15 0).wellFormed 6 = false ∧ (Instr.envSetRelease true 2 0).wellFormed 6 = false ∧
    (Instr.envSetLevel false 4 0).wellFormed 2 = false ∧ (Instr.envSetMode true 4 true true).wellFormed 6 = false ∧
    (Instr.envSetShift false 13 0).wellFormed 6 = false := by decide

theorem test_wellFormed_lfoShape :
    (Instr.lfoSetShape false 6).wellFormed 6 = true ∧ (Instr.lfoSetShape false 7).wellFormed 6 = false := by decide

theorem test_wellFormed_oscillator :
    (Instr.oscSetWave true 5 7 true 7).wellFormed 6 = true ∧ (Instr.oscSetWave true 6 0 true 0).wellFormed 6 = false ∧
    (Instr.oscSetTarget false 7 0).wellFormed 6 = false := by decide

theorem test_wellFormed_destination :
    (Instr.modSetAmount 7 6 0).wellFormed 6 = true ∧ (Instr.modSetAmount 0 7 0).wellFormed 6 = false ∧
    (Instr.modSetBase 7 0).wellFormed 6 = false := by decide

/-! ## Decode: a word of every command, written out from R52 and R55 -/

theorem test_decode_housekeeping :
    decode 0x00000000 = .ok .nop ∧ decode 0x03FFFFFF = .ok .nop ∧ decode 0xF8000005 = .ok (.clearFlags 5) := by
  decide

theorem test_decode_notes :
    decode 0x04BCFFFF = .ok (.noteOn true 60 0xFFFF) ∧ decode 0x043C8001 = .ok (.noteOn false 60 0x8001) ∧
    decode 0x087F0000 = .ok (.noteOff 127) ∧ decode 0x0C020000 = .ok (.voiceDone 2) ∧
    decode 0x10000000 = .ok .allKeysOff ∧ decode 0x14000000 = .ok .panicOff := by decide

theorem test_decode_assignerSettings :
    decode 0x18000002 = .ok (.setPriority 2) ∧ decode 0x1C00002A = .ok (.setVoiceMask 0x2A) ∧
    decode 0x200300F4 = .ok (.setPatternStep 3 0xF4) ∧ decode 0x24110000 = .ok (.setPattern true 1) ∧
    decode 0x24040000 = .ok (.setPattern false 4) ∧ decode 0x28000001 = .ok (.hold true) := by decide

theorem test_decode_controllers :
    decode 0x2C3FFFFF = .ok (.bend 0x3F 0xFFFF) ∧ decode 0x30018000 = .ok (.pressure 1 0x8000) ∧
    decode 0xE0124000 = .ok (.modSetAmount 2 2 0x4000) ∧ decode 0xE03E0001 = .ok (.modSetAmount 7 6 1) ∧
    decode 0xE4028000 = .ok (.modSetBase 2 0x8000) ∧ decode 0xE8000200 = .ok (.setGlide 0x200) := by decide

theorem test_decode_envelopes :
    decode 0x408100F0 = .ok (.envSetAttack true 1 240) ∧ decode 0x440B0001 = .ok (.envSetDecay false 11 1) ∧
    decode 0x48818000 = .ok (.envSetSustain true 1 0x8000) ∧ decode 0x4C8000F0 = .ok (.envSetRelease true 0 240) ∧
    decode 0x5081FFFF = .ok (.envSetLevel true 1 0xFFFF) ∧ decode 0x540B0002 = .ok (.envSetMode false 11 true false) ∧
    decode 0x54060001 = .ok (.envSetMode false 6 false true) ∧ decode 0x5806001F = .ok (.envSetShift false 6 31) ∧
    decode 0x5C050001 = .ok (.envGate false 5 true) ∧ decode 0x5C800000 = .ok (.envGate true 0 false) := by decide

theorem test_decode_lfos :
    decode 0x8000FFFF = .ok (.lfoSetSpeed false 0xFFFF) ∧ decode 0x84010011 = .ok (.lfoSetShift true 17) ∧
    decode 0x88000004 = .ok (.lfoSetShape false 4) ∧ decode 0x8C018000 = .ok (.lfoSetLevel true 0x8000) ∧
    decode 0x90010000 = .ok (.lfoReset true) := by decide

theorem test_decode_oscillators :
    decode 0xC009003A = .ok (.oscSetWave true 1 3 true 2) ∧ decode 0xC0050074 = .ok (.oscSetWave false 5 7 false 4) ∧
    decode 0xC4090002 = .ok (.oscSetTarget true 1 2) ∧ decode 0xC8000021 = .ok (.setSyncMask 0x21) ∧
    decode 0xCC000ABC = .ok (.waveSetLen 0xABC) ∧ decode 0xD0050ABC = .ok (.waveCommit 5 0xABC) := by decide

/-- V-CMD-5: the reserved bits w[25:24] of a NOTE_ON are ignored (R53). -/
theorem test_decode_reserved : decode 0x073C8000 = decode 0x043C8000 ∧ decode 0x0880FFFF = .ok (.noteOff 0) := by decide

/-- R56: the first and the last unassigned opcodes, and each run's ends. -/
theorem test_decode_unassigned :
    decode 0x34000000 = .error (.unassigned 0x0D) ∧ decode 0x3FFFFFFF = .error (.unassigned 0x0F) ∧
    decode 0x60000000 = .error (.unassigned 0x18) ∧ decode 0x7C000000 = .error (.unassigned 0x1F) ∧
    decode 0x94000000 = .error (.unassigned 0x25) ∧ decode 0xBC000000 = .error (.unassigned 0x2F) ∧
    decode 0xD4000000 = .error (.unassigned 0x35) ∧ decode 0xDC000000 = .error (.unassigned 0x37) ∧
    decode 0xEC000000 = .error (.unassigned 0x3B) ∧ decode 0xF4000000 = .error (.unassigned 0x3D) ∧
    decode 0xFC000000 = .error (.unassigned 0x3F) := by decide

/-- R57's examples, assembled. -/
theorem test_encode_examples :
    encode (.noteOn true 60 0xFFFF) = 0x04BCFFFF ∧ encode (.setPatternStep 3 0xF4) = 0x200300F4 ∧
    encode (.setPattern true 1) = 0x24110000 ∧ encode (.bend 0x3F 0xFFFF) = 0x2C3FFFFF ∧
    encode (.envSetLevel true 1 0xFFFF) = 0x5081FFFF ∧ encode (.oscSetWave true 1 3 true 2) = 0xC009003A ∧
    encode (.modSetAmount 2 2 0x4000) = 0xE0124000 := by decide

/-- The table's bits are the word's (R51); bits above them are 0. -/
theorem test_decodeTableWord :
    decodeTableWord 32 0xE0124000 = some (.modSetAmount 2 2 0x4000) ∧ decodeTableWord 32 0x34000000 = none ∧
    decodeTableWord 32 0x100000000 = some .nop := by decide

/-! ## The step -/

/-- A placed word runs in the next step, from reset (R60, log 5). -/
theorem test_withFetchWord :
    after (step (State.reset.withFetchWord 32 0x043C8000))
      (fun t => (t.voice 0).note == 60 && t.cmdCount == 1 && t.tphase == 1 && t.fifo.isEmpty) = true := by decide

/-- R32: a host access that the host agent does not have is refused. -/
theorem test_noAccess :
    (match step { s2 with script := [.noAccess .accessBuf] } with
     | .refused (.noSuchAccess x) => x == .accessBuf
     | _ => false) = true := by decide

/-- V-CMD-1: a write to a full FIFO is discarded and sets CMD_OVF (R59). -/
theorem test_fifo_overflow :
    (cmdWrite 3 (cmdWrite 2 (cmdWrite 1 s2))).fifo = [1, 2] ∧
    (cmdWrite 3 (cmdWrite 2 (cmdWrite 1 s2))).cmdOvf = true ∧ (cmdWrite 2 (cmdWrite 1 s2)).cmdOvf = false := by decide

/-- V-CMD-3: an illegal command is counted and sets BADCMD, no more (R64). -/
theorem test_illegal :
    (run [0xFC000000] s2).badCmd = true ∧ (run [0xFC000000] s2).cmdCount = 1 ∧ (run [0xFC000000] s2).evt = [] ∧
    (run [0xFC000000] s2).cmdOvf = false := by decide

/-- Tick phase 7 advances TS and wraps TPHASE (R131, R16). -/
theorem test_strobe_seven :
    after (strobe { s2 with tphase := 7, ts := 0xFFFFFFFF }) (fun t => t.tphase == 0 && t.ts == 0) = true := by decide

/-- R36, R34: the identification word, the configuration at reset, and a word of a voice that is absent. -/
theorem test_status :
    readStatus s2 0x00 = 0x4F564301 ∧ readStatus s2 0x04 = 0x00010302 ∧ readStatus s2 0x01 = 0x03000000 ∧
    readStatus s2 0x0A = 0 ∧ readStatus s2 0x4C = 0 ∧ readStatus s2 0x90 = 0 := by decide

/-! ## Housekeeping and assigner commands -/

/-- V-CMD-4: CLEAR_FLAGS 2 clears OVERRUN only (R63). -/
theorem test_clearFlags :
    (run [0xF8000002] { s2 with cmdOvf := true, overrun := true, badCmd := true }).overrun = false ∧
    (run [0xF8000002] { s2 with cmdOvf := true, overrun := true, badCmd := true }).badCmd = true ∧
    (run [0xF8000005] { s2 with cmdOvf := true, overrun := true, badCmd := true }).overrun = true ∧
    (run [0xF8000005] { s2 with cmdOvf := true, overrun := true, badCmd := true }).cmdOvf = false := by decide

/-- V-ASG-1: the second NOTE_ON takes the second voice, one TS later (R76, R71). -/
theorem test_noteOn :
    (run [0x043C8000, 0x04408000] s2).voice 0 = ⟨true, true, true, false, false, 60, 60, 0x8000, 0⟩ ∧
    (run [0x043C8000, 0x04408000] s2).voice 1 = ⟨true, true, true, false, false, 64, 64, 0x8000, 1⟩ := by decide

/-- V-ASG-2, HIGH: the scan compares with the last voice taken, so that v0 and not v1 is stolen (R77). -/
theorem test_noteOn_steal_high :
    (run [0x18000002, 0x043C0064, 0x04400064, 0x043E0064, 0x04460064] s2).evt.drop 4 =
      [⟨.stolenOff, 0, 62, 100, false, false⟩, ⟨.gateOn, 0, 70, 100, false, false⟩] := by decide

/-- V-ASG-7: under LOW a note above every root is dropped and held (R76). -/
theorem test_noteOn_dropped :
    (run [0x1C000001, 0x18000001, 0x043C0001, 0x04460001] s2).evt = [⟨.gateOn, 0, 60, 1, false, false⟩] ∧
    (run [0x1C000001, 0x18000001, 0x043C0001, 0x04460001] s2).held 70 = true := by decide

/-- V-ASG-6: the pattern's targets in cyclic order, a note clamped to 0 and two voices stolen (R69, R71). -/
theorem test_pattern :
    ((run [0x20000000, 0x20010004, 0x20020007, 0x200300F4, 0x24040000, 0x043C0005, 0x04050005] s6).evt.drop 4) =
      [⟨.gateOn, 4, 5, 5, false, false⟩, ⟨.gateOn, 5, 9, 5, false, false⟩, ⟨.stolenOff, 0, 60, 5, false, false⟩,
       ⟨.gateOn, 0, 12, 5, false, false⟩, ⟨.stolenOff, 1, 64, 5, false, false⟩,
       ⟨.gateOn, 1, 0, 5, false, false⟩] := by decide

/-- V-ASG-4: the mono legato grant, and the restored note with a fresh trigger (R79, R82). -/
theorem test_mono_legato :
    (run [0x24110000, 0x043903E8, 0x043C07D0, 0x083C0000] s2).evt =
      [⟨.gateOn, 0, 57, 1000, false, false⟩, ⟨.gateOn, 0, 60, 2000, true, false⟩,
       ⟨.gateOn, 0, 57, 2000, false, false⟩] := by decide

/-- V-ASG-3: the voice whose key is up is stolen although it is younger (R76, R81). -/
theorem test_noteOff_poly :
    (run [0x043C0064, 0x04400064, 0x08400000] s2).voice 1 = ⟨true, false, false, false, false, 64, 64, 100, 1⟩ ∧
    ((run [0x043C0064, 0x04400064, 0x08400000, 0x04430064] s2).voice 1).note = 67 := by decide

/-- V-ASG-5: HOLD 0 gates off exactly the voice whose key is up (R90). -/
theorem test_hold :
    (run [0x28000001, 0x043C0001, 0x043E0001, 0x083C0000] s2).evt.length = 2 ∧
    (run [0x28000001, 0x043C0001, 0x043E0001, 0x083C0000, 0x28000000] s2).evt.drop 2 =
      [⟨.gateOff, 0, 60, 1, false, false⟩] := by decide

/-- R84: ALL_KEYS_OFF releases both keys and clears NOTE_HELD. -/
theorem test_allKeysOff :
    (run [0x043C0001, 0x043E0001, 0x10000000] s2).evt.drop 2 =
      [⟨.gateOff, 0, 60, 1, false, false⟩, ⟨.gateOff, 1, 62, 1, false, false⟩] ∧
    (run [0x043C0001, 0x043E0001, 0x10000000] s2).noteHeld = 0 := by decide

/-- V-ASG-9: VOICE_DONE keeps the note and frees the voice, its operand clamped to N−1 (R83, R54). -/
theorem test_voiceDone :
    (run [0x043C0001, 0x043E0001, 0x0C070000] s2).voice 1 = ⟨false, false, false, false, false, 62, 62, 1, 1⟩ ∧
    ((run [0x043C0001, 0x043E0001, 0x0C070000] s2).voice 0).assigned = true := by decide

/-- V-ASG-9: PANIC_OFF frees every voice and emits nothing (R85). -/
theorem test_panicOff :
    ((run [0x043C0001, 0x043E0001, 0x14000000] s2).voices.all fun x => !x.assigned) = true ∧
    (run [0x043C0001, 0x043E0001, 0x14000000] s2).evt.length = 2 ∧
    ((run [0x043C0001, 0x14000000] s2).env 0).stage = .wait := by decide

/-- R86, R87, R89 with the clamps of R54: priority 3 is HIGH, the mask loses the bits of absent voices, a
pattern of length 0 or 7 has length 1 or N. -/
theorem test_assigner_clamps :
    (run [0x18000003] s2).priority = .high ∧ (run [0x1C00003E] s2).voiceMask = 2 ∧
    (run [0x24000000] s2).plen = 1 ∧ (run [0x24070000] s2).plen = 2 := by decide

/-- R88, R89: a step is staged, its index clamped, until SET_PATTERN takes it over. -/
theorem test_pattern_staged :
    (run [0x200700F4] s2).offsets = List.replicate 6 0 ∧ (run [0x200700F4, 0x24010000] s2).offset 1 = -12 := by decide

/-! ## Envelopes -/

/-- ENV_SET_LEVEL *A reaches the amp envelopes only; a single envelope is clamped to 2N−1 (R105, R54). -/
theorem test_env_targets :
    ((run [0x5081FFFF] s2).envs.map fun x => x.level.toNat) = [0, 65535, 0, 65535] ∧
    ((run [0x500F0007] s2).envs.map fun x => x.level.toNat) = [0, 0, 0, 7] := by decide

/-- R101 to R104, R106, R107: each command writes its own field. -/
theorem test_env_fields :
    ((run [0x40000001] s2).env 0).atkCv = 1 ∧ ((run [0x44000002] s2).env 0).decCv = 2 ∧
    ((run [0x48000003] s2).env 0).susCv = 3 ∧ ((run [0x4C000004] s2).env 0).relCv = 4 ∧
    ((run [0x54000002] s2).env 0).loop = true ∧ ((run [0x54000001] s2).env 0).shape = true ∧
    ((run [0x54000001] s2).env 0).loop = false ∧ ((run [0x5800001F] s2).env 0).shift = 31 := by decide

/-- R108, R95: ENV_GATE 1 starts Attack towards LEVEL from the output, ENV_GATE 0 Release towards 0. -/
theorem test_env_gate :
    ((run [0x5000FFFF, 0x5C000001] s2).env 0).stage = .attack ∧
    ((run [0x5000FFFF, 0x5C000001] s2).env 0).mul.toInt = 65535 ∧
    ((run [0x5C000000] { s2 with envs := [{ Env.reset with output := 32767 }] }).env 0).mul.toInt = -32767 := by decide

/-- V-ENV-1, updates 5 and 16: the linear Attack, and its end at exactly LEVEL (R97, R93). -/
theorem test_env_attack :
    (envUpdate { Env.reset with stage := .attack, mul := 65535, level := 65535, incA := 0x100000,
                                phase := 4194304 }).output = 20479 ∧
    (envUpdate { Env.reset with stage := .attack, mul := 65535, level := 65535, incA := 0x100000, susCv := 32768,
                                phase := 15728640 }).stage = .decay ∧
    (envUpdate { Env.reset with stage := .attack, mul := 65535, level := 65535, incA := 0x100000, susCv := 32768,
                                phase := 15728640 }).mul.toInt = -32768 := by decide

/-- V-ENV-1, release update 1: the floor of a falling stage (R97). -/
theorem test_env_release :
    (envUpdate { Env.reset with stage := .release, add := 32767, mul := -32767, output := 32767,
                                incR := 0x100000 }).output = 30719 := by decide

/-- R131: tick phase 2 frees the voice whose amp envelope is in Done, not the one whose filter envelope is. -/
theorem test_housekeeping :
    ((tickTask 2 { s2 with
        voices := [{ Voice.reset with assigned := true }, { Voice.reset with assigned := true }]
        envs := [Env.reset, { Env.reset with stage := .done }, { Env.reset with stage := .done },
          Env.reset] }).voices.map fun x => x.assigned) = [false, true] := by decide

/-! ## LFOs -/

/-- R110: one step of the register from its two seeds. -/
theorem test_lfsr : lfsrStep 1 = 0xD0000001 ∧ lfsrStep 2 = 1 := by decide

/-- R114 to R117 write staged fields only; LFO_RESET clears the phase and the half (R118). -/
theorem test_lfo_commands :
    ((run [0x8001FFFF, 0x84010003, 0x88010007, 0x8C018000] s2).lfo true) =
      { Lfo.reset 2 with speedStg := 0xFFFF, shiftStg := 3, shapeStg := .noise, levelStg := 0x8000 } ∧
    ((run [0x90000000] { s2 with lfos := ⟨{ Lfo.reset 1 with phase := 5, half := true }, Lfo.reset 2⟩ }).lfo false) =
      Lfo.reset 1 := by decide

/-- P2, strobes 6 and 7: SQUARE at full level flips at every boundary; its output does not wrap (R111, R112). -/
theorem test_lfo_square :
    (lfoUpdate { Lfo.reset 1 with shape := .square, level := 0xFFFF, inc := 0x1000000 }).output.toInt = -32768 ∧
    (lfoUpdate { Lfo.reset 1 with shape := .square, level := 0xFFFF, inc := 0x1000000,
                                  half := true }).output.toInt = 32766 := by decide

/-- R109: tick phase 5 makes the staged shape and level active, tick phase 4 does not. -/
theorem test_lfo_refresh :
    ((tickTask 5 (run [0x88000004, 0x8C00FFFF] s2)).lfo false).shape = .square ∧
    ((tickTask 5 (run [0x88000004, 0x8C00FFFF] s2)).lfo false).level = 0xFFFF ∧
    ((tickTask 4 (run [0x88000004, 0x8C00FFFF] s2)).lfo false).shape = .tri := by decide

/-! ## Oscillators and the waveform store -/

/-- P3: the host stages four samples and commits three of them to a slot of four (R33, R128, R129). -/
def loaded : State :=
  run [0xCC000004, 0xD0000003] (stageWrite 3 0x7000 (stageWrite 2 0x5000 (stageWrite 1 0x3000 (stageWrite 0 0x1000 s2))))

/-- The tail is padded with 0x8000 (W8, R129), and the staging index is checked against WAVE_MAX (R33). -/
theorem test_waveCommit :
    (List.range 5).map (loaded.readSlot 0) = [0x1000, 0x3000, 0x5000, 0x8000, 0x8000] ∧
    (loaded.slot 0).len = 4 ∧ stageWrite 4 1 s2 = s2 := by
  refine ⟨by decide, by decide, by simp [stageWrite, s2, cfg2, State.resetWith]⟩

/-- R129: the length is clamped to 2 and to WAVE_MAX, and the phase of an oscillator that reads the slot. -/
theorem test_waveCommit_clamps :
    ((run [0xCC000001, 0xD0020000] s2).slot 2).len = 2 ∧ ((run [0xCC000FFF, 0xD0020000] s2).slot 2).len = 4 ∧
    ((run [0xCC000002, 0xD0020000] { s2 with oscs := [{ Osc.reset with main := 2, phase := 3 }] }).osc 0).phase = 1 := by
  decide

/-- R125, R126: the oscillator of the clamped voice, its phase clamped to the slot's length. -/
theorem test_osc_settings :
    ((run [0xC00F003A] s2).osc 3) = { Osc.reset with main := 2, xen := true, xslot := 3 } ∧
    ((run [0xC4000003] s2).osc 0).tgt = .crossover ∧
    ((run [0xC0000001] { s2 with oscs := [{ Osc.reset with phase := 9 }] }).osc 0).phase = 1 := by decide

/-- R127, R131: the mask is staged, and tick phase 6 latches it. -/
theorem test_sync_mask :
    (run [0xC8000005] s2).syncStaged = 1 ∧ (run [0xC8000005] s2).syncActive = 0 ∧
    (tickTask 6 (run [0xC8000005] s2)).syncActive = 1 := by decide

/-- V-OSC-1, P3: the period of one sample of P = 4 at f = 1071616 is 2866 ticks, of P = 256 at f = 66976 is 716. -/
theorem test_osc_period :
    (oscHalfParams cfg2 1071616 4 32768 24576000) = (1, 2866) ∧
    (oscHalfParams cfg2 66976 256 32768 24576000) = (1, 716) := by decide

/-- V-OSC-6: the crossover blend, rounded down, and the main slot alone where the lengths differ (R121). -/
theorem test_crossover :
    sampleAt [⟨4, [(0, 0x1000), (3, 0x7000)]⟩, ⟨4, [(0, 0x7000), (3, 0x1000)]⟩]
      { Osc.reset with xen := true, xslot := 1, xamt := 0x4000 } 0 = 0x2800 ∧
    sampleAt [⟨4, [(0, 0x1000), (3, 0x7000)]⟩, ⟨4, [(0, 0x7000), (3, 0x1000)]⟩]
      { Osc.reset with xen := true, xslot := 1, xamt := 0x4000 } 3 = 0x5800 ∧
    sampleAt [⟨4, [(0, 0x1000)]⟩, ⟨5, [(0, 0x7000)]⟩]
      { Osc.reset with xen := true, xslot := 1, xamt := 0x4000 } 0 = 0x1000 := by decide

/-- P3, slot 0: the first output sample of a slot of four, with one reload that wraps (R122). -/
theorem test_oscStep :
    let r := oscStep cfg2 [⟨4, [(0, 0x1000), (1, 0x3000), (2, 0x5000), (3, 0x7000)]⟩]
      { Osc.reset with period := ⟨2866, 2866⟩ }
    r.2.1 = 0x7A6A ∧ r.2.2 = true ∧ r.1.counter.toInt = 1866 ∧ r.1.phase = 3 := by decide

/-! ## The CV engine and the output buffer -/

/-- V-CV-3: BEND writes the voices of the mask that exist; PRESSURE the one it names (R138, R139). -/
theorem test_controllers :
    (run [0x2C3FFFFF] s2).bend = [0xFFFF, 0xFFFF] ∧ (run [0x30018000] s2).pressure = [0x8000, 0] := by decide

/-- V-CV-3: MOD_SET_AMOUNT writes AMT[CUTOFF][2]; a destination of 7 is 6; a base and the glide rate
(R140 to R142). -/
theorem test_modulation :
    (run [0xE0124000] s2).amount 2 2 = 16384 ∧ (run [0xE007FFFF] s2).amount 6 0 = -1 ∧
    (run [0xE4028000] s2).baseOf 2 = 0x8000 ∧ (run [0xE8000200] s2).glide = 0x200 := by decide

/-- V-CV-1: the floor of each product and the saturation of the sum (R133). -/
theorem test_cv_sum :
    cvSum { s2 with
      base := [0, 0, 10000, 0, 0, 0, 0]
      amt := ((List.replicate 56 0).set 16 32767).set 18 (-16384)
      envs := [{ Env.reset with output := 40000 }]
      lfos := ⟨{ Lfo.reset 1 with output := -20000 }, Lfo.reset 2⟩ } 0 2 = 59998 ∧
    sat16 (-20000) = 0 ∧ sat16 70000 = 0xFFFF := by decide

/-- P5: the glide takes 512 per tick and then holds at its target (R132). -/
theorem test_glide :
    (glideStep 0 { s2 with glide := 0x200, pb := [15360], tb := [16384] }).pb = [15872] ∧
    (glideStep 0 { s2 with glide := 0x200, pb := [16000], tb := [16384] }).pb = [16384] ∧
    (glideStep 0 { s2 with glide := 0x200, pb := [16384], tb := [16300] }).pb = [16300] := by decide

/-- R135, R134: a fill's tags, its round robin and the half it leaves. -/
theorem test_fill :
    (fill s2).readBuf false 0 3 = 0x00038000 ∧ (fill s2).readBuf false 0 4 = 0x00800000 ∧ (fill s2).rr = 1 ∧
    (fill s2).pending = ⟨false, true⟩ ∧ (fill s2).fillPtr = true := by decide

/-- R136: draining a pending half outputs it and sets OVERRUN. -/
theorem test_drain :
    (drain s2).overrun = true ∧ (drain s2).dac = [[[0, 0, 0, 0, 0]]] ∧ (drain s2).dmaPtr = true ∧
    (drain (fill s2)).overrun = false := by decide

/-! ## Witnesses: for each statement with hypotheses, a state and operands that meet them -/

theorem sized_s2 : Sized s2 := by unfold Sized; decide

theorem sized_s6 : Sized s6 := by unfold Sized; decide

theorem memoryOk_s2 : MemoryOk s2 := by unfold MemoryOk; decide

/-- A word that is a command, executed where BADCMD is set; two words of one command. -/
theorem witness_ReservedBitsAreIgnored :
    ∃ w s t, decode w = .ok .nop ∧ execute w s = .next t ∧ t.badCmd = true ∧ decode 0x03FFFFFF = .ok .nop := by
  obtain ⟨t, h, hb⟩ := next_of_after (r := execute 0 { s2 with badCmd := true }) (p := fun t => t.badCmd) (by decide)
  exact ⟨0, _, t, by decide, h, hb, by decide⟩

/-- The first and the last unassigned opcode at the head of a FIFO. -/
theorem witness_IllegalCommandsSetBadcmd :
    ((opOf 0x34000000).toNat ∈ unassignedOps ∧ (opOf 0xFC000000).toNat ∈ unassignedOps) ∧
    { s2 with fifo := [0x34000000, 0] }.fifo = 0x34000000 :: [0] := by decide

/-- A queued command at tick phase 0, an empty queue there, and a strobe of the last tick phase. -/
theorem witness_StepRunsDecodedCommand :
    let s := { doing .strobe s2 with fifo := [0x28000001, 0] }
    let u := { doing .strobe s2 with tphase := 7 }
    (s.script = .agent .strobe :: [] ∧ s.tphase = 0 ∧ s.fifo = 0x28000001 :: [0] ∧ 1 ≤ s.cfg.cmdBudget ∧
      decode 0x28000001 = .ok (.hold true)) ∧
    ((doing .strobe s2).script = .agent .strobe :: [] ∧ (doing .strobe s2).tphase = 0) ∧
    (u.script = .agent .strobe :: [] ∧ u.tphase ≠ 0) ∧ Sized s2 :=
  ⟨by decide, by decide, by decide, sized_s2⟩

/-- A run that starts at tick phase 3 with a full FIFO and holds 8 strobes, a CMD write and a drain; a word
with none ahead of it, and one with one ahead. -/
theorem witness_CommandLatencyIsBounded :
    let evs := [AgentStep.cmdWrite 5] ++ List.replicate 4 .strobe ++ [.drain] ++ List.replicate 4 .strobe
    let s := { s2 with fifo := [0, 0], script := evs.map Event.agent ++ [Event.agent .fill], tphase := 3 }
    1 ≤ s.cfg.cmdBudget ∧ s.script = evs.map .agent ++ [.agent .fill] ∧ evs.count .strobe = 8 * 1 ∧
    (0 < s.fifo.length ∧ 0 / s.cfg.cmdBudget < 1) ∧ 1 < s.fifo.length ∧ 1 ≤ 1 / s.cfg.cmdBudget := by decide

/-- A strobe of tick phase 7, one of tick phase 0 that drains a grant, and a step that is no strobe. -/
theorem witness_CountersAdvanceOnStrobesOnly :
    (∃ t, step (doing .strobe { s2 with tphase := 7 }) = .next t ∧ (t.ts == 1) = true) ∧
    (1 ≤ s2.plen.toNat ∧ 1 ≤ s2.cfg.nVoices ∧ (drainedWords { s2 with fifo := [0x043C8000, 0] })[0]? = some 0x043C8000 ∧
      ∃ t, step (doing .strobe { s2 with fifo := [0x043C8000, 0] }) = .next t ∧ (t.tphase == 1 && t.ts == 1) = true) ∧
    ∃ t, step (doing .drain s2) = .next t ∧ (t.tphase == 0) = true :=
  ⟨next_of_after (by decide), ⟨by decide, by decide, by decide, next_of_after (by decide)⟩, next_of_after (by decide)⟩

/-- Each flag set and kept, cleared, and newly set. -/
theorem witness_FlagsAreSticky :
    (∃ t, step (doing .drain { s2 with cmdOvf := true, badCmd := true }) = .next t ∧
      (t.cmdOvf && t.badCmd && t.overrun) = true) ∧
    (∃ t, step (doing .strobe { s2 with overrun := true, fifo := [0xF8000002] }) = .next t ∧ (!t.overrun) = true) ∧
    (∃ t, step (doing (.cmdWrite 0) { s2 with fifo := [0, 0] }) = .next t ∧ t.cmdOvf = true) ∧
    ∃ t, step (doing .strobe { s2 with fifo := [0xFC000000] }) = .next t ∧ t.badCmd = true :=
  ⟨next_of_after (by decide), next_of_after (by decide), next_of_after (by decide), next_of_after (by decide)⟩

/-- A step that appends to each trace. -/
theorem witness_TracesOnlyGrow :
    (∃ t, step (doing .strobe { s2 with fifo := [0x043C8000] }) = .next t ∧ (t.evt.length == 1) = true) ∧
    ∃ t, step (doing .drain s2) = .next t ∧ (t.dac.length == 1) = true :=
  ⟨next_of_after (by decide), next_of_after (by decide)⟩

/-- A CMD write to a FIFO with room and to a full one; a STAGE write at the last live index and past it. -/
theorem witness_PortWrites :
    ((doing (.cmdWrite 7) s2).script = .agent (.cmdWrite 7) :: [] ∧ s2.fifo.length < s2.cfg.fifoDepth) ∧
    ¬{ s2 with fifo := [0, 0] }.fifo.length < s2.cfg.fifoDepth ∧
    MemoryOk (doing (.stageWrite 3 9) s2) ∧ (3#12).toNat < s2.cfg.waveMax ∧ ¬(4#12).toNat < s2.cfg.waveMax :=
  ⟨by decide, by decide, memoryOk_s2, by decide, by decide⟩

theorem witness_PortSideEffects :
    (doing (.statusRead 0xFF) s2).script = .agent (.statusRead 0xFF) :: [] ∧ MemoryOk s2 ∧
    s2.fifo.length + 2 ≤ s2.cfg.fifoDepth := ⟨by decide, memoryOk_s2, by decide⟩

/-- Both ends of N_VOICES. -/
theorem witness_StatusMapWords :
    (1 ≤ (State.resetWith { cfg2 with nVoices := 1 }).cfg.nVoices) ∧ s6.cfg.nVoices ≤ 6 ∧ s6.fifo.length ≤ 255 := by
  decide

/-- A strobe that executes a NOTE_ON, from a state that meets every invariant but the envelopes' (below). -/
theorem witness_StepKeepsSizes :
    Sized s2 ∧ ∃ t, step (doing .strobe { s2 with fifo := [0x043C8000] }) = .next t ∧ (t.voice 0).gated = true :=
  ⟨sized_s2, next_of_after (by decide)⟩

theorem witness_StepKeepsMemoryCanonical :
    MemoryOk s2 ∧ ∃ t, step (doing .fill s2) = .next t ∧ (!t.buf.isEmpty) = true :=
  ⟨memoryOk_s2, next_of_after (by decide)⟩

theorem legal_s2 : Legal s2 := by
  have hm : ∀ m : BitVec 6, (∀ k, k < 6 → 2 ≤ k → m.getLsbD k = false) → maskOk 2 m := fun m h k hk => by
    by_cases h6 : k < 6
    · exact h k h6 hk
    · exact BitVec.getLsbD_of_ge m k (by omega)
  refine ⟨by decide, hm _ (by decide), hm _ (by decide), hm _ (by decide), by decide, ?_, by decide, ?_, ?_⟩ <;>
    simp [s2, State.resetWith, Slot.reset, cfg2]

theorem pitchTargetsOk_s2 : PitchTargetsOk s2 := by unfold PitchTargetsOk; decide

theorem witness_StepKeepsLegalValues :
    Sized s2 ∧ Legal s2 ∧ PitchTargetsOk s2 ∧
    ∃ t, step (doing .strobe { s2 with fifo := [0x24170000] }) = .next t ∧ (t.plen == 2) = true :=
  ⟨sized_s2, legal_s2, pitchTargetsOk_s2, next_of_after (by decide)⟩

theorem oscOk_reset : OscOk cfg2 2 Osc.reset := by unfold OscOk; decide

theorem witness_StepKeepsOscillatorsLegal :
    Sized s2 ∧ OscsOk s2 ∧ ∃ t, step (doing .fill s2) = .next t ∧ (t.osc 0).counter.toInt ≠ 0 := by
  refine ⟨sized_s2, ⟨?_, ?_⟩, ?_⟩
  · simp [s2, State.resetWith, Slot.reset, cfg2]
  · intro x hx
    simp only [s2, State.resetWith, List.mem_replicate] at hx
    rw [hx.2]; exact oscOk_reset
  · obtain ⟨t, h, hp⟩ := next_of_after (r := step (doing .fill s2))
      (p := fun t => decide ((t.osc 0).counter.toInt ≠ 0)) (by decide)
    exact ⟨t, h, of_decide_eq_true hp⟩

theorem envsOk_s2 : EnvsOk s2 := by
  intro x hx
  simp only [s2, State.resetWith, List.mem_replicate] at hx
  rw [hx.2]
  exact ⟨by decide, by decide, by simp [envRecompute, Env.reset]⟩

theorem witness_StepKeepsEnvelopesLegal :
    EnvsOk s2 ∧ ∃ t, step (doing .strobe { s2 with fifo := [0x5C000001] }) = .next t ∧ (t.tphase == 1) = true :=
  ⟨envsOk_s2, next_of_after (by decide)⟩

theorem witness_StepKeepsLfosLegal :
    LfosOk s2 ∧ ∃ t, step (doing .strobe s2) = .next t ∧ ((t.lfo false).raw.toInt == -32768) = true :=
  ⟨by unfold LfosOk LfoOk; decide, next_of_after (by decide)⟩

theorem waitIffFree_s2 : WaitIffFree s2 := by unfold WaitIffFree; decide

/-- A strobe that executes a NOTE_ON and no ENV_GATE. -/
theorem witness_StepKeepsWaitIffUnassigned :
    let s := doing .strobe { s2 with fifo := [0x043C8000] }
    Sized s ∧ WaitIffFree s ∧
    (nextEvent s = .agent .strobe → ¬someCommand (drainedWords s) fun i => isEnvGate i = true) ∧
    ∃ t, step s = .next t ∧ (t.voice 0).assigned = true := by
  refine ⟨sized_s2, waitIffFree_s2, ?_, next_of_after (by decide)⟩
  rintro - ⟨w, hw, i, hd, hi⟩
  obtain rfl : w = 0x043C8000 := by simpa [drainedWords, doing, s2, State.resetWith, cfg2] using hw
  rw [show decode 0x043C8000 = .ok (.noteOn false 60 0x8000) by decide] at hd
  cases hd; simp [isEnvGate] at hi

/-- A filter envelope that enters Wait: by PANIC_OFF; by a VOICE_DONE whose operand is clamped to its voice;
and at tick phase 2, its voice's amp envelope in Done. -/
theorem witness_WaitIsEnteredByDeallocationOnly :
    let s := doing .strobe { run [0x043C8000] s2 with fifo := [0x14000000] }
    let u := doing .strobe { s2 with envs := s2.envs.set 2 { Env.reset with stage := .sustain }, fifo := [0x0C070000] }
    let x := doing .strobe { s2 with
      envs := [{ Env.reset with stage := .release }, { Env.reset with stage := .done }, Env.reset, Env.reset]
      tphase := 2 }
    (Sized s ∧ (s.env 0).stage ≠ .wait ∧ ∃ t, step s = .next t ∧ ((t.env 0).stage == .wait) = true) ∧
    (Sized u ∧ (u.env 2).stage ≠ .wait ∧ ∃ t, step u = .next t ∧ ((t.env 2).stage == .wait) = true) ∧
    Sized x ∧ (x.env 0).stage ≠ .wait ∧ ∃ t, step x = .next t ∧ ((t.env 0).stage == .wait) = true :=
  ⟨⟨by unfold Sized; decide, by decide, next_of_after (by decide)⟩,
    ⟨by unfold Sized; decide, by decide, next_of_after (by decide)⟩,
    by unfold Sized; decide, by decide, next_of_after (by decide)⟩

/-- A disabled voice that is assigned and carries the note of a NOTE_ON, which another voice takes; one whose
key a NOTE_OFF releases; and a free one that is not taken. -/
theorem witness_DisabledVoicesAreNeverGranted :
    let s := run [0x043C8000, 0x1C000002] s2
    let u := run [0x1C000001] s2
    (¬Enabled s 0 ∧ (s.voice 0).rootNote = 60 ∧
      ∃ t, exec (.noteOn false 60 1) s = .next t ∧ ((t.voice 0).assigned && (t.voice 1).rootNote == 60) = true) ∧
    (∃ t, exec (.noteOff 60) s = .next t ∧ (t.evt.length == s.evt.length + 1) = true) ∧
    ¬Enabled u 1 ∧ ∃ t, exec (.noteOn false 64 1) u = .next t ∧ (!(t.voice 1).assigned) = true :=
  ⟨⟨by unfold Enabled; decide, by decide, next_of_after (by decide)⟩, next_of_after (by decide),
    by unfold Enabled; decide, next_of_after (by decide)⟩

theorem witness_ResetMeetsTheInvariants : cfg2.wf ∧ cfg6.wf := by decide

theorem witness_FirstStrobeAfterReset : cfg2.wf ∧ 1 < cfg2.nVoices := by decide

/-- The last word that is a NOP. -/
theorem witness_NopAndClearFlags : (0x03FFFFFF : Word).toNat ≤ 0x03FFFFFF := by decide

theorem witness_AssignerSettings : Sized s2 ∧ Sized s6 := ⟨sized_s2, sized_s6⟩

/-- The last start voice, one target, and an enabled voice that is none. -/
theorem witness_TargetsAreCyclicFromStart :
    1 < s2.cfg.nVoices ∧ 1 ∈ targets s2 1 ∧ Enabled s2 0 ∧ 0 ∉ targets s2 1 := by
  refine ⟨by decide, by decide, by unfold Enabled; decide, by decide⟩

/-- A note that is granted, one that LOW drops, and an empty voice mask. -/
theorem witness_NoteOnPoly :
    (Sized s2 ∧ s2.mono = false) ∧
    (polyStart (s2.setHeld 60 true) 60 = some 0 ∧
      polyStart ((run [0x1C000001, 0x18000001, 0x043C0001] s2).setHeld 70 true) 70 = none ∧
      polyStart ((run [0x1C000000] s2).setHeld 60 true) 60 = none) := ⟨⟨sized_s2, by decide⟩, by decide⟩

/-- Both voices assigned to other roots, under LAST. -/
theorem witness_StealingEmitsOneStolenOff :
    let s := run [0x043C0064, 0x04400064] s2
    Sized s ∧ s.mono = false ∧ s.plen = 1 ∧ (∃ v, Enabled s v) ∧
    ∀ v, Enabled s v → (s.voice v).assigned = true ∧ (s.voice v).rootNote ≠ 62 := by
  refine ⟨by unfold Sized; decide, by decide, by decide, ⟨0, by unfold Enabled; decide⟩, fun v hv => ?_⟩
  have hlt : v < 2 := hv.1
  interval_cases v <;> decide

/-- A note that wins while another is held and sounding, one that does not win, and no voice enabled. -/
theorem witness_NoteOnMono :
    let s := run [0x24110000, 0x043C0001] s2
    let u := { s with priority := .low }
    Sized s ∧ s.mono = true ∧ FirstEnabled s 0 ∧ MonoWins s 64 ∧ ¬MonoWins u 64 ∧
    ∀ v, ¬Enabled (run [0x24110000, 0x1C000000] s2) v := by
  refine ⟨by unfold Sized; decide, by decide, ⟨by unfold Enabled; decide, fun _ _ => Nat.zero_le _⟩, ?_, ?_, ?_⟩
  · trivial
  · intro h
    exact absurd (h 60 (by decide) (by decide)) (by decide)
  · rintro v ⟨h1, h2⟩
    have h1 : v < 2 := h1
    interval_cases v <;> revert h2 <;> decide

theorem witness_NoteOffPoly : Sized s2 ∧ s2.mono = false := ⟨sized_s2, by decide⟩

/-- A note that no voice carries; one whose release restores the other held note; one with no other; and the
same with no voice enabled, and with the note no longer held (log 11). -/
theorem witness_NoteOffMono :
    let s := run [0x24110000, 0x043903E8, 0x043C07D0] s2
    let u := run [0x24110000, 0x043C07D0] s2
    let x := run [0x1C000000] s
    let y := s.setHeld 60 false
    Sized s ∧ s.mono = true ∧ (∀ v, v < s.cfg.nVoices → carries s 57 v = false) ∧
    carries s 60 0 = true ∧ FirstEnabled s 0 ∧ Restorable s 60 57 ∧
    (∀ m, Restorable s 60 m → if s.priority = .low then (57 : BitVec 7).toNat ≤ m.toNat else m.toNat ≤ 57) ∧
    carries u 60 0 = true ∧ (∀ n, ¬Restorable u 60 n) ∧
    (carries x 60 0 = true ∧ ∀ v, ¬Enabled x v) ∧
    y.held 60 = false ∧ carries y 60 0 = true ∧ Restorable y 60 57 := by
  refine ⟨by unfold Sized; decide, by decide, by decide, by decide,
    ⟨by unfold Enabled; decide, fun _ _ => Nat.zero_le _⟩, by unfold Restorable; decide, ?_, by decide, ?_,
    ⟨by decide, ?_⟩, by decide, by decide, by unfold Restorable; decide⟩
  · rintro m ⟨h1, h2, -⟩
    revert h1 h2; revert m; decide
  · rintro n ⟨h1, h2, -⟩
    revert h1 h2; revert n; decide
  · rintro v ⟨h1, h2⟩
    have h1 : v < 2 := h1
    interval_cases v <;> revert h2 <;> decide

theorem witness_AllKeysOff : Sized (run [0x043C0001] s2) := by unfold Sized; decide

theorem witness_VoiceDoneAndPanicOff : Sized s2 ∧ (7#3).toNat > s2.cfg.nVoices - 1 := ⟨sized_s2, by decide⟩

theorem witness_HoldCommand : Sized (run [0x28000001, 0x043C0001, 0x083C0000] s2) := by unfold Sized; decide

theorem witness_EnvelopeSettings : Sized s2 ∧ InEnvset 2 true 1 3 ∧ InEnvset 2 false 15 3 := ⟨sized_s2, by decide⟩

theorem witness_EnvGateCommand : Sized s2 ∧ InEnvset 2 false 0 0 ∧ ¬InEnvset 2 false 0 1 := ⟨sized_s2, by decide⟩

/-- Every stage: Wait and Done, Sustain with and without LOOP, a running stage one short of its end and at
its end. -/
theorem witness_EnvelopeUpdate :
    let x : Env := { Env.reset with add := 100, mul := 0x1FFFF, incA := 1, incD := 1, incR := 1 }
    (x.stage = .wait ∧ { x with stage := .done }.stage = .done) ∧
    ({ x with stage := .sustain, loop := true }.loop = true ∧ { x with stage := .sustain }.loop = false) ∧
    ((16777214#24).toNat + x.incA.toNat < 2 ^ 24 ∧ 2 ^ 24 ≤ (16777215#24).toNat + x.incA.toNat) := by decide

/-- The ends of the phase range, the last segment of the table, and both signs of MUL. -/
theorem witness_StageOutputIsBoundedAndMonotone :
    (16777215 : Nat) < 2 ^ 24 ∧ { Env.reset with shape := true }.shape = true ∧ (255 : Nat) < 256 ∧
    Env.reset.shape = false ∧ 0 ≤ (0#17).toInt ∧ (0x1FFFF#17).toInt ≤ 0 := by decide

theorem witness_HousekeepingDeallocatesDoneVoices : Sized s2 := sized_s2

/-- A command that is none of the LFO's; a strobe of tick phase 5, and one of another phase. -/
theorem witness_LfoParametersActAtRefreshOnly :
    (isLfoCommand (.hold true) = false ∧ ∃ t, exec (.hold true) s2 = .next t ∧ t.hold = true) ∧
    (∃ t, step (doing .strobe { s2 with tphase := 5 }) = .next t ∧ (t.tphase == 6) = true) ∧
    ∃ t, step (doing .strobe { s2 with tphase := 4 }) = .next t ∧ (t.tphase == 5) = true :=
  ⟨⟨by decide, next_of_after (by decide)⟩, next_of_after (by decide), next_of_after (by decide)⟩

theorem witness_OscillatorSettings : Sized s2 ∧ Sized s6 := ⟨sized_s2, sized_s6⟩

/-- A strobe of tick phase 6, and one of another phase. -/
theorem witness_SyncMaskLatchesAtPhaseSix :
    (∃ t, step (doing .strobe { s2 with tphase := 6, syncStaged := 3 }) = .next t ∧ (t.syncActive == 3) = true) ∧
    ∃ t, step (doing .strobe { s2 with tphase := 7, syncStaged := 3 }) = .next t ∧ (t.syncActive == 0) = true :=
  ⟨next_of_after (by decide), next_of_after (by decide)⟩

theorem witness_WaveCommit : Sized s2 := sized_s2

theorem witness_OscillatorSetParameters : cfg2.wf := by decide

/-- V-OSC-1, and a rate so far above the ceiling that OSC_MAX_INCR bounds the increment. -/
theorem witness_OscillatorParameters :
    cfg2.wf ∧ 66976 * 256 * 32768 ≤ 32768 * 24576000 * cfg2.oscMaxIncr ∧
    ¬66976 * 256 * 32768 ≤ 32768 * 1 * cfg2.oscMaxIncr ∧
    66976 * 256 * 32768 ≤ cfg2.vclk * 256 * 1 * 32768 ∧
    cfg2.vclk * 256 * 1 * 32768 < 2 ^ 31 * (66976 * 256 * 32768) := by decide

/-- A counter that runs out, with the phase at 0, which wraps; and one that stays positive by 1. -/
theorem witness_OscillatorStepIsBounded :
    let x := { Osc.reset with counter := 1001, lastPer := 1001 }
    cfg2.wf ∧ 0 < oscLen s2.slots Osc.reset ∧ OscOk cfg2 (oscLen s2.slots Osc.reset) Osc.reset ∧
    OscOk cfg2 (oscLen s2.slots x) x ∧ (cfg2.oscTick : Int) < x.counter.toInt :=
  ⟨by decide, by decide, oscOk_reset, by unfold OscOk; decide, by decide⟩

/-- The last voice, and a legal oscillator. -/
theorem witness_HardSyncResetsSlave :
    Sized s2 ∧ MemoryOk s2 ∧ 1 < s2.cfg.nVoices ∧ cfg2.wf ∧ OscOk cfg2 (oscLen s2.slots Osc.reset) Osc.reset :=
  ⟨sized_s2, memoryOk_s2, by decide, by decide, oscOk_reset⟩

theorem witness_ControllerCommands : Sized s2 ∧ Sized s6 := ⟨sized_s2, sized_s6⟩

theorem witness_ModulationSettings : Sized s2 := sized_s2

/-- Two voices that glide: one below its target, one at it. -/
def sGlide : State := { s2 with glide := 1, pb := [5, 7], tb := [6, 7] }

/-- No glide, a pitch below its target, and one at its target. -/
theorem witness_GlideNeverOvershoots :
    Sized s2 ∧ 1 < s2.cfg.nVoices ∧ s2.glide = 0 ∧
    Sized sGlide ∧ sGlide.glide ≠ 0 ∧ (sGlide.pbOf 0).toNat < (sGlide.tbOf 0).toNat ∧
    (sGlide.tbOf 1).toNat ≤ (sGlide.pbOf 1).toNat :=
  ⟨sized_s2, by decide, by decide, by unfold Sized; decide, by decide, by decide, by decide⟩

theorem witness_CvFrameSums : Sized s2 ∧ Sized s6 := ⟨sized_s2, sized_s6⟩

/-- A FILL step while its half is pending, the round-robin index at its last value. -/
theorem witness_FillWritesTaggedHalf :
    let s : State := { doing .fill s2 with rr := 13 }
    Sized s ∧ MemoryOk s ∧ s.rr.toNat < 7 * s.cfg.nVoices ∧ s.script = .agent .fill :: [] ∧
    s.pending.get s.fillPtr = true :=
  ⟨sized_s2, memoryOk_s2, by decide, by decide, by decide⟩

theorem witness_FillWaitsWhileNotPending :
    let s := doing .fill { s2 with pending := ⟨false, true⟩ }
    s.script = .agent .fill :: [] ∧ s.pending.get s.fillPtr = false := by decide

theorem witness_DrainOutputsHalf : (doing .drain s2).script = .agent .drain :: [] := by decide

end Sys2Proof.Tests
end

section
/-! PROOF. O15: every step keeps the size of every register file and the parameters (R12). The invariant is
`SizedFor c`: the register files have the sizes that the parameters `c` fix. Each update of a register file
keeps it, hence each procedure, each command and each agent's step. -/

namespace Sys2Proof.Machine

/-- The parameters are `c`, and every register file has the size they fix (R12). -/
def SizedFor (c : Config) (s : State) : Prop := Sized s ∧ s.cfg = c

namespace SizedFor

variable {c : Config} {s t : State}

/-! ## The updates of one register file -/

theorem modVoice (h : SizedFor c s) (v : Nat) (f : Voice → Voice) : SizedFor c (s.modVoice v f) := by
  simpa [SizedFor, Sized] using h

theorem modEnv (h : SizedFor c s) (e : Nat) (f : Env → Env) : SizedFor c (s.modEnv e f) := by
  simpa [SizedFor, Sized] using h

theorem modOsc (h : SizedFor c s) (o : Nat) (f : Osc → Osc) : SizedFor c (s.modOsc o f) := by
  simpa [SizedFor, Sized] using h

theorem setSlot (h : SizedFor c s) (k : Nat) (x : Slot) : SizedFor c (s.setSlot k x) := by
  simpa [SizedFor, Sized] using h

theorem setAmount (h : SizedFor c s) (d k : Nat) (x : BitVec 16) : SizedFor c (s.setAmount d k x) := by
  simpa [SizedFor, Sized] using h

theorem setBase (h : SizedFor c s) (d : Nat) (x : U16) : SizedFor c (s.setBase d x) := by
  simpa [SizedFor, Sized] using h

theorem setBend (h : SizedFor c s) (v : Nat) (x : BitVec 16) : SizedFor c (s.setBend v x) := by
  simpa [SizedFor, Sized] using h

theorem setPressure (h : SizedFor c s) (v : Nat) (x : U16) : SizedFor c (s.setPressure v x) := by
  simpa [SizedFor, Sized] using h

/-- An update of the staged offsets (R88). -/
theorem setOffsetStg (h : SizedFor c s) (i : Nat) (x : BitVec 8) :
    SizedFor c { s with offsetsStg := s.offsetsStg.set i x } := by
  simpa [SizedFor, Sized] using h

/-- SET_PATTERN copies the staged offsets, a file of the same size, over the offsets (R89). -/
theorem copyOffsets (h : SizedFor c s) : SizedFor c { s with offsets := s.offsetsStg } := by
  obtain ⟨⟨hwf, hvoices, henvs, hoscs, hslots, -, hstg, hrest⟩, hcfg⟩ := h
  exact ⟨⟨hwf, hvoices, henvs, hoscs, hslots, hstg, hstg, hrest⟩, hcfg⟩

/-- A pass that runs under a condition. -/
theorem ite {p : Prop} [Decidable p] (ht : SizedFor c t) (hs : SizedFor c s) :
    SizedFor c (if p then t else s) := by
  split
  · exact ht
  · exact hs

/-! ## The Voice Assigner's procedures (R67 to R90) -/

theorem gateEnvs (h : SizedFor c s) (v : Nat) (g : Bool) : SizedFor c (gateEnvs v g s) :=
  (h.modEnv _ _).modEnv _ _

theorem emit (h : SizedFor c s) (r : Evt) : SizedFor c (emit r s) := by
  have hevt : SizedFor c { s with evt := s.evt ++ [r] } := h
  unfold Machine.emit
  split
  · exact ite hevt (hevt.gateEnvs _ _)
  · exact hevt.gateEnvs _ _
  · exact hevt.gateEnvs _ _

theorem gateOffVoice (h : SizedFor c s) (v : Nat) : SizedFor c (gateOffVoice v s) := by
  have hkey := h.modVoice v fun x => { x with keyPressed := false }
  exact ite ((hkey.modVoice v _).emit _) hkey

theorem voiceDone (h : SizedFor c s) (v : Nat) : SizedFor c (voiceDone v s) :=
  ((h.modVoice v _).modEnv _ _).modEnv _ _

/-- A whole grant writes elements of four register files, each file keeping its size (R71). -/
theorem assignPattern (h : SizedFor c s) (start : Nat) (root : BitVec 7) (vel : U16) (kbd legato : Bool) :
    SizedFor c (assignPattern start root vel kbd legato s) := by
  have ⟨⟨_, hvoices, henvs, _, _, _, _, _, _, hpb, htb, _⟩, _⟩ := h
  obtain ⟨frame, lvoices, lenvs, lpb, ltb⟩ :=
    assignPattern_frame start root vel kbd legato s hvoices henvs hpb htb
  rw [frame]
  simpa only [SizedFor, Sized, lvoices, lenvs, lpb, ltb] using h

theorem gateOffRoot (h : SizedFor c s) (note : BitVec 7) : SizedFor c (gateOffRoot note s) :=
  forVoices_keeps h fun v _ _ ht => ite (ht.gateOffVoice v) ht

theorem releaseHeld (h : SizedFor c s) : SizedFor c (releaseHeld s) :=
  forVoices_keeps h fun v _ _ ht => ite ((ht.modVoice v _).emit _) ht

theorem noteOnPoly (h : SizedFor c s) (note : BitVec 7) (vel : U16) (kbd : Bool) :
    SizedFor c (noteOnPoly note vel kbd s) := by
  have hheld : SizedFor c (s.setHeld note true) := h
  simp only [Machine.noteOnPoly]
  split
  · exact hheld.assignPattern ..
  · exact hheld

theorem noteOnMono (h : SizedFor c s) (note : BitVec 7) (vel : U16) (kbd : Bool) :
    SizedFor c (noteOnMono note vel kbd s) := by
  have hheld : SizedFor c (s.setHeld note true) := h
  simp only [Machine.noteOnMono]
  split
  · exact hheld
  · exact ite (hheld.assignPattern ..) hheld

theorem noteOffMono (h : SizedFor c s) (note : BitVec 7) : SizedFor c (noteOffMono note s) := by
  have hheld : SizedFor c (s.setHeld note false) := h
  simp only [Machine.noteOffMono]
  refine ite hheld ?_
  split
  · exact hheld.assignPattern ..
  · exact hheld.gateOffRoot note

/-! ## The other procedures -/

theorem forEnvset (h : SizedFor c s) (es : List Nat) (f : Env → Env) : SizedFor c (forEnvset es f s) :=
  foldl_keeps es h fun _ e _ ht => ht.modEnv e _

theorem forMask (h : SizedFor c s) {f : Nat → State → State} (m : BitVec 6)
    (hf : ∀ v u, SizedFor c u → SizedFor c (f v u)) : SizedFor c (forMask m f s) :=
  forVoices_keeps h fun v u _ hu => ite (hf v u hu) hu

theorem waveCommit (h : SizedFor c s) (k valid : Nat) : SizedFor c (waveCommit k valid s) :=
  forUpTo_keeps (h.setSlot k _) fun o _ _ ht => ite (ht.modOsc o _) ht

theorem tickTask (h : SizedFor c s) (k : Nat) : SizedFor c (tickTask k s) := by
  obtain ⟨frame, lvoices, lenvs, lpb⟩ := tickTask_frame k s
  rw [frame]
  simpa only [SizedFor, Sized, lvoices, lenvs, lpb] using h

theorem strobeTail (h : SizedFor c s) : SizedFor c (strobeTail s) := by
  obtain ⟨frame, lenvs, lcvOut, loscs⟩ := strobeTail_frame s
  rw [frame]
  simpa only [SizedFor, Sized, lenvs, lcvOut, loscs] using h

theorem fill (h : SizedFor c s) : SizedFor c (fill s) := by
  obtain ⟨frame, loscs⟩ := fill_frame s
  rw [frame]
  simpa only [SizedFor, Sized, loscs] using h

theorem drain (h : SizedFor c s) : SizedFor c (drain s) := by
  rw [drain_frame]
  exact h

/-! ## Commands, strobes and steps -/

/-- A command keeps the sizes and the parameters. -/
theorem exec (h : SizedFor c s) {i : Instr} (he : exec i s = .next t) : SizedFor c t := by
  cases i <;> injection he with he <;> subst he
  case noteOn k note vel => exact ite (h.noteOnMono ..) (h.noteOnPoly ..)
  case noteOff note => exact ite (h.noteOffMono note) (gateOffRoot (s := s.setHeld note false) h note)
  case voiceDone => exact h.voiceDone _
  case allKeysOff =>
    exact forVoices_keeps (s := { s with noteHeld := 0 }) h fun v _ _ ht => ite (ht.gateOffVoice v) ht
  case panicOff =>
    exact forVoices_keeps (s := { s with noteHeld := 0 }) h fun v _ _ ht => ht.voiceDone v
  case setPatternStep => exact h.setOffsetStg _ _
  case setPattern => exact h.copyOffsets
  case hold on => exact ite h (releaseHeld (s := { s with hold := on }) h)
  case bend vm imm => exact h.forMask _ fun v _ hu => hu.setBend v imm
  case pressure vm imm => exact h.forMask _ fun v _ hu => hu.setPressure v imm
  case envSetAttack | envSetDecay | envSetSustain | envSetRelease | envSetLevel | envSetMode | envSetShift |
      envGate => exact h.forEnvset ..
  case oscSetWave | oscSetTarget => exact h.modOsc _ _
  case waveCommit => exact h.waveCommit _ _
  case modSetAmount => exact h.setAmount _ _ _
  case modSetBase => exact h.setBase _ _
  -- the settings of the other commands are no register file
  all_goals exact h

theorem execute (h : SizedFor c s) {w : Word} (he : execute w s = .next t) : SizedFor c t := by
  cases hd : decode w with
  | ok i =>
    rw [execute_of_decode hd] at he
    exact exec (s := { s with cmdCount := s.cmdCount + 1 }) h he
  | error e =>
    rw [execute_of_illegal hd] at he
    injection he with he
    subst he
    exact h

theorem drainWords {n : Nat} (h : SizedFor c s) (hd : drainWords n s = .next t) : SizedFor c t := by
  induction n generalizing s with
  | zero =>
    injection hd with hd
    exact hd ▸ h
  | succ n ih =>
    cases hq : s.fifo with
    | nil =>
      rw [drainWords_nil hq] at hd
      injection hd with hd
      exact hd ▸ h
    | cons w q =>
      rw [drainWords_cons hq] at hd
      obtain ⟨u, hw, hrest⟩ := andThen_eq_next.mp hd
      exact ih (execute (s := { s with fifo := q }) h hw) hrest

theorem strobe (h : SizedFor c s) (hs : strobe s = .next t) : SizedFor c t := by
  by_cases hp : s.tphase = 0
  · rw [strobe_of_phase_zero hp] at hs
    obtain ⟨u, hd, hu⟩ := andThen_eq_next.mp hs
    injection hu with hu
    exact hu ▸ (h.drainWords hd).strobeTail
  · rw [strobe_of_phase_ne hp] at hs
    injection hs with hs
    exact hs ▸ (h.tickTask _).strobeTail

/-- A step of any of the four agents keeps the sizes and the parameters (R9). -/
theorem runAgent (h : SizedFor c s) {a : AgentStep} (ha : runAgent a s = .next t) : SizedFor c t := by
  cases a
  case strobe => exact h.strobe ha
  all_goals injection ha with ha; subst ha
  case cmdWrite => exact ite h h
  case stageWrite => exact ite h h
  case statusRead => exact h
  case fill => exact ite h.fill h
  case drain => exact h.drain

theorem afterEvent (h : SizedFor c s) : SizedFor c (afterEvent s) := by
  rw [afterEvent_frame]
  exact h

theorem step (h : SizedFor c s) (hs : step s = .next t) : SizedFor c t := by
  rw [step_eq] at hs
  cases he : nextEvent s with
  | agent a =>
    rw [he] at hs
    exact h.afterEvent.runAgent hs
  | noAccess x =>
    rw [he] at hs
    contradiction

end SizedFor

/-- Settles O15: a step keeps `SizedFor s.cfg`, which says both halves of the claim. -/
theorem stepKeepsSizes : Obligations.StepKeepsSizes := by
  intro s t hsized hstep
  have hs : SizedFor s.cfg s := ⟨hsized, rfl⟩
  exact hs.step hstep

end Sys2Proof.Machine
end

section
/-! PROOF. What a step is made of, once for every invariant of the block: the drain as the chain of the words
it executes (R60), the strobe by its tick phase (R130, R131), and the rule that what every part of a step
keeps, the step keeps (R9). -/

namespace Sys2Proof.Machine

/-! ## Words -/

/-- The two things a drained word can do (R61, R64). -/
theorem execute_cases {w : Word} {s t : State} (h : execute w s = .next t) :
    (∃ i, decode w = .ok i ∧ exec i { s with cmdCount := s.cmdCount + 1 } = .next t) ∨
    ∃ e, decode w = .error e ∧ t = { s with cmdCount := s.cmdCount + 1, badCmd := true } := by
  cases hd : decode w with
  | ok i => exact .inl ⟨i, rfl, by rwa [execute_of_decode hd] at h⟩
  | error e =>
    rw [execute_of_illegal hd] at h
    injection h with h
    exact .inr ⟨e, rfl, h.symm⟩

/-- A drained word may write what a command may write, CMD_COUNT and BADCMD. -/
theorem execute_frame {w : Word} {s t : State} (h : execute w s = .next t) :
    CommandFrame { s with cmdCount := s.cmdCount + 1 } t := by
  rcases execute_cases h with ⟨i, -, hi⟩ | ⟨e, -, rfl⟩
  · exact exec_commandFrame hi
  · rfl

theorem execute_fifo {w : Word} {s t : State} (h : execute w s = .next t) : t.fifo = s.fifo := by
  rw [execute_frame h]

/-! ## The drain -/

/-- A drain is a chain of states, one word apart, from the state it starts in to the one it answers (R60). -/
theorem drainWords_chain {n : Nat} {s t : State} (h : drainWords n s = .next t) :
    ∃ u : Nat → State, u 0 = s ∧ u (s.fifo.take n).length = t ∧
      ∀ j w, (s.fifo.take n)[j]? = some w →
        (u j).fifo = w :: s.fifo.drop (j + 1) ∧
        execute w { u j with fifo := s.fifo.drop (j + 1) } = .next (u (j + 1)) := by
  induction n generalizing s with
  | zero =>
    injection h with h
    exact ⟨fun _ => s, rfl, by simpa using h, by simp⟩
  | succ n ih =>
    cases hq : s.fifo with
    | nil =>
      rw [drainWords_nil hq] at h
      injection h with h
      exact ⟨fun _ => s, rfl, h, by simp⟩
    | cons w q =>
      rw [drainWords_cons hq] at h
      obtain ⟨v, hw, hrest⟩ := andThen_eq_next.mp h
      have hv : v.fifo = q := execute_fifo hw
      obtain ⟨u, h0, hlast, hstep⟩ := ih hrest
      rw [hv] at hlast hstep
      refine ⟨fun | 0 => s | j + 1 => u j, rfl, by simpa using hlast, fun j x hx => ?_⟩
      cases j with
      | zero =>
        obtain rfl : w = x := by simpa using hx
        exact ⟨hq, by simpa [h0] using hw⟩
      | succ j => exact hstep j x (by simpa using hx)

/-- What a drain establishes, word by word, holds along its chain. -/
theorem drainWords_chain_induct {P : Nat → State → Prop} {n : Nat} {s t : State} (h : drainWords n s = .next t)
    (h0 : P 0 s) (hw : ∀ j w, (s.fifo.take n)[j]? = some w →
      ∀ u q v, u.fifo = w :: q → P j u → execute w { u with fifo := q } = .next v → P (j + 1) v) :
    ∃ u : Nat → State, u 0 = s ∧ u (s.fifo.take n).length = t ∧ (∀ j, j ≤ (s.fifo.take n).length → P j (u j)) ∧
      ∀ j w, (s.fifo.take n)[j]? = some w →
        execute w { u j with fifo := s.fifo.drop (j + 1) } = .next (u (j + 1)) := by
  obtain ⟨u, rfl, rfl, hstep⟩ := drainWords_chain h
  refine ⟨u, rfl, rfl, fun j hj => ?_, fun j w hx => (hstep j w hx).2⟩
  induction j with
  | zero => exact h0
  | succ j ih =>
    have hx := List.getElem?_eq_getElem (Nat.lt_of_succ_le hj)
    obtain ⟨hfifo, hexec⟩ := hstep j _ hx
    exact hw j _ hx _ _ _ hfifo (ih (Nat.le_of_succ_le hj)) hexec

/-- What a drain establishes, word by word. -/
theorem drainWords_induct {P : Nat → State → Prop} {n : Nat} {s t : State} (h : drainWords n s = .next t) (h0 : P 0 s)
    (hw : ∀ j w, (s.fifo.take n)[j]? = some w →
      ∀ u q v, u.fifo = w :: q → P j u → execute w { u with fifo := q } = .next v → P (j + 1) v) :
    P (s.fifo.take n).length t := by
  obtain ⟨u, -, rfl, hu, -⟩ := drainWords_chain_induct h h0 hw
  exact hu _ le_rfl

/-- What every drained word keeps, the drain keeps. -/
theorem drainWords_keeps {P : State → Prop} {n : Nat} {s t : State} (h : drainWords n s = .next t) (h0 : P s)
    (hw : ∀ w ∈ s.fifo.take n, ∀ u q v, u.fifo = w :: q → P u → execute w { u with fifo := q } = .next v → P v) :
    P t :=
  drainWords_induct (P := fun _ => P) h h0 fun _ w hj => hw w (List.mem_of_getElem? hj)

/-! ## The strobe -/

/-- The two kinds of strobe: one of tick phase 0 drains the words due, any other runs its task; then both run
the rest of the strobe (R130, R131). -/
theorem strobe_cases {s t : State} (h : strobe s = .next t) :
    (s.tphase = 0 ∧ drainedWords s = s.fifo.take (min s.cfg.cmdBudget s.fifo.length) ∧
      ∃ u, drainWords (min s.cfg.cmdBudget s.fifo.length) s = .next u ∧ t = strobeTail u) ∨
    (s.tphase ≠ 0 ∧ t = strobeTail (tickTask s.tphase.toNat s)) := by
  by_cases hp : s.tphase = 0
  · rw [strobe_of_phase_zero hp] at h
    obtain ⟨u, hd, hu⟩ := andThen_eq_next.mp h
    injection hu with hu
    refine .inl ⟨hp, ?_, u, hd, hu.symm⟩
    rw [drainedWords, if_pos hp, List.take_eq_take_min]
  · rw [strobe_of_phase_ne hp] at h
    injection h with h
    exact .inr ⟨hp, h.symm⟩

/-- What the words due, the task of the tick phase and the rest of a strobe keep, the strobe keeps. -/
theorem strobe_keeps {P : State → Prop} {s t : State} (h : strobe s = .next t) (h0 : P s)
    (hw : s.tphase = 0 → ∀ w ∈ drainedWords s, ∀ u q v,
      u.fifo = w :: q → P u → execute w { u with fifo := q } = .next v → P v)
    (htask : s.tphase ≠ 0 → P (tickTask s.tphase.toNat s)) (htail : ∀ u, P u → P (strobeTail u)) : P t := by
  rcases strobe_cases h with ⟨hp, hws, u, hd, rfl⟩ | ⟨hp, rfl⟩
  · exact htail u (drainWords_keeps hd h0 (hws ▸ hw hp))
  · exact htail _ (htask hp)

/-! ## The step -/

/-- A step is one agent's step on the state in which the event is consumed (R9). -/
theorem step_cases {s t : State} (h : step s = .next t) :
    ∃ a, nextEvent s = .agent a ∧ runAgent a (afterEvent s) = .next t := by
  rw [step_eq] at h
  cases he : nextEvent s with
  | agent a => exact ⟨a, rfl, by rwa [he] at h⟩
  | noAccess x =>
    rw [he] at h
    contradiction

@[simp] theorem drainedWords_afterEvent (s : State) : drainedWords (afterEvent s) = drainedWords s := by
  rw [afterEvent_frame]; rfl

/-- Nothing differs but what the agents other than the timer may write: the port, the staging memory, the words
read, and the output buffer with its bookkeeping (R9). -/
def PortFrame (s t : State) : Prop :=
  t =
    { s with
      fifo := t.fifo
      cmdOvf := t.cmdOvf
      overrun := t.overrun
      staging := t.staging
      reads := t.reads
      oscs := t.oscs
      buf := t.buf
      rr := t.rr
      pending := t.pending
      fillPtr := t.fillPtr
      dmaPtr := t.dmaPtr
      dac := t.dac }

/-- A step of an agent other than the timer writes nothing outside `PortFrame`. -/
theorem runAgent_portFrame {a : AgentStep} (ha : a ≠ .strobe) {s t : State} (h : runAgent a s = .next t) :
    PortFrame s t := by
  cases a
  case strobe => contradiction
  all_goals injection h with h; subst h
  case cmdWrite w => unfold cmdWrite; split <;> rfl
  case stageWrite i v => unfold stageWrite; split <;> rfl
  case statusRead x => rfl
  case fill =>
    split
    · unfold PortFrame; rw [(fill_frame s).1]
    · rfl
  case drain => unfold PortFrame; rw [drain_frame]

/-- Every part of a step keeps `P`, the commands being those with `C`. -/
structure KeptByParts (C : Instr → Prop) (P : State → Prop) : Prop where
  event : ∀ s script pos, P s → P { s with script := script, schedPos := pos }
  fetch : ∀ s w q, s.fifo = w :: q → P s → P { s with fifo := q, cmdCount := s.cmdCount + 1 }
  command : ∀ i s t, C i → P s → exec i s = .next t → P t
  illegal : ∀ s, P s → P { s with badCmd := true }
  task : ∀ k s, P s → P (tickTask k s)
  tail : ∀ s, P s → P (strobeTail s)
  cmdWrite : ∀ w s, P s → P (cmdWrite w s)
  stageWrite : ∀ i v s, P s → P (stageWrite i v s)
  statusRead : ∀ a s, P s → P (statusRead a s)
  fill : ∀ s, P s → P (fill s)
  drain : ∀ s, P s → P (drain s)

namespace KeptByParts

variable {C : Instr → Prop} {P : State → Prop} {s t : State}

theorem strobe (hP : KeptByParts C P) (hC : ∀ w ∈ drainedWords s, ∀ i, decode w = .ok i → C i) (h0 : P s)
    (h : strobe s = .next t) : P t := by
  refine strobe_keeps h h0 (fun _ w hw u q v hq hu hexec => ?_) (fun _ => hP.task _ _ h0) hP.tail
  have hfetch := hP.fetch u w q hq hu
  rcases execute_cases hexec with ⟨i, hi, hv⟩ | ⟨e, -, rfl⟩
  · exact hP.command i _ v (hC w hw i hi) hfetch hv
  · exact hP.illegal _ hfetch

/-- What every part of a step keeps, the step keeps. -/
theorem step (hP : KeptByParts C P)
    (hC : nextEvent s = .agent .strobe → ∀ w ∈ drainedWords s, ∀ i, decode w = .ok i → C i) (h0 : P s)
    (h : step s = .next t) : P t := by
  obtain ⟨a, ha, hrun⟩ := step_cases h
  have h0' : P (afterEvent s) := by
    rw [afterEvent_frame]
    exact hP.event _ _ _ h0
  cases a
  case strobe => exact hP.strobe (by simpa using hC ha) h0' hrun
  all_goals injection hrun with hrun; subst hrun
  case cmdWrite => exact hP.cmdWrite _ _ h0'
  case stageWrite => exact hP.stageWrite _ _ _ h0'
  case statusRead => exact hP.statusRead _ _ h0'
  case fill =>
    split
    · exact hP.fill _ h0'
    · exact h0'
  case drain => exact hP.drain _ h0'

end KeptByParts

/-! ## The tick phases that execute no command -/

/-- What the housekeeping may write (R131). -/
theorem tickTask_two_frame (s : State) :
    tickTask 2 s = { s with voices := (tickTask 2 s).voices, envs := (tickTask 2 s).envs } :=
  forVoices_keeps (P := fun t => t = { s with voices := t.voices, envs := t.envs }) rfl fun v t _ h => by
    unfold housekeepVoice
    split
    · rw [h]; rfl
    · exact h

/-- What the glide may write (R132). -/
theorem tickTask_four_frame (s : State) : tickTask 4 s = { s with pb := (tickTask 4 s).pb } :=
  forVoices_keeps (P := fun t => t = { s with pb := t.pb }) rfl fun v t _ h => by
    unfold glideStep
    dsimp only
    split
    · rw [h]; rfl
    · split <;> rw [h] <;> rfl

/-- TS advances at tick phase 7 only (R131). -/
theorem tickTask_ts (k : Nat) (s : State) : (tickTask k s).ts = if k = 7 then s.ts + 1 else s.ts := by
  by_cases h2 : k = 2
  · rw [h2, tickTask_two_frame]; rfl
  by_cases h4 : k = 4
  · rw [h4, tickTask_four_frame]; rfl
  unfold tickTask
  split <;> simp_all

/-- SYNC_ACTIVE is latched at tick phase 6 only (R131). -/
theorem tickTask_syncActive (k : Nat) (s : State) :
    (tickTask k s).syncActive = if k = 6 then s.syncStaged else s.syncActive := by
  by_cases h2 : k = 2
  · rw [h2, tickTask_two_frame]; rfl
  by_cases h4 : k = 4
  · rw [h4, tickTask_four_frame]; rfl
  unfold tickTask
  split <;> simp_all

end Sys2Proof.Machine
end

section
/-! PROOF. O48: SYNC_ACTIVE is latched in a strobe of tick phase 6 and kept in every other step (R27, R131). -/

namespace Sys2Proof.Machine

/-- A strobe latches SYNC_ACTIVE at tick phase 6; no command writes it (R131). -/
theorem strobe_syncActive {s t : State} (h : strobe s = .next t) :
    t.syncActive = if s.tphase = 6 then s.syncStaged else s.syncActive := by
  have htail : ∀ u, (strobeTail u).syncActive = u.syncActive := fun u => by rw [(strobeTail_frame u).1]
  rcases strobe_cases h with ⟨hp, -, u, hd, rfl⟩ | ⟨-, rfl⟩
  · have hu : u.syncActive = s.syncActive :=
      drainWords_keeps (P := fun u => u.syncActive = s.syncActive) hd rfl fun w _ u q v _ hu hv => by
        rw [execute_frame hv]; exact hu
    rw [htail, hu, hp]; rfl
  · have hsix : s.tphase = 6 ↔ s.tphase.toNat = 6 := BitVec.toNat_eq
    rw [htail, tickTask_syncActive]
    simp only [hsix]

/-- Settles O48, by the kind of the step. -/
theorem syncMaskLatchesAtPhaseSix : Obligations.SyncMaskLatchesAtPhaseSix := by
  intro s t hstep
  obtain ⟨a, ha, hrun⟩ := step_cases hstep
  rw [afterEvent_frame] at hrun
  by_cases hs : a = .strobe
  · subst hs
    rw [strobe_syncActive hrun]
    simp [ha]
  · rw [runAgent_portFrame hs hrun]
    simp [ha, hs]

end Sys2Proof.Machine
end

section
/-! PROOF. What each command can do, once for every invariant: the six commands that act on voices write what
the Voice Assigner may write, and each other command is one update of one kind. -/

namespace Sys2Proof.Machine

/-! ## Frames, whatever the sizes of the register files -/

/-- What emit writes (R70). -/
theorem emit_frame (r : Evt) (s : State) :
    emit r s = { s with envs := (emit r s).envs, evt := s.evt ++ [r] } := by
  obtain ⟨k, v, n, ve, l, kb⟩ := r
  cases k <;> cases l <;> rfl

/-- Releasing the key leaves what a gate-off event of the voice carries (R73). -/
theorem offEvent_keyUp (k : EvtKind) (v : Nat) (s : State) :
    offEvent k v (s.modVoice v fun x => { x with keyPressed := false }) = offEvent k v s := by
  simp only [offEvent, voice_modVoice]
  split <;> rfl

/-- What gateOffVoice writes, and the event it appends (R73). -/
theorem gateOffVoice_frame (v : Nat) (s : State) :
    gateOffVoice v s =
      { s with
        voices := (gateOffVoice v s).voices
        envs := (gateOffVoice v s).envs
        evt := s.evt ++ if !s.hold && (s.voice v).gated then [offEvent .gateOff v s] else [] } := by
  unfold gateOffVoice
  dsimp only
  split
  · rw [emit_frame, offEvent_keyUp]; rfl
  · rw [List.append_nil]; rfl

/-- Gating off a voice whose key is already up, one pass of HOLD 0 (R90). -/
def releaseVoice (v : Nat) (s : State) : State :=
  emit (offEvent .gateOff v s) (s.modVoice v fun x => { x with gated := false })

/-- What a pass of HOLD 0 writes, and the event it appends (R90). -/
theorem releaseVoice_frame (v : Nat) (s : State) :
    releaseVoice v s =
      { s with
        voices := (releaseVoice v s).voices
        envs := (releaseVoice v s).envs
        evt := s.evt ++ [offEvent .gateOff v s] } := by
  unfold releaseVoice
  rw [emit_frame]; rfl

/-- The events of one target's grant: a STOLEN_OFF where in poly mode the voice carried another root, then the
GATE_ON (R71). -/
def grantEvents (root : BitVec 7) (vel : U16) (kbd legato : Bool) (v i : Nat) (s : State) : List Evt :=
  (if !s.mono && (s.voice v).assigned && (s.voice v).rootNote != root then [offEvent .stolenOff v s] else []) ++
    [⟨.gateOn, v, patternNote s i root, vel, legato && (s.voice v).gated, kbd⟩]

/-- What one target's grant writes, and the events it appends (R71). -/
theorem grantVoice_frame (root : BitVec 7) (vel : U16) (kbd legato : Bool) (v i : Nat) (s : State) :
    grantVoice root vel kbd legato v i s =
      { s with
        voices := (grantVoice root vel kbd legato v i s).voices
        envs := (grantVoice root vel kbd legato v i s).envs
        pb := (grantVoice root vel kbd legato v i s).pb
        tb := (grantVoice root vel kbd legato v i s).tb
        evt := s.evt ++ grantEvents root vel kbd legato v i s } := by
  -- the state after the STOLEN_OFF, if there is one
  obtain ⟨s1, hs1⟩ : ∃ s1, s1 =
    if !s.mono && (s.voice v).assigned && (s.voice v).rootNote != root then emit (offEvent .stolenOff v s) s
    else s := ⟨_, rfl⟩
  have frame : s1 = { s with
      envs := s1.envs
      evt := s.evt ++ if !s.mono && (s.voice v).assigned && (s.voice v).rootNote != root
        then [offEvent .stolenOff v s] else [] } := by
    rw [hs1]
    split
    · rw [emit_frame]
    · rw [List.append_nil]
  unfold grantVoice grantEvents
  dsimp only
  rw [← hs1, emit_frame, ← List.append_assoc]
  split <;> rw [frame] <;> rfl

/-- What a parameter command of the envelopes writes (42_envelope.md section 3). -/
theorem forEnvset_frame (es : List Nat) (f : Env → Env) (s : State) :
    forEnvset es f s = { s with envs := (forEnvset es f s).envs } :=
  foldl_keeps es (P := fun t => t = { s with envs := t.envs }) rfl fun t e _ h => by rw [h]; rfl

/-- What WAVE_COMMIT writes (R129). -/
theorem waveCommit_frame (k valid : Nat) (s : State) :
    waveCommit k valid s =
      { s with slots := s.slots.set k (committedSlot valid s), oscs := (waveCommit k valid s).oscs } :=
  forUpTo_keeps (P := fun t =>
      t = { s with slots := s.slots.set k (committedSlot valid s), oscs := t.oscs }) rfl fun o t _ h => by
    split
    · rw [h]; rfl
    · exact h

/-- What BEND writes (R138). -/
theorem forMask_setBend_frame (m : BitVec 6) (x : BitVec 16) (s : State) :
    ∃ file, forMask m (fun v t => t.setBend v x) s = { s with bend := file } :=
  forVoices_keeps (P := fun t => ∃ file, t = { s with bend := file }) ⟨_, rfl⟩ fun v t _ h => by
    split
    · obtain ⟨file, rfl⟩ := h
      exact ⟨_, rfl⟩
    · exact h

/-- What PRESSURE writes (R139). -/
theorem forMask_setPressure_frame (m : BitVec 6) (x : U16) (s : State) :
    ∃ file, forMask m (fun v t => t.setPressure v x) s = { s with pressure := file } :=
  forVoices_keeps (P := fun t => ∃ file, t = { s with pressure := file }) ⟨_, rfl⟩ fun v t _ h => by
    split
    · obtain ⟨file, rfl⟩ := h
      exact ⟨_, rfl⟩
    · exact h

/-! ## The commands that act on voices -/

/-- The command is one of the six that act on voices (R75, R80, R83, R84, R85, R90). -/
def actsOnVoices : Instr → Bool
  | .noteOn _ _ _ => true
  | .noteOff _ => true
  | .voiceDone _ => true
  | .allKeysOff => true
  | .panicOff => true
  | .hold _ => true
  | _ => false

/-- Releasing keys keeps `P`. -/
structure KeptByReleases (P : State → Prop) : Prop where
  gateOff : ∀ v s, v < s.cfg.nVoices → P s → P (gateOffVoice v s)
  release : ∀ v s, v < s.cfg.nVoices → (s.voice v).assigned = true → P s → P (releaseVoice v s)

/-- What the note commands are made of keeps `P`: releasing keys, writing NOTE_HELD and HOLD, granting an
enabled voice, and advancing TS. -/
structure KeptByNotes (P : State → Prop) : Prop extends KeptByReleases P where
  held : ∀ s x, P s → P { s with noteHeld := x }
  hold : ∀ s b, P s → P { s with hold := b }
  grant : ∀ root vel kbd legato v i s, Enabled s v → P s → P (grantVoice root vel kbd legato v i s)
  tick : ∀ s, P s → P { s with ts := s.ts + 1 }

/-- What every pass keeps, the loop over the voices keeps; the passes keep the parameters. -/
theorem forVoices_keeps_of_cfg {P : State → Prop} {f : Nat → State → State} {s : State} (h0 : P s)
    (hcfg : ∀ v t, (f v t).cfg = t.cfg) (hs : ∀ v t, v < t.cfg.nVoices → P t → P (f v t)) : P (forVoices f s) :=
  (forVoices_keeps (P := fun t => P t ∧ t.cfg = s.cfg) ⟨h0, rfl⟩ fun v t hv ⟨ht, hc⟩ =>
    ⟨hs v t (hc ▸ hv) ht, (hcfg v t).trans hc⟩).1

namespace KeptByReleases

variable {P : State → Prop} {s : State}

theorem gateOffIf (hP : KeptByReleases P) (p : Nat → State → Bool) (h : P s) :
    P (forVoices (fun v t => if p v t then gateOffVoice v t else t) s) := by
  refine forVoices_keeps_of_cfg h (fun v t => ?_) fun v t hv ht => ?_
  · split
    · rw [gateOffVoice_frame]
    · rfl
  · split
    · exact hP.gateOff v t hv ht
    · exact ht

theorem gateOffRoot (hP : KeptByReleases P) (note : BitVec 7) (h : P s) : P (gateOffRoot note s) :=
  hP.gateOffIf (fun v t => carries t note v) h

theorem releaseHeld (hP : KeptByReleases P) (h : P s) : P (releaseHeld s) := by
  refine forVoices_keeps_of_cfg h (fun v t => ?_) fun v t hv ht => ?_
  · split
    · change (releaseVoice v t).cfg = t.cfg
      rw [releaseVoice_frame]
    · rfl
  · split <;> rename_i hc
    · simp only [Bool.and_eq_true] at hc
      exact hP.release v t hv hc.1.1 ht
    · exact ht

end KeptByReleases

namespace KeptByNotes

variable {P : State → Prop} {s t : State}

/-- The targets of a grant are enabled, and stay so while it runs (R69, R71). -/
theorem assignPattern (hP : KeptByNotes P) (start : Nat) (root : BitVec 7) (vel : U16) (kbd legato : Bool)
    (h : P s) : P (assignPattern start root vel kbd legato s) := by
  have hfold := foldl_keeps (targets s start).zipIdx (s := s)
    (f := fun t p => grantVoice root vel kbd legato p.1 p.2 t)
    (P := fun t => P t ∧ t.cfg = s.cfg ∧ t.voiceMask = s.voiceMask) ⟨h, rfl, rfl⟩
    fun t p hp ⟨ht, hcfg, hmask⟩ => by
      have hen : Enabled t p.1 := by
        rw [Enabled, hcfg, hmask]
        exact enabled_of_mem_targets (List.fst_mem_of_mem_zipIdx hp)
      refine ⟨hP.grant root vel kbd legato p.1 p.2 t hen ht, ?_, ?_⟩
      · rw [grantVoice_frame]; exact hcfg
      · rw [grantVoice_frame]; exact hmask
  exact hP.tick _ hfold.1

theorem noteOn (hP : KeptByNotes P) (k : Bool) (note : BitVec 7) (vel : U16) (h : P s) :
    P (if s.mono then noteOnMono note vel k s else noteOnPoly note vel k s) := by
  have hheld : P (s.setHeld note true) := hP.held s _ h
  split
  · simp only [noteOnMono]
    split
    · exact hheld
    · split
      · exact hP.assignPattern _ _ _ _ _ hheld
      · exact hheld
  · simp only [noteOnPoly]
    split
    · exact hP.assignPattern _ _ _ _ _ hheld
    · exact hheld

theorem noteOff (hP : KeptByNotes P) (note : BitVec 7) (h : P s) :
    P (if s.mono then noteOffMono note s else noteOffPoly note s) := by
  have hheld : P (s.setHeld note false) := hP.held s _ h
  split
  · simp only [noteOffMono]
    split
    · exact hheld
    · split
      · exact hP.assignPattern _ _ _ _ _ hheld
      · exact hP.gateOffRoot note hheld
  · exact hP.gateOffRoot note hheld

/-- What the parts of the note commands keep, and deallocating the voices that the command deallocates, a command
that acts on voices keeps. -/
theorem exec (hP : KeptByNotes P) {i : Instr} (hi : actsOnVoices i = true)
    (hdone : ∀ v u, v ≤ u.cfg.nVoices - 1 → deallocates u.cfg.nVoices v i = true → P u → P (voiceDone v u))
    (h : P s) (he : exec i s = .next t) : P t := by
  cases i <;> injection he with he <;> subst he
  case noteOn k note vel => exact hP.noteOn k note vel h
  case noteOff note => exact hP.noteOff note h
  case voiceDone v => exact hdone _ s (Nat.min_le_right _ _) (by simp [deallocates, voiceOperand]) h
  case allKeysOff => exact hP.gateOffIf (fun v t => (t.voice v).assigned) (hP.held s 0 h)
  case panicOff =>
    exact forVoices_keeps_of_cfg (hP.held s 0 h) (fun _ _ => rfl) fun v u hv hu =>
      hdone v u (by omega) rfl hu
  case hold on =>
    split
    · exact hP.hold s on h
    · exact hP.releaseHeld (hP.hold s on h)
  all_goals contradiction

end KeptByNotes

/-- Nothing differs but what the commands that act on voices may write. -/
def AssignerFrame (s t : State) : Prop :=
  t =
    { s with
      hold := t.hold
      voices := t.voices
      envs := t.envs
      pb := t.pb
      tb := t.tb
      noteHeld := t.noteHeld
      ts := t.ts
      evt := t.evt }

theorem AssignerFrame.trans {s t u : State} (h : AssignerFrame s t) (k : AssignerFrame t u) :
    AssignerFrame s u := by
  unfold AssignerFrame at *
  rw [h] at k
  exact k

theorem keptByNotes_assignerFrame (s : State) : KeptByNotes (AssignerFrame s) where
  gateOff v t _ h := h.trans (by unfold AssignerFrame; rw [gateOffVoice_frame])
  release v t _ _ h := h.trans (by unfold AssignerFrame; rw [releaseVoice_frame])
  held _ _ h := h.trans rfl
  hold _ _ h := h.trans rfl
  grant root vel kbd legato v i t _ h := h.trans (by unfold AssignerFrame; rw [grantVoice_frame])
  tick _ h := h.trans rfl

/-- A command that acts on voices writes nothing outside `AssignerFrame`. -/
theorem exec_assignerFrame {i : Instr} {s t : State} (hi : actsOnVoices i = true) (h : exec i s = .next t) :
    AssignerFrame s t :=
  (keptByNotes_assignerFrame s).exec hi (fun _ _ _ _ hu => hu.trans rfl) (show AssignerFrame s s from rfl) h

/-! ## The other commands -/

/-- Nothing differs but the settings of the assigner, of the CV engine and of the port: single registers and
small files that commands write and no rule of the block does. -/
def SettingsFrame (s t : State) : Prop :=
  t =
    { s with
      voiceMask := t.voiceMask
      priority := t.priority
      mono := t.mono
      plen := t.plen
      offsets := t.offsets
      offsetsStg := t.offsetsStg
      waveLenStg := t.waveLenStg
      amt := t.amt
      base := t.base
      glide := t.glide
      bend := t.bend
      pressure := t.pressure
      syncStaged := t.syncStaged }

/-- What a command can do, one case for each kind of command. -/
inductive CommandEffect (s : State) : Instr → State → Prop where
  /-- NOTE_ON, NOTE_OFF, VOICE_DONE, ALL_KEYS_OFF, PANIC_OFF, HOLD -/
  | voices {i t} (hi : actsOnVoices i = true) (he : exec i s = .next t) (frame : AssignerFrame s t) :
      CommandEffect s i t
  /-- the envelope commands: none but ENV_GATE writes a stage, and ENV_GATE never Wait -/
  | envelopes {i} (es : List Nat) (f : Env → Env)
      (hstage : ∀ x, (f x).stage = x.stage ∨ (isEnvGate i = true ∧ (f x).stage ≠ .wait)) :
      CommandEffect s i (forEnvset es f s)
  /-- the LFO commands: none writes the register or the raw value -/
  | lfo {i} (l : Bool) (f : Lfo → Lfo) (hf : ∀ x, (f x).lfsr = x.lfsr ∧ (f x).raw = x.raw) :
      CommandEffect s i (s.modLfo l f)
  | oscWave {i} (o : Nat) (main xslot : BitVec 3) (xen : Bool) :
      CommandEffect s i (s.modOsc o fun x =>
        oscClampPhase (s.slot main.toNat).len.toNat { x with main := main, xen := xen, xslot := xslot })
  | oscTarget {i} (o : Nat) (tgt : Target) : CommandEffect s i (s.modOsc o fun x => { x with tgt := tgt })
  | waveCommit {i} (slot : BitVec 3) (valid : Nat) : CommandEffect s i (waveCommit slot.toNat valid s)
  | settings {i t} (frame : SettingsFrame s t)
      (hmask : t.voiceMask = s.voiceMask ∨ ∃ m, t.voiceMask = maskOperand s.cfg.nVoices m)
      (hsync : t.syncStaged = s.syncStaged ∨ ∃ m, t.syncStaged = maskOperand s.cfg.nVoices m)
      (hplen : t.plen = s.plen ∨ ∃ len, t.plen = plenOperand s.cfg.nVoices len) : CommandEffect s i t
  | flags (clr : BitVec 3) : CommandEffect s (.clearFlags clr) (clearStickyFlags clr s)

/-- A command does what `CommandEffect` says, and nothing else. -/
theorem exec_effect {i : Instr} {s t : State} (h : exec i s = .next t) : CommandEffect s i t := by
  by_cases hi : actsOnVoices i = true
  · exact .voices hi h (exec_assignerFrame hi h)
  cases i <;> injection h with h <;> subst h
  case noteOn | noteOff | voiceDone | allKeysOff | panicOff | hold => contradiction
  case envSetAttack | envSetDecay | envSetSustain | envSetRelease | envSetLevel | envSetMode | envSetShift =>
    exact .envelopes _ _ fun _ => .inl rfl
  case envGate b e gate => exact .envelopes _ _ fun x => .inr ⟨rfl, envSetGate_stage gate x⟩
  case lfoSetSpeed | lfoSetShift | lfoSetShape | lfoSetLevel | lfoReset => exact .lfo _ _ fun _ => ⟨rfl, rfl⟩
  case oscSetWave => exact .oscWave _ _ _ _
  case oscSetTarget => exact .oscTarget _ _
  case waveCommit => exact .waveCommit _ _
  case clearFlags => exact .flags _
  case bend vm imm =>
    obtain ⟨file, hfile⟩ := forMask_setBend_frame (maskOperand s.cfg.nVoices vm) imm s
    rw [hfile]
    exact .settings rfl (.inl rfl) (.inl rfl) (.inl rfl)
  case pressure vm imm =>
    obtain ⟨file, hfile⟩ := forMask_setPressure_frame (maskOperand s.cfg.nVoices vm) imm s
    rw [hfile]
    exact .settings rfl (.inl rfl) (.inl rfl) (.inl rfl)
  case setVoiceMask m => exact .settings rfl (.inr ⟨m, rfl⟩) (.inl rfl) (.inl rfl)
  case setSyncMask m => exact .settings rfl (.inl rfl) (.inr ⟨m, rfl⟩) (.inl rfl)
  case setPattern len => exact .settings rfl (.inl rfl) (.inl rfl) (.inr ⟨len, rfl⟩)
  all_goals exact .settings rfl (.inl rfl) (.inl rfl) (.inl rfl)

end Sys2Proof.Machine
end

section
/-! PROOF. O10: the sticky flags (R18, R146). Each flag moves under a rule of the same shape: set it stays set
but for its clearing, clear it stays clear but for its setting. The shape is kept by doing nothing and by doing
one thing after another, so a drain moves a flag as its words do. -/

namespace Sys2Proof.Machine

/-- From `a` to `b` a flag is cleared only where `clear` allows it and set only where `set` does. -/
def FlagMoves (set clear : Prop) (a b : Bool) : Prop := (a = true → b = true ∨ clear) ∧ (a = false → b = true → set)

namespace FlagMoves

variable {set clear : Prop} {a b c : Bool}

theorem refl (set clear : Prop) (a : Bool) : FlagMoves set clear a a :=
  ⟨.inl, fun h k => by rw [h] at k; contradiction⟩

theorem trans (h : FlagMoves set clear a b) (k : FlagMoves set clear b c) : FlagMoves set clear a c := by
  refine ⟨fun ha => (h.1 ha).elim k.1 .inr, fun ha hc => ?_⟩
  cases b with
  | true => exact h.2 ha rfl
  | false => exact k.2 rfl hc

theorem imp {set' clear' : Prop} (hset : set → set') (hclear : clear → clear') (h : FlagMoves set clear a b) :
    FlagMoves set' clear' a b :=
  ⟨fun ha => (h.1 ha).imp_right hclear, fun ha hb => hset (h.2 ha hb)⟩

/-- Where the flag is the one before or is cleared. -/
theorem of_cleared (h : b = a ∨ (b = false ∧ clear)) : FlagMoves set clear a b := by
  rcases h with rfl | ⟨rfl, hclear⟩
  · exact refl ..
  · exact ⟨fun _ => .inr hclear, fun _ h => nomatch h⟩

/-- Where the flag is set. -/
theorem of_set (h : set) : FlagMoves set clear a true := ⟨fun _ => .inl rfl, fun _ _ => h⟩

end FlagMoves

/-- A command leaves each flag as it is, but for a CLEAR_FLAGS that selects it (R63, R146). -/
theorem exec_flags {i : Instr} {s t : State} (h : exec i s = .next t) :
    (t.cmdOvf = s.cmdOvf ∨ (t.cmdOvf = false ∧ clearsFlag 0 i = true)) ∧
    (t.overrun = s.overrun ∨ (t.overrun = false ∧ clearsFlag 1 i = true)) ∧
    (t.badCmd = s.badCmd ∨ (t.badCmd = false ∧ clearsFlag 2 i = true)) := by
  cases exec_effect h with
  | voices _ _ frame => rw [frame]; simp
  | envelopes es f => rw [forEnvset_frame]; simp
  | waveCommit slot valid => rw [waveCommit_frame]; simp
  | settings frame => rw [frame]; simp
  | flags clr =>
    have key : ∀ (a : Bool) k, (a && !clr.getLsbD k) = a ∨
        ((a && !clr.getLsbD k) = false ∧ clearsFlag k (.clearFlags clr) = true) := fun a k => by
      cases hk : clr.getLsbD k <;> simp [clearsFlag, hk]
    exact ⟨key _ 0, key _ 1, key _ 2⟩
  | lfo | oscWave | oscTarget => simp

/-- How the words `ws` move the flags: each is cleared by a CLEAR_FLAGS among them that selects it, and BADCMD
alone is set, by an illegal word among them (R64, R146). -/
def WordsMoveFlags (ws : List Word) (s t : State) : Prop :=
  FlagMoves False (someCommand ws fun i => clearsFlag 0 i = true) s.cmdOvf t.cmdOvf ∧
  FlagMoves False (someCommand ws fun i => clearsFlag 1 i = true) s.overrun t.overrun ∧
  FlagMoves (∃ w ∈ ws, ∃ e, decode w = .error e) (someCommand ws fun i => clearsFlag 2 i = true) s.badCmd t.badCmd

theorem WordsMoveFlags.refl (ws : List Word) (s : State) : WordsMoveFlags ws s s :=
  ⟨.refl .., .refl .., .refl ..⟩

theorem WordsMoveFlags.trans {ws : List Word} {s t u : State} (h : WordsMoveFlags ws s t)
    (k : WordsMoveFlags ws t u) : WordsMoveFlags ws s u :=
  ⟨h.1.trans k.1, h.2.1.trans k.2.1, h.2.2.trans k.2.2⟩

/-- One of the words moves the flags so. -/
theorem execute_wordsMoveFlags {ws : List Word} {w : Word} (hw : w ∈ ws) {s t : State}
    (h : execute w s = .next t) : WordsMoveFlags ws s t := by
  rcases execute_cases h with ⟨i, hi, hexec⟩ | ⟨e, he, rfl⟩
  · have hclear : ∀ k, clearsFlag k i = true → someCommand ws fun i => clearsFlag k i = true :=
      fun k hk => ⟨w, hw, i, hi, hk⟩
    obtain ⟨hovf, hovr, hbad⟩ := exec_flags hexec
    exact ⟨.of_cleared (hovf.imp_right (.imp_right (hclear 0))), .of_cleared (hovr.imp_right (.imp_right (hclear 1))),
      .of_cleared (hbad.imp_right (.imp_right (hclear 2)))⟩
  · exact ⟨.refl .., .refl .., .of_set ⟨w, hw, e, he⟩⟩

/-- A strobe moves the flags by the words it executes. -/
theorem strobe_wordsMoveFlags {s t : State} (h : strobe s = .next t) : WordsMoveFlags (drainedWords s) s t := by
  refine strobe_keeps (P := WordsMoveFlags (drainedWords s) s) h (.refl ..) ?_ ?_ ?_
  · intro _ w hw u q v _ hu hv
    exact hu.trans (execute_wordsMoveFlags (s := { u with fifo := q }) hw hv)
  · intro _
    rw [(tickTask_frame _ s).1]
    exact .refl ..
  · intro u hu
    rw [(strobeTail_frame u).1]
    exact hu

/-- A step of an agent other than the timer sets CMD_OVF in a CMD write to a full FIFO only and OVERRUN in a drain
of a pending half only, and clears neither (R59, R136). -/
theorem runAgent_movesPortFlags {a : AgentStep} (hs : a ≠ .strobe) {s t : State} (h : runAgent a s = .next t) :
    FlagMoves ((∃ w, a = .cmdWrite w) ∧ s.cfg.fifoDepth ≤ s.fifo.length) False s.cmdOvf t.cmdOvf ∧
    FlagMoves (a = .drain ∧ s.pending.get s.dmaPtr = true) False s.overrun t.overrun := by
  cases a
  case strobe => contradiction
  all_goals injection h with h; subst h
  case cmdWrite w =>
    unfold cmdWrite
    split <;> rename_i hfull
    · exact ⟨.refl .., .refl ..⟩
    · exact ⟨.of_set ⟨⟨w, rfl⟩, Nat.le_of_not_lt hfull⟩, .refl ..⟩
  case stageWrite i v => unfold stageWrite; split <;> exact ⟨.refl .., .refl ..⟩
  case statusRead => exact ⟨.refl .., .refl ..⟩
  case fill =>
    split
    · rw [(fill_frame _).1]; exact ⟨.refl .., .refl ..⟩
    · exact ⟨.refl .., .refl ..⟩
  case drain =>
    rw [drain_frame]
    refine ⟨.refl .., ?_⟩
    cases hp : s.pending.get s.dmaPtr
    · simpa [hp] using FlagMoves.refl ..
    · simpa [hp] using FlagMoves.of_set (a := s.overrun) (rfl : AgentStep.drain = .drain)

/-- Settles O10, by the agent of the step: a strobe moves the flags by its words, a CMD write sets CMD_OVF and a
drain OVERRUN, and no other agent touches a flag. -/
theorem flagsAreSticky : Obligations.FlagsAreSticky := by
  intro s t hstep
  obtain ⟨a, ha, hrun⟩ := step_cases hstep
  suffices
      FlagMoves ((∃ w, nextEvent s = .agent (.cmdWrite w)) ∧ s.cfg.fifoDepth ≤ s.fifo.length)
        (nextEvent s = .agent .strobe ∧ someCommand (drainedWords s) fun i => clearsFlag 0 i = true)
        s.cmdOvf t.cmdOvf ∧
      FlagMoves (nextEvent s = .agent .drain ∧ s.pending.get s.dmaPtr = true)
        (nextEvent s = .agent .strobe ∧ someCommand (drainedWords s) fun i => clearsFlag 1 i = true)
        s.overrun t.overrun ∧
      FlagMoves (nextEvent s = .agent .strobe ∧ ∃ w ∈ drainedWords s, ∃ e, decode w = .error e)
        (nextEvent s = .agent .strobe ∧ someCommand (drainedWords s) fun i => clearsFlag 2 i = true)
        s.badCmd t.badCmd by
    obtain ⟨hovf, hovr, hbad⟩ := this
    exact ⟨hovf.1, hovr.1, hbad.1, hovf.2, hovr.2, hbad.2⟩
  by_cases hs : a = .strobe
  · subst hs
    obtain ⟨hovf, hovr, hbad⟩ := strobe_wordsMoveFlags hrun
    rw [drainedWords_afterEvent] at hovf hovr hbad
    rw [afterEvent_frame] at hovf hovr hbad
    exact ⟨hovf.imp False.elim (.intro ha), hovr.imp False.elim (.intro ha), hbad.imp (.intro ha) (.intro ha)⟩
  have hbad : t.badCmd = s.badCmd := by
    rw [runAgent_portFrame hs hrun, afterEvent_frame]
  obtain ⟨hovf, hovr⟩ := runAgent_movesPortFlags hs hrun
  rw [afterEvent_frame] at hovf hovr
  exact ⟨hovf.imp (fun ⟨⟨w, hw⟩, hfull⟩ => ⟨⟨w, hw ▸ ha⟩, hfull⟩) False.elim,
    hovr.imp (fun ⟨hdrain, hp⟩ => ⟨hdrain ▸ ha, hp⟩) False.elim, hbad ▸ .refl ..⟩

end Sys2Proof.Machine
end

section
/-! PROOF. O11: the two traces are append-only in every step (R29). -/

namespace Sys2Proof.Machine

/-- The traces of `s` begin those of `t`. -/
def TracesGrow (s t : State) : Prop := s.evt <+: t.evt ∧ s.dac <+: t.dac

theorem keptByNotes_evt_prefix (s : State) : KeptByNotes fun t => s.evt <+: t.evt where
  gateOff v t _ h := by rw [gateOffVoice_frame]; exact h.trans (List.prefix_append ..)
  release v t _ _ h := by rw [releaseVoice_frame]; exact h.trans (List.prefix_append ..)
  held _ _ h := h
  hold _ _ h := h
  grant root vel kbd legato v i t _ h := by rw [grantVoice_frame]; exact h.trans (List.prefix_append ..)
  tick _ h := h

/-- No command removes an event (R29). -/
theorem exec_evt_prefix {i : Instr} {s t : State} (h : exec i s = .next t) : s.evt <+: t.evt := by
  cases exec_effect h with
  | voices hi he => exact (keptByNotes_evt_prefix s).exec hi (fun _ _ _ _ hu => hu) (List.prefix_refl _) he
  | envelopes es f => rw [forEnvset_frame]
  | waveCommit slot valid => rw [waveCommit_frame]
  | settings frame => rw [frame]
  | lfo | oscWave | oscTarget | flags => simp

theorem keptByParts_tracesGrow (s : State) : KeptByParts (fun _ => True) (TracesGrow s) where
  event _ _ _ h := h
  fetch _ _ _ _ h := h
  command i u v _ h hexec := by
    refine ⟨h.1.trans (exec_evt_prefix hexec), ?_⟩
    rw [exec_commandFrame hexec]
    exact h.2
  illegal _ h := h
  task k u h := by rw [(tickTask_frame k u).1]; exact h
  tail u h := by rw [(strobeTail_frame u).1]; exact h
  cmdWrite w u h := by unfold cmdWrite; split <;> exact h
  stageWrite i v u h := by unfold stageWrite; split <;> exact h
  statusRead _ _ h := h
  fill u h := by rw [(fill_frame u).1]; exact h
  drain u h := by rw [drain_frame]; exact ⟨h.1, h.2.trans (List.prefix_append ..)⟩

/-- Settles O11: every part of a step lets the traces grow only. -/
theorem tracesOnlyGrow : Obligations.TracesOnlyGrow := by
  intro s t hstep
  exact (keptByParts_tracesGrow s).step (fun _ _ _ _ _ => trivial) ⟨List.prefix_refl _, List.prefix_refl _⟩ hstep

end Sys2Proof.Machine
end

section
/-! PROOF. O20: every LFSR stays from 0 and every raw LFO value is an s16 (R23, R110, R112). -/

namespace Sys2Proof.Machine

/-- The register never reaches 0 from elsewhere: with its low bit set the mask sets bit 31, and otherwise a bit
above the low one moves down by one (R110). -/
theorem lfsrStep_ne_zero {x : BitVec 32} (h : x ≠ 0) : lfsrStep x ≠ 0 := by
  intro hz
  have hbit : ∀ i, i < 32 → (x.getLsbD (i + 1) ^^ (x.getLsbD 0 && (0xD0000001#32).getLsbD i)) = false :=
    fun i hi => by rw [← lfsrStep_bit x i hi, hz]; simp
  cases h0 : x.getLsbD 0 with
  | true =>
    have htop := hbit 31 (by decide)
    rw [h0, BitVec.getLsbD_of_ge x 32 le_rfl] at htop
    exact absurd htop (by decide)
  | false =>
    refine h (BitVec.eq_of_getLsbD_eq fun i hi => ?_)
    cases i with
    | zero => simpa using h0
    | succ i =>
      have hdown := hbit i (by omega)
      rw [h0, Bool.false_and, Bool.xor_false] at hdown
      simpa using hdown

/-- An update keeps the register from 0 and gives an s16 raw value (R111, R112). -/
theorem LfoOk.lfoUpdate {x : Lfo} (h : LfoOk x) : LfoOk (lfoUpdate x) := by
  have hadvance : (lfoAdvance x).lfsr ≠ 0 := by
    unfold lfoAdvance
    dsimp only
    split
    · exact lfsrStep_ne_zero h.1
    · exact h.1
  have hnoise : (lfoNoise (lfoAdvance x)).lfsr ≠ 0 := by
    rw [lfoNoise_eq]
    dsimp only
    split
    · exact lfsrStep_ne_zero hadvance
    · exact hadvance
  have hraw := lfoRaw_bounds (lfoNoise (lfoAdvance x))
  refine ⟨hnoise, ?_⟩
  have htoInt : (Machine.lfoUpdate x).raw.toInt = lfoRaw (lfoNoise (lfoAdvance x)) := by
    simp only [Machine.lfoUpdate, BitVec.toInt_ofInt]
    apply Int.bmod_eq_of_le <;> omega
  rwa [htoInt]

namespace LfosOk

variable {s : State}

theorem modLfo (h : LfosOk s) {l : Bool} {f : Lfo → Lfo} (hf : ∀ x, LfoOk x → LfoOk (f x)) :
    LfosOk (s.modLfo l f) := fun m => by
  rw [lfo_modLfo]
  split
  · exact hf _ (h l)
  · exact h m

/-- What leaves the register and the raw value alone keeps an LFO legal. -/
theorem modLfo_settings (h : LfosOk s) {l : Bool} {f : Lfo → Lfo}
    (hf : ∀ x, (f x).lfsr = x.lfsr ∧ (f x).raw = x.raw) : LfosOk (s.modLfo l f) :=
  h.modLfo fun x hx => by
    obtain ⟨hlfsr, hraw⟩ := hf x
    rwa [LfoOk, hlfsr, hraw]

/-- Of the tick phases only the refresh writes an LFO (R131). -/
theorem tickTask (h : LfosOk s) (k : Nat) : LfosOk (tickTask k s) := by
  by_cases h2 : k = 2
  · rw [h2, tickTask_two_frame]; exact h
  by_cases h4 : k = 4
  · rw [h4, tickTask_four_frame]; exact h
  unfold Machine.tickTask
  split
  case h_1 | h_2 => contradiction
  case h_3 =>
    have hrefresh : ∀ x, (lfoRefresh x).lfsr = x.lfsr ∧ (lfoRefresh x).raw = x.raw := fun _ => ⟨rfl, rfl⟩
    exact (h.modLfo_settings hrefresh).modLfo_settings hrefresh
  all_goals exact h

end LfosOk

/-- The envelope updates of a strobe (R130). -/
def updateEnvs (s : State) : State :=
  forUpTo (2 * s.cfg.nVoices) (fun e t => t.modEnv e envUpdate) s

theorem updateEnvs_frame (s : State) : updateEnvs s = { s with envs := (updateEnvs s).envs } :=
  forUpTo_keeps (P := fun t => t = { s with envs := t.envs }) rfl fun e t _ h => by rw [h]; rfl

/-- A strobe after its tick phase: TPHASE, the envelopes, the LFOs, and the CV frame (R130). -/
theorem strobeTail_eq (s : State) :
    strobeTail s =
      cvFrame (((updateEnvs { s with tphase := s.tphase + 1 }).modLfo false lfoUpdate).modLfo true lfoUpdate) := rfl

theorem LfosOk.strobeTail {s : State} (h : LfosOk s) : LfosOk (strobeTail s) := by
  rw [strobeTail_eq, (cvFrame_frame _).1, updateEnvs_frame]
  have hs : LfosOk { s with
      tphase := s.tphase + 1, envs := (updateEnvs { s with tphase := s.tphase + 1 }).envs } := h
  exact (hs.modLfo fun _ => LfoOk.lfoUpdate).modLfo fun _ => LfoOk.lfoUpdate

theorem keptByParts_lfosOk : KeptByParts (fun _ => True) LfosOk where
  event _ _ _ h := h
  fetch _ _ _ _ h := h
  command i s _ _ h hexec := by
    cases exec_effect hexec with
    | voices _ _ frame => rw [frame]; exact h
    | envelopes es f => rw [forEnvset_frame]; exact h
    | lfo l f hf => exact h.modLfo_settings hf
    | waveCommit slot valid => rw [waveCommit_frame]; exact h
    | settings frame => rw [frame]; exact h
    | oscWave | oscTarget | flags => exact h
  illegal _ h := h
  task k _ h := h.tickTask k
  tail _ h := h.strobeTail
  cmdWrite w s h := by unfold cmdWrite; split <;> exact h
  stageWrite i v s h := by unfold stageWrite; split <;> exact h
  statusRead _ _ h := h
  fill s h := by rw [(fill_frame s).1]; exact h
  drain s h := by rw [drain_frame]; exact h

/-- Settles O20: every part of a step keeps the LFOs legal. -/
theorem stepKeepsLfosLegal : Obligations.StepKeepsLfosLegal := by
  intro s t hlfos hstep
  exact keptByParts_lfosOk.step (fun _ _ _ _ _ => trivial) hlfos hstep

end Sys2Proof.Machine
end

section
/-! PROOF. O16: the three memories stay canonical and list indices of their space only (R25, R28). A STAGE
write, WAVE_COMMIT and a fill write one memory each. -/

namespace Sys2Proof.Machine

/-- The index of a buffer word is inside the buffer (R28). -/
theorem bufAddr_lt (c : Config) (h : Bool) {sl w : Nat} (hsl : sl < c.halfLen) (hw : w < 2 * c.nVoices + 1) :
    bufAddr c h sl w < 2 * c.halfLen * (2 * c.nVoices + 1) := by
  have hrow : h.toNat * c.halfLen + sl + 1 ≤ 2 * c.halfLen := by
    cases h <;> simp <;> omega
  calc bufAddr c h sl w < (h.toNat * c.halfLen + sl + 1) * (2 * c.nVoices + 1) := by
        rw [bufAddr, Nat.add_one_mul (h.toNat * c.halfLen + sl)]; omega
    _ ≤ _ := Nat.mul_le_mul_right _ hrow

namespace MemoryOk

variable {s : State}

theorem stageWrite (h : MemoryOk s) (i : BitVec 12) (v : U16) : MemoryOk (stageWrite i v s) := by
  obtain ⟨⟨hwf, hlt⟩, hrest⟩ := h
  unfold Machine.stageWrite
  split <;> rename_i hi
  · refine ⟨⟨Memory.wf_write hwf _ _, fun c hc => ?_⟩, hrest⟩
    rcases Memory.mem_write hc with ⟨rfl, -⟩ | hc
    · exact hi
    · exact hlt c hc
  · exact ⟨⟨hwf, hlt⟩, hrest⟩

/-- The committed slot lists staged samples below its length only, and the length is at most WAVE_MAX (R129). -/
theorem waveCommit (h : MemoryOk s) (k valid : Nat) : MemoryOk (waveCommit k valid s) := by
  obtain ⟨hstaging, hslots, hbuf⟩ := h
  rw [waveCommit_frame]
  refine ⟨hstaging, fun x hx => ?_, hbuf⟩
  rcases List.mem_or_eq_of_mem_set hx with hx | rfl
  · exact hslots x hx
  · refine ⟨Memory.wf_ofFn _ _ _, fun c hc => ?_⟩
    have hlt : c.1 < min valid (commitLen s) := Memory.mem_ofFn_lt hc
    have hlen : commitLen s ≤ s.cfg.waveMax := Nat.min_le_right _ _
    exact Nat.lt_of_lt_of_le hlt ((Nat.min_le_right _ _).trans hlen)

theorem writeBuf (h : MemoryOk s) (g : Bool) {sl w : Nat} (hsl : sl < s.cfg.halfLen)
    (hw : w < 2 * s.cfg.nVoices + 1) (x : Word) : MemoryOk (s.writeBuf g sl w x) := by
  obtain ⟨hstaging, hslots, hwf, hlt⟩ := h
  refine ⟨hstaging, hslots, Memory.wf_write hwf _ _, fun c hc => ?_⟩
  rcases Memory.mem_write hc with ⟨rfl, -⟩ | hc
  · exact bufAddr_lt s.cfg g hsl hw
  · exact hlt c hc

theorem fillVoice (h : MemoryOk s) (g : Bool) {sl v : Nat} (hsl : sl < s.cfg.halfLen) (hv : v < s.cfg.nVoices) :
    MemoryOk (fillVoice g sl v s) := by
  have hstep : ∀ o t, MemoryOk t ∧ t.cfg = s.cfg →
      MemoryOk (stepOsc o t).1 ∧ (stepOsc o t).1.cfg = s.cfg := fun _ _ ht => ht
  have ha := hstep (2 * v) s ⟨h, rfl⟩
  unfold Machine.fillVoice
  dsimp only
  generalize stepOsc (2 * v) s = a at ha ⊢
  have hreset : MemoryOk (if a.2.2 && a.1.syncActive.getLsbD v then a.1.modOsc (2 * v + 1) oscSyncReset else a.1) ∧
      (if a.2.2 && a.1.syncActive.getLsbD v then a.1.modOsc (2 * v + 1) oscSyncReset else a.1).cfg = s.cfg := by
    split <;> exact ha
  have hb := hstep (2 * v + 1) _ hreset
  generalize stepOsc (2 * v + 1) _ = b at hb ⊢
  obtain ⟨hb, hcfg⟩ := hb
  have hfirst := hb.writeBuf g (w := 2 * v) (hcfg ▸ hsl) (by rw [hcfg]; omega)
  exact (hfirst _).writeBuf g (hcfg ▸ hsl) (show _ < 2 * b.1.cfg.nVoices + 1 by rw [hcfg]; omega) _

theorem fillSlot (h : MemoryOk s) (g : Bool) {sl : Nat} (hsl : sl < s.cfg.halfLen) : MemoryOk (fillSlot g sl s) := by
  have hvoices : MemoryOk (forVoices (Machine.fillVoice g sl) s) ∧ (forVoices (Machine.fillVoice g sl) s).cfg = s.cfg :=
    forVoices_keeps (P := fun t => MemoryOk t ∧ t.cfg = s.cfg) ⟨h, rfl⟩ fun v t hv ⟨ht, hcfg⟩ => by
      refine ⟨ht.fillVoice g (hcfg ▸ hsl) (hcfg ▸ hv), ?_⟩
      rw [(fillVoice_frame g sl v t).1]
      exact hcfg
  unfold Machine.fillSlot fillCv
  generalize forVoices (Machine.fillVoice g sl) s = t at hvoices
  obtain ⟨ht, hcfg⟩ := hvoices
  exact ht.writeBuf g (hcfg ▸ hsl) (Nat.lt_succ_self _) _

theorem fill (h : MemoryOk s) : MemoryOk (fill s) :=
  (forUpTo_keeps (n := s.cfg.halfLen) (f := Machine.fillSlot s.fillPtr)
    (P := fun t => MemoryOk t ∧ t.cfg = s.cfg) ⟨h, rfl⟩ fun sl t hsl ⟨ht, hcfg⟩ => by
      refine ⟨ht.fillSlot _ (hcfg ▸ hsl), ?_⟩
      rw [(fillSlot_frame s.fillPtr sl t).1]
      exact hcfg).1

end MemoryOk

theorem keptByParts_memoryOk : KeptByParts (fun _ => True) MemoryOk where
  event _ _ _ h := h
  fetch _ _ _ _ h := h
  command i s _ _ h hexec := by
    cases exec_effect hexec with
    | voices _ _ frame => rw [frame]; exact h
    | envelopes es f => rw [forEnvset_frame]; exact h
    | waveCommit slot valid => exact h.waveCommit _ _
    | settings frame => rw [frame]; exact h
    | lfo | oscWave | oscTarget | flags => exact h
  illegal _ h := h
  task k s h := by rw [(tickTask_frame k s).1]; exact h
  tail s h := by rw [(strobeTail_frame s).1]; exact h
  cmdWrite w s h := by unfold cmdWrite; split <;> exact h
  stageWrite i v _ h := h.stageWrite i v
  statusRead _ _ h := h
  fill _ h := h.fill
  drain s h := by rw [drain_frame]; exact h

/-- Settles O16: every part of a step keeps the memories canonical. -/
theorem stepKeepsMemoryCanonical : Obligations.StepKeepsMemoryCanonical := by
  intro s t hmemory hstep
  exact keptByParts_memoryOk.step (fun _ _ _ _ _ => trivial) hmemory hstep

end Sys2Proof.Machine
end

section
/-! PROOF. O18: every oscillator stays legal (R24, R31 (e), R122). Each procedure on one oscillator record keeps
it legal; WAVE_COMMIT changes the length of a slot and clamps the phases of the oscillators that read it. -/

namespace Sys2Proof.Machine

/-! ## One oscillator -/

namespace OscOk

variable {c : Config} {len : Nat} {x : Osc}

/-- Clamping to a slot that is not empty makes the oscillator legal for that slot (R125, R129). -/
theorem clampPhase (h : OscOk c len x) {len' : Nat} (hlen : 0 < len') : OscOk c len' (oscClampPhase len' x) := by
  obtain ⟨p, hp, heq⟩ := oscClampPhase_spec len' x
  rw [heq]
  exact ⟨by simp only; omega, h.2⟩

theorem setParameters (h : OscOk c len x) (hc : c.wf) (P : Nat) (pitch amt : U16) :
    OscOk c len (oscSetParameters c P pitch amt x) := by
  obtain ⟨hphase, hcounter, hle, hlast, -, -⟩ := h
  have hbounds := oscSetParameters_bounds c hc P pitch amt x
  exact ⟨hphase, hcounter, hle, hlast, fun b => (hbounds b).2, fun b => (hbounds b).1⟩

theorem syncReset (h : OscOk c len x) : OscOk c len (oscSyncReset x) := by
  obtain ⟨hphase, -, -, hlast, hper, hincr⟩ := h
  exact ⟨Nat.lt_of_le_of_lt (Nat.zero_le _) hphase, le_rfl, by simp [oscSyncReset], hlast, hper, hincr⟩

/-- The loop of R122, run to its end and its counter stored, keeps the oscillator legal: the counter lies between
1 and the period it last reloaded, and the phase inside the slot. -/
theorem reloads {slots : List Slot} (h : OscOk c (oscLen slots x) x) {fuel : Nat} {n : Int} (hfuel : 1 - n ≤ fuel)
    (hn : n ≤ x.lastPer.toNat) :
    OscOk c (oscLen slots x)
      { (oscReloads slots fuel n false x).2.2 with counter := BitVec.ofInt 32 (oscReloads slots fuel n false x).1 } := by
  obtain ⟨hphase, -, -, hlast, hper, hincr⟩ := h
  have hexit := oscReloads_exits slots fuel n false x hper hfuel
  have hle := oscReloads_counter_le slots fuel n false x hn
  have hlt := oscReloads_phase_lt slots fuel n false x hphase
  have hkeeps := oscReloads_keeps slots fuel n false x
  have hrun := (oscReloads_induct (slots := slots) (P := fun _ _ y => y.period = x.period ∧ 1 ≤ y.lastPer.toNat)
    (fun m w y _ ⟨hperiod, _⟩ => by
      rw [oscReload_keeps]
      exact ⟨hperiod, by rw [hperiod]; exact hper _⟩) fuel n false x ⟨rfl, hlast⟩).2
  generalize oscReloads slots fuel n false x = r at *
  have hmax := r.2.2.lastPer.isLt
  have hstored : (BitVec.ofInt 32 r.1).toInt = r.1 := by
    rw [BitVec.toInt_ofInt]
    apply Int.bmod_eq_of_le <;> omega
  refine ⟨hlt, ?_, ?_, hrun, ?_, ?_⟩
  · dsimp only; omega
  · dsimp only; omega
  · dsimp only; rw [hkeeps]; exact hper
  · dsimp only; rw [hkeeps]; exact hincr

/-- An output step keeps the oscillator legal (R122). -/
theorem step {slots : List Slot} (h : OscOk c (oscLen slots x) x) :
    OscOk c (oscLen slots x) (oscStep c slots x).1 := by
  have ⟨_, _, hle, _⟩ := h
  exact h.reloads (by omega) (by omega)

end OscOk

/-! ## The oscillators of a state -/

namespace OscsOk

variable {s : State}

/-- Every slot has a sample, those that do not exist included (R25). -/
theorem slotLen_pos (h : OscsOk s) (k : Nat) : 0 < (slotOf s.slots k).len.toNat := by
  by_cases hk : k < s.slots.length
  · rw [slotOf, List.getD_eq_getElem _ _ hk]
    have := (h.1 _ (List.getElem_mem hk)).1
    omega
  · rw [slotOf, List.getD_eq_default _ _ (Nat.le_of_not_lt hk)]
    decide

/-- Changing one oscillator of a legal state to a legal one. -/
theorem modOsc (h : OscsOk s) {o : Nat} {f : Osc → Osc}
    (hf : OscOk s.cfg (oscLen s.slots (s.osc o)) (s.osc o) →
      OscOk s.cfg (oscLen s.slots (f (s.osc o))) (f (s.osc o))) : OscsOk (s.modOsc o f) := by
  refine ⟨h.1, fun x hx => ?_⟩
  obtain ⟨k, hk, rfl⟩ := List.getElem_of_mem hx
  have hk' : k < s.oscs.length := by simpa using hk
  have hold : ∀ j (hj : j < s.oscs.length), s.oscs[j] = s.osc j := fun j hj =>
    (List.getD_eq_getElem _ _ hj).symm
  have hnew : (s.modOsc o f).oscs[k] = (s.modOsc o f).osc k := (List.getD_eq_getElem _ _ hk).symm
  have hlegal := h.2 _ (List.getElem_mem hk')
  rw [hold] at hlegal
  rw [hnew, osc_modOsc]
  split <;> rename_i hc
  · rw [hc.1] at hlegal
    exact hf hlegal
  · exact hlegal

/-- WAVE_COMMIT: the oscillators that read the slot are clamped to its new length, and the others read a slot
that is kept (R129). -/
theorem waveCommit (h : OscsOk s) (hsized : Sized s) (slot : BitVec 3) (valid : Nat) :
    OscsOk (waveCommit slot.toNat valid s) := by
  obtain ⟨hwf, -, -, hoscs, hslots, -⟩ := hsized
  obtain ⟨hlen, -⟩ := committedSlot_spec valid s hwf
  have hcommit := commitLen_bounds s hwf
  obtain ⟨frame, loscs, hosc⟩ := waveCommit_spec slot.toNat valid s hoscs
  generalize Machine.waveCommit slot.toNat valid s = t at frame loscs hosc
  have hcfg : t.cfg = s.cfg := by rw [frame]
  have htslots : t.slots = s.slots.set slot.toNat (committedSlot valid s) := by rw [frame]
  -- the length an oscillator of the new state sees
  have hoscLen : ∀ x : Osc, oscLen t.slots x =
      if x.main.toNat = slot.toNat then commitLen s else oscLen s.slots x := fun x => by
    have := slot.isLt
    rw [oscLen, htslots, slotOf, getD_set]
    by_cases hx : x.main.toNat = slot.toNat
    · rw [if_pos ⟨hx, by omega⟩, if_pos hx, hlen]
    · rw [if_neg fun e => hx e.1, if_neg hx]; rfl
  refine ⟨fun x hx => ?_, fun x hx => ?_⟩
  · rw [htslots] at hx
    rw [hcfg]
    rcases List.mem_or_eq_of_mem_set hx with hx | rfl
    · exact h.1 x hx
    · rw [hlen]; exact hcommit
  · obtain ⟨k, hk, rfl⟩ := List.getElem_of_mem hx
    have hks : k < s.oscs.length := loscs ▸ hk
    have hlegal := h.2 _ (List.getElem_mem hks)
    rw [show s.oscs[k] = s.osc k from (List.getD_eq_getElem _ _ hks).symm] at hlegal
    rw [show t.oscs[k] = t.osc k from (List.getD_eq_getElem _ _ hk).symm, hosc k (hoscs ▸ hks), hcfg, hoscLen]
    by_cases hmain : (s.osc k).main.toNat = slot.toNat
    · have hclamped : (oscClampPhase (commitLen s) (s.osc k)).main.toNat = slot.toNat := hmain
      rw [if_pos hmain, if_pos hclamped]
      exact hlegal.clampPhase (by omega)
    · rw [if_neg hmain, if_neg hmain]
      exact hlegal

/-- A voice's part of the CV frame gives its two oscillators legal parameters (R133). -/
theorem cvVoice (h : OscsOk s) (hc : s.cfg.wf) (v : Nat) : OscsOk (cvVoice v s) ∧ (cvVoice v s).cfg.wf := by
  have hsums : OscsOk (cvVoiceSums v s) ∧ (cvVoiceSums v s).cfg.wf :=
    forUpTo_keeps (P := fun t => OscsOk t ∧ t.cfg.wf) ⟨h, hc⟩ fun _ _ _ ht => ht
  have hset : ∀ o pitch amt t, OscsOk t ∧ t.cfg.wf →
      OscsOk (setOscParameters o pitch amt t) ∧ (setOscParameters o pitch amt t).cfg.wf :=
    fun o pitch amt t ⟨ht, htc⟩ => ⟨ht.modOsc fun hx => hx.setParameters htc _ _ _, htc⟩
  exact hset _ _ _ _ (hset _ _ _ _ hsums)

theorem cvFrame (h : OscsOk s) (hc : s.cfg.wf) : OscsOk (cvFrame s) :=
  (forVoices_keeps (P := fun t => OscsOk t ∧ t.cfg.wf) ⟨h, hc⟩ fun v _ _ ⟨ht, htc⟩ => ht.cvVoice htc v).1

theorem strobeTail (h : OscsOk s) (hc : s.cfg.wf) : OscsOk (strobeTail s) := by
  rw [strobeTail_eq, updateEnvs_frame]
  refine cvFrame ?_ ?_
  · exact h
  · exact hc

theorem stepOsc (h : OscsOk s) (o : Nat) : OscsOk (stepOsc o s).1 :=
  h.modOsc fun hx => by
    have hmain : (oscStep s.cfg s.slots (s.osc o)).1.main = (s.osc o).main := by rw [oscStep_keeps]
    rw [oscLen, hmain]
    exact hx.step

theorem fillVoice (h : OscsOk s) (g : Bool) (sl v : Nat) : OscsOk (fillVoice g sl v s) := by
  have ha := h.stepOsc (2 * v)
  unfold Machine.fillVoice
  dsimp only
  generalize Machine.stepOsc (2 * v) s = a at ha ⊢
  have hreset : OscsOk (if a.2.2 && a.1.syncActive.getLsbD v then a.1.modOsc (2 * v + 1) oscSyncReset else a.1) := by
    split
    · exact ha.modOsc OscOk.syncReset
    · exact ha
  exact hreset.stepOsc _

theorem fill (h : OscsOk s) : OscsOk (fill s) :=
  forUpTo_keeps (n := s.cfg.halfLen) (f := fillSlot s.fillPtr) (P := OscsOk) h fun sl _ _ ht =>
    forVoices_keeps (P := OscsOk) ht fun v _ _ hu => hu.fillVoice _ sl v

end OscsOk

theorem keptByParts_oscsOk (c : Config) : KeptByParts (fun _ => True) fun s => SizedFor c s ∧ OscsOk s where
  event _ _ _ h := h
  fetch _ _ _ _ h := h
  command i s _ _ := fun ⟨hsized, h⟩ hexec => by
    refine ⟨hsized.exec hexec, ?_⟩
    cases exec_effect hexec with
    | voices _ _ frame => rw [frame]; exact h
    | envelopes es f => rw [forEnvset_frame]; exact h
    | oscWave o main xslot xen => exact h.modOsc fun hx => hx.clampPhase (h.slotLen_pos _)
    | oscTarget o tgt => exact h.modOsc id
    | waveCommit slot valid => exact h.waveCommit hsized.1 slot valid
    | settings frame => rw [frame]; exact h
    | lfo | flags => exact h
  illegal _ h := h
  task k s h := ⟨h.1.tickTask k, by rw [(tickTask_frame k s).1]; exact h.2⟩
  tail s h := ⟨h.1.strobeTail, h.2.strobeTail h.1.1.1⟩
  cmdWrite w s h := by unfold cmdWrite; split <;> exact h
  stageWrite i v s h := by unfold stageWrite; split <;> exact h
  statusRead _ _ h := h
  fill s h := ⟨h.1.fill, h.2.fill⟩
  drain s h := by rw [drain_frame]; exact h

/-- Settles O18: every part of a step keeps the oscillators legal. -/
theorem stepKeepsOscillatorsLegal : Obligations.StepKeepsOscillatorsLegal := by
  intro s t hsized hoscs hstep
  exact ((keptByParts_oscsOk s.cfg).step (fun _ _ _ _ _ => trivial) ⟨⟨hsized, rfl⟩, hoscs⟩ hstep).2

end Sys2Proof.Machine
end

section
/-! PROOF. O17: the legal values of the registers, and TB[v] as the granted note (R17, R19, R25 to R28, R71). -/

namespace Sys2Proof.Machine

/-! ## Voices -/

/-- Everything a pass of HOLD 0 does to the voices and the envelopes (R90). -/
theorem releaseVoice_spec (v : Nat) (s : State) (hv : v < s.voices.length) (he : 2 * v + 1 < s.envs.length) :
    (∀ u, (releaseVoice v s).voice u = if u = v then { s.voice v with gated := false } else s.voice u) ∧
    ∀ k, (releaseVoice v s).env k = if k / 2 = v then envSetGate false (s.env k) else s.env k := by
  obtain ⟨frame, -, henv⟩ :=
    emit_spec (offEvent .gateOff v s) (s.modVoice v fun x => { x with gated := false }) he
  refine ⟨fun u => ?_, fun k => ?_⟩
  · have hvoice := voice_modVoice s v u fun x => { x with gated := false }
    simp only [hv, and_true] at hvoice
    rw [releaseVoice, frame]
    exact hvoice
  · rw [releaseVoice, henv k]
    simp [offEvent]

/-- What deallocating a voice that is done keeps, the housekeeping keeps (R131). -/
theorem housekeeping_keeps {P : State → Prop} {s : State} (h0 : P s)
    (hdone : ∀ v t, v < t.cfg.nVoices → (t.env (2 * v + 1)).stage = .done → P t → P (voiceDone v t)) :
    P (tickTask 2 s) := by
  refine forVoices_keeps_of_cfg h0 (fun v t => ?_) fun v t hv ht => ?_
  · unfold housekeepVoice
    split <;> rfl
  · unfold housekeepVoice
    split <;> rename_i hstage
    · exact hdone v t hv hstage ht
    · exact ht

/-- No other tick phase writes a voice or an envelope (R131). -/
theorem tickTask_frame_of_ne_two {k : Nat} (h : k ≠ 2) (s : State) :
    tickTask k s =
      { s with
        pb := (tickTask k s).pb
        lfos := (tickTask k s).lfos
        syncActive := (tickTask k s).syncActive
        ts := (tickTask k s).ts } := by
  by_cases h4 : k = 4
  · rw [h4, tickTask_four_frame]
  unfold tickTask
  split
  case h_1 | h_2 => contradiction
  all_goals rfl

/-- The voice, its two envelopes and its pitches are in their files. -/
theorem SizedFor.mem_files {c : Config} {s : State} (h : SizedFor c s) {v : Nat} (hv : v < s.cfg.nVoices) :
    v < s.voices.length ∧ 2 * v + 1 < s.envs.length ∧ v < s.pb.length ∧ v < s.tb.length := by
  obtain ⟨⟨-, hvoices, henvs, -, -, -, -, -, -, hpb, htb, -⟩, -⟩ := h
  omega

theorem SizedFor.wf {c : Config} {s : State} (h : SizedFor c s) : s.cfg.wf := by
  obtain ⟨⟨hwf, -⟩, -⟩ := h
  exact hwf

/-- The voices VOICE_DONE clamps its operand to exist (R54). -/
theorem SizedFor.lt_of_le_pred {c : Config} {s : State} (h : SizedFor c s) {v : Nat} (hv : v ≤ s.cfg.nVoices - 1) :
    v < s.cfg.nVoices := by
  have ⟨⟨_, _⟩, _⟩ := h.wf
  omega

theorem SizedFor.grantVoice {c : Config} {s : State} (h : SizedFor c s) (root : BitVec 7) (vel : U16)
    (kbd legato : Bool) {v : Nat} (i : Nat) (hv : v < s.cfg.nVoices) :
    SizedFor c (grantVoice root vel kbd legato v i s) := by
  obtain ⟨hvo, hen, hpb, htb⟩ := h.mem_files hv
  obtain ⟨-, ⟨lvoices, lenvs, lpb, ltb⟩, -⟩ := grantVoice_spec root vel kbd legato v i s hvo hen hpb htb
  rw [grantVoice_frame]
  simpa only [SizedFor, Sized, lvoices, lenvs, lpb, ltb] using h

theorem SizedFor.releaseVoice {c : Config} {s : State} (h : SizedFor c s) (v : Nat) :
    SizedFor c (releaseVoice v s) := (h.modVoice v _).emit _

theorem SizedFor.glideStep {c : Config} {s : State} (h : SizedFor c s) {v : Nat} (hv : v < s.cfg.nVoices) :
    SizedFor c (glideStep v s) := by
  obtain ⟨-, -, hpb, -⟩ := h.mem_files hv
  obtain ⟨frame, lpb, -⟩ := glideStep_spec v s hpb
  rw [frame]
  simpa only [SizedFor, Sized, lpb] using h

/-! ## Legal values -/

/-- A bound on the entries of a file of u16 registers is a bound on its reads: an entry that is absent reads 0. -/
theorem forall_mem_le_iff_getD {l : List U16} {b : Nat} :
    (∀ x ∈ l, x.toNat ≤ b) ↔ ∀ v, (l.getD v 0).toNat ≤ b := by
  constructor
  · intro h v
    by_cases hv : v < l.length
    · rw [List.getD_eq_getElem _ _ hv]
      exact h _ (List.getElem_mem hv)
    · rw [List.getD_eq_default _ _ (Nat.le_of_not_lt hv)]
      exact Nat.zero_le b
  · intro h x hx
    obtain ⟨v, hv, rfl⟩ := List.getElem_of_mem hx
    exact List.getD_eq_getElem l 0 hv ▸ h v

/-- The operand masks of R54 hold no bit from N up. -/
theorem maskOk_maskOperand (n : Nat) (m : BitVec 6) : maskOk n (maskOperand n m) := by
  intro k hk
  have hones : (BitVec.ofNat 6 (2 ^ n - 1)).getLsbD k = false := by
    simp [BitVec.getLsbD_ofNat, Nat.testBit_two_pow_sub_one, hk]
  rw [maskOperand, BitVec.getLsbD_and, hones, Bool.and_false]

/-- The pattern length R54 makes of its field is in 1..N. -/
theorem toNat_plenOperand {n : Nat} (h1 : 1 ≤ n) (len : BitVec 3) :
    1 ≤ (plenOperand n len).toNat ∧ (plenOperand n len).toNat ≤ n := by
  have hfield := len.isLt
  rw [plenOperand, BitVec.toNat_ofNat]
  unfold clampNat
  omega

/-- A granted note in 1/256 semitone (R71). -/
theorem toNat_pitch (n : BitVec 7) :
    (BitVec.ofNat 16 (n.toNat * 256)).toNat = n.toNat * 256 ∧ n.toNat * 256 ≤ 32512 := by
  have := n.isLt
  rw [BitVec.toNat_ofNat]
  omega

namespace Legal

variable {c : Config} {s : State}

theorem grantVoice (h : Legal s) (hsized : SizedFor c s) (root : BitVec 7) (vel : U16) (kbd legato : Bool)
    {v : Nat} (i : Nat) (hv : v < s.cfg.nVoices) : Legal (grantVoice root vel kbd legato v i s) := by
  obtain ⟨hfifo, hmask, hstaged, hactive, hplen, hslots, hrr, hpb, htb⟩ := h
  obtain ⟨hvo, hen, hlpb, hltb⟩ := hsized.mem_files hv
  obtain ⟨-, -, -, htbOf, hpbOf, -⟩ := grantVoice_spec root vel kbd legato v i s hvo hen hlpb hltb
  have hnew := toNat_pitch (patternNote s i root)
  have hpb' : ∀ x ∈ (Machine.grantVoice root vel kbd legato v i s).pb, x.toNat ≤ 32512 := by
    refine forall_mem_le_iff_getD.mpr fun u => ?_
    have hread := hpbOf u
    rw [State.pbOf] at hread
    rw [hread]
    split
    · omega
    · exact forall_mem_le_iff_getD.mp hpb u
  have htb' : ∀ x ∈ (Machine.grantVoice root vel kbd legato v i s).tb, x.toNat ≤ 32512 := by
    refine forall_mem_le_iff_getD.mpr fun u => ?_
    have hread := htbOf u
    rw [State.tbOf] at hread
    rw [hread]
    split
    · omega
    · exact forall_mem_le_iff_getD.mp htb u
  rw [grantVoice_frame]
  exact ⟨hfifo, hmask, hstaged, hactive, hplen, hslots, hrr, hpb', htb'⟩

/-- Glide ends between PB[v] and TB[v] (R132). -/
theorem glideStep (h : Legal s) {v : Nat} (hv : v < s.pb.length) : Legal (glideStep v s) := by
  obtain ⟨hfifo, hmask, hstaged, hactive, hplen, hslots, hrr, hpb, htb⟩ := h
  obtain ⟨frame, -, hpbOf⟩ := glideStep_spec v s hv
  have hp := forall_mem_le_iff_getD.mp hpb
  have ht := forall_mem_le_iff_getD.mp htb v
  have hpb' : ∀ x ∈ (Machine.glideStep v s).pb, x.toNat ≤ 32512 := by
    refine forall_mem_le_iff_getD.mpr fun u => ?_
    have hread := hpbOf u
    rw [State.pbOf] at hread
    rw [hread]
    have hpv := hp v
    have hpu := hp u
    unfold State.tbOf State.pbOf
    split
    · split
      · exact ht
      · split <;> omega
    · exact hpu
  rw [frame]
  exact ⟨hfifo, hmask, hstaged, hactive, hplen, hslots, hrr, hpb', htb⟩

theorem waveCommit (h : Legal s) (hwf : s.cfg.wf) (k valid : Nat) : Legal (waveCommit k valid s) := by
  obtain ⟨hfifo, hmask, hstaged, hactive, hplen, hslots, hrest⟩ := h
  rw [waveCommit_frame]
  refine ⟨hfifo, hmask, hstaged, hactive, hplen, fun x hx => ?_, hrest⟩
  rcases List.mem_or_eq_of_mem_set hx with hx | rfl
  · exact hslots x hx
  · rw [(committedSlot_spec valid s hwf).1]
    exact commitLen_bounds s hwf

theorem settings {t : State} (h : Legal s) (hwf : s.cfg.wf) (frame : SettingsFrame s t)
    (hmask : t.voiceMask = s.voiceMask ∨ ∃ m, t.voiceMask = maskOperand s.cfg.nVoices m)
    (hsync : t.syncStaged = s.syncStaged ∨ ∃ m, t.syncStaged = maskOperand s.cfg.nVoices m)
    (hplen : t.plen = s.plen ∨ ∃ len, t.plen = plenOperand s.cfg.nVoices len) : Legal t := by
  obtain ⟨hfifo, hvm, hss, hactive, hpl, hrest⟩ := h
  have hvm' : maskOk s.cfg.nVoices t.voiceMask := by
    rcases hmask with e | ⟨m, e⟩ <;> rw [e]
    · exact hvm
    · exact maskOk_maskOperand _ m
  have hss' : maskOk s.cfg.nVoices t.syncStaged := by
    rcases hsync with e | ⟨m, e⟩ <;> rw [e]
    · exact hss
    · exact maskOk_maskOperand _ m
  have hpl' : 1 ≤ t.plen.toNat ∧ t.plen.toNat ≤ s.cfg.nVoices := by
    rcases hplen with e | ⟨len, e⟩ <;> rw [e]
    · exact hpl
    · exact toNat_plenOperand hwf.1.1 len
  rw [frame]
  exact ⟨hfifo, hvm', hss', hactive, hpl', hrest⟩

theorem cmdWrite (h : Legal s) (w : Word) : Legal (cmdWrite w s) := by
  obtain ⟨hfifo, hrest⟩ := h
  unfold Machine.cmdWrite
  split <;> rename_i hroom
  · refine ⟨?_, hrest⟩
    rw [List.length_append]
    exact hroom
  · exact ⟨hfifo, hrest⟩

/-- The round robin stays below 7N (R134, R135). -/
theorem fillSlot (h : Legal s) (hwf : s.cfg.wf) (g : Bool) (sl : Nat) : Legal (fillSlot g sl s) := by
  obtain ⟨hfifo, hmask, hstaged, hactive, hplen, hslots, -, hpitch⟩ := h
  obtain ⟨⟨h1, h6⟩, -⟩ := hwf
  have hrr : (BitVec.ofNat 6 ((s.rr.toNat + 1) % (7 * s.cfg.nVoices))).toNat < 7 * s.cfg.nVoices := by
    have hlt := Nat.mod_lt (s.rr.toNat + 1) (show 0 < 7 * s.cfg.nVoices by omega)
    rw [BitVec.toNat_ofNat]
    omega
  rw [(fillSlot_frame g sl s).1]
  exact ⟨hfifo, hmask, hstaged, hactive, hplen, hslots, hrr, hpitch⟩

theorem fill (h : Legal s) (hwf : s.cfg.wf) : Legal (fill s) :=
  (forUpTo_keeps (n := s.cfg.halfLen) (f := Machine.fillSlot s.fillPtr) (P := fun t => Legal t ∧ t.cfg.wf)
    ⟨h, hwf⟩ fun sl t _ ⟨ht, htwf⟩ => by
      refine ⟨ht.fillSlot htwf _ sl, ?_⟩
      rw [(fillSlot_frame s.fillPtr sl t).1]
      exact htwf).1

theorem tickTask (h : Legal s) (hsized : SizedFor c s) (k : Nat) : Legal (tickTask k s) := by
  by_cases h2 : k = 2
  · rw [h2, tickTask_two_frame]; exact h
  unfold Machine.tickTask
  split
  case h_1 => contradiction
  case h_2 =>
    exact (forVoices_keeps (P := fun t => SizedFor c t ∧ Legal t) ⟨hsized, h⟩ fun v t hv ⟨htsized, ht⟩ => by
      have hvt : v < t.cfg.nVoices := by rw [htsized.2, ← hsized.2]; exact hv
      obtain ⟨-, -, hpb, -⟩ := htsized.mem_files hvt
      exact ⟨htsized.glideStep hvt, ht.glideStep hpb⟩).2
  case h_4 =>
    obtain ⟨hfifo, hmask, hstaged, -, hrest⟩ := h
    exact ⟨hfifo, hmask, hstaged, hstaged, hrest⟩
  all_goals exact h

end Legal

theorem keptByNotes_legal (c : Config) : KeptByNotes fun s => SizedFor c s ∧ Legal s where
  gateOff v s _ h := ⟨h.1.gateOffVoice v, by rw [gateOffVoice_frame]; exact h.2⟩
  release v s _ _ h := ⟨h.1.releaseVoice v, by rw [releaseVoice_frame]; exact h.2⟩
  held _ _ h := h
  hold _ _ h := h
  grant root vel kbd legato _ i _ hen h :=
    ⟨h.1.grantVoice root vel kbd legato i hen.1, h.2.grantVoice h.1 root vel kbd legato i hen.1⟩
  tick _ h := h

theorem keptByParts_legal (c : Config) : KeptByParts (fun _ => True) fun s => SizedFor c s ∧ Legal s where
  event _ _ _ h := h
  fetch s w q hq := fun ⟨hsized, hfifo, hrest⟩ => by
    refine ⟨hsized, ?_, hrest⟩
    rw [hq, List.length_cons] at hfifo
    exact Nat.le_of_succ_le hfifo
  command i s _ _ h hexec := by
    have hwf := h.1.wf
    refine ⟨h.1.exec hexec, ?_⟩
    cases exec_effect hexec with
    | voices hi he =>
      exact ((keptByNotes_legal c).exec hi (fun v _ _ _ hu => ⟨hu.1.voiceDone v, hu.2⟩) h he).2
    | envelopes es f => rw [forEnvset_frame]; exact h.2
    | waveCommit slot valid => exact h.2.waveCommit hwf _ _
    | settings frame hmask hsync hplen => exact h.2.settings hwf frame hmask hsync hplen
    | lfo | oscWave | oscTarget | flags => exact h.2
  illegal _ h := h
  task k _ h := ⟨h.1.tickTask k, h.2.tickTask h.1 k⟩
  tail s h := ⟨h.1.strobeTail, by rw [(strobeTail_frame s).1]; exact h.2⟩
  cmdWrite w s h := ⟨SizedFor.ite h.1 h.1, h.2.cmdWrite w⟩
  stageWrite i v s h := by unfold stageWrite; split <;> exact h
  statusRead _ _ h := h
  fill _ h := ⟨h.1.fill, h.2.fill h.1.wf⟩
  drain s h := by rw [drain_frame]; exact h

/-! ## Pitch targets -/

namespace PitchTargetsOk

variable {c : Config} {s : State}

/-- What writes one voice and keeps its note, and keeps TB. -/
theorem of_voice {t : State} (h : PitchTargetsOk s) (hcfg : t.cfg = s.cfg) (htb : t.tb = s.tb) {v : Nat} {x : Voice}
    (hvoice : ∀ u, t.voice u = if u = v then x else s.voice u) (hx : x.note = (s.voice v).note) :
    PitchTargetsOk t := by
  intro u hu
  have hold := h u (hcfg ▸ hu)
  rw [hvoice, State.tbOf, htb]
  split <;> rename_i huv
  · subst huv
    rw [hx]
    exact hold
  · exact hold

theorem gateOffVoice (h : PitchTargetsOk s) (hsized : SizedFor c s) {v : Nat} (hv : v < s.cfg.nVoices) :
    PitchTargetsOk (gateOffVoice v s) := by
  obtain ⟨hvo, hen, -⟩ := hsized.mem_files hv
  obtain ⟨-, -, -, hvoice, -⟩ := gateOffVoice_spec v s hvo hen
  exact h.of_voice (by rw [gateOffVoice_frame]) (by rw [gateOffVoice_frame]) hvoice rfl

theorem releaseVoice (h : PitchTargetsOk s) (hsized : SizedFor c s) {v : Nat} (hv : v < s.cfg.nVoices) :
    PitchTargetsOk (releaseVoice v s) := by
  obtain ⟨hvo, hen, -⟩ := hsized.mem_files hv
  obtain ⟨hvoice, -⟩ := releaseVoice_spec v s hvo hen
  exact h.of_voice (by rw [releaseVoice_frame]) (by rw [releaseVoice_frame]) hvoice rfl

theorem voiceDone (h : PitchTargetsOk s) (hsized : SizedFor c s) {v : Nat} (hv : v < s.cfg.nVoices) :
    PitchTargetsOk (voiceDone v s) := by
  obtain ⟨hvo, hen, -⟩ := hsized.mem_files hv
  obtain ⟨-, -, -, hvoice, -⟩ := voiceDone_spec v s hvo hen
  exact h.of_voice rfl rfl hvoice rfl

/-- A grant writes the note and TB[v] together (R71). -/
theorem grantVoice (h : PitchTargetsOk s) (hsized : SizedFor c s) (root : BitVec 7) (vel : U16)
    (kbd legato : Bool) {v : Nat} (i : Nat) (hv : v < s.cfg.nVoices) :
    PitchTargetsOk (grantVoice root vel kbd legato v i s) := by
  obtain ⟨hvo, hen, hpb, htb⟩ := hsized.mem_files hv
  obtain ⟨-, -, hvoice, htbOf, -⟩ := grantVoice_spec root vel kbd legato v i s hvo hen hpb htb
  intro u hu
  rw [grantVoice_frame] at hu
  rw [hvoice, htbOf]
  split
  · exact (toNat_pitch _).1
  · exact h u hu

end PitchTargetsOk

theorem keptByNotes_pitchTargetsOk (c : Config) : KeptByNotes fun s => SizedFor c s ∧ PitchTargetsOk s where
  gateOff v _ hv h := ⟨h.1.gateOffVoice v, h.2.gateOffVoice h.1 hv⟩
  release v _ hv _ h := ⟨h.1.releaseVoice v, h.2.releaseVoice h.1 hv⟩
  held _ _ h := h
  hold _ _ h := h
  grant root vel kbd legato _ i _ hen h :=
    ⟨h.1.grantVoice root vel kbd legato i hen.1, h.2.grantVoice h.1 root vel kbd legato i hen.1⟩
  tick _ h := h

theorem keptByParts_pitchTargetsOk (c : Config) :
    KeptByParts (fun _ => True) fun s => SizedFor c s ∧ PitchTargetsOk s where
  event _ _ _ h := h
  fetch _ _ _ _ h := h
  command i s _ _ h hexec := by
    refine ⟨h.1.exec hexec, ?_⟩
    cases exec_effect hexec with
    | voices hi he =>
      exact ((keptByNotes_pitchTargetsOk c).exec hi
        (fun v u hv _ hu => ⟨hu.1.voiceDone v, hu.2.voiceDone hu.1 (hu.1.lt_of_le_pred hv)⟩) h he).2
    | envelopes es f => rw [forEnvset_frame]; exact h.2
    | waveCommit slot valid => rw [waveCommit_frame]; exact h.2
    | settings frame => rw [frame]; exact h.2
    | lfo | oscWave | oscTarget | flags => exact h.2
  illegal _ h := h
  task k s h := by
    by_cases h2 : k = 2
    · rw [h2]
      exact housekeeping_keeps (P := fun s => SizedFor c s ∧ PitchTargetsOk s) h fun v _ hv _ ht =>
        ⟨ht.1.voiceDone v, ht.2.voiceDone ht.1 hv⟩
    · refine ⟨h.1.tickTask k, ?_⟩
      rw [tickTask_frame_of_ne_two h2]
      exact h.2
  tail s h := ⟨h.1.strobeTail, by rw [(strobeTail_frame s).1]; exact h.2⟩
  cmdWrite w s h := by unfold cmdWrite; split <;> exact h
  stageWrite i v s h := by unfold stageWrite; split <;> exact h
  statusRead _ _ h := h
  fill s h := ⟨h.1.fill, by rw [(fill_frame s).1]; exact h.2⟩
  drain s h := by rw [drain_frame]; exact h

/-- Settles O17: every part of a step keeps the legal values, and every part keeps the pitch targets. -/
theorem stepKeepsLegalValues : Obligations.StepKeepsLegalValues := by
  intro s t hsized hstep
  have hs : SizedFor s.cfg s := ⟨hsized, rfl⟩
  exact ⟨fun h => ((keptByParts_legal s.cfg).step (fun _ _ _ _ _ => trivial) ⟨hs, h⟩ hstep).2,
    fun h => ((keptByParts_pitchTargetsOk s.cfg).step (fun _ _ _ _ _ => trivial) ⟨hs, h⟩ hstep).2⟩

end Sys2Proof.Machine
end

section
/-! PROOF. O21 and O22: envelopes in Wait (R31 (b), R31 (c), R99). Wait is entered by deallocation alone, and left
by the gates and ENV_GATE alone; an update of an envelope does neither. -/

namespace Sys2Proof.Machine

/-! ## Envelopes through loops -/

/-- What `f` keeps of an envelope, changing some envelope by `f` keeps of envelope `k`. -/
theorem modEnv_env_keeps {Q : Env → Prop} {s : State} {k : Nat} (h : Q (s.env k)) (e : Nat) {f : Env → Env}
    (hf : ∀ x, Q x → Q (f x)) : Q ((s.modEnv e f).env k) := by
  rw [env_modEnv]
  split <;> rename_i hk
  · rw [hk.1] at h
    exact hf _ h
  · exact h

theorem forEnvset_env_keeps {Q : Env → Prop} {s : State} {k : Nat} (h : Q (s.env k)) (es : List Nat)
    {f : Env → Env} (hf : ∀ x, Q x → Q (envRecompute (f x))) : Q ((forEnvset es f s).env k) :=
  foldl_keeps es (P := fun t => Q (t.env k)) h fun _ e _ ht => modEnv_env_keeps ht e hf

/-- After its tick phase a strobe neither lets an envelope enter Wait nor leave it (R97, R99). -/
theorem strobeTail_wait_iff (s : State) (k : Nat) :
    ((strobeTail s).env k).stage = .wait ↔ (s.env k).stage = .wait := by
  rw [strobeTail_eq, (cvFrame_frame _).1]
  exact forUpTo_keeps (s := { s with tphase := s.tphase + 1 })
    (P := fun t => (t.env k).stage = .wait ↔ (s.env k).stage = .wait) Iff.rfl fun e _ _ ht =>
    modEnv_env_keeps (Q := fun x => x.stage = .wait ↔ (s.env k).stage = .wait) ht e fun x hx =>
      (envUpdate_keeps x).2.trans hx

theorem strobeTail_voice (s : State) (v : Nat) : (strobeTail s).voice v = s.voice v := by
  rw [(strobeTail_frame s).1]; rfl

/-! ## Wait and free voices (R31 (b)) -/

/-- The two envelopes of voice v are those numbered 2v and 2v + 1. -/
theorem waitIffFree_iff {s : State} :
    WaitIffFree s ↔ ∀ k, k / 2 < s.cfg.nVoices →
      ((s.voice (k / 2)).gated = true → (s.voice (k / 2)).assigned = true) ∧
      ((s.env k).stage = .wait ↔ (s.voice (k / 2)).assigned = false) := by
  constructor
  · intro h k hk
    obtain ⟨hgated, heven, hodd⟩ := h (k / 2) hk
    refine ⟨hgated, ?_⟩
    rcases Nat.mod_two_eq_zero_or_one k with hmod | hmod
    · rwa [show 2 * (k / 2) = k by omega] at heven
    · rwa [show 2 * (k / 2) + 1 = k by omega] at hodd
  · intro h v hv
    have heven := h (2 * v)
    have hodd := h (2 * v + 1)
    rw [show 2 * v / 2 = v by omega] at heven
    rw [show (2 * v + 1) / 2 = v by omega] at hodd
    exact ⟨(heven hv).1, (heven hv).2, (hodd hv).2⟩

namespace WaitIffFree

variable {c : Config} {s : State}

/-- What keeps the voices and neither lets an envelope enter Wait nor leave it. -/
theorem of_wait_iff {t : State} (h : WaitIffFree s) (hcfg : t.cfg = s.cfg) (hvoice : ∀ v, t.voice v = s.voice v)
    (henv : ∀ k, (t.env k).stage = .wait ↔ (s.env k).stage = .wait) : WaitIffFree t := by
  intro v hv
  rw [hvoice, henv, henv]
  exact h v (hcfg ▸ hv)

/-- Releasing a key gates off assigned voices only. -/
theorem gateOffVoice (h : WaitIffFree s) (hsized : SizedFor c s) {v : Nat} (hv : v < s.cfg.nVoices) :
    WaitIffFree (gateOffVoice v s) := by
  obtain ⟨hvo, hen, -⟩ := hsized.mem_files hv
  obtain ⟨-, -, -, hvoice, henv⟩ := gateOffVoice_spec v s hvo hen
  rw [waitIffFree_iff] at h ⊢
  intro k hk
  rw [gateOffVoice_frame] at hk
  obtain ⟨hgated, hwait⟩ := h k hk
  have hoff := envSetGate_stage false (s.env k)
  rw [hvoice, henv]
  by_cases hkv : k / 2 = v
  · rw [hkv] at hgated hwait
    by_cases hg : (s.voice v).gated = true ∧ s.hold = false
    · simp [hkv, hg, hoff, hgated hg.1]
    · simpa [hkv, hg, hwait] using fun hg _ => hgated hg
  · simpa [hkv] using ⟨hgated, hwait⟩

theorem releaseVoice (h : WaitIffFree s) (hsized : SizedFor c s) {v : Nat} (hv : v < s.cfg.nVoices)
    (hassigned : (s.voice v).assigned = true) : WaitIffFree (releaseVoice v s) := by
  obtain ⟨hvo, hen, -⟩ := hsized.mem_files hv
  obtain ⟨hvoice, henv⟩ := releaseVoice_spec v s hvo hen
  rw [waitIffFree_iff] at h ⊢
  intro k hk
  rw [releaseVoice_frame] at hk
  have hoff := envSetGate_stage false (s.env k)
  rw [hvoice, henv]
  by_cases hkv : k / 2 = v
  · simp [hkv, hoff, hassigned]
  · simpa [hkv] using h k hk

theorem voiceDone (h : WaitIffFree s) (hsized : SizedFor c s) {v : Nat} (hv : v < s.cfg.nVoices) :
    WaitIffFree (voiceDone v s) := by
  obtain ⟨hvo, hen, -⟩ := hsized.mem_files hv
  obtain ⟨-, -, -, hvoice, henv⟩ := voiceDone_spec v s hvo hen
  rw [waitIffFree_iff] at h ⊢
  intro k hk
  rw [hvoice, henv]
  by_cases hkv : k / 2 = v
  · simp [hkv, envForceWait]
  · simpa [hkv] using h k hk

/-- A grant starts Attack, but for a legato grant, which finds the voice gated, hence assigned (R71). -/
theorem grantVoice (h : WaitIffFree s) (hsized : SizedFor c s) (root : BitVec 7) (vel : U16) (kbd legato : Bool)
    {v : Nat} (i : Nat) (hv : v < s.cfg.nVoices) : WaitIffFree (grantVoice root vel kbd legato v i s) := by
  obtain ⟨hvo, hen, hpb, htb⟩ := hsized.mem_files hv
  obtain ⟨-, -, hvoice, -, -, henv⟩ := grantVoice_spec root vel kbd legato v i s hvo hen hpb htb
  rw [waitIffFree_iff] at h ⊢
  intro k hk
  rw [grantVoice_frame] at hk
  obtain ⟨hgated, hwait⟩ := h k hk
  rw [hvoice, henv]
  by_cases hkv : k / 2 = v
  · rw [hkv] at hgated hwait
    suffices hstage : ((Machine.grantVoice root vel kbd legato v i s).env k).stage ≠ .wait by
      rw [henv] at hstage
      simpa [hkv] using hstage
    rw [henv, if_pos hkv]
    split <;> rename_i hlegato
    · split
      · exact envSetGate_stage false _
      · rw [Bool.and_eq_true] at hlegato
        rw [Ne, hwait, hgated hlegato.2]
        decide
    · exact envSetGate_stage true _
  · simpa [hkv] using ⟨hgated, hwait⟩

end WaitIffFree

theorem keptByNotes_waitIffFree (c : Config) : KeptByNotes fun s => SizedFor c s ∧ WaitIffFree s where
  gateOff v _ hv h := ⟨h.1.gateOffVoice v, h.2.gateOffVoice h.1 hv⟩
  release v _ hv ha h := ⟨h.1.releaseVoice v, h.2.releaseVoice h.1 hv ha⟩
  held _ _ h := h
  hold _ _ h := h
  grant root vel kbd legato _ i _ hen h :=
    ⟨h.1.grantVoice root vel kbd legato i hen.1, h.2.grantVoice h.1 root vel kbd legato i hen.1⟩
  tick _ h := h

theorem keptByParts_waitIffFree (c : Config) :
    KeptByParts (fun i => isEnvGate i = false) fun s => SizedFor c s ∧ WaitIffFree s where
  event _ _ _ h := h
  fetch _ _ _ _ h := h
  command i s _ hi h hexec := by
    refine ⟨h.1.exec hexec, ?_⟩
    cases exec_effect hexec with
    | voices ha he =>
      exact ((keptByNotes_waitIffFree c).exec ha
        (fun v u hv _ hu => ⟨hu.1.voiceDone v, hu.2.voiceDone hu.1 (hu.1.lt_of_le_pred hv)⟩) h he).2
    | envelopes es f hstage =>
      refine h.2.of_wait_iff (by rw [forEnvset_frame]) (fun v => by rw [forEnvset_frame]; rfl) fun k => ?_
      refine forEnvset_env_keeps (Q := fun x => x.stage = .wait ↔ (s.env k).stage = .wait) Iff.rfl es fun x hx => ?_
      rcases hstage x with hstage | ⟨hgate, -⟩
      · show (f x).stage = .wait ↔ _
        rwa [hstage]
      · rw [hi] at hgate
        contradiction
    | waveCommit slot valid => rw [waveCommit_frame]; exact h.2
    | settings frame => rw [frame]; exact h.2
    | lfo | oscWave | oscTarget | flags => exact h.2
  illegal _ h := h
  task k s h := by
    by_cases h2 : k = 2
    · rw [h2]
      exact housekeeping_keeps (P := fun s => SizedFor c s ∧ WaitIffFree s) h fun v _ hv _ ht =>
        ⟨ht.1.voiceDone v, ht.2.voiceDone ht.1 hv⟩
    · refine ⟨h.1.tickTask k, ?_⟩
      rw [tickTask_frame_of_ne_two h2]
      exact h.2
  tail s h := ⟨h.1.strobeTail, h.2.of_wait_iff (by rw [(strobeTail_frame s).1]) (strobeTail_voice s)
    (strobeTail_wait_iff s)⟩
  cmdWrite w s h := by unfold cmdWrite; split <;> exact h
  stageWrite i v s h := by unfold stageWrite; split <;> exact h
  statusRead _ _ h := h
  fill s h := ⟨h.1.fill, by rw [(fill_frame s).1]; exact h.2⟩
  drain s h := by rw [drain_frame]; exact h

/-- Settles O21: every part of a step but ENV_GATE keeps the claim. -/
theorem stepKeepsWaitIffUnassigned : Obligations.StepKeepsWaitIffUnassigned := by
  intro s t hsized hwait hgate hstep
  refine ((keptByParts_waitIffFree s.cfg).step (fun hs w hw i hi => ?_) ⟨⟨hsized, rfl⟩, hwait⟩ hstep).2
  by_contra hne
  exact hgate hs ⟨w, hw, i, hi, by simpa using hne⟩

/-! ## Entering Wait (R31 (c)) -/

/-- Envelope `e` is in Wait only with its voice free and ungated, and where `D` holds. Ungated, so that a legato
grant cannot assign the voice and leave the envelope in Wait. -/
def WaitOnlyIf (D : Prop) (e : Nat) (s : State) : Prop :=
  (s.env e).stage = .wait → (s.voice (e / 2)).assigned = false ∧ (s.voice (e / 2)).gated = false ∧ D

namespace WaitOnlyIf

variable {c : Config} {D : Prop} {e : Nat} {s : State}

theorem of_ne_wait (h : (s.env e).stage ≠ .wait) : WaitOnlyIf D e s := fun hw => absurd hw h

/-- What keeps the voice and does not let the envelope enter Wait. -/
theorem of_wait_imp {t : State} (h : WaitOnlyIf D e s) (hvoice : t.voice (e / 2) = s.voice (e / 2))
    (henv : (t.env e).stage = .wait → (s.env e).stage = .wait) : WaitOnlyIf D e t := fun hw => by
  rw [hvoice]
  exact h (henv hw)

theorem gateOffVoice (h : WaitOnlyIf D e s) (hsized : SizedFor c s) {v : Nat} (hv : v < s.cfg.nVoices) :
    WaitOnlyIf D e (gateOffVoice v s) := by
  obtain ⟨hvo, hen, -⟩ := hsized.mem_files hv
  obtain ⟨-, -, -, hvoice, henv⟩ := gateOffVoice_spec v s hvo hen
  intro hw
  rw [henv] at hw
  split at hw
  · exact absurd hw (envSetGate_stage false _)
  · obtain ⟨hassigned, hgated, hD⟩ := h hw
    rw [hvoice]
    split <;> rename_i hev
    · rw [← hev]
      exact ⟨hassigned, by simp [hgated], hD⟩
    · exact ⟨hassigned, hgated, hD⟩

theorem releaseVoice (h : WaitOnlyIf D e s) (hsized : SizedFor c s) {v : Nat} (hv : v < s.cfg.nVoices) :
    WaitOnlyIf D e (releaseVoice v s) := by
  obtain ⟨hvo, hen, -⟩ := hsized.mem_files hv
  obtain ⟨hvoice, henv⟩ := releaseVoice_spec v s hvo hen
  intro hw
  rw [henv] at hw
  split at hw <;> rename_i hev
  · exact absurd hw (envSetGate_stage false _)
  · rw [hvoice, if_neg hev]
    exact h hw

theorem voiceDone (h : WaitOnlyIf D e s) (hsized : SizedFor c s) {v : Nat} (hv : v < s.cfg.nVoices)
    (hD : e / 2 = v → D) : WaitOnlyIf D e (voiceDone v s) := by
  obtain ⟨hvo, hen, -⟩ := hsized.mem_files hv
  obtain ⟨-, -, -, hvoice, henv⟩ := voiceDone_spec v s hvo hen
  intro hw
  rw [henv] at hw
  rw [hvoice]
  split <;> rename_i hev
  · exact ⟨rfl, rfl, hD hev⟩
  · rw [if_neg hev] at hw
    exact h hw

/-- A grant leaves no envelope of the voice in Wait: a legato grant finds the voice gated (R71). -/
theorem grantVoice (h : WaitOnlyIf D e s) (hsized : SizedFor c s) (root : BitVec 7) (vel : U16) (kbd legato : Bool)
    {v : Nat} (i : Nat) (hv : v < s.cfg.nVoices) : WaitOnlyIf D e (grantVoice root vel kbd legato v i s) := by
  obtain ⟨hvo, hen, hpb, htb⟩ := hsized.mem_files hv
  obtain ⟨-, -, hvoice, -, -, henv⟩ := grantVoice_spec root vel kbd legato v i s hvo hen hpb htb
  intro hw
  rw [henv] at hw
  split at hw <;> rename_i hev
  · exfalso
    split at hw <;> rename_i hlegato
    · split at hw
      · exact envSetGate_stage false _ hw
      · obtain ⟨-, hgated, -⟩ := h hw
        rw [hev] at hgated
        simp [hgated] at hlegato
    · exact envSetGate_stage true _ hw
  · rw [hvoice, if_neg hev]
    exact h hw

end WaitOnlyIf

theorem keptByNotes_waitOnlyIf (c : Config) (D : Prop) (e : Nat) :
    KeptByNotes fun s => SizedFor c s ∧ WaitOnlyIf D e s where
  gateOff v _ hv h := ⟨h.1.gateOffVoice v, h.2.gateOffVoice h.1 hv⟩
  release v _ hv _ h := ⟨h.1.releaseVoice v, h.2.releaseVoice h.1 hv⟩
  held _ _ h := h
  hold _ _ h := h
  grant root vel kbd legato _ i _ hen h :=
    ⟨h.1.grantVoice root vel kbd legato i hen.1, h.2.grantVoice h.1 root vel kbd legato i hen.1⟩
  tick _ h := h

/-- A command keeps the claim where `D` allows it to deallocate the voice of the envelope. -/
theorem exec_waitOnlyIf {c : Config} {D : Prop} {e : Nat} {i : Instr} {s t : State}
    (hD : deallocates c.nVoices (e / 2) i = true → D) (hsized : SizedFor c s) (h : WaitOnlyIf D e s)
    (hexec : exec i s = .next t) : WaitOnlyIf D e t := by
  cases exec_effect hexec with
  | voices ha he =>
    refine ((keptByNotes_waitOnlyIf c D e).exec ha (fun v u hv hdealloc hu => ?_) ⟨hsized, h⟩ he).2
    refine ⟨hu.1.voiceDone v, hu.2.voiceDone hu.1 (hu.1.lt_of_le_pred hv) fun hev => hD ?_⟩
    rw [hev, ← hu.1.2]
    exact hdealloc
  | envelopes es f hstage =>
    refine h.of_wait_imp (by rw [forEnvset_frame]; rfl) ?_
    refine forEnvset_env_keeps (Q := fun x => x.stage = .wait → (s.env e).stage = .wait) id es fun x hx hw => ?_
    change (f x).stage = .wait at hw
    rcases hstage x with hstage | ⟨-, hne⟩
    · exact hx (hstage ▸ hw)
    · exact absurd hw hne
  | waveCommit slot valid => rw [waveCommit_frame]; exact h
  | settings frame => rw [frame]; exact h
  | lfo | oscWave | oscTarget | flags => exact h

/-- The housekeeping deallocates the voice of an envelope only with the voice's amp envelope in Done (R131). -/
theorem housekeeping_waitOnlyIf {e : Nat} {s : State} (hsized : Sized s) (h : (s.env e).stage ≠ .wait) :
    WaitOnlyIf ((s.env (2 * (e / 2) + 1)).stage = .done) e (tickTask 2 s) := by
  refine (housekeeping_keeps (s := s)
    (P := fun t => SizedFor s.cfg t ∧ WaitOnlyIf ((s.env (2 * (e / 2) + 1)).stage = .done) e t ∧
      ((t.env (2 * (e / 2) + 1)).stage = .done → (s.env (2 * (e / 2) + 1)).stage = .done))
    ⟨⟨hsized, rfl⟩, .of_ne_wait h, id⟩ fun v t hv hstage ⟨htsized, ht, hdone⟩ => ?_).2.1
  obtain ⟨hvo, hen, -⟩ := htsized.mem_files hv
  obtain ⟨-, -, -, -, henv⟩ := voiceDone_spec v t hvo hen
  refine ⟨htsized.voiceDone v, ht.voiceDone htsized hv fun hev => hdone (by rw [hev]; exact hstage), fun hd => hdone ?_⟩
  rw [henv] at hd
  split at hd
  · contradiction
  · exact hd

/-- Where an envelope is in Wait after a strobe and was not before, the strobe deallocated its voice. -/
theorem strobe_enters_wait {e : Nat} {s t : State} (hsized : Sized s) (h : strobe s = .next t)
    (hbefore : (s.env e).stage ≠ .wait) (hafter : (t.env e).stage = .wait) :
    (t.voice (e / 2)).assigned = false ∧
    ((s.tphase = 2 ∧ (s.env (2 * (e / 2) + 1)).stage = .done) ∨
     (s.tphase = 0 ∧ someCommand (drainedWords s) fun i => deallocates s.cfg.nVoices (e / 2) i = true)) := by
  rcases strobe_cases h with ⟨hp, hws, u, hd, rfl⟩ | ⟨hp, rfl⟩ <;> rw [strobeTail_wait_iff] at hafter <;>
    rw [strobeTail_voice]
  · have hu : SizedFor s.cfg u ∧
        WaitOnlyIf (someCommand (drainedWords s) fun i => deallocates s.cfg.nVoices (e / 2) i = true) e u := by
      refine drainWords_keeps (P := fun u => SizedFor s.cfg u ∧ WaitOnlyIf _ e u) hd
        ⟨⟨hsized, rfl⟩, .of_ne_wait hbefore⟩ fun w hw v q v' _ ⟨hv, hwait⟩ hexec => ?_
      have hfetched : SizedFor s.cfg { v with fifo := q, cmdCount := v.cmdCount + 1 } := hv
      rcases execute_cases hexec with ⟨i, hi, hi'⟩ | ⟨-, -, rfl⟩
      · refine ⟨hfetched.exec hi', exec_waitOnlyIf (fun hdealloc => ?_) hfetched hwait hi'⟩
        exact ⟨w, hws ▸ hw, i, hi, hdealloc⟩
      · exact ⟨hfetched, hwait⟩
    obtain ⟨hassigned, -, hD⟩ := hu.2 hafter
    exact ⟨hassigned, .inr ⟨hp, hD⟩⟩
  · by_cases h2 : s.tphase = 2
    · rw [h2] at hafter ⊢
      obtain ⟨hassigned, -, hD⟩ := housekeeping_waitOnlyIf hsized hbefore hafter
      exact ⟨hassigned, .inl ⟨rfl, hD⟩⟩
    · have hk : s.tphase.toNat ≠ 2 := fun hk => h2 (BitVec.eq_of_toNat_eq hk)
      rw [tickTask_frame_of_ne_two hk] at hafter
      exact absurd hafter hbefore

/-- Settles O22: a strobe lets an envelope enter Wait as `strobe_enters_wait` says, and no other agent writes an
envelope. -/
theorem waitIsEnteredByDeallocationOnly : Obligations.WaitIsEnteredByDeallocationOnly := by
  intro s t e hsized _ hstep hbefore hafter
  obtain ⟨a, ha, hrun⟩ := step_cases hstep
  rw [afterEvent_frame] at hrun
  by_cases hs : a = .strobe
  · subst hs
    exact ⟨ha, strobe_enters_wait (s := { s with
      script := (afterEvent s).script, schedPos := (afterEvent s).schedPos }) hsized hrun hbefore hafter⟩
  · rw [runAgent_portFrame hs hrun] at hafter
    exact absurd hafter hbefore

end Sys2Proof.Machine
end

section
/-! PROOF. O9: the counters TPHASE, CMD_COUNT and TS (R17, R61, R71, R130, R150). -/

namespace Sys2Proof.Machine

/-! ## TS and the events of one command -/

/-- TS advances by one with a GATE_ON among the events appended, and not without (R71). -/
def CountsGrant (s t : State) : Prop :=
  ∃ new, t.evt = s.evt ++ new ∧ t.ts = s.ts + if ∃ r ∈ new, r.kind = .gateOn then 1 else 0

/-- TS is kept, and none but GATE_OFF events are appended. -/
def OnlyGateOffs (s t : State) : Prop :=
  t.ts = s.ts ∧ ∃ new, t.evt = s.evt ++ new ∧ ∀ r ∈ new, r.kind = .gateOff

theorem OnlyGateOffs.of_eq {s t : State} (hts : t.ts = s.ts) (hevt : t.evt = s.evt) : OnlyGateOffs s t :=
  ⟨hts, [], by simpa using hevt, by simp⟩

theorem OnlyGateOffs.append {s t : State} (h : OnlyGateOffs s t) {u : State} {new : List Evt} (hts : u.ts = t.ts)
    (hevt : u.evt = t.evt ++ new) (hnew : ∀ r ∈ new, r.kind = .gateOff) : OnlyGateOffs s u := by
  obtain ⟨htst, old, hold, hkind⟩ := h
  refine ⟨hts.trans htst, old ++ new, by rw [hevt, hold, List.append_assoc], fun r hr => ?_⟩
  rcases List.mem_append.mp hr with hr | hr
  · exact hkind r hr
  · exact hnew r hr

theorem OnlyGateOffs.countsGrant {s t : State} (h : OnlyGateOffs s t) : CountsGrant s t := by
  obtain ⟨hts, new, hevt, hkind⟩ := h
  refine ⟨new, hevt, ?_⟩
  rw [if_neg]
  · simpa using hts
  · rintro ⟨r, hr, hon⟩
    rw [hkind r hr] at hon
    contradiction

theorem keptByReleases_onlyGateOffs (s : State) : KeptByReleases (OnlyGateOffs s) where
  gateOff v t _ h := h.append (by rw [gateOffVoice_frame]) (by rw [gateOffVoice_frame]) fun r hr => by
    split at hr
    · rw [List.mem_singleton.mp hr]; rfl
    · contradiction
  release v t _ _ h := h.append (by rw [releaseVoice_frame]) (by rw [releaseVoice_frame]) fun r hr => by
    rw [List.mem_singleton.mp hr]; rfl

/-- With an enabled voice and a pattern of at least one note a grant has a target (R69). -/
theorem targets_ne_nil {s : State} {v : Nat} (h : Enabled s v) (hplen : 1 ≤ s.plen.toNat) (start : Nat) :
    targets s start ≠ [] := by
  obtain ⟨hv, hmask⟩ := h
  -- v is met on the way round
  have hround : (start + (v + s.cfg.nVoices - start % s.cfg.nVoices) % s.cfg.nVoices) % s.cfg.nVoices = v := by
    have hlt := Nat.mod_lt start (Nat.zero_lt_of_lt hv)
    rw [Nat.add_mod_mod, ← Nat.mod_add_mod, show start % s.cfg.nVoices + (v + s.cfg.nVoices - start % s.cfg.nVoices) =
      v + s.cfg.nVoices by omega, Nat.add_mod_right, Nat.mod_eq_of_lt hv]
  have hmem : v ∈ ((List.range s.cfg.nVoices).map fun k => (start + k) % s.cfg.nVoices).filter
      fun v => s.voiceMask.getLsbD v :=
    List.mem_filter.mpr ⟨List.mem_map.mpr ⟨_, List.mem_range.mpr (Nat.mod_lt _ (by omega)), hround⟩, hmask⟩
  intro hnil
  rw [targets, List.take_eq_nil_iff] at hnil
  rcases hnil with hnil | hnil
  · omega
  · rw [hnil] at hmem
    contradiction

/-- A grant appends a GATE_ON and advances TS once (R71). -/
theorem assignPattern_countsGrant {s : State} {v : Nat} (hv : Enabled s v) (hplen : 1 ≤ s.plen.toNat) (start : Nat)
    (root : BitVec 7) (vel : U16) (kbd legato : Bool) :
    CountsGrant s (assignPattern start root vel kbd legato s) := by
  obtain ⟨hts, new, hevt, hon⟩ := foldl_induct (targets s start).zipIdx (s := s)
    (f := fun t p => grantVoice root vel kbd legato p.1 p.2 t)
    (P := fun k t => t.ts = s.ts ∧ ∃ new, t.evt = s.evt ++ new ∧ (0 < k → ∃ r ∈ new, r.kind = .gateOn))
    ⟨rfl, [], by simp, by simp⟩ fun k t p _ ⟨hts, new, hevt, _⟩ => by
      refine ⟨by rw [grantVoice_frame]; exact hts, new ++ grantEvents root vel kbd legato p.1 p.2 t, ?_, fun _ => ?_⟩
      · rw [grantVoice_frame, ← List.append_assoc, ← hevt]
      · exact ⟨_, List.mem_append_right _ (List.mem_append_right _ (List.mem_singleton.mpr rfl)), rfl⟩
  have hpos : 0 < (targets s start).zipIdx.length := by
    rw [List.length_zipIdx]
    exact List.length_pos_iff.mpr (targets_ne_nil hv hplen start)
  refine ⟨new, hevt, ?_⟩
  rw [if_pos (hon hpos), ← hts]
  rfl

/-- The note commands grant from a start voice only where some voice is enabled. -/
theorem enabled_of_polyStart {s : State} {note : BitVec 7} {start : Nat} (h : polyStart s note = some start) :
    ∃ v, Enabled s v := by
  obtain ⟨v, hv⟩ : ∃ v, v ∈ enabledVoices s := by
    refine List.exists_mem_of_ne_nil _ fun hnil => ?_
    simp [polyStart, hnil] at h
  exact ⟨v, mem_enabledVoices.mp hv⟩

theorem enabled_of_enabledVoices_cons {s : State} {v : Nat} {vs : List Nat} (h : enabledVoices s = v :: vs) :
    Enabled s v :=
  mem_enabledVoices.mp (h ▸ List.mem_cons_self)

theorem noteOn_countsGrant {s : State} (hplen : 1 ≤ s.plen.toNat) (k : Bool) (note : BitVec 7) (vel : U16) :
    CountsGrant s (if s.mono then noteOnMono note vel k s else noteOnPoly note vel k s) := by
  have hdrop : CountsGrant s (s.setHeld note true) := (OnlyGateOffs.of_eq rfl rfl).countsGrant
  split
  · simp only [noteOnMono]
    split
    · exact hdrop
    · split
      · exact assignPattern_countsGrant (s := s.setHeld note true) (enabled_of_enabledVoices_cons ‹_›) hplen ..
      · exact hdrop
  · simp only [noteOnPoly]
    split
    · obtain ⟨v, hv⟩ := enabled_of_polyStart ‹_›
      exact assignPattern_countsGrant (s := s.setHeld note true) hv hplen ..
    · exact hdrop

theorem noteOff_countsGrant {s : State} (hplen : 1 ≤ s.plen.toNat) (note : BitVec 7) :
    CountsGrant s (if s.mono then noteOffMono note s else noteOffPoly note s) := by
  have hdrop : OnlyGateOffs s (s.setHeld note false) := .of_eq rfl rfl
  have hrelease := ((keptByReleases_onlyGateOffs s).gateOffRoot note hdrop).countsGrant
  split
  · simp only [noteOffMono]
    split
    · exact hdrop.countsGrant
    · split
      · exact assignPattern_countsGrant (s := s.setHeld note false) (enabled_of_enabledVoices_cons ‹_›) hplen ..
      · exact hrelease
  · exact hrelease

/-- A command that acts on voices counts its grant: the note commands grant, the others release or deallocate. -/
theorem exec_countsGrant_of_actsOnVoices {i : Instr} {s t : State} (hi : actsOnVoices i = true)
    (hplen : 1 ≤ s.plen.toNat) (h : exec i s = .next t) : CountsGrant s t := by
  have hreleases := keptByReleases_onlyGateOffs s
  cases i <;> injection h with h <;> subst h
  case noteOn k note vel => exact noteOn_countsGrant hplen k note vel
  case noteOff note => exact noteOff_countsGrant hplen note
  case voiceDone => exact (OnlyGateOffs.of_eq rfl rfl).countsGrant
  case allKeysOff =>
    exact (hreleases.gateOffIf (s := { s with noteHeld := 0 }) (fun v t => (t.voice v).assigned)
      (.of_eq rfl rfl)).countsGrant
  case panicOff =>
    exact (forVoices_keeps (s := { s with noteHeld := 0 }) (f := voiceDone) (P := OnlyGateOffs s) (.of_eq rfl rfl)
      fun _ _ _ ht => ht).countsGrant
  case hold on =>
    split
    · exact (OnlyGateOffs.of_eq rfl rfl).countsGrant
    · exact (hreleases.releaseHeld (s := { s with hold := on }) (.of_eq rfl rfl)).countsGrant
  all_goals contradiction

/-- A command counts its grant. -/
theorem exec_countsGrant {i : Instr} {s t : State} (hplen : 1 ≤ s.plen.toNat) (h : exec i s = .next t) :
    CountsGrant s t := by
  have hsame : ∀ {t : State}, t.ts = s.ts → t.evt = s.evt → CountsGrant s t := fun hts hevt =>
    (OnlyGateOffs.of_eq hts hevt).countsGrant
  cases exec_effect h with
  | voices hi => exact exec_countsGrant_of_actsOnVoices hi hplen h
  | envelopes es f => exact hsame (by rw [forEnvset_frame]) (by rw [forEnvset_frame])
  | waveCommit slot valid => exact hsame (by rw [waveCommit_frame]) (by rw [waveCommit_frame])
  | settings frame => exact hsame (by rw [frame]) (by rw [frame])
  | lfo | oscWave | oscTarget | flags => exact hsame rfl rfl

/-- A command leaves a pattern of at least one note (R54, R89). -/
theorem exec_one_le_plen {i : Instr} {s t : State} (hn : 1 ≤ s.cfg.nVoices) (hplen : 1 ≤ s.plen.toNat)
    (h : exec i s = .next t) : 1 ≤ t.plen.toNat := by
  cases exec_effect h with
  | voices _ _ frame => rw [frame]; exact hplen
  | envelopes es f => rw [forEnvset_frame]; exact hplen
  | waveCommit slot valid => rw [waveCommit_frame]; exact hplen
  | settings _ _ _ hnew =>
    rcases hnew with e | ⟨len, e⟩ <;> rw [e]
    · exact hplen
    · exact (toNat_plenOperand hn len).1
  | lfo | oscWave | oscTarget | flags => exact hplen

/-- A drained word counts its grant, and leaves what the next word needs for it. -/
theorem execute_countsGrant {w : Word} {s t : State} (hn : 1 ≤ s.cfg.nVoices) (hplen : 1 ≤ s.plen.toNat)
    (h : execute w s = .next t) : CountsGrant s t ∧ 1 ≤ t.cfg.nVoices ∧ 1 ≤ t.plen.toNat := by
  have hcfg : t.cfg = s.cfg := by rw [execute_frame h]
  rcases execute_cases h with ⟨i, -, hi⟩ | ⟨e, -, rfl⟩
  · exact ⟨exec_countsGrant (s := { s with cmdCount := s.cmdCount + 1 }) hplen hi, hcfg ▸ hn,
      exec_one_le_plen (s := { s with cmdCount := s.cmdCount + 1 }) hn hplen hi⟩
  · exact ⟨(OnlyGateOffs.of_eq rfl rfl).countsGrant, hn, hplen⟩

/-! ## The counters in a strobe -/

/-- TPHASE and CMD_COUNT in a strobe, and TS in one that executes no command (R61, R130, R131). -/
theorem strobe_counters {s t : State} (h : strobe s = .next t) :
    t.tphase = s.tphase + 1 ∧ t.cmdCount = s.cmdCount + BitVec.ofNat 32 (drainedWords s).length ∧
    (s.tphase ≠ 0 → t.ts = if s.tphase = 7 then s.ts + 1 else s.ts) := by
  have htail : ∀ u, (strobeTail u).tphase = u.tphase + 1 ∧ (strobeTail u).cmdCount = u.cmdCount ∧
      (strobeTail u).ts = u.ts := fun u => by rw [(strobeTail_frame u).1]; exact ⟨rfl, rfl, rfl⟩
  rcases strobe_cases h with ⟨hp, hws, u, hd, rfl⟩ | ⟨hp, rfl⟩
  · obtain ⟨htphase, hcount⟩ := drainWords_induct
      (P := fun j u => u.tphase = s.tphase ∧ u.cmdCount = s.cmdCount + BitVec.ofNat 32 j) hd ⟨rfl, by simp⟩
      fun j w _ u q v _ ⟨hphase, hcount⟩ hexec => by
        rw [execute_frame hexec]
        refine ⟨hphase, ?_⟩
        dsimp only
        rw [hcount, BitVec.ofNat_add, BitVec.add_assoc]
        rfl
    obtain ⟨h1, h2, -⟩ := htail u
    exact ⟨by rw [h1, htphase], by rw [h2, hcount, hws], fun hne => absurd hp hne⟩
  · obtain ⟨h1, h2, h3⟩ := htail (tickTask s.tphase.toNat s)
    have hseven : s.tphase = 7 ↔ s.tphase.toNat = 7 := BitVec.toNat_eq
    refine ⟨?_, ?_, fun _ => ?_⟩
    · rw [h1, (tickTask_frame _ s).1]
    · rw [h2, (tickTask_frame _ s).1, drainedWords, if_neg hp]
      simp
    · rw [h3, tickTask_ts]
      simp only [hseven]

/-- TS and the events in a strobe of tick phase 0, word by word (R60, R71). -/
theorem strobe_countsGrants {s t : State} (h : strobe s = .next t) (hp : s.tphase = 0) (hplen : 1 ≤ s.plen.toNat)
    (hn : 1 ≤ s.cfg.nVoices) :
    ∃ u : Nat → State, u 0 = s ∧ t.ts = (u (drainedWords s).length).ts ∧ t.evt = (u (drainedWords s).length).evt ∧
      ∀ j w, (drainedWords s)[j]? = some w →
        execute w { u j with fifo := s.fifo.drop (j + 1) } = .next (u (j + 1)) ∧ CountsGrant (u j) (u (j + 1)) := by
  rcases strobe_cases h with ⟨-, hws, t', hd, rfl⟩ | ⟨hne, -⟩
  · rw [hws]
    obtain ⟨u, rfl, rfl, hready, hstep⟩ := drainWords_chain_induct
      (P := fun _ u => 1 ≤ u.cfg.nVoices ∧ 1 ≤ u.plen.toNat) hd ⟨hn, hplen⟩ fun _ _ _ v q _ _ hv hexec =>
        (execute_countsGrant (s := { v with fifo := q }) hv.1 hv.2 hexec).2
    refine ⟨u, rfl, by rw [(strobeTail_frame _).1], by rw [(strobeTail_frame _).1], fun j w hj => ?_⟩
    obtain ⟨hlt, -⟩ := List.getElem?_eq_some_iff.mp hj
    obtain ⟨hnj, hplenj⟩ := hready j hlt.le
    have hcounts := execute_countsGrant (s := { u j with fifo := (u 0).fifo.drop (j + 1) }) hnj hplenj (hstep j w hj)
    exact ⟨hstep j w hj, hcounts.1⟩
  · exact absurd hp hne

/-- Settles O9: a strobe advances the counters as `strobe_counters` and `strobe_countsGrants` say, and no other
agent writes one. -/
theorem countersAdvanceOnStrobesOnly : Obligations.CountersAdvanceOnStrobesOnly := by
  intro s t hstep
  obtain ⟨a, ha, hrun⟩ := step_cases hstep
  by_cases hs : a = .strobe
  · subst hs
    refine ⟨fun _ => ?_, fun hne => absurd ha hne⟩
    have hcounters := strobe_counters hrun
    have hgrants := strobe_countsGrants hrun
    rw [drainedWords_afterEvent] at hcounters hgrants
    have hkeeps : (afterEvent s).tphase = s.tphase ∧ (afterEvent s).cmdCount = s.cmdCount ∧
        (afterEvent s).ts = s.ts ∧ (afterEvent s).plen = s.plen ∧ (afterEvent s).cfg = s.cfg ∧
        (afterEvent s).fifo = s.fifo := by
      rw [afterEvent_frame]
      exact ⟨rfl, rfl, rfl, rfl, rfl, rfl⟩
    obtain ⟨htphase, hcount, hts, hplen, hcfg, hfifo⟩ := hkeeps
    rw [htphase, hcount, hts] at hcounters
    rw [htphase, hplen, hcfg, hfifo] at hgrants
    exact ⟨hcounters.1, hcounters.2.1, hcounters.2.2, hgrants⟩
  · refine ⟨fun hstrobe => ?_, fun _ => ?_⟩
    · rw [ha] at hstrobe
      injection hstrobe with hstrobe
      exact absurd hstrobe hs
    · rw [runAgent_portFrame hs hrun, afterEvent_frame]
      exact ⟨rfl, rfl, rfl⟩

end Sys2Proof.Machine
end

section
/-! PROOF. O23: no command grants a voice that is not enabled (R31 (d), R69, R76, R79, R87). -/

namespace Sys2Proof.Machine

/-- From `x` to `y` the voice is not newly assigned and keeps what a grant writes. -/
def VoiceNotGranted (x y : Voice) : Prop :=
  (y.assigned = true → x.assigned = true) ∧ y.note = x.note ∧ y.rootNote = x.rootNote ∧ y.velocity = x.velocity ∧
  y.fromKeyboard = x.fromKeyboard ∧ y.ts = x.ts

theorem VoiceNotGranted.refl (x : Voice) : VoiceNotGranted x x := ⟨id, rfl, rfl, rfl, rfl, rfl⟩

/-- From `s` to `t` voice `v` is not granted: its record and its pitches say so, and of the events appended none
but a GATE_OFF names it. -/
def NotGranted (v : Nat) (s t : State) : Prop :=
  VoiceNotGranted (s.voice v) (t.voice v) ∧ (t.pbOf v = s.pbOf v ∧ t.tbOf v = s.tbOf v) ∧
  ∃ new, t.evt = s.evt ++ new ∧ ∀ r ∈ new, r.voice = v → r.kind = .gateOff

namespace NotGranted

variable {v : Nat} {s t u : State}

/-- What keeps the voices, the pitches and the events. -/
theorem of_eq (hvoice : t.voice v = s.voice v) (hpb : t.pbOf v = s.pbOf v) (htb : t.tbOf v = s.tbOf v)
    (hevt : t.evt = s.evt) : NotGranted v s t :=
  ⟨hvoice ▸ .refl _, ⟨hpb, htb⟩, [], by simpa using hevt, by simp⟩

theorem trans (h : NotGranted v s t) (k : NotGranted v t u) : NotGranted v s u := by
  obtain ⟨⟨ha, hn, hr, hve, hk, hts⟩, ⟨hpb, htb⟩, old, hold, hkind⟩ := h
  obtain ⟨⟨ka, kn, kr, kve, kk, kts⟩, ⟨kpb, ktb⟩, new, hnew, kkind⟩ := k
  refine ⟨⟨ha ∘ ka, kn.trans hn, kr.trans hr, kve.trans hve, kk.trans hk, kts.trans hts⟩,
    ⟨kpb.trans hpb, ktb.trans htb⟩, old ++ new, by rw [hnew, hold, List.append_assoc], fun r hr => ?_⟩
  rcases List.mem_append.mp hr with hr | hr
  · exact hkind r hr
  · exact kkind r hr

/-- Changing some voice so. -/
theorem modVoice (w : Nat) {f : Voice → Voice} (hf : ∀ x, VoiceNotGranted x (f x)) :
    NotGranted v s (s.modVoice w f) := by
  refine ⟨?_, ⟨rfl, rfl⟩, [], by simp, by simp⟩
  rw [voice_modVoice]
  split <;> rename_i hv
  · rw [hv.1]; exact hf _
  · exact .refl _

/-- An event that does not name the voice, or a GATE_OFF. -/
theorem emit {r : Evt} (hr : r.voice = v → r.kind = .gateOff) : NotGranted v s (emit r s) := by
  rw [emit_frame]
  refine ⟨.refl _, ⟨rfl, rfl⟩, [r], rfl, fun r' hr' => ?_⟩
  rw [List.mem_singleton.mp hr']
  exact hr

/-- Gating off some voice, with its event. -/
theorem gateOff (w : Nat) (x : State) :
    NotGranted v s (Machine.emit (offEvent .gateOff w x) (s.modVoice w fun x => { x with gated := false })) := by
  have hgate : NotGranted v s (s.modVoice w fun x => { x with gated := false }) :=
    modVoice w fun _ => ⟨id, rfl, rfl, rfl, rfl, rfl⟩
  exact hgate.trans (emit fun _ => rfl)

theorem gateOffVoice (w : Nat) : NotGranted v s (gateOffVoice w s) := by
  have hkey : NotGranted v s (s.modVoice w fun x => { x with keyPressed := false }) :=
    modVoice w fun _ => ⟨id, rfl, rfl, rfl, rfl, rfl⟩
  unfold Machine.gateOffVoice
  dsimp only
  split
  · exact hkey.trans (gateOff w _)
  · exact hkey

theorem releaseVoice (w : Nat) : NotGranted v s (releaseVoice w s) := gateOff w s

theorem voiceDone (w : Nat) : NotGranted v s (voiceDone w s) := by
  have hfree : NotGranted v s (s.modVoice w fun x =>
      { x with assigned := false, gated := false, keyPressed := false, legato := false }) :=
    modVoice w fun _ => ⟨Bool.noConfusion, rfl, rfl, rfl, rfl, rfl⟩
  exact hfree

/-- Granting another voice. -/
theorem grantVoice {w : Nat} (hw : w ≠ v) (root : BitVec 7) (vel : U16) (kbd legato : Bool) (i : Nat) :
    NotGranted v s (grantVoice root vel kbd legato w i s) := by
  have hemit : ∀ {r : Evt} {t : State}, r.voice = w → NotGranted v t (Machine.emit r t) := fun hr =>
    emit fun e => absurd (hr.symm.trans e) hw
  have hvoice : ∀ {f : Voice → Voice} {t : State}, NotGranted v t (t.modVoice w f) := fun {f t} =>
    of_eq (by rw [voice_modVoice, if_neg fun e => hw e.1.symm]) rfl rfl rfl
  have htb : ∀ {x : U16} {t : State}, NotGranted v t (t.setTb w x) := fun {x t} =>
    of_eq rfl rfl (by rw [tbOf_setTb, if_neg fun e => hw e.1.symm]) rfl
  have hpb : ∀ {x : U16} {t : State}, NotGranted v t (t.setPb w x) := fun {x t} =>
    of_eq rfl (by rw [pbOf_setPb, if_neg fun e => hw e.1.symm]) rfl rfl
  obtain ⟨stolen, hs⟩ : ∃ stolen, stolen = if !s.mono && (s.voice w).assigned && (s.voice w).rootNote != root
      then Machine.emit (offEvent .stolenOff w s) s else s := ⟨_, rfl⟩
  have hstolen : NotGranted v s stolen := by
    rw [hs]
    split
    · exact hemit rfl
    · exact of_eq rfl rfl rfl rfl
  have hpitch : ∀ f x, NotGranted v s ((stolen.modVoice w f).setTb w x) := fun _ _ => (hstolen.trans hvoice).trans htb
  unfold Machine.grantVoice
  dsimp only
  rw [← hs]
  refine trans ?_ (hemit rfl)
  split
  · exact (hpitch _ _).trans hpb
  · exact hpitch _ _

end NotGranted

theorem keptByNotes_notGranted (v : Nat) (s : State) : KeptByNotes fun t => ¬Enabled t v ∧ NotGranted v s t where
  gateOff w t _ h := ⟨by rw [gateOffVoice_frame]; exact h.1, h.2.trans (.gateOffVoice w)⟩
  release w t _ _ h := ⟨by rw [releaseVoice_frame]; exact h.1, h.2.trans (.releaseVoice w)⟩
  held _ _ h := h
  hold _ _ h := h
  grant root vel kbd legato w i t hen h := by
    have hw : w ≠ v := fun e => h.1 (e ▸ hen)
    exact ⟨by rw [grantVoice_frame]; exact h.1, h.2.trans (.grantVoice hw root vel kbd legato i)⟩
  tick _ h := h

/-- A command does not grant a voice that is not enabled: a grant goes to enabled voices, and nothing else assigns
one. -/
theorem exec_notGranted {i : Instr} {s t : State} {v : Nat} (hv : ¬Enabled s v) (h : exec i s = .next t) :
    NotGranted v s t := by
  cases exec_effect h with
  | voices hi =>
    exact ((keptByNotes_notGranted v s).exec hi (fun w _ _ _ hu => ⟨hu.1, hu.2.trans (.voiceDone w)⟩)
      ⟨hv, .of_eq rfl rfl rfl rfl⟩ h).2
  | envelopes es f => rw [forEnvset_frame]; exact .of_eq rfl rfl rfl rfl
  | waveCommit slot valid => rw [waveCommit_frame]; exact .of_eq rfl rfl rfl rfl
  | settings frame => rw [frame]; exact .of_eq rfl rfl rfl rfl
  | lfo | oscWave | oscTarget | flags => exact .of_eq rfl rfl rfl rfl

/-- Settles O23, from `exec_notGranted`. -/
theorem disabledVoicesAreNeverGranted : Obligations.DisabledVoicesAreNeverGranted := by
  intro i s t v hexec hv
  obtain ⟨⟨hassigned, hnote, hroot, hvel, hkbd, hts⟩, ⟨hpb, htb⟩, hevt⟩ := exec_notGranted hv hexec
  exact ⟨hassigned, ⟨hnote, hroot, hvel, hkbd, hts, hpb, htb⟩, hevt⟩

end Sys2Proof.Machine
end

section
/-! PROOF. O13: the side effects of the three host ports (R40). -/

namespace Sys2Proof.Machine

/-- Writing what an index already holds changes nothing: the canonical form leaves one list for it. -/
theorem Memory.write_of_read_eq {w : Nat} {d : BitVec w} {m : Memory w} (h : Memory.wf d m) {a : Nat} {v : BitVec w}
    (hv : Memory.read d m a = v) : Memory.write d m a v = m := by
  obtain ⟨hsorted, hne⟩ := h
  induction m with
  | nil => simp [Memory.write, ← hv, Memory.read]
  | cons c m ih =>
    obtain ⟨hhead, htail⟩ := List.pairwise_cons.mp hsorted
    simp only [Memory.write]
    split
    · next hlt =>
      have hd : Memory.read d (c :: m) a = d := Memory.read_eq_dflt fun x hx => by
        rcases List.mem_cons.mp hx with rfl | hx
        · omega
        · have := hhead x hx; omega
      rw [if_pos (hv.symm.trans hd)]
    · simp only [Memory.read] at hv
      split
      · next heq =>
        rw [if_pos heq] at hv
        rw [← hv, if_neg (hne c (by simp)), heq]
      · next hneq =>
        rw [if_neg hneq] at hv
        rw [ih hv htail fun x hx => hne x (by simp [hx])]

/-- A STAGE write of the value that the entry holds changes nothing. -/
theorem stageWrite_of_held {s : State} (hm : Memory.wf 0 s.staging) {i : BitVec 12} {v : U16}
    (hv : s.readStaging i.toNat = v) : stageWrite i v s = s := by
  rw [stageWrite, Memory.write_of_read_eq hm hv, ite_self]

theorem stageWrite_of_ge {s : State} {i : BitVec 12} (h : s.cfg.waveMax ≤ i.toNat) (v : U16) :
    stageWrite i v s = s := if_neg (by omega)

/-- A STAGE write done twice is the same as once (R40): inside the space the second one finds its value held, and
outside it neither has an effect. -/
theorem stageWrite_idem {s : State} (hm : Memory.wf 0 s.staging) (i : BitVec 12) (v : U16) :
    stageWrite i v (stageWrite i v s) = stageWrite i v s := by
  obtain ⟨-, hcanonical, hread⟩ := stageWrite_spec hm i v
  by_cases h : i.toNat < s.cfg.waveMax
  · exact stageWrite_of_held hcanonical (by rw [hread, if_pos ⟨rfl, h⟩])
  · simp only [stageWrite_of_ge (Nat.le_of_not_lt h)]

/-- A CMD write that finds room is accepted: it appends its word and does nothing else (R59). -/
theorem cmdWrite_of_room {s : State} (h : s.fifo.length < s.cfg.fifoDepth) (w : Word) :
    cmdWrite w s = { s with fifo := s.fifo ++ [w] } := if_pos h

/-- A scripted status read hands the host the word of the state before it, and writes nothing else (R36, R40). -/
theorem step_statusRead {s : State} {a : BitVec 8} {rest : List Event}
    (h : s.script = .agent (.statusRead a) :: rest) :
    step s = .next { s with script := rest, reads := s.reads ++ [(a, readStatus s a)] } := by
  rw [step_eq, nextEvent_of_script h, afterEvent_of_script h]
  rfl

/-- Settles O13: no status word depends on the two fields a status read writes; a second STAGE write finds its value
in place; two CMD writes that both find room append their words in turn. -/
theorem portSideEffects : Obligations.PortSideEffects := by
  refine ⟨fun s a rest h => ⟨_, step_statusRead h, rfl, fun b => rfl⟩, fun s i v hm => ?_, fun s w hroom => ?_⟩
  · obtain ⟨⟨hstaging, -⟩, -, -⟩ := hm
    exact stageWrite_idem hstaging i v
  · have hfirst := cmdWrite_of_room (s := s) (by omega) w
    rw [hfirst, cmdWrite_of_room (by simp only [List.length_append, List.length_singleton]; omega)]
    simp

end Sys2Proof.Machine
end

section
/-! PROOF. O14: the status map (R34 to R36). A status word is the sum of its fields at their places; `PacksFrom` reads
such a sum off against the word written field by field, so that the proof of a word's layout names its fields from
bit 0 up, as the rule's table does. -/

namespace Sys2Proof.Machine

/-! ## Words made of fields -/

/-- The fields, each at its place in a status word, hold `x` from bit `lo` up and nothing else. -/
def PacksFrom (lo : Nat) {n : Nat} (x : BitVec n) (fields : List Nat) : Prop := fields.sum = x.toNat * 2 ^ lo

theorem statusWord_of_packsFrom {x : Word} {fields : List Nat} (h : PacksFrom 0 x fields) : statusWord fields = x := by
  rw [statusWord, h, Nat.pow_zero, Nat.mul_one, BitVec.ofNat_toNat, BitVec.setWidth_eq]

namespace PacksFrom

variable {lo m len : Nat} {x : BitVec m} {fields : List Nat}

/-- The unlisted bits at the top of a word read 0. -/
theorem zeros : PacksFrom lo (0 : BitVec m) [] := by
  simp [PacksFrom]

/-- A register at the top of a word. -/
theorem top {y : BitVec len} : PacksFrom lo y [bitsAt lo len y.toNat] := by
  simp [PacksFrom, bitsAt, Nat.mod_eq_of_lt y.isLt]

/-- A field that holds a code or a count. -/
theorem code {c : Nat} (h : PacksFrom (lo + len) x fields) :
    PacksFrom lo (x ++ BitVec.ofNat len c) (bitsAt lo len c :: fields) := by
  have happend : (x ++ BitVec.ofNat len c).toNat = x.toNat * 2 ^ len + c % 2 ^ len := by
    rw [BitVec.toNat_append, ← Nat.shiftLeft_add_eq_or_of_lt (BitVec.isLt _), Nat.shiftLeft_eq, BitVec.toNat_ofNat]
  unfold PacksFrom at h ⊢
  rw [List.sum_cons, h, bitsAt, happend]
  ring

/-- A field that holds a register. -/
theorem reg {y : BitVec len} (h : PacksFrom (lo + len) x fields) :
    PacksFrom lo (x ++ y) (bitsAt lo len y.toNat :: fields) := by
  simpa using h.code (c := y.toNat)

/-- A field of one bit. -/
theorem flag {b : Bool} (h : PacksFrom (lo + 1) x fields) :
    PacksFrom lo (x ++ BitVec.ofBool b) (bitsAt lo 1 b.toNat :: fields) := by
  simpa using h.reg (y := BitVec.ofBool b)

/-- Unlisted bits between two fields read 0. -/
theorem gap (h : PacksFrom (lo + len) x fields) : PacksFrom lo (x ++ (0 : BitVec len)) fields := by
  simpa [PacksFrom, bitsAt] using h.code (c := 0)

end PacksFrom

theorem statusWord_halves (hi lo : U16) : statusWord [bitsAt 0 16 lo.toNat, bitsAt 16 16 hi.toNat] = hi ++ lo :=
  statusWord_of_packsFrom (.reg .top)

theorem statusWord_low_half (x : U16) : statusWord [bitsAt 0 16 x.toNat] = (0 : BitVec 16) ++ x :=
  statusWord_of_packsFrom (.reg .zeros)

/-! ## The words of R35 and R36 -/

theorem statusFlags_eq (s : State) :
    statusFlags s = (0 : BitVec 4) ++ BitVec.ofBool s.dmaPtr ++ BitVec.ofBool s.fillPtr ++
      BitVec.ofBool (s.pending.get true) ++ BitVec.ofBool (s.pending.get false) ++ BitVec.ofNat 8 s.fifo.length ++
      (0 : BitVec 5) ++ s.tphase ++ (0 : BitVec 3) ++
      BitVec.ofBool ((List.range s.cfg.nVoices).any fun v => (s.voice v).assigned) ++
      BitVec.ofBool (s.noteHeld != 0) ++ BitVec.ofBool s.badCmd ++ BitVec.ofBool s.overrun ++
      BitVec.ofBool s.cmdOvf :=
  statusWord_of_packsFrom <| .flag <| .flag <| .flag <| .flag <| .flag <| .gap <| .reg <| .gap <| .code <| .flag <|
    .flag <| .flag <| .flag .zeros

theorem statusConfig_eq (s : State) :
    statusConfig s = (0 : BitVec 2) ++ s.syncActive ++ (0 : BitVec 5) ++ s.plen ++ (0 : BitVec 2) ++ s.voiceMask ++
      (0 : BitVec 1) ++ BitVec.ofBool s.hold ++ BitVec.ofNat 2 (priorityCode s.priority) ++ BitVec.ofBool s.mono ++
      BitVec.ofNat 3 s.cfg.nVoices :=
  statusWord_of_packsFrom <| .code <| .flag <| .code <| .flag <| .gap <| .reg <| .gap <| .reg <| .gap <| .reg .zeros

theorem statusVoiceA_eq (s : State) (v : Nat) :
    statusVoiceA s v = (0 : BitVec 9) ++ (s.voice v).rootNote ++ (0 : BitVec 1) ++ (s.voice v).note ++
      (0 : BitVec 3) ++ BitVec.ofBool (s.voice v).legato ++ BitVec.ofBool (s.voice v).fromKeyboard ++
      BitVec.ofBool (s.voice v).keyPressed ++ BitVec.ofBool (s.voice v).gated ++ BitVec.ofBool (s.voice v).assigned :=
  statusWord_of_packsFrom <| .flag <| .flag <| .flag <| .flag <| .flag <| .gap <| .reg <| .gap <| .reg .zeros

theorem statusEnv_eq (s : State) (e : Nat) :
    statusEnv s e = (s.env e).output ++ (0 : BitVec 3) ++ (s.env e).shift ++ (0 : BitVec 3) ++
      BitVec.ofBool (s.env e).loop ++ BitVec.ofBool (s.env e).shape ++
      BitVec.ofNat 3 (stageCode (s.env e).stage) :=
  statusWord_of_packsFrom <| .code <| .flag <| .flag <| .gap <| .reg <| .gap .top

theorem statusLfoPhase_eq (s : State) (l : Bool) :
    statusLfoPhase s l = (0 : BitVec 4) ++ BitVec.ofNat 3 (lfoShapeCode (s.lfo l).shape) ++
      BitVec.ofBool (s.lfo l).half ++ (s.lfo l).phase :=
  statusWord_of_packsFrom <| .reg <| .flag <| .code .zeros

theorem statusOsc_eq (s : State) (o : Nat) :
    statusOsc s o = (s.osc o).curr ++ BitVec.ofNat 2 (targetCode (s.osc o).tgt) ++ BitVec.ofBool (s.osc o).raw ++
      BitVec.ofBool (s.osc o).half ++ (s.osc o).phase :=
  statusWord_of_packsFrom <| .reg <| .flag <| .flag <| .code .top

theorem envPhaseWord_eq (x : Env) : statusWord [bitsAt 0 24 x.phase.toNat] = (0 : BitVec 8) ++ x.phase :=
  statusWord_of_packsFrom (.reg .zeros)

/-- A field narrower than its register reads the register's low bits. -/
theorem bitsAt_setWidth (lo len : Nat) {n : Nat} (x : BitVec n) :
    bitsAt lo len (x.setWidth len).toNat = bitsAt lo len x.toNat := by
  simp [bitsAt]

/-! ## The addresses of R36 -/

theorem toNat_statusAddr {a : Nat} (h : a < 256) : (BitVec.ofNat 8 a).toNat = a := by
  rw [BitVec.toNat_ofNat, Nat.mod_eq_of_lt h]

/-- The words of voice v. -/
theorem readStatus_voice (s : State) {v : Nat} (hv : v < 6) :
    readStatus s (BitVec.ofNat 8 (0x08 + v)) = perVoice s v statusVoiceA ∧
    readStatus s (BitVec.ofNat 8 (0x10 + v)) =
      perVoice s v (fun s v => statusWord [bitsAt 0 16 (s.voice v).velocity.toNat, bitsAt 16 16 (s.bendOf v).toNat]) ∧
    readStatus s (BitVec.ofNat 8 (0x18 + v)) = perVoice s v (fun s v => (s.voice v).ts) ∧
    readStatus s (BitVec.ofNat 8 (0x40 + v)) =
      perVoice s v (fun s v => statusWord [bitsAt 0 16 (s.env (2 * v + 1)).output.toNat]) ∧
    readStatus s (BitVec.ofNat 8 (0xA8 + v)) =
      perVoice s v (fun s v => statusWord [bitsAt 0 16 (s.pbOf v).toNat, bitsAt 16 16 (s.tbOf v).toNat]) ∧
    readStatus s (BitVec.ofNat 8 (0xB0 + v)) =
      perVoice s v (fun s v => statusWord [bitsAt 0 16 (s.pressureOf v).toNat]) := by
  refine ⟨?_, ?_, ?_, ?_, ?_, ?_⟩ <;>
    simp (disch := omega) only [readStatus, toNat_statusAddr, if_neg, if_pos, Nat.add_sub_cancel_left]

/-- The words of the CV channels of voice v. -/
theorem readStatus_cv (s : State) {v d : Nat} (hv : v < 6) (hd : d < 7) :
    readStatus s (BitVec.ofNat 8 (0x50 + (7 * v + d))) =
      perVoice s v (fun s v => statusWord [bitsAt 0 16 (s.cv v d).toNat]) := by
  have hchannel : (7 * v + d) / 7 = v ∧ (7 * v + d) % 7 = d := by omega
  have hiff : 7 * v + d < 7 * s.cfg.nVoices ↔ v < s.cfg.nVoices := by omega
  simp (disch := omega) only [readStatus, toNat_statusAddr, if_neg, if_pos, Nat.add_sub_cancel_left, perVoice,
    hchannel, hiff]

/-- The words of envelope k and oscillator k. -/
theorem readStatus_pair (s : State) {k : Nat} (hk : k < 12) :
    readStatus s (BitVec.ofNat 8 (0x20 + k)) = perPair s k statusEnv ∧
    readStatus s (BitVec.ofNat 8 (0x30 + k)) =
      perPair s k (fun s e => statusWord [bitsAt 0 24 (s.env e).phase.toNat]) ∧
    readStatus s (BitVec.ofNat 8 (0x84 + k)) = perPair s k statusOsc ∧
    readStatus s (BitVec.ofNat 8 (0x90 + k)) = perPair s k (fun s o => (s.osc o).counter) := by
  refine ⟨?_, ?_, ?_, ?_⟩ <;>
    simp (disch := omega) only [readStatus, toNat_statusAddr, if_neg, if_pos, Nat.add_sub_cancel_left]

theorem readStatus_noteHeld (s : State) {k : Nat} (hk : k < 4) :
    readStatus s (BitVec.ofNat 8 (0x80 + k)) = s.noteHeld.extractLsb' (32 * k) 32 := by
  simp (disch := omega) only [readStatus, toNat_statusAddr, if_neg, if_pos, Nat.add_sub_cancel_left]

theorem readStatus_slotLen (s : State) {k : Nat} (hk : k < 8) :
    readStatus s (BitVec.ofNat 8 (0xA0 + k)) = statusWord [bitsAt 0 12 (s.slot k).len.toNat] := by
  simp (disch := omega) only [readStatus, toNat_statusAddr, if_neg, if_pos, Nat.add_sub_cancel_left]

theorem readStatus_lfo (s : State) (l : Bool) :
    readStatus s (BitVec.ofNat 8 (0x48 + l.toNat)) =
      statusWord [bitsAt 0 16 (s.lfo l).output.toNat, bitsAt 16 16 (s.lfo l).raw.toNat] ∧
    readStatus s (BitVec.ofNat 8 (0x4C + l.toNat)) = statusLfoPhase s l := by
  cases l <;> exact ⟨rfl, rfl⟩

/-- The addresses that R36 lists, adjacent blocks as one range. -/
abbrev StatusListed (a : Nat) : Prop :=
  a ≤ 0x06 ∨ (0x08 ≤ a ∧ a ≤ 0x0D) ∨ (0x10 ≤ a ∧ a ≤ 0x15) ∨ (0x18 ≤ a ∧ a ≤ 0x1D) ∨ (0x20 ≤ a ∧ a ≤ 0x2B) ∨
  (0x30 ≤ a ∧ a ≤ 0x3B) ∨ (0x40 ≤ a ∧ a ≤ 0x45) ∨ (0x48 ≤ a ∧ a ≤ 0x49) ∨ (0x4C ≤ a ∧ a ≤ 0x4D) ∨
  (0x50 ≤ a ∧ a ≤ 0x79) ∨ (0x80 ≤ a ∧ a ≤ 0x9B) ∨ (0xA0 ≤ a ∧ a ≤ 0xAD) ∨ (0xB0 ≤ a ∧ a ≤ 0xB5)

theorem readStatus_of_not_listed (s : State) {a : Nat} (ha : a < 256) (h : ¬StatusListed a) :
    readStatus s (BitVec.ofNat 8 a) = 0 := by
  unfold StatusListed at h
  simp (disch := omega) only [readStatus, toNat_statusAddr, if_neg]

/-- Settles O14: each address reads its row of R36, and each row is its word of fields. -/
theorem statusMapWords : Obligations.StatusMapWords := by
  refine ⟨by decide, fun s _ _ _ => ?_⟩
  have hpressed : (s.noteHeld != 0) = true ↔ s.noteHeld ≠ 0 := bne_iff_ne
  have hassigned : ((List.range s.cfg.nVoices).any fun v => (s.voice v).assigned) = true ↔
      ∃ v, v < s.cfg.nVoices ∧ (s.voice v).assigned = true := by simp
  have hsyncGlide : readStatus s 0x05 = s.glide ++ (0 : BitVec 10) ++ s.syncStaged :=
    statusWord_of_packsFrom <| .reg <| .gap .top
  have hmisc : readStatus s 0x06 = (0 : BitVec 4) ++ s.waveLenStg ++ (0 : BitVec 10) ++ s.rr :=
    statusWord_of_packsFrom <| .reg <| .gap <| .reg .zeros
  refine ⟨rfl, ⟨_, _, hpressed, hassigned, statusFlags_eq s⟩, rfl, rfl, statusConfig_eq s, hsyncGlide, hmisc,
    fun v hv => ?_, fun k hk => ?_, fun l => ?_, fun k hk => readStatus_noteHeld s hk, fun k hk => ?_, fun a ha => ?_⟩
  · obtain ⟨ha, hb, hts, henv, hpitch, hpressure⟩ := readStatus_voice s hv
    refine ⟨?_, ?_, hts, ?_, ?_, ?_, fun d hd => ?_⟩
    · rw [ha, perVoice, statusVoiceA_eq]
    · rw [hb, perVoice, statusWord_halves]
    · rw [henv, perVoice, statusWord_low_half]
    · rw [hpitch, perVoice, statusWord_halves]
    · rw [hpressure, perVoice, statusWord_low_half]
    · rw [readStatus_cv s hv hd, perVoice, statusWord_low_half]
  · obtain ⟨henv, hphase, hosc, hcounter⟩ := readStatus_pair s hk
    refine ⟨?_, ?_, ?_, hcounter⟩
    · rw [henv, perPair, statusEnv_eq]
    · rw [hphase, perPair, envPhaseWord_eq]
    · rw [hosc, perPair, statusOsc_eq]
  · obtain ⟨hout, hphase⟩ := readStatus_lfo s l
    rw [hout, hphase, ← bitsAt_setWidth 16 16 (s.lfo l).raw, statusWord_halves, statusLfoPhase_eq]
    exact ⟨rfl, rfl⟩
  · rw [readStatus_slotLen s hk]
    exact statusWord_of_packsFrom (.reg .zeros)
  · have hunlisted : a < 256 ∧ ¬StatusListed a := by
      revert a
      decide
    obtain ⟨hlt, hgap⟩ := hunlisted
    exact readStatus_of_not_listed s hlt hgap

end Sys2Proof.Machine
end

section
/-! PROOF. O1, O2, O4: the decoder against the encoder and the named bits of R55 (R51 to R53, R57). The decoder
reads a word by fields only, so each claim is about fields: in an encoded word every field reads back, since no
other field of its row overlaps it, and a mask that holds a field's bits does not change what the field reads. -/

namespace Sys2Proof

/-! ## Fields of a masked word -/

theorem field_and_of_mask {w m : Word} {lo len : Nat} (h : ∀ i, i < len → m.getLsbD (lo + i) = true) :
    field (w &&& m) lo len = field w lo len := by
  ext i hi
  simp [field, h i hi]

theorem bit_and_of_mask {w m : Word} {i : Nat} (h : m.getLsbD i = true) : bit (w &&& m) i = bit w i := by
  simp [bit, h]

/-- Every row names the OP bits (R51). -/
theorem namedBits_op : ∀ (op : BitVec 6) (i : Nat), i < 6 → (namedBits op).getLsbD (26 + i) = true := by
  decide

theorem opOf_and_namedBits (w : Word) (op : BitVec 6) : opOf (w &&& namedBits op) = opOf w :=
  field_and_of_mask (namedBits_op op)

/-! ## The decoder -/

/-- The OP of the encoded word selects the command's own row, and each field of that row reads its operand. -/
theorem decode_encode (i : Instr) : decode (encode i) = .ok i := by
  have hop : opOf (encode i) = opcode i := (encoding_follows_table i).1
  unfold decode
  rw [hop]
  cases i
  all_goals
    refine congrArg Except.ok ?_
    simp (disch := decide) [encode, opAt, bitAt, bit_eq_field, field_or, field_fieldAt_self,
      field_fieldAt_of_le, field_fieldAt_of_ge]

/-- Clearing the reserved bits keeps OP, and with it the row, and every field that the row reads. -/
theorem decode_and_namedBits (w : Word) : decode (w &&& namedBits (opOf w)) = decode w := by
  have hop : opOf (w &&& namedBits (opOf w)) = opOf w := opOf_and_namedBits w _
  unfold decode
  rw [hop]
  split
  all_goals
    rename_i hrow
    simp (disch := decide) only [namedBits, hrow, field_and_of_mask, bit_and_of_mask]

/-- A command stands in the row that its word's OP selects (R51). -/
theorem opcode_of_decode {w : Word} {i : Instr} (h : decode w = .ok i) : opcode i = opOf w := by
  unfold decode at h
  split at h <;> cases h
  all_goals
    rename_i hrow
    exact BitVec.eq_of_toNat_eq hrow.symm

namespace Machine

/-- What a word does is what its decoding says (R61). -/
theorem execute_congr {w w' : Word} (h : decode w = decode w') (s : State) : execute w s = execute w' s := by
  simp only [execute, h]

/-- A word that is a command leaves BADCMD as it is or clears it (R63, R64). -/
theorem execute_command_badCmd {w : Word} {i : Instr} {s t : State} (hw : decode w = .ok i)
    (h : execute w s = .next t) : t.badCmd = s.badCmd ∨ t.badCmd = false := by
  rw [execute_of_decode hw] at h
  obtain ⟨-, -, hbad⟩ := exec_flags h
  exact hbad.imp_right And.left

end Machine

/-! ## The statements -/

/-- Settles O1, by `decode_encode`. -/
theorem decodeEncodeAgree : Obligations.DecodeEncodeAgree := decode_encode

/-- Settles O2: the decoding does not see the reserved bits, execution sees the word through its decoding, and
OP alone selects the row. -/
theorem reservedBitsAreIgnored : Obligations.ReservedBitsAreIgnored := by
  refine ⟨decode_and_namedBits, fun w => Machine.execute_congr (decode_and_namedBits w), ?_, ?_⟩
  · intro w i s t hw hexec hbad
    rcases Machine.execute_command_badCmd hw hexec with hkept | hcleared
    · rwa [hkept] at hbad
    · rw [hcleared] at hbad
      contradiction
  · intro w w' i j hi hj
    rw [opcode_of_decode hi, opcode_of_decode hj]

theorem decode_of_encode_eq {w : Word} {i : Instr} (h : encode i = w) : decode w = .ok i :=
  h ▸ decode_encode i

/-- Settles O4: each word of the table is the encoding of its command. -/
theorem exampleWordsDecode : Obligations.ExampleWordsDecode := by
  refine ⟨?_, ?_, ?_, ?_, ?_, ?_, ?_, ?_, ?_, ?_, ?_, ?_⟩
  all_goals exact decode_of_encode_eq (by decide)

end Sys2Proof
end

section
/-! PROOF. O3, O5, O7, O12, O27: the command port and the drain (R33, R59 to R64), and the parts of a strobe (R60,
R130, R131). A drain is read off the chain of its words, the port's registers included; whether it answers a next
state comes from the commands, each of which does. -/

namespace Sys2Proof.Machine

/-! ## Illegal words (R56, R64) -/

/-- No command stands in a row of R56. -/
theorem opcode_not_unassigned (i : Instr) : (opcode i).toNat ∉ unassignedOps := by
  cases i <;> simp [opcode, unassignedOps]

/-- A word is rejected exactly where its OP is unassigned (R56): a command's OP is never one of R56's, and every
OP that R56 does not list selects a row of R55. -/
theorem decode_error_iff (w : Word) : (∃ e, decode w = .error e) ↔ (opOf w).toNat ∈ unassignedOps := by
  constructor
  · rintro ⟨e, he⟩
    have hlt : (opOf w).toNat < 64 := (opOf w).isLt
    unfold decode at he
    split at he <;> cases he
    simp only [imp_false] at *
    simp only [unassignedOps, List.mem_cons, List.not_mem_nil, or_false]
    omega
  · intro hop
    cases hd : decode w with
    | error e => exact ⟨e, rfl⟩
    | ok i => exact absurd (opcode_of_decode hd ▸ hop) (opcode_not_unassigned i)

/-- Settles O3: a word with an unassigned OP is rejected, and a drain goes on from the state its execution answers. -/
theorem illegalCommandsSetBadcmd : Obligations.IllegalCommandsSetBadcmd := by
  refine fun w => ⟨decode_error_iff w, fun hop s => ?_⟩
  obtain ⟨e, he⟩ := (decode_error_iff w).mpr hop
  refine ⟨execute_of_illegal he s, fun n q hq => ?_⟩
  rw [drainWords_cons hq, execute_of_illegal he, andThen_next]

/-! ## NOP and CLEAR_FLAGS (R62, R63) -/

/-- Every word of OP 0 is a NOP: the lower 26 bits are reserved. -/
theorem decode_of_toNat_lt {w : Word} (h : w.toNat < 2 ^ 26) : decode w = .ok .nop := by
  have hop : (opOf w).toNat = 0 := by
    simp only [opOf, field, BitVec.extractLsb'_toNat, Nat.shiftRight_eq_div_pow]
    omega
  simp [decode, hop]

/-- Settles O27: NOP's words are those of OP 0, and CLEAR_FLAGS masks each flag with the negation of its operand bit. -/
theorem nopAndClearFlags : Obligations.NopAndClearFlags := by
  refine ⟨fun s => rfl, fun w s hw => ?_, fun clr s => ?_⟩
  · exact execute_of_decode (decode_of_toNat_lt (by omega)) s
  · have hflag : ∀ (a : Bool) k, (a && !clr.getLsbD k) = if clr.getLsbD k then false else a := fun a k => by
      cases clr.getLsbD k <;> simp
    exact ⟨_, rfl, rfl, ⟨fun _ => rfl, fun _ _ => rfl, fun _ _ _ => rfl⟩, hflag _ 0, hflag _ 1, hflag _ 2⟩

/-! ## The ports (R33, R59) -/

/-- A scripted agent's step is that agent's step with the script's entry consumed (R9, log 2). -/
theorem step_agent {s : State} {a : AgentStep} {rest : List Event} (h : s.script = .agent a :: rest) :
    step s = runAgent a { s with script := rest } := by
  rw [step_eq, nextEvent_of_script h, afterEvent_of_script h]
  rfl

/-- Settles O12: the two port writes are `cmdWrite` and `stageWrite`, on the state with the write's entry consumed. -/
theorem portWrites : Obligations.PortWrites := by
  refine ⟨fun s w rest h => step_agent h, fun s i v rest hm h => ?_⟩
  obtain ⟨⟨hstaging, -⟩, -, -⟩ := hm
  obtain ⟨hframe, -, hread⟩ := stageWrite_spec (s := { s with script := rest }) hstaging i v
  exact ⟨_, step_agent h, hframe, hread⟩

/-! ## The drain (R60, R61) -/

/-- Every command answers a next state (R143). -/
theorem exec_completes (i : Instr) (s : State) : ∃ t, exec i s = .next t := by
  cases i <;> exact ⟨_, rfl⟩

theorem execute_completes (w : Word) (s : State) : ∃ t, execute w s = .next t := by
  cases hd : decode w with
  | ok i => exact execute_of_decode hd s ▸ exec_completes i _
  | error e => exact ⟨_, execute_of_illegal hd s⟩

theorem drainWords_completes (n : Nat) (s : State) : ∃ t, drainWords n s = .next t := by
  induction n generalizing s with
  | zero => exact ⟨s, rfl⟩
  | succ n ih =>
    cases hq : s.fifo with
    | nil => exact ⟨s, drainWords_nil hq⟩
    | cons w q =>
      obtain ⟨u, hu⟩ := execute_completes w { s with fifo := q }
      rw [drainWords_cons hq, hu, andThen_next]
      exact ih u

theorem strobe_completes (s : State) : ∃ t, strobe s = .next t := by
  by_cases hp : s.tphase = 0
  · obtain ⟨u, hu⟩ := drainWords_completes (min s.cfg.cmdBudget s.fifo.length) s
    exact ⟨strobeTail u, by rw [strobe_of_phase_zero hp, drainCommands, hu, andThen_next]⟩
  · exact ⟨_, strobe_of_phase_ne hp⟩

/-- A drain of `n` words leaves the others in the FIFO (R60). -/
theorem drainWords_fifo {n : Nat} {s t : State} (h : drainWords n s = .next t) : t.fifo = s.fifo.drop n := by
  have hdrop := drainWords_induct (P := fun j u => u.fifo = s.fifo.drop j) h rfl fun j w _ u q v hq hu hv => by
    rw [execute_fifo hv, ← List.drop_drop, ← hu, hq, List.drop_one, List.tail_cons]
  rw [hdrop, List.length_take, ← List.drop_eq_drop_min]

/-- The words a strobe leaves in the FIFO (R60, R131). -/
theorem strobe_fifo {s t : State} (h : strobe s = .next t) :
    t.fifo = if s.tphase = 0 then s.fifo.drop s.cfg.cmdBudget else s.fifo := by
  rcases strobe_cases h with ⟨hp, -, u, hd, rfl⟩ | ⟨hp, rfl⟩
  · have hfifo : u.fifo = s.fifo.drop (min s.cfg.cmdBudget s.fifo.length) := drainWords_fifo hd
    rw [if_pos hp, (strobeTail_frame u).1, List.drop_eq_drop_min]
    exact hfifo
  · rw [if_neg hp, (strobeTail_frame _).1, (tickTask_frame _ s).1]

/-- Settles O7: a strobe answers a next state, in which `strobe_fifo` and `strobe_counters` give the port's
registers. -/
theorem drainTakesTheOldestWords : Obligations.DrainTakesTheOldestWords := by
  intro s
  obtain ⟨t, ht⟩ := strobe_completes s
  obtain ⟨-, hcount, -⟩ := strobe_counters ht
  exact ⟨t, ht, strobe_fifo ht, hcount⟩

/-! ## The parts of a strobe (R60, R130, R131) -/

/-- A drain of at least one word runs the oldest, if it is a command, before the others (R60, R61). -/
theorem drainWords_of_decode {n : Nat} {s : State} {w : Word} {q : List Word} {i : Instr} (hq : s.fifo = w :: q)
    (hi : decode w = .ok i) :
    drainWords (n + 1) s = andThen (exec i { s with fifo := q, cmdCount := s.cmdCount + 1 }) (drainWords n) := by
  rw [drainWords_cons hq, execute_of_decode hi]

/-- A loop that updates the envelopes in turn updates each of its envelopes once, from that envelope's own state. -/
theorem env_forUpTo_modEnv {n : Nat} {s : State} (hn : n ≤ s.envs.length) (f : Env → Env) (k : Nat) :
    (forUpTo n (fun e t => t.modEnv e f) s).env k = if k < n then f (s.env k) else s.env k := by
  refine (forUpTo_induct (s := s) (f := fun e t => t.modEnv e f)
    (P := fun j t => t.envs.length = s.envs.length ∧ t.env k = if k < j then f (s.env k) else s.env k)
    ⟨rfl, rfl⟩ fun j t hj ⟨hlen, henv⟩ => ⟨by simpa using hlen, ?_⟩).2
  rw [env_modEnv, hlen]
  by_cases hk : k = j
  · subst hk
    rw [if_pos ⟨rfl, by omega⟩, henv, if_neg (lt_irrefl k), if_pos (Nat.lt_succ_self k)]
  · rw [if_neg (fun h => hk h.1), henv]
    simp only [show k < j + 1 ↔ k < j by omega]

/-- The state the CV frame of a strobe runs on: TPHASE advanced, and every envelope and LFO updated (R130). -/
def beforeCvFrame (s : State) : State :=
  ((updateEnvs { s with tphase := s.tphase + 1 }).modLfo false lfoUpdate).modLfo true lfoUpdate

theorem strobeTail_eq_cvFrame (s : State) : strobeTail s = cvFrame (beforeCvFrame s) := strobeTail_eq s

theorem beforeCvFrame_frame (s : State) :
    beforeCvFrame s =
      { s with tphase := s.tphase + 1, envs := (beforeCvFrame s).envs, lfos := (beforeCvFrame s).lfos } := by
  unfold beforeCvFrame
  rw [updateEnvs_frame]
  rfl

theorem beforeCvFrame_sameMemory (s : State) : SameMemory s (beforeCvFrame s) := by
  rw [beforeCvFrame_frame]
  exact ⟨fun _ => rfl, fun _ _ => rfl, fun _ _ _ => rfl⟩

theorem beforeCvFrame_env {s : State} (h : s.envs.length = 2 * s.cfg.nVoices) {e : Nat} (he : e < 2 * s.cfg.nVoices) :
    (beforeCvFrame s).env e = envUpdate (s.env e) :=
  (env_forUpTo_modEnv (s := { s with tphase := s.tphase + 1 }) h.ge envUpdate e).trans (if_pos he)

theorem beforeCvFrame_lfo (s : State) (l : Bool) : (beforeCvFrame s).lfo l = lfoUpdate (s.lfo l) := by
  unfold beforeCvFrame
  rw [updateEnvs_frame]
  cases l <;> rfl

/-- A scripted strobe of tick phase 0 is the drain and then the rest of the strobe (R130). -/
theorem step_strobe_of_phase_zero {s : State} {rest : List Event} (h : s.script = .agent .strobe :: rest)
    (hp : s.tphase = 0) :
    step s = andThen (drainWords (min s.cfg.cmdBudget s.fifo.length) { s with script := rest }) fun u =>
      .next (strobeTail u) :=
  (step_agent h).trans (strobe_of_phase_zero (s := { s with script := rest }) hp)

/-- Settles O5: a scripted strobe is its tick phase and then `strobeTail`; the drain of tick phase 0 runs the oldest
word first, and `strobeTail` is the CV frame on `beforeCvFrame`. -/
theorem stepRunsDecodedCommand : Obligations.StepRunsDecodedCommand := by
  refine ⟨fun s rest w q i hscript hp hq hbudget hi => ?_, fun s rest hscript => ⟨fun hp => ?_, fun hp => ?_⟩,
    fun s => ⟨rfl, rfl⟩, fun s hs => ?_⟩
  · have hn : min s.cfg.cmdBudget s.fifo.length = min s.cfg.cmdBudget (q.length + 1) - 1 + 1 := by
      rw [hq, List.length_cons]
      omega
    rw [step_strobe_of_phase_zero hscript hp, hn, drainWords_of_decode (s := { s with script := rest }) hq hi,
      andThen_assoc]
  · exact step_strobe_of_phase_zero hscript hp
  · exact (step_agent hscript).trans (strobe_of_phase_ne (s := { s with script := rest }) hp)
  · obtain ⟨-, -, henvs, -⟩ := hs
    exact ⟨beforeCvFrame s, strobeTail_eq_cvFrame s, beforeCvFrame_frame s, beforeCvFrame_sameMemory s,
      fun e he => beforeCvFrame_env henvs he, beforeCvFrame_lfo s⟩

end Sys2Proof.Machine
end

section
/-! PROOF. O28: the settings of the Voice Assigner (R86 to R89), each with the clamp of R54. -/

namespace Sys2Proof.Machine

/-- Equal contents read equally at every location. -/
theorem SameMemory.of_eq {s t : State} (hcfg : t.cfg = s.cfg) (hstaging : t.staging = s.staging)
    (hslots : t.slots = s.slots) (hbuf : t.buf = s.buf) : SameMemory s t := by
  refine ⟨fun i => ?_, fun k i => ?_, fun h sl w => ?_⟩
  · rw [State.readStaging, hstaging]; rfl
  · rw [State.readSlot, hslots]; rfl
  · rw [State.readBuf, hbuf, hcfg]; rfl

/-- The field's four values. -/
theorem priorityCode_prioOperand : ∀ p : BitVec 2, priorityCode (prioOperand p) = min p.toNat 2 := by decide

theorem getLsbD_maskOperand (n : Nat) (m : BitVec 6) {k : Nat} (hk : k < 6) :
    (maskOperand n m).getLsbD k = (m.getLsbD k && decide (k < n)) := by
  rw [maskOperand, BitVec.getLsbD_and, BitVec.getLsbD_ofNat, Nat.testBit_two_pow_sub_one]
  simp only [hk, decide_true, Bool.true_and]

theorem toNat_plenOperand_eq {n : Nat} (h6 : n ≤ 6) (len : BitVec 3) :
    (plenOperand n len).toNat = min (max len.toNat 1) n := by
  rw [plenOperand, BitVec.toNat_ofNat, clampNat]
  omega

/-- Settles O28: each setting is one register's update, by the operand that R54 makes of its field. -/
theorem assignerSettings : Obligations.AssignerSettings := by
  refine ⟨fun prio s => ⟨_, rfl, rfl, .of_eq rfl rfl rfl rfl, priorityCode_prioOperand prio⟩,
    fun vmask s => ⟨_, rfl, rfl, .of_eq rfl rfl rfl rfl, fun k hk => getLsbD_maskOperand _ _ hk⟩,
    fun idx ofs s hsized => ⟨_, rfl, rfl, .of_eq rfl rfl rfl rfl, fun i hi => ?_⟩,
    fun mono len s hsized => ⟨_, rfl, rfl, .of_eq rfl rfl rfl rfl, ?_, fun i _ => rfl⟩⟩
  · obtain ⟨⟨⟨_, h6⟩, -⟩, -, -, -, -, -, hstg, -⟩ := hsized
    have hidx : pidxOperand s.cfg.nVoices idx < s.offsetsStg.length := by unfold pidxOperand; omega
    change (s.offsetsStg.set (pidxOperand s.cfg.nVoices idx) ofs).getD i 0 = _
    rw [getD_set]
    simp only [hidx, and_true]
    rfl
  · obtain ⟨⟨⟨_, h6⟩, -⟩, -⟩ := hsized
    exact toNat_plenOperand_eq h6 len

end Sys2Proof.Machine
end

section
/-! PROOF. O29: the targets of a grant (R69). The list is the beginning of the enabled voices in the cyclic order from the
start voice, that order being the one of `cyclicRank`. -/

namespace Sys2Proof.Machine

/-- The place of voice v in the cyclic order of n voices from `start` (R69). -/
def cyclicRank (n start v : Nat) : Nat := (v + n - start) % n

theorem cyclicRank_add_mod {n start k : Nat} (hstart : start < n) (hk : k < n) :
    cyclicRank n start ((start + k) % n) = k := by
  unfold cyclicRank
  rcases Nat.lt_or_ge (start + k) n with h | h
  · rw [Nat.mod_eq_of_lt h, show start + k + n - start = k + n by omega, Nat.add_mod_right, Nat.mod_eq_of_lt hk]
  · rw [Nat.mod_eq_sub_mod h, Nat.mod_eq_of_lt (show start + k - n < n by omega),
      show start + k - n + n - start = k by omega, Nat.mod_eq_of_lt hk]

theorem add_cyclicRank_mod {n start v : Nat} (hstart : start < n) (hv : v < n) :
    (start + cyclicRank n start v) % n = v := by
  rw [cyclicRank, Nat.add_mod_mod, show start + (v + n - start) = v + n by omega, Nat.add_mod_right,
    Nat.mod_eq_of_lt hv]

/-- All enabled voices in the cyclic order from `start`. -/
def enabledFrom (s : State) (start : Nat) : List Nat :=
  ((List.range s.cfg.nVoices).map fun k => (start + k) % s.cfg.nVoices).filter fun v => s.voiceMask.getLsbD v

theorem targets_eq_take (s : State) (start : Nat) : targets s start = (enabledFrom s start).take s.plen.toNat := rfl

theorem enabledFrom_sorted {s : State} {start : Nat} (h : start < s.cfg.nVoices) :
    (enabledFrom s start).Pairwise fun u v =>
      cyclicRank s.cfg.nVoices start u < cyclicRank s.cfg.nVoices start v := by
  refine List.Pairwise.filter _ (List.pairwise_map.mpr ?_)
  refine List.pairwise_lt_range.imp_of_mem fun hj hk hjk => ?_
  rw [List.mem_range] at hj hk
  rwa [cyclicRank_add_mod h hj, cyclicRank_add_mod h hk]

theorem mem_enabledFrom {s : State} {start v : Nat} (h : start < s.cfg.nVoices) :
    v ∈ enabledFrom s start ↔ Enabled s v := by
  simp only [enabledFrom, List.mem_filter, List.mem_map, List.mem_range, Enabled]
  refine and_congr_left fun _ => ⟨?_, fun hv => ?_⟩
  · rintro ⟨k, -, rfl⟩
    exact Nat.mod_lt _ (Nat.zero_lt_of_lt h)
  · exact ⟨_, Nat.mod_lt _ (Nat.zero_lt_of_lt h), add_cyclicRank_mod h hv⟩

/-- The cyclic order only rearranges E. -/
theorem enabledFrom_perm {s : State} {start : Nat} (h : start < s.cfg.nVoices) :
    (enabledFrom s start).Perm (enabledVoices s) := by
  refine (List.perm_ext_iff_of_nodup ?_ ?_).mpr fun v => (mem_enabledFrom h).trans mem_enabledVoices.symm
  · exact (enabledFrom_sorted h).imp fun hlt heq => by simp [heq] at hlt
  · exact (enabledVoices_sorted s).imp Nat.ne_of_lt

/-- Settles O29: the enabled voices that are no targets are in the rest of the sorted list. -/
theorem targetsAreCyclicFromStart : Obligations.TargetsAreCyclicFromStart := by
  intro s start hstart
  have hsorted := enabledFrom_sorted hstart
  refine ⟨?_, fun v hv => enabled_of_mem_targets hv, ?_, fun v hv hnot u hu => ?_⟩
  · rw [targets_eq_take]
    exact hsorted.take
  · rw [targets_eq_take, List.length_take, (enabledFrom_perm hstart).length_eq]
  · rw [targets_eq_take] at hnot hu
    have hmem := (mem_enabledFrom hstart).mpr hv
    rw [← List.take_append_drop s.plen.toNat (enabledFrom s start)] at hsorted hmem
    have hrest := (List.mem_append.mp hmem).resolve_left hnot
    exact (List.pairwise_append.mp hsorted).2.2 u hu v hrest

end Sys2Proof.Machine
end

section
/-! PROOF. O33, O35, O36, O37: releasing keys, gating off and deallocating (R73, R74, R81, R83 to R85, R90). Each is
one change of a voice, which depends on the voice's own record alone, so a loop over the voices makes it once at each
voice that the loop selects, from the record the voice had before the loop. A statement that is named as the model's procedure is
settled under `Settled`. -/

namespace Sys2Proof.Machine

/-! ## One change at some voices -/

/-- A change of a voice: of its record, of its two envelopes, and the events appended, each from the record before. -/
structure VoiceChange where
  record : Voice → Voice
  env : Voice → Env → Env
  events : Nat → Voice → List Evt

/-- From `s` to `t` the change is made once at each voice of R, its events in R's order. -/
structure ChangedAt (ch : VoiceChange) (R : List Nat) (s t : State) : Prop where
  frame : t = { s with voices := t.voices, envs := t.envs, evt := t.evt }
  voice : ∀ u, t.voice u = if u ∈ R then ch.record (s.voice u) else s.voice u
  env : ∀ e, t.env e = if e / 2 ∈ R then ch.env (s.voice (e / 2)) (s.env e) else s.env e
  evt : t.evt = s.evt ++ R.flatMap fun v => ch.events v (s.voice v)

namespace ChangedAt

variable {ch : VoiceChange} {R : List Nat} {s t u : State}

theorem nil : ChangedAt ch [] s s := ⟨rfl, by simp, by simp, by simp⟩

/-- The change at one more voice. -/
theorem snoc {v : Nat} (h : ChangedAt ch R s t) (hv : v ∉ R) (k : ChangedAt ch [v] t u) :
    ChangedAt ch (R ++ [v]) s u := by
  have hkept : t.voice v = s.voice v := by rw [h.voice, if_neg hv]
  refine ⟨by rw [k.frame, h.frame], fun w => ?_, fun e => ?_, ?_⟩
  · rw [k.voice]
    by_cases hw : w = v
    · subst hw; simp [hkept]
    · rw [if_neg (by simpa using hw), h.voice]; simp [hw]
  · rw [k.env]
    by_cases he : e / 2 = v
    · rw [h.env, he]; simp [hv, hkept]
    · rw [if_neg (by simpa using he), h.env]; simp [he]
  · rw [k.evt, h.evt, List.flatMap_append, List.append_assoc]
    simp [hkept]

/-- A loop that makes the change at the voices whose record satisfies `c`. -/
theorem forVoices {g : Nat → State → State} (c : Voice → Bool) (hs : Sized s)
    (hsized : ∀ v t, SizedFor s.cfg t → SizedFor s.cfg (g v t))
    (hg : ∀ v t, v < s.cfg.nVoices → SizedFor s.cfg t → t.hold = s.hold → ChangedAt ch [v] t (g v t)) :
    ChangedAt ch ((List.range s.cfg.nVoices).filter fun v => c (s.voice v)) s
      (forVoices (fun v t => if c (t.voice v) then g v t else t) s) := by
  refine (forUpTo_induct (s := s) (P := fun n t => SizedFor s.cfg t ∧
    ChangedAt ch ((List.range n).filter fun v => c (s.voice v)) s t) ⟨⟨hs, rfl⟩, nil⟩ fun v t hv ⟨hts, ht⟩ => ?_).2
  have hnew : v ∉ (List.range v).filter fun v => c (s.voice v) := by simp
  have hkept : t.voice v = s.voice v := by rw [ht.voice, if_neg hnew]
  have hhold : t.hold = s.hold := by rw [ht.frame]
  rw [hkept, List.range_succ, List.filter_append]
  by_cases hc : c (s.voice v) = true
  · rw [if_pos hc, List.filter_singleton, hc]
    exact ⟨hsized v t hts, ht.snoc hnew (hg v t hv hts hhold)⟩
  · rw [if_neg hc, List.filter_singleton]
    simpa [hc] using And.intro hts ht

theorem noteHeld (h : ChangedAt ch R s t) : t.noteHeld = s.noteHeld := by rw [h.frame]

theorem pitches (h : ChangedAt ch R s t) : t.pb = s.pb ∧ t.tb = s.tb ∧ t.ts = s.ts := by
  rw [h.frame]
  exact ⟨rfl, rfl, rfl⟩

theorem sameMemory (h : ChangedAt ch R s t) : SameMemory s t := by
  rw [h.frame]
  exact .of_eq rfl rfl rfl rfl

end ChangedAt

/-! ## Releasing a key (R73) -/

/-- What gateOffVoice does to a voice. -/
def keyRelease (hold : Bool) : VoiceChange where
  record x := { x with keyPressed := false, gated := x.gated && hold }
  env x e := if x.gated = true ∧ hold = false then envSetGate false e else e
  events v x := if !hold && x.gated then [⟨.gateOff, v, x.note, x.velocity, false, x.fromKeyboard⟩] else []

theorem gateOffVoice_changedAt {c : Config} {s : State} (hs : SizedFor c s) {v : Nat} (hv : v < s.cfg.nVoices) :
    ChangedAt (keyRelease s.hold) [v] s (gateOffVoice v s) := by
  obtain ⟨hvo, hen, -⟩ := hs.mem_files hv
  obtain ⟨frame, -, -, hvoice, henv⟩ := gateOffVoice_spec v s hvo hen
  refine ⟨by rw [frame], fun u => ?_, fun e => ?_, by rw [frame, List.flatMap_singleton]; rfl⟩
  · rw [hvoice]
    by_cases hu : u = v
    · subst hu; simp [keyRelease]
    · simp [hu]
  · rw [henv]
    by_cases he : e / 2 = v
    · simp [keyRelease, he]
    · simp [he]

/-- The events of a change that appends one event at some of the voices. -/
theorem flatMap_ite_singleton {α β : Type} (p : α → Bool) (f : α → β) (l : List α) :
    (l.flatMap fun a => if p a then [f a] else []) = (l.filter p).map f := by
  induction l with
  | nil => rfl
  | cons a l ih => by_cases h : p a = true <;> simp [h, ih]

/-- Releasing keys is what `KeysReleased` says of it. -/
theorem ChangedAt.keysReleased {R : List Nat} {s t : State} (h : ChangedAt (keyRelease s.hold) R s t) :
    KeysReleased s t R := by
  refine ⟨fun v _ => h.voice v, fun e _ => ?_, ?_⟩
  · rw [h.env, keyRelease]
    by_cases he : e / 2 ∈ R <;> simp [he]
  · rw [h.evt]
    refine congrArg (s.evt ++ ·) ((flatMap_ite_singleton _ _ R).trans ?_)
    simp only [Bool.and_comm]
    rfl

/-- A loop that releases the keys of the voices whose record satisfies `c`. -/
theorem releaseKeys_changedAt {s : State} (hs : Sized s) (c : Voice → Bool) :
    ChangedAt (keyRelease s.hold) ((List.range s.cfg.nVoices).filter fun v => c (s.voice v)) s
      (forVoices (fun v t => if c (t.voice v) then gateOffVoice v t else t) s) :=
  .forVoices c hs (fun v _ ht => ht.gateOffVoice v) fun v t hv ht hhold => by
    rw [← hhold]
    exact gateOffVoice_changedAt ht (by rw [ht.2]; exact hv)

theorem gateOffRoot_changedAt {s : State} (hs : Sized s) (note : BitVec 7) :
    ChangedAt (keyRelease s.hold) ((List.range s.cfg.nVoices).filter (carries s note)) s (gateOffRoot note s) :=
  releaseKeys_changedAt hs fun x => x.assigned && x.rootNote == note

theorem held_setHeld_true (s : State) (note m : BitVec 7) : (s.setHeld note true).held m = (s.held m || m == note) := by
  rw [held_setHeld]
  by_cases h : m = note <;> simp [h]

theorem held_setHeld_false (s : State) (note m : BitVec 7) :
    (s.setHeld note false).held m = (s.held m && m != note) := by
  rw [held_setHeld]
  by_cases h : m = note <;> simp [h]

/-- Settles O33: NOTE_OFF in poly mode is the loop `gateOffRoot`, run with the held bit cleared. -/
theorem Settled.noteOffPoly : Obligations.NoteOffPoly := by
  intro note s hs hmono
  have hchange := gateOffRoot_changedAt (s := s.setHeld note false) hs note
  refine ⟨gateOffRoot note (s.setHeld note false), ?_, ?_, hchange.sameMemory, fun m => ?_, hchange.keysReleased⟩
  · change Host.Outcome.next (if s.mono then _ else _) = _
    rw [hmono]; rfl
  · exact hchange.frame.trans (by rw [hchange.noteHeld]; rfl)
  · rw [State.held, hchange.noteHeld]
    exact held_setHeld_false s note m

/-- Settles O35: ALL_KEYS_OFF is the loop over the assigned voices, run with no note held. -/
theorem allKeysOff : Obligations.AllKeysOff := by
  intro s hs
  have hchange := releaseKeys_changedAt (s := { s with noteHeld := 0 }) hs Voice.assigned
  exact ⟨_, rfl, hchange.frame.trans rfl, hchange.sameMemory, hchange.keysReleased⟩

/-! ## Deallocating (R74) -/

/-- What voiceDone does to a voice. -/
def deallocation : VoiceChange where
  record x := { x with assigned := false, gated := false, keyPressed := false, legato := false }
  env _ := envForceWait
  events _ _ := []

theorem voiceDone_changedAt {c : Config} {s : State} (hs : SizedFor c s) {v : Nat} (hv : v < s.cfg.nVoices) :
    ChangedAt deallocation [v] s (voiceDone v s) := by
  obtain ⟨hvo, hen, -⟩ := hs.mem_files hv
  obtain ⟨frame, -, -, hvoice, henv⟩ := voiceDone_spec v s hvo hen
  refine ⟨by rw [frame], fun u => ?_, fun e => ?_, by rw [frame]; simp [deallocation]⟩
  · rw [hvoice]
    by_cases hu : u = v
    · subst hu; simp [deallocation]
    · simp [hu]
  · rw [henv]; simp [deallocation]

/-- Deallocating is what `Deallocated` says of it. -/
theorem ChangedAt.deallocated {R : List Nat} {s t : State} (h : ChangedAt deallocation R s t) {p : Nat → Prop}
    [DecidablePred p] (hp : ∀ v, v < s.cfg.nVoices → (v ∈ R ↔ p v)) : Deallocated s t p := by
  refine ⟨fun v hv => ?_, fun e he => ?_, ?_⟩
  · rw [h.voice]; simp only [hp v hv]; rfl
  · rw [h.env]; simp only [hp (e / 2) (by omega)]; rfl
  · rw [h.evt]; simp [deallocation]

/-- PANIC_OFF's loop selects every voice. -/
theorem deallocateAll_changedAt {s : State} (hs : Sized s) :
    ChangedAt deallocation (List.range s.cfg.nVoices) s (forVoices voiceDone s) := by
  have h := ChangedAt.forVoices (fun _ => true) hs (fun v _ ht => ht.voiceDone v) fun v t hv ht _ =>
    voiceDone_changedAt ht (by rw [ht.2]; exact hv)
  simpa using h

/-- Settles O36: VOICE_DONE deallocates at one voice, PANIC_OFF at every voice. -/
theorem voiceDoneAndPanicOff : Obligations.VoiceDoneAndPanicOff := by
  refine ⟨fun v s hs => ?_, fun s hs => ?_⟩
  · have hsized : SizedFor s.cfg s := ⟨hs, rfl⟩
    have hchange := voiceDone_changedAt hsized (hsized.lt_of_le_pred (Nat.min_le_right v.toNat _))
    exact ⟨_, rfl, ⟨hchange.frame, hchange.sameMemory⟩, hchange.deallocated fun _ _ => by simp⟩
  · have hchange := deallocateAll_changedAt (s := { s with noteHeld := 0 }) hs
    have hevt : (forVoices voiceDone { s with noteHeld := 0 }).evt = s.evt := by
      rw [hchange.evt]; simp [deallocation]
    exact ⟨_, rfl, hchange.frame.trans (by rw [hevt]), hchange.sameMemory,
      hchange.deallocated fun u hu => by simpa using hu⟩

/-! ## Releasing the hold pedal (R90) -/

/-- What releasing HOLD does to a gated voice whose key is up. -/
def pedalRelease : VoiceChange where
  record x := { x with gated := false }
  env _ := envSetGate false
  events v x := [⟨.gateOff, v, x.note, x.velocity, false, x.fromKeyboard⟩]

theorem releaseVoice_changedAt {c : Config} {s : State} (hs : SizedFor c s) {v : Nat} (hv : v < s.cfg.nVoices) :
    ChangedAt pedalRelease [v] s (releaseVoice v s) := by
  obtain ⟨hvo, hen, -⟩ := hs.mem_files hv
  obtain ⟨hvoice, henv⟩ := releaseVoice_spec v s hvo hen
  refine ⟨by rw [releaseVoice_frame], fun u => ?_, fun e => ?_, by
    rw [releaseVoice_frame, List.flatMap_singleton]; rfl⟩
  · rw [hvoice]
    by_cases hu : u = v
    · subst hu; simp [pedalRelease]
    · simp [hu]
  · rw [henv]; simp [pedalRelease]

/-- Settles O37: HOLD 0 is the loop over the gated voices whose key is up, run with HOLD cleared. -/
theorem holdCommand : Obligations.HoldCommand := by
  refine ⟨fun s => ⟨_, rfl, rfl, .of_eq rfl rfl rfl rfl⟩, fun s hs => ?_⟩
  have hchange : ChangedAt pedalRelease _ _ (releaseHeld { s with hold := false }) :=
    .forVoices (s := { s with hold := false }) (fun x => x.assigned && x.gated && !x.keyPressed) hs
      (fun v _ ht => ht.releaseVoice v) fun v t hv ht _ => releaseVoice_changedAt ht (by rw [ht.2]; exact hv)
  exact ⟨releaseHeld { s with hold := false }, rfl, hchange.frame.trans rfl, hchange.sameMemory, _, rfl,
    fun v _ => hchange.voice v, fun e _ => hchange.env e,
    hchange.evt.trans (congrArg (s.evt ++ ·) (List.flatMap_pure_eq_map (offEvent .gateOff · s) _))⟩

end Sys2Proof.Machine
end

section
/-! PROOF. A whole grant (R71) is what `Granted` says of it. The grants of the targets write different voices, so each
finds its voice as it was before the first. -/

namespace Sys2Proof.Machine

/-- From `s` to `t` voice v keeps its record, its pitches and its envelopes. -/
structure VoiceKept (v : Nat) (s t : State) : Prop where
  record : t.voice v = s.voice v
  tb : t.tbOf v = s.tbOf v
  pb : t.pbOf v = s.pbOf v
  env : ∀ e, e / 2 = v → t.env e = s.env e

theorem VoiceKept.refl (v : Nat) (s : State) : VoiceKept v s s := ⟨rfl, rfl, rfl, fun _ _ => rfl⟩

theorem VoiceKept.trans {v : Nat} {s t u : State} (h : VoiceKept v s t) (k : VoiceKept v t u) : VoiceKept v s u :=
  ⟨k.record.trans h.record, k.tb.trans h.tb, k.pb.trans h.pb, fun e he => (k.env e he).trans (h.env e he)⟩

/-- A note-on as a grant takes it: the root, its velocity and source flag, and whether it is to be played legato. -/
structure GrantArgs where
  root : BitVec 7
  vel : U16
  kbd : Bool
  legato : Bool

/-- From `s` to `t` voice v is granted as element i of the pattern (R71): its record, its pitches and its envelopes. -/
structure VoiceGranted (a : GrantArgs) (v i : Nat) (s t : State) : Prop where
  record : t.voice v =
    { assigned := true, gated := true, keyPressed := true, fromKeyboard := a.kbd,
      legato := a.legato && (s.voice v).gated, note := patternNote s i a.root, rootNote := a.root,
      velocity := a.vel, ts := s.ts }
  tb : t.tbOf v = BitVec.ofNat 16 ((patternNote s i a.root).toNat * 256)
  pb : t.pbOf v = if a.legato && (s.voice v).gated && s.glide != 0 then s.pbOf v else t.tbOf v
  env : ∀ e, e / 2 = v →
    t.env e = if a.legato && (s.voice v).gated then s.env e else envSetGate true (s.env e)

/-- What is kept after the grant. -/
theorem VoiceGranted.trans_kept {a : GrantArgs} {v i : Nat} {s t u : State} (h : VoiceGranted a v i s t)
    (k : VoiceKept v t u) : VoiceGranted a v i s u :=
  ⟨k.record.trans h.record, k.tb.trans h.tb, by rw [k.pb, k.tb, h.pb], fun e he => (k.env e he).trans (h.env e he)⟩

/-- The grants of the pairs of a target and its place in the pattern, in order, from `s` to `t`. -/
structure GrantedTo (a : GrantArgs) (L : List (Nat × Nat)) (s t : State) : Prop where
  frame : t =
    { s with
      voices := t.voices
      envs := t.envs
      pb := t.pb
      tb := t.tb
      evt := s.evt ++ L.flatMap fun p => grantEvents a.root a.vel a.kbd a.legato p.1 p.2 s }
  granted : ∀ p ∈ L, VoiceGranted a p.1 p.2 s t
  kept : ∀ v, v ∉ L.map Prod.fst → VoiceKept v s t

theorem GrantedTo.nil (a : GrantArgs) (s : State) : GrantedTo a [] s s :=
  ⟨by simp, by simp, fun v _ => .refl v s⟩

/-- One target's grant. A legato grant is made in mono mode only, where no STOLEN_OFF releases an envelope that the
legato GATE_ON would leave released. -/
theorem grantVoice_grantedTo {c : Config} {a : GrantArgs} {s : State} (hs : SizedFor c s)
    (hlegato : a.legato = true → s.mono = true) {v : Nat} (i : Nat) (hv : v < s.cfg.nVoices) :
    GrantedTo a [(v, i)] s (grantVoice a.root a.vel a.kbd a.legato v i s) := by
  obtain ⟨hvo, hen, hpb, htb⟩ := hs.mem_files hv
  obtain ⟨-, -, rvoice, rtb, rpb, renv⟩ := grantVoice_spec a.root a.vel a.kbd a.legato v i s hvo hen hpb htb
  refine ⟨?_, fun p hp => ?_, fun u hu => ?_⟩
  · rw [List.flatMap_singleton]
    exact grantVoice_frame a.root a.vel a.kbd a.legato v i s
  · obtain rfl := List.mem_singleton.mp hp
    refine ⟨by rw [rvoice, if_pos rfl], by rw [rtb, if_pos rfl], ?_, fun e he => ?_⟩
    · rw [rpb, rtb, if_pos rfl]
      by_cases hl : (a.legato && (s.voice v).gated) = true <;> by_cases hg : s.glide = 0 <;> simp [hl, hg]
    · rw [renv, if_pos he]
      by_cases hl : (a.legato && (s.voice v).gated) = true
      · simp [hl, hlegato (Bool.and_eq_true_iff.mp hl).1]
      · simp [hl]
  · have hne : u ≠ v := by simpa using hu
    refine ⟨by rw [rvoice, if_neg hne], by rw [rtb, if_neg hne], ?_, fun e he => ?_⟩
    · rw [rpb, if_neg fun h => hne h.1]
    · rw [renv, if_neg fun h => hne (he.symm.trans h)]

/-- One more grant, of a voice not granted yet. -/
theorem GrantedTo.snoc {a : GrantArgs} {L : List (Nat × Nat)} {s t u : State} {v i : Nat} (h : GrantedTo a L s t)
    (hv : v ∉ L.map Prod.fst) (k : GrantedTo a [(v, i)] t u) : GrantedTo a (L ++ [(v, i)]) s u := by
  have hkept := h.kept v hv
  have hevents : grantEvents a.root a.vel a.kbd a.legato v i t = grantEvents a.root a.vel a.kbd a.legato v i s := by
    unfold grantEvents offEvent
    rw [hkept.record, h.frame]; rfl
  refine ⟨?_, fun p hp => ?_, fun w hw => ?_⟩
  · rw [List.flatMap_append, List.flatMap_singleton, ← hevents, ← List.append_assoc]
    have hevt : t.evt = s.evt ++ L.flatMap fun p => grantEvents a.root a.vel a.kbd a.legato p.1 p.2 s := by
      rw [h.frame]
    rw [k.frame, List.flatMap_singleton, ← hevt, h.frame]
  · rcases List.mem_append.mp hp with hp | hp
    · refine (h.granted p hp).trans_kept (k.kept p.1 fun hmem => hv ?_)
      have heq : p.1 = v := by simpa using hmem
      exact heq ▸ List.mem_map_of_mem hp
    · obtain rfl := List.mem_singleton.mp hp
      obtain ⟨rvoice, rtb, rpb, renv⟩ := k.granted (v, i) (List.mem_singleton.mpr rfl)
      have hnote : patternNote t i a.root = patternNote s i a.root := by
        unfold patternNote State.offset; rw [h.frame]
      have hts : t.ts = s.ts := by rw [h.frame]
      have hglide : t.glide = s.glide := by rw [h.frame]
      refine ⟨?_, ?_, ?_, fun e he => ?_⟩
      · rw [rvoice, hkept.record, hnote, hts]
      · rw [rtb, hnote]
      · rw [rpb, hkept.record, hglide, hkept.pb]
      · rw [renv e he, hkept.record, hkept.env e he]
  · rw [List.map_append, List.mem_append, not_or] at hw
    exact (h.kept w hw.1).trans (k.kept w hw.2)

/-- The loop of a grant, over targets that are no two the same voice. -/
theorem foldl_grantVoice_grantedTo {a : GrantArgs} {s : State} (hs : Sized s)
    (hlegato : a.legato = true → s.mono = true) (L : List (Nat × Nat)) (hnodup : (L.map Prod.fst).Nodup)
    (hlt : ∀ p ∈ L, p.1 < s.cfg.nVoices) :
    SizedFor s.cfg (L.foldl (fun t p => grantVoice a.root a.vel a.kbd a.legato p.1 p.2 t) s) ∧
    GrantedTo a L s (L.foldl (fun t p => grantVoice a.root a.vel a.kbd a.legato p.1 p.2 t) s) := by
  induction L using List.reverseRecOn with
  | nil => exact ⟨⟨hs, rfl⟩, .nil a s⟩
  | append_singleton L p ih =>
    rw [List.map_append, List.nodup_append] at hnodup
    obtain ⟨hL, -, hdisjoint⟩ := hnodup
    obtain ⟨hsized, hgranted⟩ := ih hL fun q hq => hlt q (List.mem_append_left _ hq)
    have hnew : p.1 ∉ L.map Prod.fst := fun hmem => hdisjoint _ hmem _ (List.mem_singleton.mpr rfl) rfl
    rw [List.foldl_append, List.foldl_cons, List.foldl_nil]
    generalize L.foldl (fun t p => grantVoice a.root a.vel a.kbd a.legato p.1 p.2 t) s = t at hsized hgranted
    have hv : p.1 < t.cfg.nVoices := by
      rw [hsized.2]
      exact hlt p (List.mem_append_right _ (List.mem_singleton.mpr rfl))
    have hmono : a.legato = true → t.mono = true := by rw [hgranted.frame]; exact hlegato
    exact ⟨hsized.grantVoice a.root a.vel a.kbd a.legato p.2 hv,
      hgranted.snoc hnew (grantVoice_grantedTo hsized hmono p.2 hv)⟩

/-- The clamp of a pattern note (R71). -/
theorem toNat_patternNote (s : State) (i : Nat) (root : BitVec 7) :
    ((patternNote s i root).toNat : Int) = min (max ((root.toNat : Int) + s.offset i) 0) 127 := by
  have := clampInt_bounds (x := (root.toNat : Int) + s.offset i) (lo := 0) (hi := 127) (by decide)
  rw [patternNote, BitVec.toNat_ofNat]
  unfold clampInt at *
  omega

/-- A whole grant is what `Granted` says of it. -/
theorem assignPattern_granted {s : State} (hs : Sized s) (start : Nat) (root : BitVec 7) (vel : U16)
    (kbd legato : Bool) (hlegato : legato = true → s.mono = true) :
    Granted s (assignPattern start root vel kbd legato s) root vel kbd legato (targets s start) := by
  have hfst : (targets s start).zipIdx.map Prod.fst = targets s start := List.zipIdx_map_fst _ _
  obtain ⟨-, h⟩ := foldl_grantVoice_grantedTo (a := ⟨root, vel, kbd, legato⟩) hs hlegato (targets s start).zipIdx
    (by rw [hfst]; exact targets_nodup s start)
    fun p hp => (enabled_of_mem_targets (List.fst_mem_of_mem_zipIdx hp)).1
  unfold assignPattern
  dsimp only at h ⊢
  generalize (targets s start).zipIdx.foldl (fun t p => grantVoice root vel kbd legato p.1 p.2 t) s = t at h
  refine ⟨fun i v hi => ?_, fun v hv hnot => ?_, ?_, ?_⟩
  · obtain ⟨hrecord, htb, hpb, henv⟩ := h.granted (v, i) (List.mem_zipIdx_iff_getElem?.mpr hi)
    refine ⟨hrecord, toNat_patternNote s i root, ?_, hpb, fun k hk => henv (2 * v + k) (by omega)⟩
    exact (congrArg BitVec.toNat htb).trans (toNat_pitch _).1
  · obtain ⟨hrecord, htb, hpb, henv⟩ := h.kept v (by rwa [hfst])
    exact ⟨hrecord, htb, hpb, henv (2 * v) (by omega), henv (2 * v + 1) (by omega)⟩
  · change t.ts + 1 = _
    rw [h.frame]
  · change t.evt = _
    rw [h.frame]; rfl

theorem assignPattern_onlyAssigner {s : State} (hs : Sized s) (start : Nat) (root : BitVec 7) (vel : U16)
    (kbd legato : Bool) :
    OnlyAssigner s (assignPattern start root vel kbd legato s) ∧
    (assignPattern start root vel kbd legato s).noteHeld = s.noteHeld := by
  obtain ⟨-, hvoices, henvs, -, -, -, -, -, -, hpb, htb, -⟩ := hs
  obtain ⟨frame, -⟩ := assignPattern_frame start root vel kbd legato s hvoices henvs hpb htb
  refine ⟨⟨?_, ?_⟩, ?_⟩
  · rw [frame]
  · rw [frame]
    exact .of_eq rfl rfl rfl rfl
  · rw [frame]

end Sys2Proof.Machine
end

section
/-! PROOF. O30, O31: NOTE_ON in poly mode (R68, R76 to R78). -/

namespace Sys2Proof.Machine

/-! ## The choice of the start voice -/

theorem age_eq (s : State) (v : Nat) : age s v = (s.ts.toNat + 2 ^ 32 - (s.voice v).ts.toNat) % 2 ^ 32 := by
  have := (s.voice v).ts.isLt
  rw [age, BitVec.toNat_sub]
  congr 1
  omega

/-- The list C of R76 that stands for the set `P` of enabled voices. -/
theorem oldestOf_oldest {s : State} {p : Nat → Bool} {P : Nat → Prop}
    (hP : ∀ v, v ∈ (enabledVoices s).filter p ↔ P v) (hne : (enabledVoices s).filter p ≠ []) :
    OldestOf s P (oldest s ((enabledVoices s).filter p)) := by
  obtain ⟨hmem, hold⟩ := oldest_spec s _ hne ((enabledVoices_sorted s).filter p)
  refine ⟨(hP _).mp hmem, fun u hu => ?_⟩
  simp only [← age_eq]
  exact hold u ((hP u).mpr hu)

theorem mem_enabledVoices_iff_enabled {s : State} {v : Nat} : v ∈ enabledVoices s ↔ Enabled s v := mem_enabledVoices

theorem filter_eq_nil_iff_forall_not {s : State} {p : Nat → Bool} {P : Nat → Prop}
    (hP : ∀ v, v ∈ (enabledVoices s).filter p ↔ P v) : (enabledVoices s).filter p = [] ↔ ∀ v, ¬P v := by
  rw [List.eq_nil_iff_forall_not_mem]
  exact forall_congr' fun v => not_congr (hP v)

theorem mem_filter_carriesNote {s : State} {note : BitVec 7} (v : Nat) :
    v ∈ ((enabledVoices s).filter fun v => (s.voice v).assigned && (s.voice v).rootNote == note) ↔
      CarriesNote s note v := by
  simp [mem_enabledVoices_iff_enabled, CarriesNote]

theorem mem_filter_freeVoice {s : State} (v : Nat) :
    v ∈ ((enabledVoices s).filter fun v => !(s.voice v).assigned) ↔ FreeVoice s v := by
  simp [mem_enabledVoices_iff_enabled, FreeVoice]

theorem mem_filter_keyUp {s : State} (v : Nat) :
    v ∈ ((enabledVoices s).filter fun v => !s.held (s.voice v).rootNote) ↔ KeyUp s v := by
  simp [mem_enabledVoices_iff_enabled, KeyUp]

/-- The candidate list of R76 is of the first set that is not empty. -/
theorem candidates_cases (s : State) (note : BitVec 7) :
    (candidates s note = [] ∧ NoCandidate s note) ∨
    (candidates s note ≠ [] ∧
      (OldestOf s (CarriesNote s note) (oldest s (candidates s note)) ∨
        ((∀ u, ¬CarriesNote s note u) ∧ OldestOf s (FreeVoice s) (oldest s (candidates s note))) ∨
        ((∀ u, ¬CarriesNote s note u ∧ ¬FreeVoice s u) ∧
          OldestOf s (KeyUp s) (oldest s (candidates s note))))) := by
  have hsame := filter_eq_nil_iff_forall_not (s := s) (mem_filter_carriesNote (note := note))
  have hfree := filter_eq_nil_iff_forall_not (s := s) mem_filter_freeVoice
  have hup := filter_eq_nil_iff_forall_not (s := s) mem_filter_keyUp
  unfold candidates
  dsimp only
  split
  case isTrue h => exact .inr ⟨h, .inl (oldestOf_oldest mem_filter_carriesNote h)⟩
  case isFalse h =>
    have hsame := hsame.mp (not_not.mp h)
    split
    case isTrue h => exact .inr ⟨h, .inr (.inl ⟨hsame, oldestOf_oldest mem_filter_freeVoice h⟩)⟩
    case isFalse h =>
      have hfree := hfree.mp (not_not.mp h)
      by_cases h : ((enabledVoices s).filter fun v => !s.held (s.voice v).rootNote) = []
      · exact .inl ⟨h, fun v => ⟨hsame v, hfree v, hup.mp h v⟩⟩
      · exact .inr ⟨h, .inr (.inr ⟨fun u => ⟨hsame u, hfree u⟩, oldestOf_oldest mem_filter_keyUp h⟩)⟩

/-! ## The scan under LOW and HIGH (R77) -/

/-- What the scan maximises: under LOW the root, under HIGH its negation. -/
def scanKey : Priority → BitVec 7 → Int
  | .high, n => -n.toNat
  | _, n => n.toNat

/-- One pass of the scan: a voice whose key beats the comparison note's is taken, and its root is compared from
then on. -/
def scanPass (s : State) (acc : BitVec 7 × Option Nat) (v : Nat) : BitVec 7 × Option Nat :=
  if scanKey s.priority acc.1 < scanKey s.priority (s.voice v).rootNote then ((s.voice v).rootNote, some v) else acc

theorem stealScan_eq {s : State} (h : s.priority ≠ .last) (note : BitVec 7) :
    stealScan s note = ((enabledVoices s).foldl (scanPass s) (note, none)).2 := by
  unfold stealScan
  congr 3
  funext acc v
  unfold scanPass
  cases hp : s.priority
  · exact absurd hp h
  · simp [scanKey]
  · simp [scanKey]

/-- What the scan of an ascending list of voices has found: nothing, no key beating the note's; or the first voice
with the greatest key, which beats the note's. -/
theorem scan_spec (s : State) (note : BitVec 7) (l : List Nat) (hl : l.Pairwise (· < ·)) :
    (l.foldl (scanPass s) (note, none) = (note, none) ∧
      ∀ u ∈ l, scanKey s.priority (s.voice u).rootNote ≤ scanKey s.priority note) ∨
    ∃ v ∈ l, l.foldl (scanPass s) (note, none) = ((s.voice v).rootNote, some v) ∧
      scanKey s.priority note < scanKey s.priority (s.voice v).rootNote ∧
      ∀ u ∈ l, scanKey s.priority (s.voice u).rootNote < scanKey s.priority (s.voice v).rootNote ∨
        (scanKey s.priority (s.voice u).rootNote = scanKey s.priority (s.voice v).rootNote ∧ v ≤ u) := by
  induction l using List.reverseRecOn with
  | nil => exact .inl ⟨rfl, by simp⟩
  | append_singleton l w ih =>
    obtain ⟨hsorted, -, hlast⟩ := List.pairwise_append.mp hl
    rw [List.foldl_append, List.foldl_cons, List.foldl_nil]
    simp only [List.forall_mem_append, List.forall_mem_singleton]
    rcases ih hsorted with ⟨hscan, hnone⟩ | ⟨v, hv, hscan, hbeats, hbest⟩ <;> rw [hscan, scanPass] <;>
      split <;> rename_i hw <;> dsimp only at hw
    · exact .inr ⟨w, by simp, rfl, hw, fun u hu => .inl ((hnone u hu).trans_lt hw), .inr ⟨rfl, le_rfl⟩⟩
    · exact .inl ⟨rfl, hnone, not_lt.mp hw⟩
    · refine .inr ⟨w, by simp, rfl, hbeats.trans hw, fun u hu => ?_, .inr ⟨rfl, le_rfl⟩⟩
      have := hbest u hu
      omega
    · have := hlast v hv w (List.mem_singleton.mpr rfl)
      exact .inr ⟨v, List.mem_append_left _ hv, rfl, hbeats, hbest, by omega⟩

/-- The start voice that the model computes is R76's choice. -/
theorem polyChoice_polyStart (s : State) (note : BitVec 7) : PolyChoice s note (polyStart s note) := by
  unfold polyStart
  dsimp only
  split
  case isTrue hE =>
    exact .inl fun v hv => by
      have hmem := mem_enabledVoices_iff_enabled.mpr hv
      rw [hE] at hmem
      contradiction
  case isFalse hE =>
    rcases candidates_cases s note with ⟨hC, hno⟩ | ⟨hC, hchoice⟩
    case inr =>
      rw [if_pos hC]
      rcases hchoice with h | h | h
      · exact .inl h
      · exact .inr (.inl h)
      · exact .inr (.inr (.inl h))
    rw [if_neg (not_not.mpr hC)]
    split
    case isTrue hlast =>
      have hE' : ((enabledVoices s).filter fun _ => true) = enabledVoices s := List.filter_true _
      have hold := oldestOf_oldest (s := s) (p := fun _ => true) (P := Enabled s)
        (fun v => by rw [hE']; exact mem_enabledVoices) (by rw [hE']; exact hE)
      rw [hE'] at hold
      exact .inr (.inr (.inr ⟨hno, hold.1, .inl ⟨hlast, hold⟩⟩))
    case isFalse hlast =>
      rw [stealScan_eq hlast]
      rcases scan_spec s note _ (enabledVoices_sorted s) with ⟨hscan, hnone⟩ | ⟨v, hv, hscan, hbeats, hbest⟩ <;>
        rw [hscan]
      · refine .inr ⟨hno, ?_⟩
        cases hp : s.priority
        · exact absurd hp hlast
        · refine .inl ⟨rfl, fun u hu => ?_⟩
          have := hnone u (mem_enabledVoices.mpr hu)
          simp only [hp, scanKey] at this
          omega
        · refine .inr ⟨rfl, fun u hu => ?_⟩
          have := hnone u (mem_enabledVoices.mpr hu)
          simp only [hp, scanKey] at this
          omega
      · refine .inr (.inr (.inr ⟨hno, mem_enabledVoices.mp hv, .inr ?_⟩))
        cases hp : s.priority
        · exact absurd hp hlast
        · simp only [hp, scanKey] at hbeats hbest
          refine .inl ⟨rfl, by omega, fun u hu => ?_⟩
          have := hbest u (mem_enabledVoices.mpr hu)
          rw [BitVec.toNat_eq]
          omega
        · simp only [hp, scanKey] at hbeats hbest
          refine .inr ⟨rfl, by omega, fun u hu => ?_⟩
          have := hbest u (mem_enabledVoices.mpr hu)
          rw [BitVec.toNat_eq]
          omega

/-! ## NOTE_ON in poly mode -/

theorem setHeld_onlyAssigner (s : State) (note : BitVec 7) (b : Bool) : OnlyAssigner s (s.setHeld note b) :=
  ⟨rfl, .of_eq rfl rfl rfl rfl⟩

/-- A grant made with a held bit changed is, but for that bit, a grant from the state before (R75, R80). -/
theorem assignPattern_setHeld {s : State} (hs : Sized s) (note : BitVec 7) (b : Bool) (start : Nat) (root : BitVec 7)
    (vel : U16) (kbd legato : Bool) (hlegato : legato = true → s.mono = true) :
    OnlyAssigner s (assignPattern start root vel kbd legato (s.setHeld note b)) ∧
    (∀ m, (assignPattern start root vel kbd legato (s.setHeld note b)).held m = (s.setHeld note b).held m) ∧
    Granted s (assignPattern start root vel kbd legato (s.setHeld note b)) root vel kbd legato (targets s start) := by
  obtain ⟨⟨frame, hmem⟩, hheld⟩ := assignPattern_onlyAssigner (s := s.setHeld note b) hs start root vel kbd legato
  refine ⟨⟨frame.trans rfl, hmem⟩, fun m => ?_, ?_⟩
  · rw [State.held, hheld]; rfl
  · exact assignPattern_granted (s := s.setHeld note b) hs start root vel kbd legato hlegato

theorem exec_noteOn_poly {s : State} (hmono : s.mono = false) (k : Bool) (note : BitVec 7) (vel : U16) :
    exec (.noteOn k note vel) s = .next (noteOnPoly note vel k s) := by
  change Host.Outcome.next (if s.mono then _ else _) = _
  rw [hmono]; rfl

/-- Settles O30: the choice is `polyStart`'s, and what follows it is a grant or nothing. -/
theorem Settled.noteOnPoly : Obligations.NoteOnPoly := by
  intro k note vel s hs hmono
  refine ⟨_, _, polyChoice_polyStart _ note, exec_noteOn_poly hmono k note vel, ?_⟩
  unfold Machine.noteOnPoly
  dsimp only
  cases polyStart (s.setHeld note true) note with
  | none => exact ⟨setHeld_onlyAssigner s note true, held_setHeld_true s note, rfl⟩
  | some v =>
    obtain ⟨honly, hheld, hgranted⟩ := assignPattern_setHeld hs note true v note vel k false (by simp)
    exact ⟨honly, fun m => (hheld m).trans (held_setHeld_true s note m), hgranted⟩

/-- A pattern of one note has the start voice's one target. -/
theorem targets_of_plen_one {s : State} {start v : Nat} (hplen : s.plen = 1) (hv : Enabled s v) :
    ∃ w, targets s start = [w] ∧ Enabled s w := by
  have hne := targets_ne_nil hv (show 1 ≤ s.plen.toNat by rw [hplen]; decide) start
  obtain ⟨w, ws, hw⟩ := List.exists_cons_of_ne_nil hne
  have hlen : (targets s start).length ≤ 1 := by
    rw [targets_eq_take, List.length_take, hplen]
    exact Nat.min_le_left _ _
  obtain rfl : ws = [] := by
    rw [hw, List.length_cons] at hlen
    exact List.eq_nil_of_length_eq_zero (by omega)
  exact ⟨w, hw, enabled_of_mem_targets (hw ▸ List.mem_singleton.mpr rfl)⟩

/-- Settles O31, from O30: a grant has one target, which is assigned with another root; and R76 drops a note only
under LOW or HIGH where some voice is enabled. -/
theorem stealingEmitsOneStolenOff : Obligations.StealingEmitsOneStolenOff := by
  intro k note vel s hs hmono hplen ⟨v, hv⟩ htaken
  obtain ⟨r, t, hchoice, hexec, -, -, hresult⟩ := Settled.noteOnPoly k note vel s hs hmono
  refine ⟨t, hexec, ?_⟩
  cases r with
  | none =>
    refine .inr ⟨?_, hresult⟩
    rcases hchoice with hnone | ⟨-, ⟨hp, -⟩ | ⟨hp, -⟩⟩
    · exact absurd hv (hnone v)
    · intro h; cases h.symm.trans hp
    · intro h; cases h.symm.trans hp
  | some start =>
    obtain ⟨w, hw, hen⟩ := targets_of_plen_one (start := start) hplen hv
    obtain ⟨hassigned, hroot⟩ := htaken w hen
    dsimp only at hresult
    rw [hw] at hresult
    obtain ⟨htargets, -, -, hevt⟩ := hresult
    obtain ⟨hrecord, -⟩ := htargets 0 w rfl
    refine .inl ⟨w, patternNote s 0 note, hen, by rw [hrecord], hevt.trans ?_⟩
    simp [hmono, hassigned, hroot]

end Sys2Proof.Machine
end

section
/-! PROOF. O32, O34: NOTE_ON and NOTE_OFF in mono mode (R79, R82). -/

namespace Sys2Proof.Machine

/-! ## The lowest enabled voice -/

theorem enabledVoices_eq_nil_iff {s : State} : enabledVoices s = [] ↔ ∀ v, ¬Enabled s v := by
  rw [List.eq_nil_iff_forall_not_mem]
  exact forall_congr' fun v => not_congr mem_enabledVoices

/-- E begins with the lowest enabled voice. -/
theorem firstEnabled_of_enabledVoices_cons {s : State} {v : Nat} {vs : List Nat} (h : enabledVoices s = v :: vs) :
    FirstEnabled s v := by
  refine ⟨enabled_of_enabledVoices_cons h, fun u hu => ?_⟩
  have hsorted := enabledVoices_sorted s
  have hmem := mem_enabledVoices.mpr hu
  rw [h] at hsorted hmem
  rcases List.mem_cons.mp hmem with rfl | hmem
  · exact le_rfl
  · exact (List.rel_of_pairwise_cons hsorted hmem).le

theorem FirstEnabled.unique {s : State} {u v : Nat} (hu : FirstEnabled s u) (hv : FirstEnabled s v) : u = v :=
  le_antisymm (hu.2 v hv.1) (hv.2 u hu.1)

/-! ## The other held notes (R79) -/

theorem mem_allNotes (n : BitVec 7) : n ∈ allNotes :=
  List.mem_map.mpr ⟨n.toNat, List.mem_range.mpr n.isLt, BitVec.ofNat_toNat 7 n⟩

theorem mem_otherHeld {s : State} {note n : BitVec 7} : n ∈ otherHeld s note ↔ s.held n = true ∧ n ≠ note := by
  simp [otherHeld, mem_allNotes]

theorem otherHeld_nonempty_iff {s : State} {note : BitVec 7} :
    (!(otherHeld s note).isEmpty) = true ↔ ∃ n, s.held n = true ∧ n ≠ note := by
  rw [Bool.not_eq_true', List.isEmpty_eq_false_iff_exists_mem]
  exact exists_congr fun _ => mem_otherHeld

theorem monoWins_iff {s : State} {note : BitVec 7} : monoWins s note = true ↔ MonoWins s note := by
  unfold monoWins MonoWins
  cases s.priority
  · simp
  · simp only [List.all_eq_true, decide_eq_true_eq, mem_otherHeld, and_imp]
  · simp only [List.all_eq_true, decide_eq_true_eq, mem_otherHeld, and_imp]

/-! ## NOTE_ON in mono mode -/

theorem exec_noteOn_mono {s : State} (hmono : s.mono = true) (k : Bool) (note : BitVec 7) (vel : U16) :
    exec (.noteOn k note vel) s = .next (noteOnMono note vel k s) := by
  change Host.Outcome.next (if s.mono then _ else _) = _
  rw [hmono]; rfl

/-- What noteOnMono does (R79): a grant from the lowest enabled voice, or nothing but the held bit. -/
theorem noteOnMono_cases (s : State) (note : BitVec 7) (vel : U16) (kbd : Bool) :
    (noteOnMono note vel kbd s = s.setHeld note true ∧ ((∀ v, ¬Enabled s v) ∨ ¬MonoWins s note)) ∨
    ∃ v, FirstEnabled s v ∧ MonoWins s note ∧
      noteOnMono note vel kbd s =
        assignPattern v note vel kbd (!(otherHeld s note).isEmpty && (s.voice v).gated) (s.setHeld note true) := by
  unfold noteOnMono
  dsimp only
  split
  case h_1 hE => exact .inl ⟨rfl, .inl (enabledVoices_eq_nil_iff (s := s).mp hE)⟩
  case h_2 v vs hE =>
    split
    case isTrue hwins =>
      exact .inr ⟨v, firstEnabled_of_enabledVoices_cons (s := s) hE, monoWins_iff.mp hwins, rfl⟩
    case isFalse hloses => exact .inl ⟨rfl, .inr fun h => hloses (monoWins_iff.mpr h)⟩

/-- Settles O32, by the two cases of `noteOnMono_cases`. -/
theorem Settled.noteOnMono : Obligations.NoteOnMono := by
  intro k note vel s hs hmono
  refine ⟨_, exec_noteOn_mono hmono k note vel, ?_⟩
  rcases noteOnMono_cases s note vel k with ⟨hkept, hwhy⟩ | ⟨start, hstart, hwins, hgrant⟩
  · rw [hkept]
    refine ⟨setHeld_onlyAssigner s note true, held_setHeld_true s note, fun _ => rfl, fun v hv hwins => ?_⟩
    rcases hwhy with hnone | hloses
    · exact absurd hv.1 (hnone v)
    · exact absurd hwins hloses
  · rw [hgrant]
    obtain ⟨honly, hheld, hgranted⟩ := assignPattern_setHeld hs note true start note vel k
      (!(otherHeld s note).isEmpty && (s.voice start).gated) fun _ => hmono
    refine ⟨honly, fun m => (hheld m).trans (held_setHeld_true s note m), ?_, fun v hv _ => ?_⟩
    · rintro (hnone | hloses)
      · exact absurd hstart.1 (hnone start)
      · exact absurd hwins hloses
    · obtain rfl := hstart.unique hv
      exact ⟨_, by rw [Bool.and_eq_true, otherHeld_nonempty_iff], hgranted⟩

/-! ## The note to restore (R82) -/

/-- The first element of a sorted list that satisfies `p` comes before every other that does. -/
theorem find?_eq_some_of_sorted {α : Type} {r : α → α → Prop} {p : α → Bool} {l : List α} (hl : l.Pairwise r) {a : α}
    (h : l.find? p = some a) : ∀ b ∈ l, p b = true → b = a ∨ r a b := by
  obtain ⟨-, before, after, rfl, hbefore⟩ := List.find?_eq_some_iff_append.mp h
  obtain ⟨-, hsorted, -⟩ := List.pairwise_append.mp hl
  intro b hb hp
  rcases List.mem_append.mp hb with hb | hb
  · have := hbefore b hb
    simp [hp] at this
  · rcases List.mem_cons.mp hb with rfl | hb
    · exact .inl rfl
    · exact .inr (List.rel_of_pairwise_cons hsorted hb)

theorem allNotes_sorted : allNotes.Pairwise fun m n => m.toNat < n.toNat := by
  refine List.pairwise_map.mpr (List.pairwise_lt_range.imp_of_mem fun hm hn hlt => ?_)
  rw [List.mem_range] at hm hn
  rwa [BitVec.toNat_ofNat, BitVec.toNat_ofNat, Nat.mod_eq_of_lt hm, Nat.mod_eq_of_lt hn]

/-- The order in which R82 scans the notes. -/
def scanOrder (p : Priority) : List (BitVec 7) := if p = .low then allNotes else allNotes.reverse

theorem mem_scanOrder (p : Priority) (n : BitVec 7) : n ∈ scanOrder p := by
  unfold scanOrder
  split
  · exact mem_allNotes n
  · exact List.mem_reverse.mpr (mem_allNotes n)

theorem scanOrder_sorted (p : Priority) :
    (scanOrder p).Pairwise fun m n => if p = .low then m.toNat < n.toNat else n.toNat < m.toNat := by
  unfold scanOrder
  split
  · exact allNotes_sorted
  · exact List.pairwise_reverse.mpr allNotes_sorted

/-- What R82 asks of a note in its scan, once the released note's bit is cleared. -/
theorem restorable_iff {s : State} {note n : BitVec 7} :
    ((s.setHeld note false).held n && !(List.range s.cfg.nVoices).any (carries s n)) = true ↔ Restorable s note n := by
  rw [held_setHeld_false]
  simp only [Bool.and_eq_true, Bool.not_eq_true', List.any_eq_false, List.mem_range, carries, beq_iff_eq,
    bne_iff_ne, not_and, Restorable, and_assoc]

theorem restoreCandidate_eq_find? (s : State) (note : BitVec 7) :
    restoreCandidate (s.setHeld note false) =
      (scanOrder s.priority).find? fun n =>
        (s.setHeld note false).held n && !(List.range s.cfg.nVoices).any (carries s n) := rfl

/-- The scan finds nothing exactly where no note is restorable. -/
theorem restoreCandidate_eq_none_iff {s : State} {note : BitVec 7} :
    restoreCandidate (s.setHeld note false) = none ↔ ∀ n, ¬Restorable s note n := by
  rw [restoreCandidate_eq_find?, List.find?_eq_none]
  simp only [restorable_iff]
  exact ⟨fun h n => h n (mem_scanOrder _ n), fun h n _ => h n⟩

theorem restorable_of_restoreCandidate {s : State} {note n : BitVec 7}
    (h : restoreCandidate (s.setHeld note false) = some n) : Restorable s note n := by
  have hfound := List.find?_some ((restoreCandidate_eq_find? s note).symm.trans h)
  exact restorable_iff.mp hfound

/-- The scan finds the lowest restorable note under LOW and the highest otherwise. -/
theorem restoreCandidate_unique {s : State} {note n m : BitVec 7}
    (h : restoreCandidate (s.setHeld note false) = some n) (hm : Restorable s note m)
    (hbest : ∀ k, Restorable s note k → if s.priority = .low then m.toNat ≤ k.toNat else k.toNat ≤ m.toNat) :
    n = m := by
  have hn := hbest n (restorable_of_restoreCandidate h)
  rw [restoreCandidate_eq_find?] at h
  rcases find?_eq_some_of_sorted (scanOrder_sorted s.priority) h m (mem_scanOrder _ m) (restorable_iff.mpr hm) with
    heq | hlt
  · exact heq.symm
  · split at hn <;> simp only [*, if_true, if_false] at hlt <;> omega

/-! ## NOTE_OFF in mono mode -/

theorem exec_noteOff_mono {s : State} (hmono : s.mono = true) (note : BitVec 7) :
    exec (.noteOff note) s = .next (noteOffMono note s) := by
  change Host.Outcome.next (if s.mono then _ else _) = _
  rw [hmono]; rfl

/-- What noteOffMono does (R82): nothing but the held bit where no assigned voice carries the note; else the restore
of a note from the lowest enabled voice, or the release of the keys. -/
theorem noteOffMono_cases (s : State) (note : BitVec 7) :
    (noteOffMono note s = s.setHeld note false ∧ ∀ v, v < s.cfg.nVoices → carries s note v = false) ∨
    ((∃ v, v < s.cfg.nVoices ∧ carries s note v = true) ∧
      ((∃ v n, FirstEnabled s v ∧ restoreCandidate (s.setHeld note false) = some n ∧
          noteOffMono note s =
            assignPattern v n (s.voice v).velocity (s.voice v).fromKeyboard false (s.setHeld note false)) ∨
       (noteOffMono note s = gateOffRoot note (s.setHeld note false) ∧
          ((∀ n, ¬Restorable s note n) ∨ ∀ v, ¬Enabled s v)))) := by
  have hcarried : (List.range (s.setHeld note false).cfg.nVoices).any (carries (s.setHeld note false) note) = true ↔
      ∃ v, v < s.cfg.nVoices ∧ carries s note v = true := by
    rw [List.any_eq_true]
    exact exists_congr fun v => and_congr_left fun _ => List.mem_range
  unfold noteOffMono
  dsimp only
  split <;> rename_i h <;> rw [Bool.not_eq_true', ← Bool.not_eq_true, hcarried] at h
  · exact .inl ⟨rfl, fun v hv => Bool.eq_false_iff.mpr fun hc => h ⟨v, hv, hc⟩⟩
  · refine .inr ⟨not_not.mp h, ?_⟩
    split
    case h_1 n v vs hn hE => exact .inl ⟨v, n, firstEnabled_of_enabledVoices_cons (s := s) hE, hn, rfl⟩
    case h_2 hnot =>
      refine .inr ⟨rfl, ?_⟩
      cases hn : restoreCandidate (s.setHeld note false) with
      | none => exact .inl (restoreCandidate_eq_none_iff.mp hn)
      | some n =>
        cases hE : enabledVoices (s.setHeld note false) with
        | nil => exact .inr (enabledVoices_eq_nil_iff (s := s).mp hE)
        | cons v vs => exact absurd hE (hnot n v vs hn)

/-- Settles O34, by the three cases of `noteOffMono_cases`, which exclude each other. -/
theorem Settled.noteOffMono : Obligations.NoteOffMono := by
  intro note s hs hmono
  refine ⟨_, exec_noteOff_mono hmono note, ?_⟩
  rcases noteOffMono_cases s note with
    ⟨hkept, hnone⟩ | ⟨⟨w, hw, hcarries⟩, ⟨start, n, hstart, hn, hgrant⟩ | ⟨hrelease, hwhy⟩⟩
  · rw [hkept]
    refine ⟨setHeld_onlyAssigner s note false, held_setHeld_false s note, fun _ => rfl, ?_⟩
    rintro ⟨v, hv, hcarries⟩
    rw [hnone v hv] at hcarries
    contradiction
  · rw [hgrant]
    obtain ⟨honly, hheld, hgranted⟩ := assignPattern_setHeld hs note false start n (s.voice start).velocity
      (s.voice start).fromKeyboard false (by simp)
    refine ⟨honly, fun m => (hheld m).trans (held_setHeld_false s note m), fun hnone => ?_, fun _ => ⟨?_, ?_⟩⟩
    · rw [hnone w hw] at hcarries
      contradiction
    · intro v m hv hm hbest
      obtain rfl := hstart.unique hv
      obtain rfl := restoreCandidate_unique hn hm hbest
      exact hgranted
    · rintro (hnot | hnot)
      · exact absurd (restorable_of_restoreCandidate hn) (hnot n)
      · exact absurd hstart.1 (hnot start)
  · have hchange := gateOffRoot_changedAt (s := s.setHeld note false) hs note
    rw [hrelease]
    obtain ⟨hpb, htb, hts⟩ := hchange.pitches
    refine ⟨⟨hchange.frame.trans (by rw [hchange.noteHeld, hpb, htb, hts]; rfl), hchange.sameMemory⟩, fun m => ?_,
      fun hnone => ?_, fun _ => ⟨?_, fun _ => ⟨hchange.keysReleased, hpb, htb, hts⟩⟩⟩
    · rw [State.held, hchange.noteHeld]
      exact held_setHeld_false s note m
    · rw [hnone w hw] at hcarries
      contradiction
    · intro v m hv hm _
      rcases hwhy with hnot | hnot
      · exact absurd hm (hnot m)
      · exact absurd hv.1 (hnot v)

end Sys2Proof.Machine
end

section
/-! PROOF. O38, O39: the commands of the envelope generator (R101 to R108). Each changes every envelope of its target
set in one way and recomputes its increments. -/

namespace Sys2Proof.Machine

/-- A parameter command writes nothing but the envelopes, and those of its target set as its rule says
(42_envelope.md section 3). -/
theorem forEnvset_envsetOperand {s : State} (hs : Sized s) (b : Bool) (e : BitVec 4) (f : Env → Env) :
    OnlyEnvs s (forEnvset (envsetOperand s.cfg.nVoices b e) f s) ∧
    ∀ k, k < 2 * s.cfg.nVoices →
      (forEnvset (envsetOperand s.cfg.nVoices b e) f s).env k =
        if InEnvset s.cfg.nVoices b e k then envRecompute (f (s.env k)) else s.env k := by
  obtain ⟨⟨⟨hpos, -⟩, -⟩, -, henvs, -⟩ := hs
  have hmem := mem_envset s.cfg.nVoices hpos b e
  obtain ⟨frame, -, henv⟩ := forEnvset_spec _ (envset_nodup s.cfg.nVoices b e) f s fun k hk => by
    rw [henvs]
    exact ((hmem k).mp hk).1
  refine ⟨⟨frame, ?_⟩, fun k hk => ?_⟩
  · rw [frame]
    exact .of_eq rfl rfl rfl rfl
  · rw [henv]
    simp only [hmem, hk, true_and]

/-- Settles O38: each command is `forEnvset` of one field's update. -/
theorem envelopeSettings : Obligations.EnvelopeSettings := by
  refine ⟨fun _ => rfl, fun b e imm s hs => ?_⟩
  have hset := forEnvset_envsetOperand hs b e
  exact ⟨⟨_, rfl, hset _⟩, ⟨_, rfl, hset _⟩, ⟨_, rfl, hset _⟩, ⟨_, rfl, hset _⟩, ⟨_, rfl, hset _⟩,
    fun _ _ => ⟨_, rfl, hset _⟩, fun _ => ⟨_, rfl, hset _⟩⟩

/-- Settles O39: ENV_GATE is `forEnvset` of the gate's change, which `envSetGate_spec` describes. -/
theorem envGateCommand : Obligations.EnvGateCommand := by
  intro b e gate s hs
  obtain ⟨frame, henv⟩ := forEnvset_envsetOperand hs b e (envSetGate gate)
  refine ⟨_, rfl, frame, fun k hk => ?_⟩
  obtain ⟨m, hm, hgate⟩ := envSetGate_spec gate (s.env k)
  exact ⟨{ s.env k with mul := m }, hm, by rw [henv k hk, hgate]⟩

end Sys2Proof.Machine
end

section
/-! PROOF. O40: one update of an envelope (R97). A running stage either advances or, where the phase reaches 2^24,
completes. -/

namespace Sys2Proof.Machine

/-- SUS as a stage output is stored exactly (R92). -/
theorem toNat_ofNat_envSus (x : Env) : (BitVec.ofNat 16 (envSus x)).toNat = x.susCv.toNat * x.level.toNat / 65536 := by
  have hle := envSus_le x
  rw [BitVec.toNat_ofNat, Nat.mod_eq_of_lt (by omega), envSus]

/-- A running stage whose phase stays below 2^24 advances it and shapes the output (R97). -/
theorem envRun_of_lt {x : Env} (h : x.phase.toNat + envInc x < 2 ^ 24) :
    ∃ (p : BitVec 24) (o : U16), p.toNat = x.phase.toNat + envInc x ∧
      (o.toNat : Int) = min (max (x.add.toNat + (envShape x p.toNat : Int) * x.mul.toInt / 65536) 0) 65535 ∧
      envRun x = { x with phase := p, output := o } := by
  have hp : (BitVec.ofNat 24 (x.phase.toNat + envInc x)).toNat = x.phase.toNat + envInc x := by
    rw [BitVec.toNat_ofNat, Nat.mod_eq_of_lt h]
  refine ⟨BitVec.ofNat 24 (x.phase.toNat + envInc x),
    sat16 (x.add.toNat + (envShape x (x.phase.toNat + envInc x) : Int) * x.mul.toInt / 65536), hp, ?_, ?_⟩
  · rw [hp, toNat_sat16, clampInt]
  · rw [envRun, if_neg (Nat.not_le_of_lt h)]

/-- A running stage whose phase reaches 2^24 completes (R97). -/
theorem envRun_of_le {x : Env} (h : 2 ^ 24 ≤ x.phase.toNat + envInc x) : envRun x = envComplete x := by
  rw [envRun, if_pos h]

/-- A stage completes at its saturated target; Attack is followed by Decay towards SUS, Decay by Sustain and Release
by Done (R97). -/
theorem envComplete_spec (x : Env) : ∃ (o : U16) (m : BitVec 17),
    (o.toNat : Int) = min (max (x.add.toNat + x.mul.toInt) 0) 65535 ∧
    (x.stage = .attack → m.toInt = (x.susCv.toNat * x.level.toNat / 65536 : Nat) - (o.toNat : Int) ∧
      envComplete x = { x with stage := .decay, phase := 0, add := o, mul := m, output := o }) ∧
    (x.stage = .decay →
      envComplete x = { x with stage := .sustain, phase := 0, add := o, mul := 0, output := o }) ∧
    (x.stage = .release →
      envComplete x = { x with stage := .done, phase := 0, add := 0, mul := 0, output := o }) := by
  obtain ⟨m, hm, henter⟩ := envEnter_spec .decay (envSus x) { x with output := envTarget x } (envSus_le x)
  refine ⟨envTarget x, m, ?_, fun hst => ⟨hm, ?_⟩, fun hst => ?_, fun hst => ?_⟩
  · rw [envTarget, toNat_sat16, clampInt]
  · simp only [envComplete, hst]
    exact henter
  · simp only [envComplete, hst]
  · simp only [envComplete, hst]

/-- Settles O40, stage by stage. -/
theorem envelopeUpdate : Obligations.EnvelopeUpdate := by
  intro x
  refine ⟨?_, fun hst hloop => ?_, fun hst hloop => ?_, fun inc hrun => ?_⟩
  · rintro (hst | hst) <;> simp only [envUpdate, hst]
  · obtain ⟨m, hm, henter⟩ := envEnter_spec .attack x.level.toNat x (Nat.le_of_lt_succ x.level.isLt)
    refine ⟨m, hm, ?_⟩
    simp only [envUpdate, hst]
    rw [if_pos hloop, henter]
  · refine ⟨_, toNat_ofNat_envSus x, ?_⟩
    simp [envUpdate, hst, hloop]
  · obtain ⟨hinc, hupdate⟩ : inc = envInc x ∧ envUpdate x = envRun x := by
      rcases hrun with ⟨hst, rfl⟩ | ⟨hst, rfl⟩ | ⟨hst, rfl⟩ <;> simp only [envInc, envUpdate, hst, and_self]
    rw [hinc, hupdate]
    refine ⟨envRun_of_lt, fun h => ?_⟩
    rw [envRun_of_le h]
    exact envComplete_spec x

end Sys2Proof.Machine
end

section
/-! PROOF. O41: the shape of a phase and the output of a running stage (R93, R100). The shape is a u16, so the output
is ADD and a fraction of MUL. -/

namespace Sys2Proof.Machine

theorem envShape_linear {x : Env} (h : x.shape = false) (p : Nat) : envShape x p = p / 2 ^ 8 := by
  simp [envShape, h]

theorem envShape_exponential {x : Env} (h : x.shape = true) (p : Nat) : envShape x p = envShapeExp p := by
  simp [envShape, h]

/-- Either shape is a u16 (R93). -/
theorem envShape_le (x : Env) {p : Nat} (h : p < 2 ^ 24) : envShape x p ≤ 65535 := by
  cases hshape : x.shape with
  | false =>
    rw [envShape_linear hshape]
    omega
  | true =>
    rw [envShape_exponential hshape]
    exact envShapeExp_le p

/-- A value clamped from 0 up is the natural number stored for it. -/
theorem toNat_clampInt (x : Int) : ((clampInt x 0 65535).toNat : Int) = min (max x 0) 65535 := by
  unfold clampInt
  omega

/-- At the start of a segment the interpolation is the table's entry (R93). -/
theorem envShapeExp_segment (i : Nat) : envShapeExp (i * 65536) = (Config.envExpLut i).toNat := by
  have hindex : i * 65536 / 65536 = i := Nat.mul_div_cancel i (by decide)
  have hoffset : i * 65536 % 65536 = 0 := Nat.mul_mod_left i 65536
  have hentry := (Config.envExpLut i).isLt
  have hvalue : 2 * ((Config.envExpLut i).toNat : Int) * 65536 ^ 3 / (2 * 65536 ^ 3) = (Config.envExpLut i).toNat := by
    omega
  simp only [envShapeExp, hindex, hoffset, Nat.cast_zero, mul_zero, zero_mul, add_zero, ne_eq, OfNat.ofNat_ne_zero,
    not_false_eq_true, zero_pow, hvalue]
  rw [clampInt_of_mem (by omega) (by omega), Int.toNat_natCast]

/-- The output of a running stage lies between ADD and ADD + MUL (R100). -/
theorem stageOutput_bounds (x : Env) {p : Nat} (h : p < 2 ^ 24) :
    min (x.add.toNat : Int) (x.add.toNat + x.mul.toInt) ≤
      x.add.toNat + (envShape x p : Int) * x.mul.toInt / 65536 ∧
    x.add.toNat + (envShape x p : Int) * x.mul.toInt / 65536 ≤
      max (x.add.toNat : Int) (x.add.toNat + x.mul.toInt) := by
  have hshape := envShape_le x h
  have hscaled := scaled_bounds (d := x.mul.toInt) (k := envShape x p) (n := 65536) (by decide) (by omega) (by omega)
  rw [Int.mul_comm] at hscaled
  omega

/-- The linear shape rises with the phase (R93). -/
theorem envShape_mono {x : Env} (h : x.shape = false) {p q : Nat} (hpq : p ≤ q) : envShape x p ≤ envShape x q := by
  rw [envShape_linear h, envShape_linear h]
  exact Nat.div_le_div_right hpq

/-- Settles O41: the formulas are `envShape`'s own, and the ramp carries its order over to the output. -/
theorem stageOutputIsBoundedAndMonotone : Obligations.StageOutputIsBoundedAndMonotone := by
  refine ⟨fun x p hp => ⟨envShape_le x hp, fun hlin => envShape_linear hlin p, fun hexp => ?_⟩,
    fun x i hexp _ => ?_, fun x p hp => stageOutput_bounds x hp, fun x p q hlin hpq _ => ?_⟩
  · rw [envShape_exponential hexp]
    simp only [Nat.max_zero]
    exact toNat_clampInt _
  · rw [envShape_exponential hexp, envShapeExp_segment]
  · have hmono : (envShape x p : Int) ≤ envShape x q := Int.ofNat_le.mpr (envShape_mono hlin hpq)
    exact ⟨fun hmul => Int.ediv_le_ediv (by decide) (mul_le_mul_of_nonneg_right hmono hmul),
      fun hmul => Int.ediv_le_ediv (by decide) (mul_le_mul_of_nonpos_right hmono hmul)⟩

end Sys2Proof.Machine
end

section
/-! PROOF. O19: every envelope stays legal (R91, R100). A file of legal envelopes reads legal everywhere, and each
procedure on one envelope keeps it legal: a stage is entered towards a u16, an update ends at its target or keeps it,
and no procedure but the parameter commands writes a parameter. -/

namespace Sys2Proof.Machine

/-! ## One envelope -/

/-- The stage target ADD + MUL is a u16 (R100). -/
def TargetOk (x : Env) : Prop := 0 ≤ (x.add.toNat : Int) + x.mul.toInt ∧ (x.add.toNat : Int) + x.mul.toInt ≤ 65535

/-- A stage that runs from ADD to a u16 has that as its target. -/
theorem TargetOk.of_target {x : Env} {target : Nat} (h : target ≤ 65535)
    (hmul : x.mul.toInt = (target : Int) - x.add.toNat) : TargetOk x := by
  unfold TargetOk
  omega

theorem envOk_iff {x : Env} : EnvOk x ↔ TargetOk x ∧ envRecompute x = x := and_assoc.symm

/-- The increments are those of R91: each is its time CV's table entry shifted right. -/
theorem envRecompute_eq_self_iff {x : Env} :
    envRecompute x = x ↔
      Config.envTimeLut x.atkCv >>> x.shift.toNat = x.incA ∧ Config.envTimeLut x.decCv >>> x.shift.toNat = x.incD ∧
        Config.envTimeLut x.relCv >>> x.shift.toNat = x.incR := by
  cases x
  simp [envRecompute]

/-- An update keeps the stage target a u16 (R97): while a stage runs ADD and MUL stay, and the stage that follows
runs from the output to LEVEL, to SUS, to the output itself, or from 0 to 0. -/
theorem TargetOk.envUpdate {x : Env} (h : TargetOk x) : TargetOk (envUpdate x) := by
  obtain ⟨hidle, hloop, hsustain, hrun⟩ := envelopeUpdate x
  have running : ∀ inc : Nat, (x.stage = .attack ∧ inc = x.incA.toNat ∨ x.stage = .decay ∧ inc = x.incD.toNat ∨
      x.stage = .release ∧ inc = x.incR.toNat) → TargetOk (Machine.envUpdate x) := fun inc hinc => by
    obtain ⟨hadvance, hcomplete⟩ := hrun inc hinc
    rcases Nat.lt_or_ge (x.phase.toNat + inc) (2 ^ 24) with hlt | hge
    · obtain ⟨p, o, -, -, heq⟩ := hadvance hlt
      rw [heq]
      exact h
    · obtain ⟨o, m, -, hattack, hdecay, hrelease⟩ := hcomplete hge
      rcases hinc with ⟨hst, -⟩ | ⟨hst, -⟩ | ⟨hst, -⟩
      · obtain ⟨hm, heq⟩ := hattack hst
        rw [heq]
        exact .of_target (envSus_le x) hm
      · rw [hdecay hst]
        exact .of_target (Nat.le_of_lt_succ o.isLt) (by simp)
      · rw [hrelease hst]
        exact .of_target (Nat.zero_le _) rfl
  cases hst : x.stage with
  | wait => rw [hidle (.inl hst)]; exact h
  | done => rw [hidle (.inr hst)]; exact h
  | attack => exact running _ (.inl ⟨hst, rfl⟩)
  | decay => exact running _ (.inr (.inl ⟨hst, rfl⟩))
  | release => exact running _ (.inr (.inr ⟨hst, rfl⟩))
  | sustain =>
    cases hl : x.loop with
    | true =>
      obtain ⟨m, hm, heq⟩ := hloop hst hl
      rw [heq]
      exact .of_target (Nat.le_of_lt_succ x.level.isLt) hm
    | false =>
      obtain ⟨o, -, heq⟩ := hsustain hst hl
      rw [heq]
      exact h

namespace EnvOk

variable {x : Env}

theorem targetOk (h : EnvOk x) : TargetOk x := (envOk_iff.mp h).1

/-- Recomputing makes an envelope legal whose stage target is (42_envelope.md section 3). -/
theorem of_recompute (h : TargetOk x) : EnvOk (envRecompute x) := envOk_iff.mpr ⟨h, envRecompute_idem x⟩

/-- What writes no parameter keeps an envelope legal where it leaves the stage target a u16. -/
theorem of_parameters (h : EnvOk x) {stage : Stage} {phase : BitVec 24} {add output : U16} {mul : BitVec 17}
    (htarget : TargetOk { x with stage := stage, phase := phase, add := add, mul := mul, output := output }) :
    EnvOk { x with stage := stage, phase := phase, add := add, mul := mul, output := output } := by
  have hrec := (envOk_iff.mp h).2
  refine envOk_iff.mpr ⟨htarget, ?_⟩
  rw [envRecompute_eq_self_iff] at hrec ⊢
  exact hrec

theorem setGate (h : EnvOk x) (g : Bool) : EnvOk (envSetGate g x) := by
  obtain ⟨m, hm, hgate⟩ := envSetGate_spec g x
  rw [hgate]
  refine h.of_parameters ?_
  cases g with
  | true => exact .of_target (Nat.le_of_lt_succ x.level.isLt) hm
  | false => exact .of_target (Nat.zero_le _) hm

theorem forceWait (h : EnvOk x) : EnvOk (envForceWait x) := h.of_parameters (.of_target (Nat.zero_le _) rfl)

theorem update (h : EnvOk x) : EnvOk (envUpdate x) := by
  have htarget := h.targetOk.envUpdate
  rw [(envUpdate_keeps x).1] at htarget ⊢
  exact h.of_parameters htarget

end EnvOk

/-! ## The envelopes of a state -/

/-- An envelope that is absent reads as a legal one. -/
theorem envOk_reset : EnvOk Env.reset :=
  envOk_iff.mpr ⟨⟨by decide, by decide⟩, by simp [envRecompute, Env.reset]⟩

/-- Every envelope of the file is legal where every read is. -/
theorem envsOk_iff {s : State} : EnvsOk s ↔ ∀ k, EnvOk (s.env k) := by
  constructor
  · intro h k
    by_cases hk : k < s.envs.length
    · rw [State.env, List.getD_eq_getElem _ _ hk]
      exact h _ (List.getElem_mem hk)
    · rw [State.env, List.getD_eq_default _ _ (Nat.le_of_not_lt hk)]
      exact envOk_reset
  · intro h x hx
    obtain ⟨k, hk, rfl⟩ := List.getElem_of_mem hx
    exact List.getD_eq_getElem s.envs Env.reset hk ▸ h k

namespace EnvsOk

variable {s : State}

theorem modEnv (h : EnvsOk s) (e : Nat) {f : Env → Env} (hf : ∀ x, EnvOk x → EnvOk (f x)) : EnvsOk (s.modEnv e f) :=
  envsOk_iff.mpr fun k => modEnv_env_keeps (envsOk_iff.mp h k) e hf

/-- A parameter command keeps the envelopes legal where it keeps their stage targets (42_envelope.md section 3). -/
theorem forEnvset (h : EnvsOk s) (es : List Nat) {f : Env → Env} (hf : ∀ x, EnvOk x → TargetOk (f x)) :
    EnvsOk (forEnvset es f s) :=
  envsOk_iff.mpr fun k => forEnvset_env_keeps (envsOk_iff.mp h k) es fun x hx => .of_recompute (hf x hx)

theorem gateEnvs (h : EnvsOk s) (v : Nat) (g : Bool) : EnvsOk (gateEnvs v g s) :=
  (h.modEnv _ fun _ hx => hx.setGate g).modEnv _ fun _ hx => hx.setGate g

theorem emit (h : EnvsOk s) (r : Evt) : EnvsOk (emit r s) := by
  have hevt : EnvsOk { s with evt := s.evt ++ [r] } := h
  unfold Machine.emit
  split
  · split
    · exact hevt
    · exact hevt.gateEnvs _ _
  · exact hevt.gateEnvs _ _
  · exact hevt.gateEnvs _ _

theorem gateOffVoice (h : EnvsOk s) (v : Nat) : EnvsOk (gateOffVoice v s) := by
  unfold Machine.gateOffVoice
  dsimp only
  split
  · exact emit (s := (s.modVoice v _).modVoice v _) h _
  · exact h

theorem releaseVoice (h : EnvsOk s) (v : Nat) : EnvsOk (releaseVoice v s) :=
  emit (s := s.modVoice v fun x => { x with gated := false }) h _

theorem voiceDone (h : EnvsOk s) (v : Nat) : EnvsOk (voiceDone v s) := by
  have hvoice : EnvsOk (s.modVoice v fun x =>
    { x with assigned := false, gated := false, keyPressed := false, legato := false }) := h
  exact (hvoice.modEnv _ fun _ hx => hx.forceWait).modEnv _ fun _ hx => hx.forceWait

/-- A grant changes the envelopes by its events alone (R70, R71). -/
theorem grantVoice (h : EnvsOk s) (root : BitVec 7) (vel : U16) (kbd legato : Bool) (v i : Nat) :
    EnvsOk (grantVoice root vel kbd legato v i s) := by
  have hstolen := h.emit (offEvent .stolenOff v s)
  unfold Machine.grantVoice
  refine emit ?_ _
  split <;> split
  · exact hstolen
  · exact h
  · exact hstolen
  · exact h

theorem tickTask (h : EnvsOk s) (k : Nat) : EnvsOk (tickTask k s) := by
  by_cases h2 : k = 2
  · rw [h2]
    exact housekeeping_keeps h fun v _ _ _ ht => ht.voiceDone v
  · rw [tickTask_frame_of_ne_two h2]
    exact h

theorem strobeTail (h : EnvsOk s) : EnvsOk (strobeTail s) := by
  rw [strobeTail_eq, (cvFrame_frame _).1]
  exact forUpTo_keeps (P := EnvsOk) (s := { s with tphase := s.tphase + 1 }) h fun e _ _ ht =>
    ht.modEnv e fun _ hx => hx.update

end EnvsOk

theorem keptByNotes_envsOk : KeptByNotes EnvsOk where
  gateOff v _ _ h := h.gateOffVoice v
  release v _ _ _ h := h.releaseVoice v
  held _ _ h := h
  hold _ _ h := h
  grant root vel kbd legato v i _ _ h := h.grantVoice root vel kbd legato v i
  tick _ h := h

/-- What a command that acts on no voice does to the envelopes: nothing, or it changes those of a target set and keeps
their stage targets u16s. -/
theorem exec_envs_cases {i : Instr} {s t : State} (hi : actsOnVoices i ≠ true) (h : exec i s = .next t) :
    t.envs = s.envs ∨ ∃ es f, t = forEnvset es f s ∧ ∀ x, EnvOk x → TargetOk (f x) := by
  cases i <;> injection h with h <;> subst h
  case noteOn | noteOff | voiceDone | allKeysOff | panicOff | hold => contradiction
  case envSetAttack | envSetDecay | envSetSustain | envSetRelease | envSetLevel | envSetMode | envSetShift =>
    exact .inr ⟨_, _, rfl, fun _ hx => hx.targetOk⟩
  case envGate b e gate => exact .inr ⟨_, _, rfl, fun _ hx => (hx.setGate gate).targetOk⟩
  case waveCommit =>
    rw [waveCommit_frame]
    exact .inl rfl
  case bend vm imm =>
    obtain ⟨file, hfile⟩ := forMask_setBend_frame (maskOperand s.cfg.nVoices vm) imm s
    rw [hfile]
    exact .inl rfl
  case pressure vm imm =>
    obtain ⟨file, hfile⟩ := forMask_setPressure_frame (maskOperand s.cfg.nVoices vm) imm s
    rw [hfile]
    exact .inl rfl
  all_goals exact .inl rfl

/-- A command keeps the envelopes legal. -/
theorem EnvsOk.exec {i : Instr} {s t : State} (h : EnvsOk s) (he : exec i s = .next t) : EnvsOk t := by
  by_cases hi : actsOnVoices i = true
  · exact keptByNotes_envsOk.exec hi (fun v _ _ _ hu => hu.voiceDone v) h he
  rcases exec_envs_cases hi he with hsame | ⟨es, f, rfl, hf⟩
  · rwa [EnvsOk, hsame]
  · exact h.forEnvset es hf

theorem keptByParts_envsOk : KeptByParts (fun _ => True) EnvsOk where
  event _ _ _ h := h
  fetch _ _ _ _ h := h
  command _ _ _ _ h hexec := h.exec hexec
  illegal _ h := h
  task k _ h := h.tickTask k
  tail _ h := h.strobeTail
  cmdWrite w s h := by unfold cmdWrite; split <;> exact h
  stageWrite i v s h := by unfold stageWrite; split <;> exact h
  statusRead _ _ h := h
  fill s h := by rw [(fill_frame s).1]; exact h
  drain s h := by rw [drain_frame]; exact h

/-- Settles O19: every part of a step keeps the envelopes legal. -/
theorem stepKeepsEnvelopesLegal : Obligations.StepKeepsEnvelopesLegal := by
  intro s t henvs hstep
  exact keptByParts_envsOk.step (fun _ _ _ _ _ => trivial) henvs hstep

end Sys2Proof.Machine
end

section
/-! PROOF. O43: the LFO commands (R114 to R118). Each changes the record of the LFO it selects in one way. -/

namespace Sys2Proof.Machine

/-- Changing the record of one LFO changes nothing else. -/
theorem modLfo_onlyLfos (s : State) (l : Bool) (f : Lfo → Lfo) :
    OnlyLfos s (s.modLfo l f) ∧ ∀ m, (s.modLfo l f).lfo m = if m = l then f (s.lfo m) else s.lfo m := by
  refine ⟨⟨rfl, .of_eq rfl rfl rfl rfl⟩, fun m => ?_⟩
  rw [lfo_modLfo]
  split <;> rename_i hm
  · rw [hm]
  · rfl

/-- The field's eight values: 7 selects NOISE as 6 does (R54). -/
theorem lfoShapeCode_lshapeOperand : ∀ x : BitVec 3, lfoShapeCode (lshapeOperand x) = min x.toNat 6 := by decide

/-- Settles O43: each command is `modLfo` of one update of the record. -/
theorem lfoCommands : Obligations.LfoCommands := by
  intro l s
  have hmod := modLfo_onlyLfos s l
  refine ⟨fun imm => ⟨_, rfl, hmod _⟩, fun sh => ⟨_, rfl, hmod _⟩, fun x => ?_, fun imm => ⟨_, rfl, hmod _⟩,
    ⟨_, rfl, hmod _⟩⟩
  obtain ⟨frame, hlfo⟩ := hmod fun y => { y with shapeStg := lshapeOperand x }
  exact ⟨_, lshapeOperand x, rfl, frame, lfoShapeCode_lshapeOperand x, hlfo⟩

end Sys2Proof.Machine
end

section
/-! PROOF. O44: one update of an LFO (R110 to R112). The update is put together from the phase's advance, which makes
at most one draw, and the noise step; the raw value and the output then fit their registers. The statement is named as
the model's procedure, so it is settled under `Settled`. -/

namespace Sys2Proof.Machine

/-- The register after the draw that crossing n half-period boundaries makes: one step, however many were crossed
(R111). -/
def lfsrDrawn (n : Nat) (r : BitVec 32) : BitVec 32 := if 0 < n then lfsrStep r else r

/-- The phase part of an update (R111), with n the half-period boundaries it crosses. -/
theorem lfoAdvance_eq (x : Lfo) {p n : Nat} (hp : p = x.phase.toNat + x.inc.toNat) (hn : n = p / 2 ^ 24) :
    lfoAdvance x =
      { x with
        phase := BitVec.ofNat 24 p
        half := x.half ^^ decide (n % 2 = 1)
        lfsr := lfsrDrawn n x.lfsr
        randVal := if 0 < n then lfsrSample (lfsrDrawn n x.lfsr) else x.randVal } := by
  have hphase : BitVec.ofNat 24 (p % 2 ^ 24) = BitVec.ofNat 24 p := BitVec.eq_of_toNat_eq (by simp)
  have hhalf : (if n % 2 = 1 then !x.half else x.half) = (x.half ^^ decide (n % 2 = 1)) := by
    by_cases hodd : n % 2 = 1 <;> simp [hodd]
  unfold lfoAdvance lfsrDrawn
  simp only [← hp, ← hn, hphase, hhalf]
  split <;> rfl

/-- An update of an LFO (R111): the registers the phase and the noise step write, then RAW and OUTPUT from them. -/
theorem lfoUpdate_eq (x : Lfo) {p n : Nat} (hp : p = x.phase.toNat + x.inc.toNat) (hn : n = p / 2 ^ 24) :
    lfoUpdate x =
      { x with
        phase := BitVec.ofNat 24 p
        half := x.half ^^ decide (n % 2 = 1)
        randVal := if 0 < n then lfsrSample (lfsrDrawn n x.lfsr) else x.randVal
        lfsr := if x.shape = .noise then lfsrStep (lfsrDrawn n x.lfsr) else lfsrDrawn n x.lfsr
        raw := BitVec.ofInt 17 (lfoRaw (lfoUpdate x))
        output := BitVec.ofInt 16 (lfoRaw (lfoUpdate x) * x.level.toNat / 65536) } := by
  have hraw : lfoRaw (lfoUpdate x) = lfoRaw (lfoNoise (lfoAdvance x)) := rfl
  rw [hraw]
  unfold lfoUpdate
  rw [lfoNoise_eq, lfoAdvance_eq x hp hn]

/-- RAW holds the raw value: 17 bits suffice (R111, R112). -/
theorem toInt_raw_lfoUpdate (x : Lfo) : (lfoUpdate x).raw.toInt = lfoRaw (lfoUpdate x) := by
  obtain ⟨hlo, hhi⟩ := lfoRaw_bounds (lfoUpdate x)
  have hraw : (lfoUpdate x).raw = BitVec.ofInt 17 (lfoRaw (lfoUpdate x)) := congrArg Lfo.raw (lfoUpdate_eq x rfl rfl)
  rw [hraw, BitVec.toInt_ofInt]
  exact Int.bmod_eq_of_le (by omega) (by omega)

/-- OUTPUT holds the scaled raw value: LEVEL / 2^16 is below 1, so it does not wrap (R111). -/
theorem toInt_output_lfoUpdate (x : Lfo) :
    (lfoUpdate x).output.toInt = lfoRaw (lfoUpdate x) * x.level.toNat / 65536 := by
  obtain ⟨hlo, hhi⟩ := lfoRaw_bounds (lfoUpdate x)
  have hlevel := x.level.isLt
  have hscaled := scaled_bounds (d := lfoRaw (lfoUpdate x)) (k := x.level.toNat) (n := 65536) (by decide)
    (by omega) (by omega)
  have houtput : (lfoUpdate x).output = BitVec.ofInt 16 (lfoRaw (lfoUpdate x) * x.level.toNat / 65536) :=
    congrArg Lfo.output (lfoUpdate_eq x rfl rfl)
  rw [houtput, BitVec.toInt_ofInt]
  exact Int.bmod_eq_of_le (by omega) (by omega)

/-- Where the half begins in the full period of SAW and RSAW (R112). -/
theorem halfStart_eq (half : Bool) : half.toNat * 2 ^ 24 = if half then 2 ^ 24 else 0 := by cases half <;> rfl

/-- Settles O44: `lfoRaw` by shape and half, and `lfoUpdate_eq` field by field. -/
theorem Settled.lfoUpdate : Obligations.LfoUpdate := by
  refine ⟨fun r => ⟨rfl, lfsrStep_ne_zero⟩, fun y => ⟨lfoRaw_bounds y, ?_⟩, fun x => ?_⟩
  · obtain ⟨phase, half, inc, shape, level⟩ := y
    cases shape
    case tri | sine | square => cases half <;> rfl
    case saw | rsaw => simp only [lfoRaw, halfStart_eq]
    case random | noise => rfl
  · intro p n y drawn
    have hupdate := lfoUpdate_eq x (p := p) (n := n) rfl rfl
    refine ⟨?_, ?_, ?_, ?_, toInt_raw_lfoUpdate x, toInt_output_lfoUpdate x, lfoUpdate_keeps x⟩
    · calc y.phase.toNat = (BitVec.ofNat 24 p).toNat := congrArg (fun z => z.phase.toNat) hupdate
        _ = p % 2 ^ 24 := BitVec.toNat_ofNat p 24
    · exact congrArg Lfo.half hupdate
    · exact congrArg Lfo.randVal hupdate
    · exact congrArg Lfo.lfsr hupdate

end Sys2Proof.Machine
end

section
/-! PROOF. O45: the active parameters of an LFO become the staged ones in a strobe of tick phase 5 only (R109, R113).
No command and no update of an LFO writes them. -/

namespace Sys2Proof.Machine

/-- The active parameters of an LFO: INC, SHAPE and LEVEL. -/
def activeParameters (x : Lfo) : BitVec 32 × LfoShape × U16 := (x.inc, x.shape, x.level)

theorem activeParameters_eq_iff {x : Lfo} {inc : BitVec 32} {shape : LfoShape} {level : U16} :
    activeParameters x = (inc, shape, level) ↔ x.inc = inc ∧ x.shape = shape ∧ x.level = level := by
  simp only [activeParameters, Prod.mk.injEq]

/-- An update computes with the active parameters and keeps them (R111). -/
theorem activeParameters_lfoUpdate (x : Lfo) : activeParameters (lfoUpdate x) = activeParameters x := by
  rw [lfoUpdate_keeps x]
  rfl

/-! ## Commands -/

/-- A loop over masked voices whose passes leave the LFOs alone leaves them alone. -/
theorem forMask_lfos {f : Nat → State → State} (m : BitVec 6) (s : State) (hf : ∀ v t, (f v t).lfos = t.lfos) :
    (forMask m f s).lfos = s.lfos :=
  forUpTo_keeps (P := fun t => t.lfos = s.lfos) rfl fun v t _ h => by
    split
    · rw [hf, h]
    · exact h

/-- The LFO commands change one LFO and keep its active parameters; no other command touches an LFO (R113). -/
theorem exec_lfos_cases {i : Instr} {s t : State} (h : exec i s = .next t) :
    t.lfos = s.lfos ∨ (isLfoCommand i = true ∧
      ∃ l f, t = s.modLfo l f ∧ ∀ x, activeParameters (f x) = activeParameters x) := by
  by_cases hi : actsOnVoices i = true
  · rw [exec_assignerFrame hi h]
    exact .inl rfl
  cases i <;> injection h with h <;> subst h
  case noteOn | noteOff | voiceDone | allKeysOff | panicOff | hold => contradiction
  case lfoSetSpeed | lfoSetShift | lfoSetShape | lfoSetLevel | lfoReset =>
    exact .inr ⟨rfl, _, _, rfl, fun _ => rfl⟩
  case envSetAttack | envSetDecay | envSetSustain | envSetRelease | envSetLevel | envSetMode | envSetShift | envGate =>
    rw [forEnvset_frame]
    exact .inl rfl
  case waveCommit =>
    rw [waveCommit_frame]
    exact .inl rfl
  case bend | pressure => exact .inl (forMask_lfos _ _ fun _ _ => rfl)
  all_goals exact .inl rfl

/-- Every command keeps the active parameters (R113). -/
theorem exec_activeParameters {i : Instr} {s t : State} (h : exec i s = .next t) (l : Bool) :
    activeParameters (t.lfo l) = activeParameters (s.lfo l) := by
  rcases exec_lfos_cases h with hsame | ⟨-, m, f, rfl, hf⟩
  · rw [State.lfo, hsame, State.lfo]
  · rw [lfo_modLfo]
    split <;> rename_i hl
    · rw [hf, hl]
    · rfl

theorem drainWords_activeParameters {n : Nat} {s t : State} (h : drainWords n s = .next t) (l : Bool) :
    activeParameters (t.lfo l) = activeParameters (s.lfo l) := by
  refine drainWords_keeps (P := fun u => activeParameters (u.lfo l) = activeParameters (s.lfo l)) h rfl
    fun w _ u q v _ hu hv => ?_
  rcases execute_cases hv with ⟨i, -, hexec⟩ | ⟨e, -, rfl⟩
  · exact (exec_activeParameters hexec l).trans hu
  · exact hu

/-! ## Strobes and steps -/

/-- The refresh runs at tick phase 5 only, and no other tick phase touches an LFO (R131). -/
theorem tickTask_lfo (k : Nat) (s : State) (l : Bool) :
    (tickTask k s).lfo l = if k = 5 then lfoRefresh (s.lfo l) else s.lfo l := by
  by_cases h2 : k = 2
  · rw [h2, tickTask_two_frame]; rfl
  by_cases h4 : k = 4
  · rw [h4, tickTask_four_frame]; rfl
  by_cases h5 : k = 5
  · rw [h5]; cases l <;> rfl
  rw [if_neg h5]
  unfold tickTask
  split
  case h_1 | h_2 | h_3 => contradiction
  all_goals rfl

theorem cvFrame_lfos (s : State) : (cvFrame s).lfos = s.lfos := by rw [(cvFrame_frame s).1]

/-- After its tick phase a strobe updates both LFOs (R130). -/
theorem strobeTail_lfo (s : State) (l : Bool) : (strobeTail s).lfo l = lfoUpdate (s.lfo l) := by
  rw [State.lfo, strobeTail_eq_cvFrame, cvFrame_lfos]
  exact beforeCvFrame_lfo s l

/-- A strobe refreshes the active parameters at tick phase 5 and keeps them at every other (R113). -/
theorem strobe_activeParameters {s t : State} (h : strobe s = .next t) (l : Bool) :
    activeParameters (t.lfo l) = activeParameters (if s.tphase = 5 then lfoRefresh (s.lfo l) else s.lfo l) := by
  rcases strobe_cases h with ⟨hp, -, u, hd, rfl⟩ | ⟨-, rfl⟩
  · rw [strobeTail_lfo, activeParameters_lfoUpdate, drainWords_activeParameters hd, hp]
    rfl
  · have hfive : s.tphase = 5 ↔ s.tphase.toNat = 5 := BitVec.toNat_eq
    rw [strobeTail_lfo, activeParameters_lfoUpdate, tickTask_lfo]
    simp only [hfive]

/-- Settles O45: `exec_lfos_cases` for the commands, and the active parameters by the kind of the step. -/
theorem lfoParametersActAtRefreshOnly : Obligations.LfoParametersActAtRefreshOnly := by
  refine ⟨fun i s t hexec hi => ?_, fun s t l hstep => ?_⟩
  · rcases exec_lfos_cases hexec with hsame | ⟨hlfo, -⟩
    · exact hsame
    · exact absurd hlfo (by simp [hi])
  · simp only [← activeParameters_eq_iff]
    obtain ⟨a, ha, hrun⟩ := step_cases hstep
    rw [afterEvent_frame] at hrun
    by_cases hs : a = .strobe
    · subst hs
      have hactive := strobe_activeParameters hrun l
      split <;> rename_i hcond
      · exact hactive.trans (congrArg activeParameters (if_pos hcond.2))
      · exact hactive.trans (congrArg activeParameters (if_neg fun hp => hcond ⟨ha, hp⟩))
    · rw [if_neg fun hc => hs (by rw [ha] at hc; injection hc.1), runAgent_portFrame hs hrun]
      rfl

end Sys2Proof.Machine
end

section
/-! PROOF. O46, O47, O49: the oscillator and waveform commands (R125 to R129). The first two change the record of the
selected oscillator in one way, the next two one register each; WAVE_COMMIT is what `waveCommit_spec` says, read at
every slot and every sample. -/

namespace Sys2Proof.Machine

/-- Changing the record of one oscillator that exists changes nothing else. -/
theorem modOsc_onlyOscs {s : State} {o : Nat} (ho : o < s.oscs.length) (f : Osc → Osc) :
    OnlyOscs s (s.modOsc o f) ∧ ∀ k, (s.modOsc o f).osc k = if k = o then f (s.osc k) else s.osc k := by
  refine ⟨⟨rfl, .of_eq rfl rfl rfl rfl⟩, fun k => ?_⟩
  rw [osc_modOsc]
  by_cases hk : k = o
  · rw [if_pos ⟨hk, ho⟩, if_pos hk, hk]
  · rw [if_neg fun e => hk e.1, if_neg hk]

/-- The operand selects an oscillator that exists (R54). -/
theorem oscOperand_lt {n : Nat} (hn : 1 ≤ n) (x : Bool) (v : BitVec 3) : oscOperand n x v < 2 * n := by
  have hx := x.toNat_lt
  unfold oscOperand voiceOperand
  omega

/-- The field's four values (R126). -/
theorem targetCode_tgtOperand : ∀ x : BitVec 2, targetCode (tgtOperand x) = x.toNat := by decide

/-- Settles O46: each command is `modOsc` of one update of the record. -/
theorem oscillatorSettings : Obligations.OscillatorSettings := by
  intro x v s hsized
  obtain ⟨⟨⟨hpos, -⟩, -⟩, -, -, hoscs, -⟩ := hsized
  have hmod := modOsc_onlyOscs (hoscs ▸ oscOperand_lt hpos x v)
  refine ⟨fun xslot xen main => ?_, fun tgt => ?_⟩
  · obtain ⟨frame, hosc⟩ := hmod fun y =>
      oscClampPhase (s.slot main.toNat).len.toNat { y with main := main, xen := xen, xslot := xslot }
    refine ⟨_, rfl, frame, fun o _ => ?_⟩
    obtain ⟨p, hp, hclamp⟩ := oscClampPhase_spec (s.slot main.toNat).len.toNat
      { s.osc o with main := main, xen := xen, xslot := xslot }
    refine ⟨p, hp, ?_⟩
    rw [hosc, hclamp]
    rfl
  · obtain ⟨frame, hosc⟩ := hmod fun y => { y with tgt := tgtOperand tgt }
    exact ⟨_, tgtOperand tgt, rfl, frame, targetCode_tgtOperand tgt, fun o _ => hosc o⟩

/-- Settles O47: each command writes one register. -/
theorem syncMaskAndWaveLength : Obligations.SyncMaskAndWaveLength :=
  ⟨fun _ _ => ⟨_, rfl, rfl, .of_eq rfl rfl rfl rfl, fun _ hk => getLsbD_maskOperand _ _ hk⟩,
    fun _ _ => ⟨_, rfl, rfl, .of_eq rfl rfl rfl rfl⟩⟩

theorem readSlot_eq (s : State) (k i : Nat) : s.readSlot k i = (s.slot k).read i := rfl

/-- The slots after WAVE_COMMIT: the committed one, and the others as before (R129). -/
theorem slot_waveCommit {s : State} {k : Nat} (hk : k < s.slots.length) (valid j : Nat) :
    (waveCommit k valid s).slot j = if j = k then committedSlot valid s else s.slot j := by
  rw [waveCommit_frame]
  refine (slot_setSlot s k j _).trans ?_
  simp only [hk, and_true]

/-- Settles O49: `waveCommit_spec` for the oscillators, `slot_waveCommit` and `committedSlot_spec` for the slots. -/
theorem waveCommitCommand : Obligations.WaveCommit := by
  intro slot valid s hsized
  obtain ⟨hwf, -, -, hoscs, hslots, -⟩ := hsized
  obtain ⟨hlen, -, -, hread⟩ := committedSlot_spec valid.toNat s hwf
  obtain ⟨frame, -, hosc⟩ := waveCommit_spec slot.toNat valid.toNat s hoscs
  have hslot := slot_waveCommit (s := s) (k := slot.toNat) (by omega) valid.toNat
  refine ⟨_, commitLen s, rfl, rfl, ?_, fun k _ => ?_, fun k i _ => ?_, fun i => ?_, fun h sl w => ?_,
    fun o ho => ?_⟩
  · rw [frame]
  · rw [hslot]
    split
    · exact hlen
    · rfl
  · rw [readSlot_eq, hslot]
    split
    · exact hread i
    · rfl
  · rw [frame]; rfl
  · rw [frame]; rfl
  · obtain ⟨p, hp, hclamp⟩ := oscClampPhase_spec (commitLen s) (s.osc o)
    refine ⟨p, hp, ?_⟩
    rw [hosc o ho, hclamp]
    simp only [BitVec.toNat_inj]

end Sys2Proof.Machine
end

section
/-! PROOF. O50, O51: the parameters of an oscillator (R119, R120, R123). The increment of a half is a rounded-up
quotient and its period a rounded-down one, both clamped. -/

namespace Sys2Proof.Machine

/-! ## The parameters of one half -/

/-- A frequency of 0 gives the slowest half there is (R119). -/
theorem oscHalfParams_of_freq_zero (c : Config) (P Wh ceil : Nat) :
    oscHalfParams c 0 P Wh ceil = (1, 0x7FFFFFFF) := rfl

/-- The increment of a half (R119). -/
theorem toNat_oscHalfParams_incr {c : Config} (hc : c.wf) {f : Nat} (hf : f ≠ 0) (P Wh ceil : Nat) :
    (oscHalfParams c f P Wh ceil).1.toNat = clampNat (ceilDiv (f * P * 32768) (Wh * ceil)) 1 c.oscMaxIncr := by
  obtain ⟨-, -, -, -, -, -, -, hpos, hmax⟩ := hc
  have hbounds := clampNat_bounds (x := ceilDiv (f * P * 32768) (Wh * ceil)) hpos
  simp only [oscHalfParams, if_neg hf, BitVec.toNat_ofNat]
  exact Nat.mod_eq_of_lt (by omega)

/-- The period of a half, from its increment (R119). -/
theorem toNat_oscHalfParams_period {c : Config} (hc : c.wf) {f : Nat} (hf : f ≠ 0) (P Wh ceil : Nat) :
    (oscHalfParams c f P Wh ceil).2.toNat =
      clampNat (c.vclk * 256 * (oscHalfParams c f P Wh ceil).1.toNat * Wh / (f * P * 32768)) 1 (2 ^ 31 - 1) := by
  rw [toNat_oscHalfParams_incr hc hf]
  simp only [oscHalfParams, if_neg hf, BitVec.toNat_ofNat]
  have hbounds := fun q => clampNat_bounds (x := q) (lo := 1) (hi := 2 ^ 31 - 1) (by decide)
  exact Nat.mod_eq_of_lt (Nat.lt_of_le_of_lt (hbounds _).2 (by decide))

/-! ## The WaveMod targets -/

theorem oscFreq_eq (t : Target) (pitch amt : U16) :
    oscFreq t pitch amt =
      if t = .freqRatio then oscBaseFreq pitch + oscBaseFreq pitch * amt.toNat / 65536 else oscBaseFreq pitch := by
  cases t <;> rfl

theorem oscWidth_eq (t : Target) (amt : U16) :
    oscWidth t amt = if t = .width then min (max (32768 + amt.toNat / 2) 8192) 57344 else 32768 := by
  cases t <;> rfl

theorem oscCeil_eq (t : Target) (pitch amt : U16) :
    oscCeil t pitch amt =
      if t = .aliasing then max 1 (max 1 (Config.oscRateCeil pitch).toNat * (65536 - amt.toNat) / 65536)
      else max 1 (Config.oscRateCeil pitch).toNat := by
  cases t <;> rfl

/-- The two halves share the period as W and 65536 − W (R119). -/
theorem oscSetParameters_half (c : Config) (P : Nat) (pitch amt : U16) (x : Osc) (h : Bool) :
    ((oscSetParameters c P pitch amt x).incr.get h, (oscSetParameters c P pitch amt x).period.get h) =
      oscHalfParams c (oscFreq x.tgt pitch amt) P (if h then 65536 - oscWidth x.tgt amt else oscWidth x.tgt amt)
        (oscCeil x.tgt pitch amt) := by
  cases h <;> rfl

/-- Settles O50: each half is `oscHalfParams` of its share, at the target's frequency, width and ceiling. -/
theorem oscillatorSetParameters : Obligations.OscillatorSetParameters := by
  intro c slots pitch amt x hc P y j L f0 f W c0 ceil
  refine ⟨rfl, ?_, rfl, fun h => ?_⟩
  · change (decide (x.tgt = .aliasing) && decide (0 < amt.toNat)) = true ↔ _
    rw [Bool.and_eq_true, decide_eq_true_iff, decide_eq_true_iff]
  · intro Wh
    have hhalf : (y.incr.get h, y.period.get h) = oscHalfParams c f P Wh ceil := by
      rw [oscSetParameters_half, oscFreq_eq, oscWidth_eq, oscCeil_eq]
      rfl
    obtain ⟨hincr, hperiod⟩ := Prod.ext_iff.mp hhalf
    dsimp only at hincr hperiod
    rw [hincr, hperiod]
    refine ⟨fun hf => ?_, fun hf =>
      ⟨toNat_oscHalfParams_incr hc hf P Wh ceil, toNat_oscHalfParams_period hc hf P Wh ceil⟩⟩
    rw [hf, oscHalfParams_of_freq_zero]
    exact ⟨rfl, rfl⟩

/-! ## The least increment and the exact period -/

/-- R120: the lower bound of the width's clamp is never reached. -/
theorem oscWidth_bounds (t : Target) (amt : U16) : 32768 ≤ oscWidth t amt ∧ oscWidth t amt ≤ 57344 := by
  rw [oscWidth_eq]
  split <;> omega

/-- The rounded-up quotient a/b, a > 0, clamped to 1..m, is the least d with a ≤ b·d where m is large enough for one,
and m where it is not. -/
theorem clampNat_ceilDiv_least {a b m : Nat} (ha : 0 < a) (hb : 0 < b) :
    if a ≤ b * m then a ≤ b * clampNat (ceilDiv a b) 1 m ∧ ∀ d, d < clampNat (ceilDiv a b) 1 m → b * d < a
    else clampNat (ceilDiv a b) 1 m = m := by
  have hpos : 1 ≤ ceilDiv a b := by
    by_contra h
    have := (ceilDiv_le_iff hb).mp (Nat.le_of_lt_succ (Nat.lt_of_not_le h))
    omega
  split <;> rename_i hm
  · rw [clampNat_of_mem hpos ((ceilDiv_le_iff hb).mpr hm)]
    refine ⟨(ceilDiv_le_iff hb).mp le_rfl, fun d hd => ?_⟩
    by_contra h
    have := (ceilDiv_le_iff hb).mpr (Nat.le_of_not_lt h)
    omega
  · have : ¬ceilDiv a b ≤ m := fun h => hm ((ceilDiv_le_iff hb).mp h)
    unfold clampNat
    omega

/-- The rounded-down quotient e/a, clamped to 1..hi, is the rounded-down quotient where that is in range. -/
theorem clampNat_div_exact {a e hi : Nat} (ha : 0 < a) (hlo : a ≤ e) (hhi : e < (hi + 1) * a) :
    clampNat (e / a) 1 hi * a ≤ e ∧ e < (clampNat (e / a) 1 hi + 1) * a := by
  have hmem : e / a ≤ hi := Nat.le_of_lt_succ ((Nat.div_lt_iff_lt_mul ha).mpr hhi)
  rw [clampNat_of_mem (Nat.div_pos hlo ha) hmem]
  exact ⟨Nat.div_mul_le_self e a, (Nat.div_lt_iff_lt_mul ha).mp (Nat.lt_succ_self _)⟩

/-- Settles O51: the two quotients of a half, each by its clamp. -/
theorem oscillatorParameters : Obligations.OscillatorParameters := by
  refine ⟨oscWidth_bounds, fun c f P Wh ceil hc hf hP hWh hceil => ?_⟩
  have hrate : 0 < f * P * 32768 := by positivity
  have hshare : 0 < Wh * ceil := by positivity
  have hincr := toNat_oscHalfParams_incr hc hf.ne' P Wh ceil
  have hperiod := toNat_oscHalfParams_period hc hf.ne' P Wh ceil
  intro d per exact'
  refine ⟨(oscHalfParams_bounds c hc f P Wh ceil).1, ?_, ?_, fun hlo hhi => ?_⟩
  · rw [show per = _ from hperiod]
    exact clampNat_bounds (by decide)
  · have hleast := clampNat_ceilDiv_least (m := c.oscMaxIncr) hrate hshare
    rw [← hincr] at hleast
    split <;> rename_i hm
    · rw [if_pos hm] at hleast
      obtain ⟨hle, hlt⟩ := hleast
      exact ⟨hle, fun d' _ => hlt d'⟩
    · rw [if_neg hm] at hleast
      exact hleast
  · have hexact := clampNat_div_exact (hi := 2 ^ 31 - 1) hrate hlo hhi
    rw [← hperiod] at hexact
    exact hexact

end Sys2Proof.Machine
end

section
/-! PROOF. O52: the sample read and the output step (R121, R122). R122's loop is `oscPass` iterated until the counter is
positive; the stored counter is the loop's because it ends between 1 and the last reloaded period. -/

namespace Sys2Proof.Machine

/-! ## Interpolation -/

/-- The value a fraction k/n, 0 ≤ k ≤ n, of the way from sample p to sample q is stored exactly, and lies between
them. -/
theorem toNat_interpolation {p q y : U16} {k n : Int} (hn : 0 < n) (h0 : 0 ≤ k) (h1 : k ≤ n)
    (hy : y = BitVec.ofInt 16 (p.toNat + ((q.toNat : Int) - p.toNat) * k / n)) :
    (y.toNat : Int) = p.toNat + ((q.toNat : Int) - p.toNat) * k / n ∧
    min p.toNat q.toNat ≤ y.toNat ∧ y.toNat ≤ max p.toNat q.toNat := by
  have hp := p.isLt
  have hq := q.isLt
  have hbounds := scaled_bounds (d := (q.toNat : Int) - p.toNat) hn h0 h1
  rw [hy, BitVec.toNat_ofInt]
  generalize ((q.toNat : Int) - p.toNat) * k / n = d at hbounds ⊢
  omega

/-- The sample read is the main slot's or the blend, between the two slots' samples (R121). -/
theorem toNat_sampleAt (slots : List Slot) (x : Osc) (ph : Nat) :
    let m := (slotOf slots x.main.toNat).read ph
    let k := (slotOf slots x.xslot.toNat).read ph
    ((sampleAt slots x ph).toNat : Int) =
      (if x.xen = true ∧ 0 < x.xamt.toNat ∧ (slotOf slots x.xslot.toNat).len = (slotOf slots x.main.toNat).len
        then m.toNat + ((k.toNat : Int) - m.toNat) * x.xamt.toNat / 65536 else (m.toNat : Int)) ∧
    min m.toNat k.toNat ≤ (sampleAt slots x ph).toNat ∧ (sampleAt slots x ph).toNat ≤ max m.toNat k.toNat := by
  unfold sampleAt
  dsimp only
  split
  · have hamt := x.xamt.isLt
    exact toNat_interpolation (by decide) (by omega) (by omega) rfl
  · exact ⟨rfl, Nat.min_le_left _ _, Nat.le_max_left _ _⟩

/-- The output is the raw sample or the interpolation, between the previous and the current sample (R122). -/
theorem toNat_oscOut {x : Osc} (h0 : 0 ≤ x.counter.toInt) (h1 : x.counter.toInt ≤ x.lastPer.toNat)
    (hper : 1 ≤ x.lastPer.toNat) :
    ((oscOut x).toNat : Int) =
      (if x.raw = true then (x.curr.toNat : Int)
        else x.prev.toNat + ((x.curr.toNat : Int) - x.prev.toNat) *
          ((x.lastPer.toNat : Int) - x.counter.toInt) / x.lastPer.toNat) ∧
    min x.prev.toNat x.curr.toNat ≤ (oscOut x).toNat ∧ (oscOut x).toNat ≤ max x.prev.toNat x.curr.toNat := by
  unfold oscOut
  split
  · exact ⟨rfl, Nat.min_le_right _ _, Nat.le_max_right _ _⟩
  · exact toNat_interpolation (by omega) (by omega) (by omega) rfl

/-! ## One pass of the loop -/

/-- The phase after a reload (R122). -/
theorem toNat_oscReload_phase {slots : List Slot} {x : Osc} (h : 0 < oscLen slots x) (n : Int) :
    ((oscReload slots n x).2.2.phase.toNat : Int) =
      ((x.phase.toNat : Int) - (x.incr.get x.half).toNat) % (oscLen slots x : Int) := by
  have hlen : oscLen slots x < 4096 := (slotOf slots x.main.toNat).len.isLt
  have hnonneg := Int.emod_nonneg ((x.phase.toNat : Int) - (x.incr.get x.half).toNat)
    (b := (oscLen slots x : Int)) (by omega)
  have hlt := Int.emod_lt_of_pos ((x.phase.toNat : Int) - (x.incr.get x.half).toNat)
    (b := (oscLen slots x : Int)) (by omega)
  simp only [oscReload, BitVec.toNat_ofNat]
  omega

/-- The half and the sample of a reload are those of the new phase (R122). -/
theorem oscReload_half_curr {slots : List Slot} {x : Osc} (h : 0 < oscLen slots x) (n : Int) :
    (oscReload slots n x).2.2.half = decide ((oscReload slots n x).2.2.phase.toNat < oscLen slots x / 2) ∧
    (oscReload slots n x).2.2.curr = sampleAt slots x (oscReload slots n x).2.2.phase.toNat := by
  have hphase := toNat_oscReload_phase h n
  have hph : (((x.phase.toNat : Int) - (x.incr.get x.half).toNat) % (oscLen slots x : Int)).toNat =
      (oscReload slots n x).2.2.phase.toNat := by omega
  constructor
  · rw [← hph]; rfl
  · rw [← hph]; rfl

/-- A reload wraps where the phase is below the increment (R122). -/
theorem oscReload_wraps_iff (slots : List Slot) (n : Int) (x : Osc) :
    (oscReload slots n x).2.1 = true ↔ x.phase.toNat < (x.incr.get x.half).toNat := by
  simp only [oscReload, decide_eq_true_iff]
  omega

/-! ## The loop -/

/-- One pass of R122's loop on the counter, the wrap flag and the oscillator. -/
def oscPass (slots : List Slot) (a : Int × Bool × Osc) : Int × Bool × Osc :=
  ((oscReload slots a.1 a.2.2).1, a.2.1 || (oscReload slots a.1 a.2.2).2.1, (oscReload slots a.1 a.2.2).2.2)

/-- The loop is a number of passes, each begun with a counter of at most 0. -/
theorem oscReloads_eq_iterate (slots : List Slot) : ∀ (fuel : Nat) (a : Int × Bool × Osc),
    ∃ m, (∀ j, j < m → ((oscPass slots)^[j] a).1 ≤ 0) ∧
      oscReloads slots fuel a.1 a.2.1 a.2.2 = (oscPass slots)^[m] a
  | 0, _ => ⟨0, by simp, rfl⟩
  | fuel + 1, a => by
    unfold oscReloads
    split <;> rename_i hn
    · obtain ⟨m, hpos, heq⟩ := oscReloads_eq_iterate slots fuel (oscPass slots a)
      refine ⟨m + 1, fun j hj => ?_, heq⟩
      cases j with
      | zero => exact hn
      | succ j => exact hpos j (by omega)
    · exact ⟨0, by simp, rfl⟩

/-- A loop begun with a positive counter makes no pass. -/
theorem oscReloads_of_pos (slots : List Slot) (fuel : Nat) {n : Int} (hn : 0 < n) (w : Bool) (x : Osc) :
    oscReloads slots fuel n w x = (n, w, x) := by
  cases fuel with
  | zero => rfl
  | succ fuel => rw [oscReloads, if_neg (by omega)]

/-- R122's loop in an output step of the oscillator. -/
def stepReloads (c : Config) (slots : List Slot) (x : Osc) : Int × Bool × Osc :=
  oscReloads slots (1 - (x.counter.toInt - c.oscTick)).toNat (x.counter.toInt - c.oscTick) false x

/-- An output step is the loop, its counter stored (R122). -/
theorem oscStep_parts (c : Config) (slots : List Slot) (x : Osc) :
    (oscStep c slots x).1.counter = BitVec.ofInt 32 (stepReloads c slots x).1 ∧
    (oscStep c slots x).1 = { (stepReloads c slots x).2.2 with counter := (oscStep c slots x).1.counter } ∧
    (oscStep c slots x).2.2 = (stepReloads c slots x).2.1 := ⟨rfl, rfl, rfl⟩

/-- The counter a step of a legal oscillator stores is the loop's, and is positive (R122, log 12). -/
theorem toInt_oscStep_counter {c : Config} {slots : List Slot} {x : Osc} (h : OscOk c (oscLen slots x) x) :
    (oscStep c slots x).1.counter.toInt = (stepReloads c slots x).1 ∧ 1 ≤ (stepReloads c slots x).1 := by
  obtain ⟨-, -, hle, -, hper, -⟩ := h
  have hpos : 0 < (stepReloads c slots x).1 := oscReloads_exits slots _ _ _ x hper (by omega)
  have hmax : (stepReloads c slots x).1 ≤ (stepReloads c slots x).2.2.lastPer.toNat :=
    oscReloads_counter_le slots _ _ _ x (by omega)
  have hlast := (stepReloads c slots x).2.2.lastPer.isLt
  obtain ⟨hcounter, -⟩ := oscStep_parts c slots x
  refine ⟨?_, hpos⟩
  rw [hcounter, BitVec.toInt_ofInt]
  exact Int.bmod_eq_of_le (by omega) (by omega)

/-- Settles O52: the sample read, one pass, and a step of a legal oscillator as the loop's passes. -/
theorem oscillatorStepIsBounded : Obligations.OscillatorStepIsBounded := by
  refine ⟨toNat_sampleAt, fun slots n x hlen => ?_, fun c slots x _ h => ?_⟩
  · obtain ⟨hhalf, hcurr⟩ := oscReload_half_curr hlen n
    refine ⟨(oscReload slots n x).2.2, rfl, oscReload_wraps_iff slots n x, ?_, toNat_oscReload_phase hlen n, ?_⟩
    · rw [← hcurr]
      exact oscReload_keeps slots n x
    · rw [hhalf, decide_eq_false_iff_not, Nat.not_lt]
  · intro r pass start
    have hlegal := h.step
    have ⟨_, h0, hle, hlast, _⟩ := hlegal
    obtain ⟨hcounter, hpos⟩ := toInt_oscStep_counter h
    obtain ⟨hout, hmin, hmax⟩ := toNat_oscOut h0 hle hlast
    obtain ⟨-, hrec, hwrap⟩ := oscStep_parts c slots x
    refine ⟨hlegal, hcounter ▸ hpos, ⟨hmin, hmax⟩, ?_, fun htick => ?_, hout⟩
    · obtain ⟨m, hneg, hm⟩ := oscReloads_eq_iterate slots (1 - (x.counter.toInt - c.oscTick)).toNat start
      have hloop : stepReloads c slots x = (oscPass slots)^[m] start := hm
      rw [hloop] at hcounter hrec hwrap
      exact ⟨m, hneg, hcounter, hrec, hwrap⟩
    · have hnone : stepReloads c slots x = (x.counter.toInt - c.oscTick, false, x) :=
        oscReloads_of_pos slots _ (by omega) _ _
      rw [hnone] at hcounter hrec hwrap
      exact ⟨hrec, hcounter, hwrap⟩

end Sys2Proof.Machine
end

section
/-! PROOF. O53: one voice's part of a slot of a fill (R124, R135). Its two oscillators take one step each, both
described from the state the slot began in (`slotStep`), and their two words are written. -/

namespace Sys2Proof.Machine

/-- The output step oscillator o takes in a slot that begins in state s: B is reset first where A of its voice wraps
under an active sync (R124). -/
def slotStep (s : State) (o : Nat) : Osc × U16 × Bool :=
  oscStep s.cfg s.slots
    (if o % 2 = 1 ∧ (oscStep s.cfg s.slots (s.osc (o - 1))).2.2 = true ∧ s.syncActive.getLsbD (o / 2) = true
      then oscSyncReset (s.osc o) else s.osc o)

theorem slotStep_master (s : State) (v : Nat) : slotStep s (2 * v) = oscStep s.cfg s.slots (s.osc (2 * v)) := by
  rw [slotStep, if_neg (by omega)]

theorem slotStep_slave (s : State) (v : Nat) :
    slotStep s (2 * v + 1) = oscStep s.cfg s.slots
      (if (oscStep s.cfg s.slots (s.osc (2 * v))).2.2 = true ∧ s.syncActive.getLsbD v = true
        then oscSyncReset (s.osc (2 * v + 1)) else s.osc (2 * v + 1)) := by
  simp only [slotStep, show (2 * v + 1) % 2 = 1 by omega, show (2 * v + 1) / 2 = v by omega, Nat.add_sub_cancel,
    true_and]

/-- The step of an oscillator depends on the two oscillators of its voice only. -/
theorem slotStep_congr {s t : State} {o : Nat} (hframe : t = { s with oscs := t.oscs, buf := t.buf })
    (hosc : ∀ k, k / 2 = o / 2 → t.osc k = s.osc k) : slotStep t o = slotStep s o := by
  have hcfg : t.cfg = s.cfg := by rw [hframe]
  have hslots : t.slots = s.slots := by rw [hframe]
  have hsync : t.syncActive = s.syncActive := by rw [hframe]
  rw [slotStep, slotStep, hcfg, hslots, hsync, hosc o rfl]
  by_cases ho : o % 2 = 1
  · rw [hosc (o - 1) (by omega)]
  · rw [if_neg fun e => ho e.1, if_neg fun e => ho e.1]

/-- The state in which B of voice v steps: A has stepped, and B is reset where A wrapped under an active sync (R124). -/
def beforeSlave (v : Nat) (s : State) : State :=
  if (stepOsc (2 * v) s).2.2 && (stepOsc (2 * v) s).1.syncActive.getLsbD v
  then (stepOsc (2 * v) s).1.modOsc (2 * v + 1) oscSyncReset else (stepOsc (2 * v) s).1

theorem beforeSlave_frame (v : Nat) (s : State) :
    beforeSlave v s = { s with oscs := (beforeSlave v s).oscs } ∧
    (beforeSlave v s).oscs.length = s.oscs.length := by
  have hlen : (stepOsc (2 * v) s).1.oscs.length = s.oscs.length := by simp [stepOsc]
  unfold beforeSlave
  split
  · exact ⟨rfl, by rw [length_oscs_modOsc, hlen]⟩
  · exact ⟨rfl, hlen⟩

theorem osc_beforeSlave {s : State} {v : Nat} (ho : 2 * v + 1 < s.oscs.length) (k : Nat) :
    (beforeSlave v s).osc k =
      if k = 2 * v then (slotStep s (2 * v)).1
      else if k = 2 * v + 1 ∧ (oscStep s.cfg s.slots (s.osc (2 * v))).2.2 = true ∧ s.syncActive.getLsbD v = true
        then oscSyncReset (s.osc k) else s.osc k := by
  obtain ⟨-, hlen, hans, hosc⟩ := stepOsc_spec (2 * v) s (by omega)
  have hsync : (stepOsc (2 * v) s).1.syncActive = s.syncActive := rfl
  rw [slotStep_master]
  simp only [beforeSlave, hans, hsync, Bool.and_eq_true]
  by_cases hk : k = 2 * v
  · subst hk
    rw [if_pos rfl]
    split
    · rw [osc_modOsc, if_neg fun e => absurd e.1 (by omega), hosc, if_pos rfl]
    · rw [hosc, if_pos rfl]
  · rw [if_neg hk]
    split <;> rename_i hreset
    · rw [osc_modOsc, hlen, hosc, hosc, if_neg hk, if_neg (show ¬2 * v + 1 = 2 * v by omega)]
      by_cases hb : k = 2 * v + 1
      · rw [if_pos ⟨hb, ho⟩, if_pos ⟨hb, hreset⟩, hb]
      · rw [if_neg fun e => hb e.1, if_neg fun e => hb e.1]
    · rw [hosc, if_neg hk, if_neg fun e => hreset e.2]

/-- B's step in `beforeSlave` is its step in the slot. -/
theorem oscStep_beforeSlave {s : State} {v : Nat} (ho : 2 * v + 1 < s.oscs.length) :
    oscStep (beforeSlave v s).cfg (beforeSlave v s).slots ((beforeSlave v s).osc (2 * v + 1)) =
      slotStep s (2 * v + 1) := by
  rw [osc_beforeSlave ho, if_neg (by omega), slotStep_slave, (beforeSlave_frame v s).1]
  simp only [true_and]

/-- A buffer word as its channel and its value (R134). -/
theorem ofNat_channel_add (n : Nat) (x : U16) :
    BitVec.ofNat 32 (n * 2 ^ 16 + x.toNat) = BitVec.ofNat 16 n ++ x := by
  have hx := x.isLt
  apply BitVec.eq_of_toNat_eq
  rw [BitVec.toNat_append, BitVec.toNat_ofNat, BitVec.toNat_ofNat, ← Nat.shiftLeft_add_eq_or_of_lt hx, Nat.shiftLeft_eq]
  omega

/-- A voice's part of a slot: the two steps, and the two words (R124, R135). -/
theorem fillVoice_eq {s : State} {v : Nat} (ho : 2 * v + 1 < s.oscs.length) (h : Bool) (sl : Nat) :
    fillVoice h sl v s =
      (((stepOsc (2 * v + 1) (beforeSlave v s)).1.writeBuf h sl (2 * v)
          (BitVec.ofNat 16 (2 * v) ++ (slotStep s (2 * v)).2.1)).writeBuf h sl (2 * v + 1)
        (BitVec.ofNat 16 (2 * v + 1) ++ (slotStep s (2 * v + 1)).2.1)) := by
  obtain ⟨-, -, hmaster, -⟩ := stepOsc_spec (2 * v) s (by omega)
  obtain ⟨-, -, hslave, -⟩ := stepOsc_spec (2 * v + 1) (beforeSlave v s) ((beforeSlave_frame v s).2.symm ▸ ho)
  rw [oscStep_beforeSlave ho] at hslave
  rw [slotStep_master, ← hmaster, ← hslave, ← ofNat_channel_add, ← ofNat_channel_add]
  unfold fillVoice beforeSlave
  rfl

/-- The oscillators after a voice's part of a slot. -/
theorem osc_fillVoice {s : State} {v : Nat} (ho : 2 * v + 1 < s.oscs.length) (h : Bool) (sl k : Nat) :
    (fillVoice h sl v s).osc k = if k / 2 = v then (slotStep s k).1 else s.osc k := by
  obtain ⟨-, hlen⟩ := beforeSlave_frame v s
  obtain ⟨-, -, -, hosc⟩ := stepOsc_spec (2 * v + 1) (beforeSlave v s) (hlen.symm ▸ ho)
  have hwrite : (fillVoice h sl v s).osc k = (stepOsc (2 * v + 1) (beforeSlave v s)).1.osc k := by
    simp only [fillVoice_eq ho, writeBuf_reads]
  rw [hwrite, hosc, oscStep_beforeSlave ho, osc_beforeSlave ho]
  by_cases hb : k = 2 * v + 1
  · rw [if_pos hb, if_pos (by omega), hb]
  · rw [if_neg hb]
    by_cases ha : k = 2 * v
    · rw [if_pos ha, if_pos (by omega), ha]
    · rw [if_neg ha, if_neg fun e => hb e.1, if_neg (by omega)]

/-- The output buffer after a voice's part of a slot. -/
theorem readBuf_fillVoice {s : State} {v : Nat} (ho : 2 * v + 1 < s.oscs.length) (hbuf : Memory.wf 0 s.buf)
    (h g : Bool) (sl i j : Nat) :
    (fillVoice h sl v s).readBuf g i j =
      if bufAddr s.cfg g i j = bufAddr s.cfg h sl (2 * v + 1)
      then BitVec.ofNat 16 (2 * v + 1) ++ (slotStep s (2 * v + 1)).2.1
      else if bufAddr s.cfg g i j = bufAddr s.cfg h sl (2 * v)
        then BitVec.ofNat 16 (2 * v) ++ (slotStep s (2 * v)).2.1 else s.readBuf g i j := by
  have hstep : (stepOsc (2 * v + 1) (beforeSlave v s)).1 =
      { s with oscs := (stepOsc (2 * v + 1) (beforeSlave v s)).1.oscs } := by
    rw [(stepOsc_spec (2 * v + 1) _ ((beforeSlave_frame v s).2.symm ▸ ho)).1, (beforeSlave_frame v s).1]
  rw [fillVoice_eq ho]
  generalize (stepOsc (2 * v + 1) (beforeSlave v s)).1 = u at hstep ⊢
  have hu : Memory.wf 0 u.buf := by rw [hstep]; exact hbuf
  rw [readBuf_writeBuf (Memory.wf_write hu _ _), readBuf_writeBuf hu, hstep]
  rfl

/-- A legal oscillator that was reset reloads at once, from phase 0, and so wraps (R124). -/
theorem oscStep_syncReset_wraps {c : Config} {slots : List Slot} {x : Osc} (hx : OscOk c (oscLen slots x) x) :
    (oscStep c slots (oscSyncReset x)).2.2 = true := by
  obtain ⟨-, -, -, -, -, hincr⟩ := hx
  have hcounter : (oscSyncReset x).counter.toInt = 0 := rfl
  have hwrap : (oscReload slots (0 - c.oscTick) (oscSyncReset x)).2.1 = true :=
    (oscReload_wraps_iff _ _ _).mpr (hincr false).1
  have hstay := oscReloads_induct (slots := slots) (P := fun _ w _ => w = true)
    (fun _ _ _ _ hw => by rw [hw, Bool.true_or])
  rw [(oscStep_parts c slots _).2.2, stepReloads, hcounter]
  obtain ⟨fuel, hfuel⟩ : ∃ fuel, (1 - (0 - (c.oscTick : Int))).toNat = fuel + 1 := ⟨c.oscTick, by omega⟩
  rw [hfuel, oscReloads, if_pos (by omega)]
  exact hstay fuel _ _ _ (by rw [hwrap, Bool.or_true])

/-- Settles O53: a voice's part of a slot is its oscillators' `slotStep`s. -/
theorem hardSyncResetsSlave : Obligations.HardSyncResetsSlave := by
  refine ⟨fun s h sl v hsized hmemory hv => ?_, fun c slots x _ hx => oscStep_syncReset_wraps hx⟩
  obtain ⟨-, -, -, hoscs, -⟩ := hsized
  obtain ⟨-, -, hbuf, -⟩ := hmemory
  have ho : 2 * v + 1 < s.oscs.length := by omega
  intro a b t
  have hosc := osc_fillVoice ho h sl
  have hread := readBuf_fillVoice ho hbuf h h sl sl
  have hmaster : slotStep s (2 * v) = a := slotStep_master s v
  have hslave : slotStep s (2 * v + 1) = b := slotStep_slave s v
  refine ⟨(fillVoice_frame h sl v s).1, ?_, ?_, fun o h0 h1 => ?_, ?_, ?_⟩
  · rw [hosc, if_pos (by omega), hmaster]
  · rw [hosc, if_pos (by omega), hslave]
  · rw [hosc, if_neg (by omega)]
  · rw [hread, if_neg (by simp [bufAddr]), if_pos rfl, hmaster]
  · rw [hread, if_pos rfl, hslave]

end Sys2Proof.Machine
end

section
/-! PROOF. O58: a fill, slot by slot (R134, R135, R137). Each slot writes its own words only, so the half ends with the
words of every slot, each read from the state that slot began in. -/

namespace Sys2Proof.Machine

/-! ## The voices of a slot -/

/-- The output buffer after a voice's part of a slot, at the indices of R28. -/
theorem readBuf_fillVoice_of_lt {s : State} {v sl i j : Nat} (ho : 2 * v + 1 < s.oscs.length)
    (hbuf : Memory.wf 0 s.buf) (hv : v < s.cfg.nVoices) (hsl : sl < s.cfg.halfLen) (hi : i < s.cfg.halfLen)
    (hj : j ≤ 2 * s.cfg.nVoices) (h g : Bool) :
    (fillVoice h sl v s).readBuf g i j =
      if g = h ∧ i = sl ∧ j / 2 = v then BitVec.ofNat 16 j ++ (slotStep s j).2.1 else s.readBuf g i j := by
  rw [readBuf_fillVoice ho hbuf]
  simp only [bufAddr_inj hsl hi (show 2 * v + 1 ≤ 2 * s.cfg.nVoices by omega) hj,
    bufAddr_inj hsl hi (show 2 * v ≤ 2 * s.cfg.nVoices by omega) hj]
  by_cases hslave : g = h ∧ i = sl ∧ j = 2 * v + 1
  · rw [if_pos hslave, if_pos ⟨hslave.1, hslave.2.1, by omega⟩, hslave.2.2]
  · rw [if_neg hslave]
    by_cases hmaster : g = h ∧ i = sl ∧ j = 2 * v
    · rw [if_pos hmaster, if_pos ⟨hmaster.1, hmaster.2.1, by omega⟩, hmaster.2.2]
    · rw [if_neg hmaster, if_neg]
      rintro ⟨hg, hs, hj⟩
      rcases Nat.mod_two_eq_zero_or_one j with h2 | h2
      · exact hmaster ⟨hg, hs, by omega⟩
      · exact hslave ⟨hg, hs, by omega⟩

/-- What the first n voices make of the state s that slot `sl` of half h begins in: their oscillators have taken their
steps, and their words are written. -/
structure VoicesFilled (h : Bool) (sl : Nat) (s : State) (n : Nat) (t : State) : Prop where
  frame : t = { s with oscs := t.oscs, buf := t.buf }
  size : t.oscs.length = s.oscs.length
  memory : MemoryOk t
  osc (o : Nat) : t.osc o = if o < 2 * n then (slotStep s o).1 else s.osc o
  word (g : Bool) (i j : Nat) : i < s.cfg.halfLen → j ≤ 2 * s.cfg.nVoices → t.readBuf g i j =
    if g = h ∧ i = sl ∧ j < 2 * n then BitVec.ofNat 16 j ++ (slotStep s j).2.1 else s.readBuf g i j

/-- One voice more. -/
theorem VoicesFilled.succ {h : Bool} {sl v : Nat} {s t : State} (ht : VoicesFilled h sl s v t)
    (hoscs : s.oscs.length = 2 * s.cfg.nVoices) (hv : v < s.cfg.nVoices) (hsl : sl < s.cfg.halfLen) :
    VoicesFilled h sl s (v + 1) (fillVoice h sl v t) := by
  obtain ⟨frame, size, memory, osc, word⟩ := ht
  have hcfg : t.cfg = s.cfg := by rw [frame]
  have ho : 2 * v + 1 < t.oscs.length := by omega
  have ⟨_, _, hbuf, _⟩ := memory
  obtain ⟨vframe, vsize⟩ := fillVoice_frame h sl v t
  -- the oscillators of voice v have not stepped yet
  have hstep : ∀ o, o / 2 = v → slotStep t o = slotStep s o := fun o hov =>
    slotStep_congr frame fun k hk => by rw [osc, if_neg (by omega)]
  refine ⟨by rw [vframe, frame], vsize.trans size, memory.fillVoice h (hcfg ▸ hsl) (hcfg ▸ hv), fun o => ?_,
    fun g i j hi hj => ?_⟩
  · rw [osc_fillVoice ho]
    by_cases hov : o / 2 = v
    · rw [if_pos hov, if_pos (by omega), hstep o hov]
    · rw [if_neg hov, osc]
      simp only [show o < 2 * (v + 1) ↔ o < 2 * v by omega]
  · rw [readBuf_fillVoice_of_lt ho hbuf (hcfg ▸ hv) (hcfg ▸ hsl) (hcfg ▸ hi) (hcfg ▸ hj)]
    by_cases hjv : j / 2 = v
    · have hold : t.readBuf g i j = s.readBuf g i j := by
        rw [word g i j hi hj, if_neg fun e => absurd e.2.2 (by omega)]
      rw [hold, hstep j hjv]
      simp only [hjv, show j < 2 * (v + 1) by omega]
    · rw [if_neg fun e => hjv e.2.2, word g i j hi hj]
      simp only [show j < 2 * (v + 1) ↔ j < 2 * v by omega]

/-- The loop over the voices of a slot (R135). -/
theorem voicesFilled_forVoices {s : State} (hoscs : s.oscs.length = 2 * s.cfg.nVoices) (hmemory : MemoryOk s) {sl : Nat}
    (hsl : sl < s.cfg.halfLen) (h : Bool) : VoicesFilled h sl s s.cfg.nVoices (forVoices (fillVoice h sl) s) :=
  forUpTo_induct (P := VoicesFilled h sl s)
    ⟨rfl, rfl, hmemory, fun _ => (if_neg (by omega)).symm, fun _ _ _ _ _ => (if_neg fun e => by omega).symm⟩
    fun _ _ hv ht => ht.succ hoscs hv hsl

/-! ## One slot -/

/-- Word j of a slot that begins in state s: an oscillator's sample, or the CV of the round-robin channel (R134). -/
def slotWord (s : State) (j : Nat) : Word :=
  if j < 2 * s.cfg.nVoices then BitVec.ofNat 16 j ++ (slotStep s j).2.1
  else BitVec.ofNat 16 (0x80 + s.rr.toNat) ++ s.cv (s.rr.toNat / 7) (s.rr.toNat % 7)

/-- Every oscillator takes its step of the slot. -/
theorem osc_fillSlot {s : State} (hoscs : s.oscs.length = 2 * s.cfg.nVoices) (hmemory : MemoryOk s) {sl o : Nat}
    (hsl : sl < s.cfg.halfLen) (ho : o < 2 * s.cfg.nVoices) (h : Bool) :
    (fillSlot h sl s).osc o = (slotStep s o).1 :=
  ((voicesFilled_forVoices hoscs hmemory hsl h).osc o).trans (if_pos ho)

/-- A slot writes its own words and no other. -/
theorem readBuf_fillSlot {s : State} (hoscs : s.oscs.length = 2 * s.cfg.nVoices) (hmemory : MemoryOk s) {sl i j : Nat}
    (hsl : sl < s.cfg.halfLen) (hi : i < s.cfg.halfLen) (hj : j ≤ 2 * s.cfg.nVoices) (h g : Bool) :
    (fillSlot h sl s).readBuf g i j = if g = h ∧ i = sl then slotWord s j else s.readBuf g i j := by
  obtain ⟨frame, -, ⟨-, -, hbuf, -⟩, -, word⟩ := voicesFilled_forVoices hoscs hmemory hsl h
  have hslot : fillSlot h sl s = fillCv h sl (forVoices (fillVoice h sl) s) := rfl
  rw [hslot]
  generalize forVoices (fillVoice h sl) s = t at frame hbuf word ⊢
  have hcfg : t.cfg = s.cfg := by rw [frame]
  have hrr : t.rr = s.rr := by rw [frame]
  have hcv : ∀ v d, t.cv v d = s.cv v d := fun v d => by rw [frame]; rfl
  have hwrite : (fillCv h sl t).readBuf g i j =
      (t.writeBuf h sl (2 * t.cfg.nVoices)
        (BitVec.ofNat 16 (0x80 + t.rr.toNat) ++ t.cv (t.rr.toNat / 7) (t.rr.toNat % 7))).readBuf g i j := by
    rw [← ofNat_channel_add]; rfl
  rw [hwrite, readBuf_writeBuf hbuf, hcfg, hrr, hcv, word g i j hi hj, slotWord]
  simp only [bufAddr_inj hsl hi le_rfl hj]
  by_cases hgi : g = h ∧ i = sl
  · obtain ⟨rfl, rfl⟩ := hgi
    by_cases hlt : j < 2 * s.cfg.nVoices
    · simp [hlt, hlt.ne]
    · simp [show j = 2 * s.cfg.nVoices by omega]
  · rw [if_neg hgi, if_neg fun e => hgi ⟨e.1, e.2.1⟩, if_neg fun e => hgi ⟨e.1, e.2.1⟩]

/-! ## The slots of a fill -/

/-- The state in which slot n of a fill from s begins (R135). -/
def afterSlots (s : State) (n : Nat) : State := forUpTo n (fillSlot s.fillPtr) s

theorem afterSlots_succ (s : State) (n : Nat) : afterSlots s (n + 1) = fillSlot s.fillPtr n (afterSlots s n) :=
  forUpTo_succ _ _ _

theorem fill_eq_afterSlots (s : State) :
    fill s =
      { afterSlots s s.cfg.halfLen with
        pending := (afterSlots s s.cfg.halfLen).pending.set s.fillPtr false
        fillPtr := !s.fillPtr } := rfl

theorem afterSlots_frame (s : State) (n : Nat) :
    afterSlots s n =
      { s with oscs := (afterSlots s n).oscs, buf := (afterSlots s n).buf, rr := (afterSlots s n).rr } ∧
    (afterSlots s n).oscs.length = s.oscs.length := by
  induction n with
  | zero => exact ⟨rfl, rfl⟩
  | succ n ih =>
    obtain ⟨frame, size⟩ := ih
    obtain ⟨slotFrame, slotSize⟩ := fillSlot_frame s.fillPtr n (afterSlots s n)
    rw [afterSlots_succ]
    exact ⟨by rw [slotFrame, frame], slotSize.trans size⟩

/-- RR advances once per slot, around the 7N channels (R137). -/
theorem toNat_afterSlots_rr {s : State} (hN : s.cfg.nVoices ≤ 6) (hrr : s.rr.toNat < 7 * s.cfg.nVoices) (n : Nat) :
    (afterSlots s n).rr.toNat = (s.rr.toNat + n) % (7 * s.cfg.nVoices) := by
  induction n with
  | zero => exact (Nat.mod_eq_of_lt hrr).symm
  | succ n ih =>
    have hcfg : (afterSlots s n).cfg = s.cfg := by rw [(afterSlots_frame s n).1]
    have hlt := Nat.mod_lt ((s.rr.toNat + n) % (7 * s.cfg.nVoices) + 1) (Nat.zero_lt_of_lt hrr)
    rw [afterSlots_succ, (fillSlot_frame s.fillPtr n (afterSlots s n)).1]
    dsimp only
    rw [hcfg, ih, BitVec.toNat_ofNat, Nat.mod_eq_of_lt (by omega), Nat.mod_add_mod, Nat.add_assoc]

theorem memoryOk_afterSlots {s : State} (hmemory : MemoryOk s) {n : Nat} (hn : n ≤ s.cfg.halfLen) :
    MemoryOk (afterSlots s n) := by
  induction n with
  | zero => exact hmemory
  | succ n ih =>
    have hcfg : (afterSlots s n).cfg = s.cfg := by rw [(afterSlots_frame s n).1]
    rw [afterSlots_succ]
    exact (ih (by omega)).fillSlot _ (hcfg ▸ hn)

/-- The oscillators go from slot to slot by their steps. -/
theorem osc_afterSlots_succ {s : State} (hoscs : s.oscs.length = 2 * s.cfg.nVoices) (hmemory : MemoryOk s) {n o : Nat}
    (hn : n < s.cfg.halfLen) (ho : o < 2 * s.cfg.nVoices) :
    (afterSlots s (n + 1)).osc o = (slotStep (afterSlots s n) o).1 := by
  obtain ⟨frame, size⟩ := afterSlots_frame s n
  have hcfg : (afterSlots s n).cfg = s.cfg := by rw [frame]
  rw [afterSlots_succ]
  exact osc_fillSlot (by rw [size, hcfg, hoscs]) (memoryOk_afterSlots hmemory hn.le) (hcfg ▸ hn) (hcfg ▸ ho) _

/-- After n slots the half holds the words of those slots, and everything else is as before (R135). -/
theorem readBuf_afterSlots {s : State} (hoscs : s.oscs.length = 2 * s.cfg.nVoices) (hmemory : MemoryOk s)
    {n i j : Nat} (hn : n ≤ s.cfg.halfLen) (hi : i < s.cfg.halfLen) (hj : j ≤ 2 * s.cfg.nVoices) (g : Bool) :
    (afterSlots s n).readBuf g i j =
      if g = s.fillPtr ∧ i < n then slotWord (afterSlots s i) j else s.readBuf g i j := by
  induction n with
  | zero => rw [if_neg fun e => Nat.not_lt_zero i e.2]; rfl
  | succ n ih =>
    obtain ⟨frame, size⟩ := afterSlots_frame s n
    have hcfg : (afterSlots s n).cfg = s.cfg := by rw [frame]
    rw [afterSlots_succ, readBuf_fillSlot (by rw [size, hcfg, hoscs]) (memoryOk_afterSlots hmemory (by omega))
      (hcfg ▸ hn) (hcfg ▸ hi) (hcfg ▸ hj), ih (by omega)]
    by_cases hin : i = n
    · simp [hin]
    · simp only [hin, and_false, if_false, show i < n + 1 ↔ i < n by omega]

/-- The words of slot n, from the oscillators it begins with and the registers of s (R134, R137). -/
theorem slotWord_afterSlots_cv {s : State} (hN : s.cfg.nVoices ≤ 6) (hrr : s.rr.toNat < 7 * s.cfg.nVoices) (n : Nat) :
    slotWord (afterSlots s n) (2 * s.cfg.nVoices) =
      BitVec.ofNat 16 (0x80 + (s.rr.toNat + n) % (7 * s.cfg.nVoices)) ++
        s.cv ((s.rr.toNat + n) % (7 * s.cfg.nVoices) / 7) ((s.rr.toNat + n) % (7 * s.cfg.nVoices) % 7) := by
  have hcfg : (afterSlots s n).cfg = s.cfg := by rw [(afterSlots_frame s n).1]
  have hcv : ∀ v d, (afterSlots s n).cv v d = s.cv v d := fun v d => by rw [(afterSlots_frame s n).1]; rfl
  rw [slotWord, hcfg, if_neg (lt_irrefl _), toNat_afterSlots_rr hN hrr, hcv]

theorem slotWord_afterSlots_osc {s : State} {n j : Nat} (hj : j < 2 * s.cfg.nVoices) :
    slotWord (afterSlots s n) j = BitVec.ofNat 16 j ++ (slotStep (afterSlots s n) j).2.1 := by
  have hcfg : (afterSlots s n).cfg = s.cfg := by rw [(afterSlots_frame s n).1]
  rw [slotWord, hcfg, if_pos hj]

/-- The words of a fill are those of its slots. -/
theorem readBuf_fill {s : State} (hoscs : s.oscs.length = 2 * s.cfg.nVoices) (hmemory : MemoryOk s) {i j : Nat}
    (hi : i < s.cfg.halfLen) (hj : j ≤ 2 * s.cfg.nVoices) (g : Bool) :
    (fill s).readBuf g i j = if g = s.fillPtr then slotWord (afterSlots s i) j else s.readBuf g i j := by
  have hcfg : (afterSlots s s.cfg.halfLen).cfg = s.cfg := by rw [(afterSlots_frame s _).1]
  have hread : (fill s).readBuf g i j = (afterSlots s s.cfg.halfLen).readBuf g i j := rfl
  rw [hread, readBuf_afterSlots hoscs hmemory le_rfl hi hj]
  simp only [hi, and_true]

/-- The two steps of a voice in slot n, in the registers of s (R124). -/
theorem slotStep_afterSlots (s : State) (n v : Nat) :
    slotStep (afterSlots s n) (2 * v) = oscStep s.cfg s.slots ((afterSlots s n).osc (2 * v)) ∧
    slotStep (afterSlots s n) (2 * v + 1) = oscStep s.cfg s.slots
      (if (oscStep s.cfg s.slots ((afterSlots s n).osc (2 * v))).2.2 = true ∧ s.syncActive.getLsbD v = true
        then oscSyncReset ((afterSlots s n).osc (2 * v + 1)) else (afterSlots s n).osc (2 * v + 1)) := by
  obtain ⟨frame, -⟩ := afterSlots_frame s n
  have hcfg : (afterSlots s n).cfg = s.cfg := by rw [frame]
  have hslots : (afterSlots s n).slots = s.slots := by rw [frame]
  have hsync : (afterSlots s n).syncActive = s.syncActive := by rw [frame]
  rw [slotStep_master, slotStep_slave, hcfg, hslots, hsync]
  exact ⟨rfl, rfl⟩

/-- Settles O58: the oscillators of slot `sl` are those of `afterSlots`, and its words are `slotWord`'s. -/
theorem fillWritesTaggedHalf : Obligations.FillWritesTaggedHalf := by
  intro s rest hsized hmemory hrr hscript hpending
  obtain ⟨⟨⟨-, hN⟩, -⟩, -, -, hoscs, -⟩ := hsized
  let u : State := { s with script := rest }
  have hstep : step s = .next (fill u) := by rw [step_agent hscript, runAgent, if_pos hpending]
  have hread := fun sl w (hsl : sl < s.cfg.halfLen) (hw : w ≤ 2 * s.cfg.nVoices) =>
    readBuf_fill (s := u) hoscs hmemory hsl hw
  have hnext := fun sl o (hsl : sl < s.cfg.halfLen) (ho : o < 2 * s.cfg.nVoices) =>
    osc_afterSlots_succ (s := u) hoscs hmemory hsl ho
  have hword := fun sl o (hsl : sl < s.cfg.halfLen) (ho : o < 2 * s.cfg.nVoices) =>
    ((hread sl o hsl ho.le u.fillPtr).trans (if_pos rfl)).trans (slotWord_afterSlots_osc (s := u) ho)
  refine ⟨fill u, fun n o => (afterSlots u n).osc o, hstep, (fill_frame u).1, toNat_afterSlots_rr (s := u) hN hrr _,
    fun sl w hsl hw => ?_, fun o _ => ⟨rfl, rfl⟩, fun sl hsl => ⟨fun v hv => ?_, fun c hc => ?_⟩⟩
  · exact (hread sl w hsl hw _).trans (if_neg (by simp [u]))
  · intro a b
    have hmaster : slotStep (afterSlots u sl) (2 * v) = a := (slotStep_afterSlots u sl v).1
    have hslave : slotStep (afterSlots u sl) (2 * v + 1) = b := (slotStep_afterSlots u sl v).2
    have hA := hnext sl (2 * v) hsl (by omega)
    have hB := hnext sl (2 * v + 1) hsl (by omega)
    have hwordA := hword sl (2 * v) hsl (by omega)
    have hwordB := hword sl (2 * v + 1) hsl (by omega)
    rw [hmaster] at hA hwordA
    rw [hslave] at hB hwordB
    exact ⟨hA, hB, hwordA, hwordB⟩
  · rw [hc]
    exact ((hread sl _ hsl le_rfl u.fillPtr).trans (if_pos rfl)).trans (slotWord_afterSlots_cv (s := u) hN hrr sl)

end Sys2Proof.Machine
end

section
/-! PROOF. O42: the housekeeping of tick phase 2 (R131, R74). Deallocating a voice leaves the envelopes of the others
alone, so the voices whose amp envelope is in Done are those of the state before. -/

namespace Sys2Proof.Machine

/-- The voices whose amp envelope is in Done, ascending. -/
def doneVoices (s : State) (n : Nat) : List Nat :=
  (List.range n).filter fun v => (s.env (2 * v + 1)).stage = .done

theorem mem_doneVoices {s : State} {n v : Nat} : v ∈ doneVoices s n ↔ v < n ∧ (s.env (2 * v + 1)).stage = .done := by
  simp [doneVoices]

theorem doneVoices_succ (s : State) (n : Nat) :
    doneVoices s (n + 1) = doneVoices s n ++ if (s.env (2 * n + 1)).stage = .done then [n] else [] := by
  simp [doneVoices, List.range_succ, List.filter_append, List.filter_singleton]

/-- The loop of tick phase 2 deallocates at the voices in Done. -/
theorem housekeeping_changedAt {s : State} (hs : Sized s) :
    ChangedAt deallocation (doneVoices s s.cfg.nVoices) s (tickTask 2 s) := by
  refine (forUpTo_induct (s := s) (f := housekeepVoice)
    (P := fun n t => SizedFor s.cfg t ∧ ChangedAt deallocation (doneVoices s n) s t)
    ⟨⟨hs, rfl⟩, .nil⟩ fun v t hv ⟨hsized, ht⟩ => ?_).2
  have hnew : v ∉ doneVoices s v := fun hmem => lt_irrefl v (mem_doneVoices.mp hmem).1
  have henv : t.env (2 * v + 1) = s.env (2 * v + 1) := by
    rw [ht.env, show (2 * v + 1) / 2 = v by omega, if_neg hnew]
  rw [housekeepVoice, henv, doneVoices_succ]
  split
  · exact ⟨hsized.voiceDone v, ht.snoc hnew (voiceDone_changedAt hsized (hsized.2 ▸ hv))⟩
  · rw [List.append_nil]
    exact ⟨hsized, ht⟩

/-- Settles O42: the change that the housekeeping makes is a deallocation, at the voices in Done. -/
theorem housekeepingDeallocatesDoneVoices : Obligations.HousekeepingDeallocatesDoneVoices := fun _ hs =>
  have hchange := housekeeping_changedAt hs
  ⟨⟨hchange.frame, hchange.sameMemory⟩, hchange.deallocated fun _ hv => mem_doneVoices.trans (and_iff_right hv)⟩

end Sys2Proof.Machine
end

section
/-! PROOF. O54, O55, O56: the controller and modulation commands (R138 to R142) and the glide (R132). BEND, PRESSURE
and the glide are loops over the voices whose pass v writes entry v of one register file and no other entry, so each
entry is written once, from the value it had before the loop. -/

namespace Sys2Proof.Machine

/-- A loop over the voices whose pass v replaces entry v by `val v` of that entry and keeps the others replaces every
entry so; `Inv` says what the passes keep and need. -/
theorem read_forVoices {α : Type} {Inv : State → Prop} {read : State → Nat → α} {val : Nat → α → α}
    {f : Nat → State → State} {s : State} (h0 : Inv s)
    (hpass : ∀ v t, v < s.cfg.nVoices → Inv t →
      Inv (f v t) ∧ ∀ u, read (f v t) u = if u = v then val v (read t v) else read t u)
    {u : Nat} (hu : u < s.cfg.nVoices) : read (forVoices f s) u = val u (read s u) := by
  have hall := forUpTo_induct (n := s.cfg.nVoices) (f := f) (s := s)
    (P := fun n t => Inv t ∧ ∀ u, read t u = if u < n then val u (read s u) else read s u)
    ⟨h0, fun u => (if_neg (Nat.not_lt_zero u)).symm⟩ fun v t hv ⟨ht, hread⟩ => by
      obtain ⟨hkept, hwrite⟩ := hpass v t hv ht
      refine ⟨hkept, fun u => ?_⟩
      rw [hwrite]
      by_cases huv : u = v
      · rw [if_pos huv, hread, if_neg (lt_irrefl v), huv, if_pos (Nat.lt_succ_self v)]
      · rw [if_neg huv, hread]
        simp only [show u < v + 1 ↔ u < v by omega]
  exact (hall.2 u).trans (if_pos hu)

/-! ## BEND and PRESSURE -/

/-- A loop over the masked voices whose pass v writes x to entry v and keeps the others writes x to the masked
entries. -/
theorem read_forMask {α : Type} {Inv : State → Prop} {read : State → Nat → α} {x : α} {f : Nat → State → State}
    {s : State} (h0 : Inv s)
    (hpass : ∀ v t, v < s.cfg.nVoices → Inv t →
      Inv (f v t) ∧ ∀ u, read (f v t) u = if u = v then x else read t u)
    (m : BitVec 6) {u : Nat} (hu : u < s.cfg.nVoices) :
    read (forMask m f s) u = if m.getLsbD u then x else read s u := by
  refine read_forVoices (Inv := Inv) (val := fun v y => if m.getLsbD v then x else y) h0 (fun v t hv ht => ?_) hu
  by_cases hm : m.getLsbD v = true
  · simp only [hm, if_true]
    exact hpass v t hv ht
  · simp only [hm]
    refine ⟨ht, fun w => ?_⟩
    by_cases hw : w = v <;> simp [hw]

/-- BEND writes the masked voices' entries (R138). -/
theorem bendOf_forMask {s : State} (hlen : s.bend.length = s.cfg.nVoices) (m : BitVec 6) (x : BitVec 16) {u : Nat}
    (hu : u < s.cfg.nVoices) :
    (forMask m (fun v t => t.setBend v x) s).bendOf u = if m.getLsbD u then x else s.bendOf u :=
  read_forMask (Inv := fun t => t.bend.length = s.cfg.nVoices) (read := State.bendOf) hlen
    (fun v t hv ht => ⟨(length_bend_setBend t v x).trans ht, fun w => by simp [bendOf_setBend, ht, hv]⟩) m hu

/-- PRESSURE writes the masked voices' entries (R139). -/
theorem pressureOf_forMask {s : State} (hlen : s.pressure.length = s.cfg.nVoices) (m : BitVec 6) (x : U16) {u : Nat}
    (hu : u < s.cfg.nVoices) :
    (forMask m (fun v t => t.setPressure v x) s).pressureOf u = if m.getLsbD u then x else s.pressureOf u :=
  read_forMask (Inv := fun t => t.pressure.length = s.cfg.nVoices) (read := State.pressureOf) hlen
    (fun v t hv ht => ⟨(length_pressure_setPressure t v x).trans ht, fun w => by simp [pressureOf_setPressure, ht, hv]⟩)
    m hu

/-- The mask operand selects a voice that exists exactly where the command's field does (R54). -/
theorem getLsbD_maskOperand_of_lt {n : Nat} (h6 : n ≤ 6) (m : BitVec 6) {v : Nat} (hv : v < n) :
    (maskOperand n m).getLsbD v = m.getLsbD v := by
  rw [getLsbD_maskOperand n m (by omega), decide_eq_true hv, Bool.and_true]

/-- Settles O54: both commands are the loop over the masked voices, which writes one register file. -/
theorem controllerCommands : Obligations.ControllerCommands := by
  rintro vm imm s ⟨⟨⟨-, h6⟩, -⟩, -, -, -, -, -, -, -, -, -, -, hbend, hpressure, -⟩
  constructor
  · obtain ⟨file, hfile⟩ := forMask_setBend_frame (maskOperand s.cfg.nVoices vm) imm s
    refine ⟨_, rfl, by rw [hfile], by rw [hfile]; exact .of_eq rfl rfl rfl rfl, fun v hv => ?_⟩
    rw [bendOf_forMask hbend _ _ hv, getLsbD_maskOperand_of_lt h6 vm hv]
  · obtain ⟨file, hfile⟩ := forMask_setPressure_frame (maskOperand s.cfg.nVoices vm) imm s
    refine ⟨_, rfl, by rw [hfile], by rw [hfile]; exact .of_eq rfl rfl rfl rfl, fun v hv => ?_⟩
    rw [pressureOf_forMask hpressure _ _ hv, getLsbD_maskOperand_of_lt h6 vm hv]

/-! ## The modulation settings -/

/-- Settles O55: each command is one write of one register or of one entry of a file, at the operand of R54. -/
theorem modulationSettings : Obligations.ModulationSettings := by
  rintro s ⟨-, -, -, -, -, -, -, hamt, hbase, -⟩
  refine ⟨fun src dst imm => ⟨_, rfl, rfl, .of_eq rfl rfl rfl rfl, fun d k _ hk => ?_⟩,
    fun dst imm => ⟨_, rfl, rfl, .of_eq rfl rfl rfl rfl, fun d _ => ?_⟩,
    fun imm => ⟨_, rfl, rfl, .of_eq rfl rfl rfl rfl⟩⟩
  · have hin : 8 * min dst.toNat 6 + src.toNat < s.amt.length := by omega
    rw [amount_setAmount s _ _ d k imm (by omega) hk, dstOperand]
    simp only [hin, and_true]
  · have hin : min dst.toNat 6 < s.base.length := by omega
    rw [baseOf_setBase, dstOperand]
    simp only [hin, and_true]

/-! ## Glide -/

/-- The pitch base that a glide step of rate g leaves, from the base p and the target b (R132). -/
def glidedPitch (g : U16) (b p : Nat) : Nat :=
  if g = 0 then b else if p < b then min b (p + g.toNat) else max b (p - g.toNat)

/-- Tick phase 4 takes one glide step of every voice (R131). -/
theorem pbOf_tickTask_four {s : State} (hlen : s.pb.length = s.cfg.nVoices) {v : Nat} (hv : v < s.cfg.nVoices) :
    ((tickTask 4 s).pbOf v).toNat = glidedPitch s.glide (s.tbOf v).toNat (s.pbOf v).toNat :=
  read_forVoices (f := glideStep) (Inv := fun t => t = { s with pb := t.pb } ∧ t.pb.length = s.cfg.nVoices)
    (read := fun t u => (t.pbOf u).toNat) (val := fun u => glidedPitch s.glide (s.tbOf u).toNat) ⟨rfl, hlen⟩
    (fun v t hv ⟨frame, size⟩ => by
      obtain ⟨vframe, vsize, hpb⟩ := glideStep_spec v t (size ▸ hv)
      have hglide : t.glide = s.glide := by rw [frame]
      have htb : t.tbOf v = s.tbOf v := by rw [frame]; rfl
      rw [hglide, htb] at hpb
      exact ⟨⟨by rw [vframe, frame], vsize.trans size⟩, hpb⟩) hv

/-- Settles O56: the three cases of one glide step, at every voice. -/
theorem glideNeverOvershoots : Obligations.GlideNeverOvershoots := by
  rintro s ⟨-, -, -, -, -, -, -, -, -, hpb, -⟩ t
  have hframe := tickTask_four_frame s
  have hmemory : SameMemory s (tickTask 4 s) := by rw [hframe]; exact .of_eq rfl rfl rfl rfl
  refine ⟨hframe, hmemory, fun v hv => ?_⟩
  have hpitch := pbOf_tickTask_four hpb hv
  refine ⟨fun h => BitVec.eq_of_toNat_eq ?_, fun h hlt => ?_, fun h hle => ?_⟩
  · rw [hpitch, glidedPitch, if_pos h]
  · rw [hpitch, glidedPitch, if_neg h, if_pos hlt]
  · rw [hpitch, glidedPitch, if_neg h, if_neg (by omega)]
    omega

end Sys2Proof.Machine
end

section
/-! PROOF. O57: the CV frame (R133). The sums of a voice read neither a CV nor an oscillator, so the frame computes
every voice's sums from the state it starts in. -/

namespace Sys2Proof.Machine

/-- What the first n voices' parts of the CV frame make of the state s: their CVs are the saturated sums of s, and
their oscillators have the parameters of those CVs. -/
structure CvsFramed (s : State) (n : Nat) (t : State) : Prop where
  frame : t = { s with cvOut := t.cvOut, oscs := t.oscs }
  cvSize : t.cvOut.length = s.cvOut.length
  oscSize : t.oscs.length = s.oscs.length
  cv (u d : Nat) : d < 7 → t.cv u d = if u < n then sat16 (cvSum s u d) else s.cv u d
  osc (o : Nat) : t.osc o = if o / 2 < n then
    oscSetParameters s.cfg (oscLen s.slots (s.osc o)) (t.cv (o / 2) (o % 2)) (t.cv (o / 2) 6) (s.osc o) else s.osc o

/-- One voice more. -/
theorem CvsFramed.succ {s t : State} {v : Nat} (ht : CvsFramed s v t) (hv : 7 * v + 6 < s.cvOut.length)
    (ho : 2 * v + 1 < s.oscs.length) : CvsFramed s (v + 1) (cvVoice v t) := by
  obtain ⟨frame, cvSize, oscSize, cv, osc⟩ := ht
  obtain ⟨vframe, vcvSize, voscSize, vcv, vosc⟩ := cvVoice_spec v t (cvSize ▸ hv) (oscSize ▸ ho)
  have hcfg : t.cfg = s.cfg := by rw [frame]
  have hslots : t.slots = s.slots := by rw [frame]
  have hsum : ∀ d, cvSum t v d = cvSum s v d := fun d => by rw [frame]; rfl
  refine ⟨by rw [vframe, frame], vcvSize.trans cvSize, voscSize.trans oscSize, fun u d hd => ?_, fun o => ?_⟩
  · rw [vcv u d hd, hsum, cv u d hd]
    by_cases hu : u = v
    · rw [if_pos hu, if_pos (by omega), hu]
    · rw [if_neg hu]
      simp only [show u < v + 1 ↔ u < v by omega]
  · rw [vosc, osc, hcfg, hslots]
    by_cases hov : o / 2 = v
    · rw [if_pos hov, if_neg (by omega), if_pos (by omega), hov]
    · rw [if_neg hov, vcv _ _ (by omega), vcv _ _ (by omega), if_neg hov, if_neg hov]
      simp only [show o / 2 < v + 1 ↔ o / 2 < v by omega]

/-- The loop over the voices (R133). -/
theorem cvsFramed_cvFrame {s : State} (hs : Sized s) : CvsFramed s s.cfg.nVoices (cvFrame s) := by
  obtain ⟨-, -, -, hoscs, -, -, -, -, -, -, -, -, -, hcv⟩ := hs
  exact forUpTo_induct (P := CvsFramed s)
    ⟨rfl, rfl, rfl, fun _ _ _ => (if_neg (Nat.not_lt_zero _)).symm, fun _ => (if_neg (Nat.not_lt_zero _)).symm⟩
    fun _ _ hv ht => ht.succ (by omega) (by omega)

/-- Settles O57: a sum of `cvSum` is R133's, written out, and `CvsFramed` says what the frame makes of the sums. -/
theorem cvFrameSums : Obligations.CvFrameSums := by
  intro s hs t
  obtain ⟨frame, -, -, cv, osc⟩ := cvsFramed_cvFrame hs
  have hmemory : SameMemory s (cvFrame s) := by rw [frame]; exact .of_eq rfl rfl rfl rfl
  refine ⟨frame, hmemory, fun v hv => ⟨fun d hd => ?_, ?_, ?_⟩⟩
  · rw [cv v d hd, if_pos hv, toNat_sat16]
    rfl
  · rw [osc, if_pos (by omega), show 2 * v / 2 = v by omega, show 2 * v % 2 = 0 by omega]
  · rw [osc, if_pos (by omega), show (2 * v + 1) / 2 = v by omega, show (2 * v + 1) % 2 = 1 by omega]

end Sys2Proof.Machine
end

section
/-! PROOF. O59, O60: a fill that waits, and the drain (R135, R136). -/

namespace Sys2Proof.Machine

/-- Settles O59: a fill acts only where its half is pending (log 2). -/
theorem fillWaitsWhileNotPending : Obligations.FillWaitsWhileNotPending := by
  intro s rest hscript hpending
  rw [step_agent hscript, runAgent, if_neg (by simp [hpending])]

theorem length_bufHalf (s : State) (h : Bool) : (bufHalf s h).length = s.cfg.halfLen := by simp [bufHalf]

theorem length_of_mem_bufHalf {s : State} {h : Bool} {ws : List Word} (hws : ws ∈ bufHalf s h) :
    ws.length = 2 * s.cfg.nVoices + 1 := by
  obtain ⟨sl, -, rfl⟩ := List.mem_map.mp hws
  simp

/-- The words of the half that goes out are those of BUF[h] (R28). -/
theorem bufHalf_word {s : State} {sl w : Nat} (hsl : sl < s.cfg.halfLen) (hw : w ≤ 2 * s.cfg.nVoices) (h : Bool) :
    ((bufHalf s h)[sl]?.bind fun ws => ws[w]?) = some (s.readBuf h sl w) := by
  simp [bufHalf, hsl, Nat.lt_succ_of_le hw]

/-- Settles O60: the half that goes out is `bufHalf`, and `drain_frame` says what else a drain writes. -/
theorem drainOutputsHalf : Obligations.DrainOutputsHalf := by
  intro s rest hscript
  let u : State := { s with script := rest }
  have hframe := drain_frame u
  refine ⟨drain u, bufHalf u s.dmaPtr, step_agent hscript, ?_, ?_, length_bufHalf u _,
    fun sl w hsl hw => bufHalf_word (s := u) hsl hw _, fun ws hws => length_of_mem_bufHalf hws, ?_, ?_, ?_⟩
  case refine_2 => rw [hframe]; exact .of_eq rfl rfl rfl rfl
  all_goals rw [hframe]
  case refine_4 => exact (two_get_set _ _ _ _).trans (if_pos rfl)
  case refine_5 => exact (two_get_set _ _ _ _).trans (if_neg (by simp [u]))

end Sys2Proof.Machine
end

section
/-! PROOF. O6: every command and every step completes, but for a refused host access (R143, R66, R32). -/

namespace Sys2Proof.Machine

/-- Every agent's step answers a next state: only a strobe executes commands, and each of those completes (R9). -/
theorem runAgent_completes (a : AgentStep) (s : State) : ∃ t, runAgent a s = .next t := by
  cases a with
  | cmdWrite w => exact ⟨cmdWrite w s, rfl⟩
  | stageWrite i v => exact ⟨stageWrite i v s, rfl⟩
  | statusRead x => exact ⟨statusRead x s, rfl⟩
  | strobe => exact strobe_completes s
  | fill => exact ⟨if s.pending.get s.fillPtr then fill s else s, rfl⟩
  | drain => exact ⟨drain s, rfl⟩

/-- An access that the host agent does not have is refused (R32). -/
theorem step_of_noAccess {s : State} {x : NoAccess} (h : nextEvent s = .noAccess x) :
    step s = .refused (.noSuchAccess x) := by
  rw [step_eq, h, runEvent]

/-- Settles O6: a step is an agent's step, and that completes, or it is a refused access. -/
theorem everyCommandAndStepCompletes : Obligations.EveryCommandAndStepCompletes := by
  refine ⟨exec_completes, fun s => ?_⟩
  cases he : nextEvent s with
  | agent a =>
    obtain ⟨t, ht⟩ := runAgent_completes a (afterEvent s)
    exact .inl ⟨t, by rw [step_eq, he, runEvent, ht]⟩
  | noAccess x => exact .inr ⟨x, rfl, step_of_noAccess he⟩

end Sys2Proof.Machine
end

section
/-! PROOF. O8: how long a queued word waits (R159, R60, R9). What a run does to the command port is said by `PortRun`,
which composes: each agent's step is a port run of one step, and so the run is one. -/

namespace Sys2Proof.Machine

/-- How many strobes were taken since the last one of tick phase 0, the tick phase of the next being `p` (R130). -/
def strobesSinceDrain (p : BitVec 3) : Nat := (p.toNat + 7) % 8

theorem strobesSinceDrain_le (p : BitVec 3) : strobesSinceDrain p ≤ 7 := by
  unfold strobesSinceDrain
  omega

/-- The strobe after a drain begins the count anew; every other adds one to it. -/
theorem strobesSinceDrain_succ (p : BitVec 3) :
    strobesSinceDrain (p + 1) + 8 * (if p = 0 then 1 else 0) = strobesSinceDrain p + 1 := by
  have hzero : p = 0 ↔ p.toNat = 0 := BitVec.toNat_eq
  have hsucc : (p + 1).toNat = (p.toNat + 1) % 8 := BitVec.toNat_add p 1
  have hlt := p.isLt
  unfold strobesSinceDrain
  simp only [hzero, hsucc]
  split <;> omega

/-- From `s` to `t` the words `ws` joined the FIFO and its `D` oldest words left it and were executed, in `n` strobes of
which `k` were of tick phase 0 (R59, R60). -/
structure PortRun (s t : State) (ws : List Word) (n k D : Nat) : Prop where
  cfg : t.cfg = s.cfg
  fifo : t.fifo = (s.fifo ++ ws).drop D
  le_length : D ≤ (s.fifo ++ ws).length
  cmdCount : t.cmdCount = s.cmdCount + BitVec.ofNat 32 D
  min_le : min (k * s.cfg.cmdBudget) s.fifo.length ≤ D
  le_budgets : D ≤ k * s.cfg.cmdBudget
  phase : strobesSinceDrain t.tphase + 8 * k = strobesSinceDrain s.tphase + n

namespace PortRun

variable {s t u : State} {ws vs : List Word} {n m k j D E : Nat}

/-- What leaves the command port and TPHASE alone is a run with nothing in it. -/
theorem of_eq (hcfg : t.cfg = s.cfg) (hfifo : t.fifo = s.fifo) (hcount : t.cmdCount = s.cmdCount)
    (hphase : t.tphase = s.tphase) : PortRun s t [] 0 0 0 where
  cfg := hcfg
  fifo := by simpa using hfifo
  le_length := Nat.zero_le _
  cmdCount := by simpa using hcount
  min_le := by simp
  le_budgets := Nat.zero_le _
  phase := by rw [hphase]

/-- Two runs one after the other. The second drains from what the first left, so a word that was queued before both is
among the drained ones of the first or still queued, ahead of the words that joined. -/
theorem trans (h : PortRun s t ws n k D) (g : PortRun t u vs m j E) :
    PortRun s u (ws ++ vs) (n + m) (k + j) (D + E) where
  cfg := g.cfg.trans h.cfg
  fifo := by
    calc u.fifo = (t.fifo ++ vs).drop E := g.fifo
      _ = ((s.fifo ++ ws ++ vs).drop D).drop E := by rw [h.fifo, List.drop_append_of_le_length h.le_length]
      _ = (s.fifo ++ (ws ++ vs)).drop (D + E) := by rw [List.drop_drop, List.append_assoc]
  le_length := by
    have hle := h.le_length
    have gle := g.le_length
    simp only [h.fifo, List.length_append, List.length_drop] at hle gle ⊢
    omega
  cmdCount := by rw [g.cmdCount, h.cmdCount, BitVec.add_assoc, BitVec.ofNat_add]
  min_le := by
    have hmin := h.min_le
    have gmin := g.min_le
    have hle := h.le_length
    simp only [h.cfg, h.fifo, List.length_append, List.length_drop] at gmin hle
    rw [Nat.add_mul]
    omega
  le_budgets := by
    have gle := g.le_budgets
    rw [h.cfg] at gle
    rw [Nat.add_mul]
    exact Nat.add_le_add h.le_budgets gle
  phase := by
    have hphase := h.phase
    have gphase := g.phase
    omega

/-- Of 8k strobes one after the other, k are of tick phase 0, whatever the tick phase they begin at. -/
theorem drains_of_strobes (h : PortRun s t ws (8 * n) k D) : k = n := by
  have hphase := h.phase
  have hs := strobesSinceDrain_le s.tphase
  have ht := strobesSinceDrain_le t.tphase
  omega

/-- A word with q words ahead of it has left the FIFO where the drains are more than floor(q/CMD_BUDGET), and has not
where they are not (R159). -/
theorem left_iff (h : PortRun s t ws n k D) (hbudget : 1 ≤ s.cfg.cmdBudget) {q : Nat} (hq : q < s.fifo.length) :
    (q / s.cfg.cmdBudget < k → q < D) ∧ (k ≤ q / s.cfg.cmdBudget → D ≤ q) := by
  have hmin := h.min_le
  have hle := h.le_budgets
  rw [Nat.div_lt_iff_lt_mul hbudget, Nat.le_div_iff_mul_le hbudget]
  omega

end PortRun

/-! ## One agent's step -/

/-- No agent's step writes the parameters or the script. -/
theorem runAgent_cfg_script {a : AgentStep} {s t : State} (h : runAgent a s = .next t) :
    t.cfg = s.cfg ∧ t.script = s.script := by
  by_cases ha : a = .strobe
  · subst ha
    refine strobe_keeps (P := fun u => u.cfg = s.cfg ∧ u.script = s.script) h ⟨rfl, rfl⟩
      (fun _ w _ u q v _ hu hexec => ?_) (fun _ => ?_) fun u hu => ?_
    · rw [execute_frame hexec]; exact hu
    · rw [(tickTask_frame _ s).1]; exact ⟨rfl, rfl⟩
    · rw [(strobeTail_frame u).1]; exact hu
  · rw [runAgent_portFrame ha h]; exact ⟨rfl, rfl⟩

/-- A CMD write appends its word, or where the FIFO is full only raises CMD_OVF (R59). -/
theorem cmdWrite_portRun (w : Word) (s : State) :
    ∃ ws : List Word, ws.Sublist [w] ∧ PortRun s (cmdWrite w s) ws 0 0 0 := by
  unfold cmdWrite
  split
  · exact ⟨[w], List.Sublist.refl _, { PortRun.of_eq (s := s) rfl rfl rfl rfl with
      fifo := rfl, le_length := Nat.zero_le _ }⟩
  · exact ⟨[], List.nil_sublist _, .of_eq rfl rfl rfl rfl⟩

/-- A strobe drains its words at tick phase 0, and none at another (R60, R131). -/
theorem strobe_portRun {s t : State} (h : strobe s = .next t) :
    PortRun s t [] 1 (if s.tphase = 0 then 1 else 0) (drainedWords s).length := by
  obtain ⟨hphase, hcount, -⟩ := strobe_counters h
  have hfifo := strobe_fifo h
  have hlen : (drainedWords s).length = if s.tphase = 0 then min s.cfg.cmdBudget s.fifo.length else 0 := by
    unfold drainedWords
    split <;> simp
  exact {
    cfg := (runAgent_cfg_script (a := .strobe) h).1
    fifo := by
      rw [hfifo, hlen, List.append_nil]
      split
      · exact List.drop_eq_drop_min
      · rfl
    le_length := by rw [hlen]; split <;> simp
    cmdCount := hcount
    min_le := by rw [hlen]; split <;> simp
    le_budgets := by rw [hlen]; split <;> simp
    phase := hphase ▸ strobesSinceDrain_succ s.tphase }

/-- Every agent's step is a port run, in which a CMD write alone may append its word and a strobe alone counts. -/
theorem runAgent_portRun {a : AgentStep} {s t : State} (h : runAgent a s = .next t) :
    ∃ ws k D, ws.Sublist ([a].filterMap writtenWord) ∧ PortRun s t ws ([a].count .strobe) k D := by
  cases a
  case strobe => exact ⟨[], _, _, List.nil_sublist _, strobe_portRun h⟩
  all_goals injection h with h; subst h
  case cmdWrite w =>
    obtain ⟨ws, hws, hport⟩ := cmdWrite_portRun w s
    exact ⟨ws, 0, 0, hws, hport⟩
  case stageWrite i v =>
    refine ⟨[], 0, 0, List.nil_sublist _, ?_⟩
    unfold stageWrite
    split <;> exact .of_eq rfl rfl rfl rfl
  case statusRead x => exact ⟨[], 0, 0, List.nil_sublist _, .of_eq rfl rfl rfl rfl⟩
  case fill =>
    refine ⟨[], 0, 0, List.nil_sublist _, ?_⟩
    split
    · rw [(fill_frame s).1]; exact .of_eq rfl rfl rfl rfl
    · exact .of_eq rfl rfl rfl rfl
  case drain => exact ⟨[], 0, 0, List.nil_sublist _, by rw [drain_frame]; exact .of_eq rfl rfl rfl rfl⟩

/-! ## A run of agents' steps -/

/-- A run whose first step answers a next state goes on from there. -/
theorem run_succ {s t : State} (h : step s = .next t) (n : Nat) :
    Host.Core.run Sys2Proof.core (n + 1) s = Host.Core.run Sys2Proof.core n t := by
  have hcore : Sys2Proof.core.step s = .next t := h
  simp only [Host.Core.run, hcore]

/-- A scripted run of agents' steps completes, and is a port run (R9). -/
theorem run_portRun (run : List AgentStep) {s : State} {rest : List Event}
    (hscript : s.script = run.map .agent ++ rest) :
    ∃ t ws k D, Host.Core.run Sys2Proof.core run.length s = .next t ∧ t.script = rest ∧
      ws.Sublist (run.filterMap writtenWord) ∧ PortRun s t ws (run.count .strobe) k D := by
  induction run generalizing s with
  | nil => exact ⟨s, [], 0, 0, rfl, hscript, List.nil_sublist _, .of_eq rfl rfl rfl rfl⟩
  | cons a run ih =>
    obtain ⟨u, hu⟩ := runAgent_completes a { s with script := run.map .agent ++ rest }
    obtain ⟨ws, k, D, hws, hport⟩ := runAgent_portRun hu
    obtain ⟨t, vs, j, E, hrun, ht, hvs, hrest⟩ := ih (runAgent_cfg_script hu).2
    refine ⟨t, ws ++ vs, k + j, D + E, ?_, ht, ?_, ?_⟩
    · rw [List.length_cons, run_succ ((step_agent hscript).trans hu), hrun]
    · rw [← List.singleton_append, List.filterMap_append]
      exact hws.append hvs
    · have hconsumed : PortRun s { s with script := run.map .agent ++ rest } [] 0 0 0 := .of_eq rfl rfl rfl rfl
      rw [← List.singleton_append, List.count_append]
      simpa using (hconsumed.trans hport).trans hrest

/-- Settles O8: the run is a port run with k drains. -/
theorem commandLatencyIsBounded : Obligations.CommandLatencyIsBounded := by
  intro s k run rest hbudget hscript hstrobes
  obtain ⟨t, ws, j, D, hrun, ht, hws, hport⟩ := run_portRun run hscript
  rw [hstrobes] at hport
  obtain rfl := hport.drains_of_strobes
  exact ⟨t, ws, D, hrun, ht, hws, hport.fifo, hport.le_length, hport.cmdCount, hport.min_le, hport.le_budgets,
    fun q hq => hport.left_iff hbudget hq⟩

end Sys2Proof.Machine
end

section
/-! PROOF. O24, O25: the state right after reset (R155). A register file at reset reads its reset value at every index,
in the file and beyond it. -/

namespace Sys2Proof.Machine

/-! ## The reset values (R155) -/

/-- A file whose entries are all the value that an absent entry reads as reads that value everywhere. -/
theorem getD_replicate_self {α : Type} (n i : Nat) (x : α) : (List.replicate n x).getD i x = x := by
  rw [List.getD_eq_getElem?_getD, List.getElem?_getD_replicate_default_eq]

/-- The mask 2^n − 1 holds the bits below n. -/
theorem getLsbD_ones (w n k : Nat) : (BitVec.ofNat w (2 ^ n - 1)).getLsbD k = (decide (k < w) && decide (k < n)) := by
  rw [BitVec.getLsbD_ofNat, Nat.testBit_two_pow_sub_one]

section
variable (c : Config)

@[simp] theorem voice_resetWith (v : Nat) : (State.resetWith c).voice v = Voice.reset := getD_replicate_self ..

@[simp] theorem env_resetWith (e : Nat) : (State.resetWith c).env e = Env.reset := getD_replicate_self ..

@[simp] theorem osc_resetWith (o : Nat) : (State.resetWith c).osc o = Osc.reset := getD_replicate_self ..

@[simp] theorem lfo_resetWith (l : Bool) : (State.resetWith c).lfo l = Lfo.reset (if l then 2 else 1) := by
  cases l <;> rfl

@[simp] theorem slotOf_slots_resetWith (k : Nat) : slotOf (State.resetWith c).slots k = Slot.reset :=
  getD_replicate_self ..

@[simp] theorem amount_resetWith (d k : Nat) : (State.resetWith c).amount d k = 0 :=
  congrArg BitVec.toInt (getD_replicate_self 56 (8 * d + k) (0 : BitVec 16))

@[simp] theorem offset_resetWith (i : Nat) : (State.resetWith c).offset i = 0 :=
  congrArg BitVec.toInt (getD_replicate_self 6 i (0 : BitVec 8))

@[simp] theorem baseOf_resetWith (d : Nat) : (State.resetWith c).baseOf d = 0 := getD_replicate_self ..

@[simp] theorem pbOf_resetWith (v : Nat) : (State.resetWith c).pbOf v = 0 := getD_replicate_self ..

@[simp] theorem tbOf_resetWith (v : Nat) : (State.resetWith c).tbOf v = 0 := getD_replicate_self ..

@[simp] theorem bendOf_resetWith (v : Nat) : (State.resetWith c).bendOf v = 0 := getD_replicate_self ..

@[simp] theorem pressureOf_resetWith (v : Nat) : (State.resetWith c).pressureOf v = 0 := getD_replicate_self ..

@[simp] theorem cv_resetWith (v d : Nat) : (State.resetWith c).cv v d = 0 := getD_replicate_self ..

end

/-- Settles O25: the files read their reset values everywhere, and every other element is the value R155 names. -/
theorem resetValues : Obligations.ResetValues := by
  intro c s
  have hmask : ∀ v, v < 6 → s.voiceMask.getLsbD v = decide (v < c.nVoices) := fun v hv => by
    rw [show s.voiceMask = BitVec.ofNat 6 (2 ^ c.nVoices - 1) from rfl, getLsbD_ones, decide_eq_true hv, Bool.true_and]
  have hslot : ∀ k, (s.slot k).len = 2 ∧ ∀ i, s.readSlot k i = 0x8000 := fun k => by
    have hreset := slotOf_slots_resetWith c k
    exact ⟨congrArg Slot.len hreset, fun i => congrArg (Slot.read · i) hreset⟩
  have hvoice : ∀ v, s.pbOf v = 0 ∧ s.tbOf v = 0 ∧ s.bendOf v = 0 ∧ s.pressureOf v = 0 ∧ ∀ d, s.cv v d = 0 := fun v =>
    ⟨pbOf_resetWith c v, tbOf_resetWith c v, bendOf_resetWith c v, pressureOf_resetWith c v, cv_resetWith c v⟩
  have hpending : ∀ h, s.pending.get h = true := fun h => by cases h <;> rfl
  exact ⟨rfl, rfl, ⟨rfl, rfl, rfl, rfl, rfl, rfl, rfl⟩, hmask,
    ⟨rfl, rfl, rfl, rfl, rfl, offset_resetWith c, fun _ => getD_replicate_self ..⟩,
    voice_resetWith c, env_resetWith c, lfo_resetWith c, osc_resetWith c, hslot, fun _ => rfl, rfl,
    amount_resetWith c, baseOf_resetWith c, rfl, hvoice, rfl, rfl, fun _ _ _ => rfl, hpending, rfl, rfl, rfl, rfl, rfl⟩

/-! ## The invariants at reset (R155, R156) -/

/-- The memory that lists nothing is canonical, and its indices are in every space. -/
theorem memory_nil_ok {w : Nat} (d : BitVec w) (n : Nat) :
    Memory.wf d ([] : Memory w) ∧ ∀ x ∈ ([] : Memory w), x.1 < n := by
  simp [Memory.wf]

section
variable {c : Config}

theorem sized_resetWith (hc : c.wf) : Sized (State.resetWith c) := by
  refine ⟨hc, ?_⟩
  simp [State.resetWith]

theorem memoryOk_resetWith (c : Config) : MemoryOk (State.resetWith c) := by
  refine ⟨memory_nil_ok 0 _, fun x hx => ?_, memory_nil_ok 0 _⟩
  rw [List.eq_of_mem_replicate hx]
  exact memory_nil_ok slotDefault _

/-- Every slot has a legal length at reset: the least one (R25). -/
theorem slotLengths_resetWith (hc : c.wf) :
    ∀ x ∈ (State.resetWith c).slots, 2 ≤ x.len.toNat ∧ x.len.toNat ≤ c.waveMax := by
  obtain ⟨-, ⟨hwave, -⟩, -⟩ := hc
  intro x hx
  rw [List.eq_of_mem_replicate hx]
  exact ⟨le_rfl, hwave⟩

/-- The mask of all n voices holds no other bit (R19). -/
theorem maskOk_ones (n : Nat) : maskOk n (BitVec.ofNat 6 (2 ^ n - 1)) := fun k hk => by
  rw [getLsbD_ones, decide_eq_false (Nat.not_lt.mpr hk), Bool.and_false]

theorem legal_resetWith (hc : c.wf) : Legal (State.resetWith c) := by
  have ⟨⟨hpos, hmax⟩, _⟩ := hc
  have hpitch : ∀ x ∈ List.replicate c.nVoices (0 : U16), x.toNat ≤ 32512 := fun x hx => by
    rw [List.eq_of_mem_replicate hx]
    decide
  exact ⟨Nat.zero_le _, maskOk_ones c.nVoices, fun _ _ => BitVec.getLsbD_zero, fun _ _ => BitVec.getLsbD_zero,
    ⟨le_rfl, hpos⟩, slotLengths_resetWith hc, Nat.mul_pos (by decide) hpos, hpitch, hpitch⟩

theorem oscOk_reset (hc : c.wf) : OscOk c 2 Osc.reset := by
  obtain ⟨-, -, -, -, -, -, -, hincr, -⟩ := hc
  refine ⟨by decide, by decide, by decide, by decide, fun h => ?_, fun h => ?_⟩
  · cases h <;> decide
  · cases h <;> exact ⟨le_rfl, hincr⟩

theorem oscsOk_resetWith (hc : c.wf) : OscsOk (State.resetWith c) := by
  refine ⟨slotLengths_resetWith hc, fun x hx => ?_⟩
  rw [List.eq_of_mem_replicate hx]
  exact oscOk_reset hc

theorem lfosOk_resetWith (c : Config) : LfosOk (State.resetWith c) := by
  intro l
  rw [lfo_resetWith]
  cases l <;> exact ⟨by decide, by decide, by decide⟩

theorem waitIffFree_resetWith (c : Config) : WaitIffFree (State.resetWith c) := by
  intro v _
  simp [Voice.reset, Env.reset]

theorem pitchTargetsOk_resetWith (c : Config) : PitchTargetsOk (State.resetWith c) := by
  intro v _
  simp [Voice.reset]

end

/-- Settles O24, one invariant at a time. -/
theorem resetMeetsTheInvariants : Obligations.ResetMeetsTheInvariants := fun c hc =>
  ⟨sized_resetWith hc, memoryOk_resetWith c, legal_resetWith hc, oscsOk_resetWith hc,
    envsOk_iff.mpr fun k => env_resetWith c k ▸ envOk_reset, lfosOk_resetWith c, waitIffFree_resetWith c,
    pitchTargetsOk_resetWith c⟩

end Sys2Proof.Machine
end

section
/-! PROOF. O26: the first strobe from reset (R156). The FIFO is empty, so the strobe is only its tail, and there every
envelope waits, the LFOs have level 0, and the CV sums have no amount and no base. A step of an oscillator reads samples
that are all 0x8000. -/

namespace Sys2Proof.Machine

/-- The first strobe drains an empty FIFO (R60, R130). -/
theorem strobe_resetWith (c : Config) : strobe (State.resetWith c) = .next (strobeTail (State.resetWith c)) := by
  rw [strobe_of_phase_zero rfl, drainCommands, drainWords_nil rfl, andThen_next]

theorem cvFrame_envs (s : State) : (cvFrame s).envs = s.envs := by rw [(cvFrame_frame s).1]

/-- After its tick phase a strobe updates every envelope (R130). -/
theorem strobeTail_env {s : State} (h : s.envs.length = 2 * s.cfg.nVoices) {e : Nat} (he : e < 2 * s.cfg.nVoices) :
    (strobeTail s).env e = envUpdate (s.env e) := by
  rw [State.env, strobeTail_eq_cvFrame, cvFrame_envs]
  exact beforeCvFrame_env h he

theorem sized_beforeCvFrame {s : State} (hs : Sized s) : Sized (beforeCvFrame s) := by
  have h0 : SizedFor s.cfg { s with tphase := s.tphase + 1 } := ⟨hs, rfl⟩
  have ⟨henvs, _⟩ : SizedFor s.cfg (updateEnvs { s with tphase := s.tphase + 1 }) :=
    forUpTo_keeps h0 fun e _ _ ht => ht.modEnv e _
  exact henvs

/-- The CVs after a strobe are the sums of the state its CV frame runs on (R130, R133). -/
theorem strobeTail_cv {s : State} (hs : Sized s) {v d : Nat} (hv : v < s.cfg.nVoices) (hd : d < 7) :
    (strobeTail s).cv v d = sat16 (cvSum (beforeCvFrame s) v d) := by
  have hcfg : (beforeCvFrame s).cfg = s.cfg := by rw [beforeCvFrame_frame]
  rw [strobeTail_eq_cvFrame, (cvsFramed_cvFrame (sized_beforeCvFrame hs)).cv v d hd, hcfg, if_pos hv]

/-- An LFO of level 0 has output 0 (R111). -/
theorem lfoUpdate_output_of_level_zero {x : Lfo} (h : x.level = 0) : (lfoUpdate x).output = 0 := by
  apply BitVec.eq_of_toInt_eq
  rw [toInt_output_lfoUpdate, h]
  simp

/-- Where no source has an amount a CV's sum is its base (R133). -/
theorem cvSum_of_amount_zero {s : State} {v d : Nat} (h : ∀ k, s.amount d k = 0) : cvSum s v d = cvBase s v d := by
  simp [cvSum, h]

/-- Saturating a u16 keeps it (R7). -/
theorem sat16_toNat (x : U16) : sat16 x.toNat = x := by
  have hx := x.isLt
  apply BitVec.eq_of_toNat_eq
  have h := toNat_sat16_of_mem (x := x.toNat) (by omega) (by omega)
  omega

/-- A reset slot reads 0x8000 everywhere (R25). -/
theorem read_slotReset (i : Nat) : Slot.reset.read i = 0x8000 := rfl

/-- An oscillator with no crossover whose samples are both 0x8000. -/
def AtMidscale (x : Osc) : Prop := x.xen = false ∧ x.prev = 0x8000 ∧ x.curr = 0x8000

/-- The loop of R122 reads only 0x8000 from slots that hold nothing else. -/
theorem oscReloads_atMidscale {slots : List Slot} (hslots : ∀ k, slotOf slots k = Slot.reset) (fuel : Nat) (n : Int)
    (w : Bool) {x : Osc} (hx : AtMidscale x) : AtMidscale (oscReloads slots fuel n w x).2.2 :=
  oscReloads_induct (P := fun _ _ y => AtMidscale y)
    (fun m v y _ ⟨hxen, _, hcurr⟩ => ⟨hxen, hcurr, by simp [oscReload, sampleAt, hxen, hslots, read_slotReset]⟩)
    fuel n w x hx

theorem oscStep_atMidscale {slots : List Slot} (hslots : ∀ k, slotOf slots k = Slot.reset) (c : Config) {x : Osc}
    (hx : AtMidscale x) : AtMidscale (oscStep c slots x).1 := by
  obtain ⟨-, hloop, -⟩ := oscStep_parts c slots x
  rw [hloop]
  exact oscReloads_atMidscale hslots _ _ _ hx

theorem oscOut_atMidscale {x : Osc} (hx : AtMidscale x) : oscOut x = 0x8000 := by
  obtain ⟨-, hprev, hcurr⟩ := hx
  simp [oscOut, hprev, hcurr]

/-- The first sample of every oscillator (R156). -/
theorem stepOsc_resetWith (c : Config) (o : Nat) : (stepOsc o (State.resetWith c)).2.1 = 0x8000 := by
  have hreset : AtMidscale ((State.resetWith c).osc o) := osc_resetWith c o ▸ ⟨rfl, rfl, rfl⟩
  exact oscOut_atMidscale (oscStep_atMidscale (slotOf_slots_resetWith c) c hreset)

/-- The CVs after the first strobe: without an amount each is its base, which at reset is the tuned pitch of 0 for the
pitch CVs and 0 for the others (R156). -/
theorem strobeTail_resetWith_cv {c : Config} (hc : c.wf) {v d : Nat} (hv : v < c.nVoices) (hd : d < 7) :
    (strobeTail (State.resetWith c)).cv v d = if d < 2 then Config.pitchMap v 0 else 0 := by
  have hsum : cvSum (beforeCvFrame (State.resetWith c)) v d = cvBase (State.resetWith c) v d := by
    rw [beforeCvFrame_frame]
    exact cvSum_of_amount_zero (amount_resetWith c d)
  have hbase : cvBase (State.resetWith c) v d = (if d < 2 then Config.pitchMap v 0 else 0 : U16).toNat := by
    unfold cvBase
    split <;> simp
  rw [strobeTail_cv (sized_resetWith hc) hv hd, hsum, hbase, sat16_toNat]

/-- Settles O26: the first strobe is `strobeTail` of the reset state; voices are kept, and Wait is (R97). -/
theorem firstStrobeAfterReset : Obligations.FirstStrobeAfterReset := by
  intro c hc
  refine ⟨⟨_, strobe_resetWith c, fun v _ => ?_, fun e he => ?_, fun l => ?_, fun v d hv hd =>
    strobeTail_resetWith_cv hc hv hd⟩, stepOsc_resetWith c⟩
  · rw [strobeTail_voice, voice_resetWith]; rfl
  · obtain ⟨-, -, henvs, -⟩ := sized_resetWith hc
    rw [strobeTail_env henvs he, env_resetWith]
    exact ⟨rfl, rfl⟩
  · rw [strobeTail_lfo, lfo_resetWith, lfoUpdate_output_of_level_zero rfl]

end Sys2Proof.Machine
end
